-- ==== Sys2Proof/Word.lean ====
section
/-! DEFINITION. The word types of the block: bytes, 16-bit samples and 32-bit registers (00 R7, 10 R21). -/

namespace Sys2Proof

/-- A byte, bit 7 the most significant (00_scope R7). -/
abbrev Byte := BitVec 8

/-- A 16-bit audio sample or header field (30_encoding R100, 44_avhuff R196). -/
abbrev Half := BitVec 16

/-- A 32-bit host register, command word or address (10_state R21, 20_memory R50). -/
abbrev Word := BitVec 32

end Sys2Proof
end

