-- ==== Sys2Proof/Config.lean ====
section
/-! DEFINITION. The implementation parameters of 00_scope R6, and the free values: what the spec leaves unspecified,
as constants with no body, so that no proof can see what they are. Four parameters of R6 are not constants here: the
memory sizes are data in `State` (log entry 5), `POS_W` is the type of `BitReader.pos` (log entry 2), and `ECC_GEN` is the
function `eccGen` (log entry 16). -/

namespace Sys2Proof.Config

/-- `NBITS_MAX`: the largest bit count of one peek or read (00_scope R6). -/
def nbitsMax : Nat := 32

/-- `MAXBITS_MAX`: the largest `maxbits` of a decoder context (00_scope R6). -/
def maxbitsMax : Nat := 32

/-- `MAXCODES`: the capacity of one length table (00_scope R6). -/
abbrev maxCodes : Nat := 272

/-- `NCTX`: the decoder contexts a host can select, numbers 0 to 5 (00_scope R6). -/
def nctx : Nat := 6

/-- `FLAT_W(maxbits)`: the width of one length field of the flat protocol (00_scope R6, 30_encoding R86). -/
def flatW (maxbits : Nat) : Nat := maxbits

/-- The orders `CANON_ORDER` can name (00_scope R6). `short_first` is the one to which the spec gives a meaning
(30_encoding R83). -/
inductive CanonOrder where
  | shortFirst
  deriving DecidableEq, Repr

/-- `CANON_ORDER`: which code lengths get the numerically lowest code words (00_scope R6, 30_encoding R83). -/
def canonOrder : CanonOrder := .shortFirst

/-- `META_NUMCODES` (00_scope R6, 30_encoding R87). -/
def metaNumcodes : Nat := 11

/-- `META_MAXBITS` (00_scope R6, 30_encoding R87). -/
def metaMaxbits : Nat := 4

/-- `AVH_AUDIO_NUMCODES` (00_scope R6, 30_encoding R104). -/
def audioNumcodes : Nat := 256

/-- `AVH_AUDIO_MAXBITS` (00_scope R6, 30_encoding R104). -/
def audioMaxbits : Nat := 8

/-- `AVH_VIDEO_NUMCODES` (00_scope R6, 30_encoding R106). -/
def videoNumcodes : Nat := 272

/-- `AVH_VIDEO_MAXBITS` (00_scope R6, 30_encoding R106). -/
def videoMaxbits : Nat := 8

/-- `VIDEO_PREAMBLE_BITS` (00_scope R6, 30_encoding R106). -/
def videoPreambleBits : Nat := 0

/-- The size every memory space has at `State.reset`: all that a 32-bit byte address reaches (20_memory R50).
DESIGN CHOICE (unsafe only for claims about the reset state): the sizes are open parameters (93 U10), log entry 5. -/
def resetSpaceSize : Nat := 2 ^ 32

/-- What a memory byte that no entry lists reads as. DESIGN CHOICE (unsafe): the spec gives no contents for any memory
at power-on (10_state R37, 93 U15, U16), log entry 4. -/
def unlistedByte : Byte := 0

/-- Free value: `R[i]` after a failed command (60_exceptions R216, 93 U8) and `R[0]` of a BR_FLUSH whose offset does not
fit (93 U6). Arguments: the event counter and the register number. Log entries 10 and 14. -/
opaque freeResult : Nat → Nat → Word

/-- Free value: a `DST` byte a failed command may have written (60_exceptions R216, 93 U1) or any `DST` byte after
power-on (93 U15). Arguments: the event counter and the address. Log entries 11 and 17. -/
opaque freeDst : Nat → Nat → Byte

/-- Free value: `HD[c].LEN[s]` after HUF_CONFIG or reset (41_huffman R130, 70 R240, 93 U2). Arguments: the event
counter, the context and the symbol. Log entry 12. -/
opaque freeLen : Nat → Nat → Nat → BitVec 6

/-- Free value: `HD[c].CODE[s]` after HUF_CONFIG or reset (41_huffman R130, 70 R240, 93 U2). Arguments: the event
counter, the context and the symbol. Log entry 12. -/
opaque freeCode : Nat → Nat → Nat → Word

/-- Free value: `BR.BASE` when a command attaches the reader at a byte address that does not fit 32 bits. DESIGN CHOICE
(safe): the spec states no value there. Argument: the address. Log entry 24. -/
opaque freeBase : Nat → Word

/-- The collaborator `FLAC_DEC` (44_avhuff R199): from the bytes of one channel and the sample count to the samples (by
index) or failure. An open parameter (93 U11), so it has no body. Whether it is attached is the field `flac` of State.
Log entry 6. -/
opaque flacDec : List Byte → Nat → Option (Nat → Half)

end Sys2Proof.Config
end

