-- ==== Sys2Proof/Syntax.lean ====
section
/-! DEFINITION. The commands: one constructor per row of spec/opcode_table.json (30_encoding R71, R72). -/

namespace Sys2Proof

/-- A command. `c` is the `ctx` field, `n` the `imm` field of the command word (30_encoding R70); all other operands are
in `A[0..3]`. -/
inductive Instr where
  | blkReset
  | brInit
  | brPeek (n : BitVec 6)
  | brRead (n : BitVec 6)
  | brFlush
  | brOvf
  | hufConfig (c : BitVec 4)
  | hufImportFlat (c : BitVec 4)
  | hufImportRle (c : BitVec 4)
  | hufDecode (c : BitVec 4)
  | rleDecode (c : BitVec 4)
  | rleFlush (c : BitVec 4)
  | rleReset (c : BitVec 4)
  | cdHdr
  | cdAssemble
  | cdSync
  | cdEcc
  | avhDecode
  | avhAudioTrees
  | avhAudioChRaw
  | avhAudioChHuf
  | avhVideo
  deriving DecidableEq, Repr

end Sys2Proof
end

