-- ==== Sys2Proof/WellFormed.lean ====
section
/-! DEFINITION. Which commands are legal (the constraints of spec/opcode_table.json; 30_encoding R74). -/

namespace Sys2Proof

/-- The `ctx` field selects a context of the host: 0 to 5 (30_encoding R74, 10_state R31). -/
def legalContext (c : BitVec 4) : Bool := decide (c.toNat < Config.nctx)

/-- The `imm` field is a bit count: 0 to 32 (30_encoding R74). -/
def legalBitCount (n : BitVec 6) : Bool := decide (n.toNat ≤ Config.nbitsMax)

/-- The command meets the constraints of its row of the opcode table (30_encoding R74). -/
def Instr.wellFormed : Instr → Bool
  | .blkReset => true
  | .brInit => true
  | .brPeek n => legalBitCount n
  | .brRead n => legalBitCount n
  | .brFlush => true
  | .brOvf => true
  | .hufConfig c => legalContext c
  | .hufImportFlat c => legalContext c
  | .hufImportRle c => legalContext c
  | .hufDecode c => legalContext c
  | .rleDecode c => legalContext c
  | .rleFlush c => legalContext c
  | .rleReset c => legalContext c
  | .cdHdr => true
  | .cdAssemble => true
  | .cdSync => true
  | .cdEcc => true
  | .avhDecode => true
  | .avhAudioTrees => true
  | .avhAudioChRaw => true
  | .avhAudioChHuf => true
  | .avhVideo => true

end Sys2Proof
end

