-- ==== Sys2Proof/Decode.lean ====
section
/-! DEFINITION. The command word (30_encoding R70, R71, R74): decoder, then encoder, then the assembler's text (R75). -/

namespace Sys2Proof

/-- Why a command word is illegal, one name per clause of 30_encoding R74, in the order of its list. Every one of them is
the one error kind `IllegalCommand`. -/
inductive DecodeError where
  /-- `op` is not in 30_encoding R71. -/
  | unassignedOp
  /-- `rsv` is not 0. -/
  | reservedNotZero
  /-- `ctx` is not 0 in a command that takes no context. -/
  | contextNotZero
  /-- `ctx` is 6 or more in a command that takes one. -/
  | contextOutOfRange
  /-- `imm` is not 0 in a command that takes no immediate. -/
  | immediateNotZero
  /-- `imm` is above 32 in `BR_PEEK` or `BR_READ`, or above 1 in `AVH_AUDIO_CH`. -/
  | immediateOutOfRange
  deriving DecidableEq, Repr

/-- Field `op`, bits 31:24 (30_encoding R70). -/
def opField (w : Word) : BitVec 8 := w.extractLsb' 24 8

/-- Field `ctx`, bits 23:20 (30_encoding R70). -/
def ctxField (w : Word) : BitVec 4 := w.extractLsb' 20 4

/-- Field `rsv`, bits 19:6 (30_encoding R70). -/
def rsvField (w : Word) : BitVec 14 := w.extractLsb' 6 14

/-- Field `imm`, bits 5:0 (30_encoding R70). -/
def immField (w : Word) : BitVec 6 := w.extractLsb' 0 6

/-- A command with neither context nor immediate: `rsv`, `ctx` and `imm` must be 0 (30_encoding R74). -/
def decodePlain (w : Word) (i : Instr) : Except DecodeError Instr :=
  if rsvField w ≠ 0 then .error .reservedNotZero
  else if ctxField w ≠ 0 then .error .contextNotZero
  else if immField w ≠ 0 then .error .immediateNotZero
  else .ok i

/-- A command with a context: `rsv` and `imm` must be 0 and `ctx` at most 5 (30_encoding R74). -/
def decodeContext (w : Word) (mk : BitVec 4 → Instr) : Except DecodeError Instr :=
  if rsvField w ≠ 0 then .error .reservedNotZero
  else if legalContext (ctxField w) = false then .error .contextOutOfRange
  else if immField w ≠ 0 then .error .immediateNotZero
  else .ok (mk (ctxField w))

/-- A command with a bit count: `rsv` and `ctx` must be 0 and `imm` at most 32 (30_encoding R74). -/
def decodeBitCount (w : Word) (mk : BitVec 6 → Instr) : Except DecodeError Instr :=
  if rsvField w ≠ 0 then .error .reservedNotZero
  else if ctxField w ≠ 0 then .error .contextNotZero
  else if legalBitCount (immField w) = false then .error .immediateOutOfRange
  else .ok (mk (immField w))

/-- `AVH_AUDIO_CH`: `imm` 0 is the raw form, 1 the Huffman form, the rest illegal (30_encoding R71, R74). -/
def decodeAudioChannel (w : Word) : Except DecodeError Instr :=
  if rsvField w ≠ 0 then .error .reservedNotZero
  else if ctxField w ≠ 0 then .error .contextNotZero
  else if immField w = 0 then .ok .avhAudioChRaw
  else if immField w = 1 then .ok .avhAudioChHuf
  else .error .immediateOutOfRange

/-- The decoder: the command of a word written to `CW`, or the name of what is wrong with it (30_encoding R71, R74). -/
def decode (w : Word) : Except DecodeError Instr :=
  match (opField w).toNat with
  | 0x00 => decodePlain w .blkReset
  | 0x10 => decodePlain w .brInit
  | 0x11 => decodeBitCount w .brPeek
  | 0x12 => decodeBitCount w .brRead
  | 0x13 => decodePlain w .brFlush
  | 0x14 => decodePlain w .brOvf
  | 0x20 => decodeContext w .hufConfig
  | 0x21 => decodeContext w .hufImportFlat
  | 0x22 => decodeContext w .hufImportRle
  | 0x23 => decodeContext w .hufDecode
  | 0x30 => decodeContext w .rleDecode
  | 0x31 => decodeContext w .rleFlush
  | 0x32 => decodeContext w .rleReset
  | 0x40 => decodePlain w .cdHdr
  | 0x41 => decodePlain w .cdAssemble
  | 0x42 => decodePlain w .cdSync
  | 0x43 => decodePlain w .cdEcc
  | 0x50 => decodePlain w .avhDecode
  | 0x51 => decodePlain w .avhAudioTrees
  | 0x52 => decodeAudioChannel w
  | 0x53 => decodePlain w .avhVideo
  | _ => .error .unassignedOp

/-- The instruction the decoder reads from a row of spec/opcode_table.json with bits `w` (bit 0 the least significant bit
of the one 32-bit word); `none` where the decoder rejects. -/
def decodeTableWord (nbits w : Nat) : Option Instr :=
  match decode (BitVec.ofNat 32 (w % 2 ^ nbits)) with
  | .ok i => some i
  | .error _ => none

/-- The operation code of a command (30_encoding R71). -/
def Instr.op : Instr → BitVec 8
  | .blkReset => 0x00#8
  | .brInit => 0x10#8
  | .brPeek _ => 0x11#8
  | .brRead _ => 0x12#8
  | .brFlush => 0x13#8
  | .brOvf => 0x14#8
  | .hufConfig _ => 0x20#8
  | .hufImportFlat _ => 0x21#8
  | .hufImportRle _ => 0x22#8
  | .hufDecode _ => 0x23#8
  | .rleDecode _ => 0x30#8
  | .rleFlush _ => 0x31#8
  | .rleReset _ => 0x32#8
  | .cdHdr => 0x40#8
  | .cdAssemble => 0x41#8
  | .cdSync => 0x42#8
  | .cdEcc => 0x43#8
  | .avhDecode => 0x50#8
  | .avhAudioTrees => 0x51#8
  | .avhAudioChRaw => 0x52#8
  | .avhAudioChHuf => 0x52#8
  | .avhVideo => 0x53#8

/-- The `ctx` field of a command, 0 where it takes none (30_encoding R72). -/
def Instr.ctx : Instr → BitVec 4
  | .hufConfig c => c
  | .hufImportFlat c => c
  | .hufImportRle c => c
  | .hufDecode c => c
  | .rleDecode c => c
  | .rleFlush c => c
  | .rleReset c => c
  | .blkReset => 0
  | .brInit => 0
  | .brPeek _ => 0
  | .brRead _ => 0
  | .brFlush => 0
  | .brOvf => 0
  | .cdHdr => 0
  | .cdAssemble => 0
  | .cdSync => 0
  | .cdEcc => 0
  | .avhDecode => 0
  | .avhAudioTrees => 0
  | .avhAudioChRaw => 0
  | .avhAudioChHuf => 0
  | .avhVideo => 0

/-- The `imm` field of a command, 0 where it takes none (30_encoding R72). -/
def Instr.imm : Instr → BitVec 6
  | .brPeek n => n
  | .brRead n => n
  | .avhAudioChHuf => 1
  | .blkReset => 0
  | .brInit => 0
  | .brFlush => 0
  | .brOvf => 0
  | .hufConfig _ => 0
  | .hufImportFlat _ => 0
  | .hufImportRle _ => 0
  | .hufDecode _ => 0
  | .rleDecode _ => 0
  | .rleFlush _ => 0
  | .rleReset _ => 0
  | .cdHdr => 0
  | .cdAssemble => 0
  | .cdSync => 0
  | .cdEcc => 0
  | .avhDecode => 0
  | .avhAudioTrees => 0
  | .avhAudioChRaw => 0
  | .avhVideo => 0

/-- The encoder: the command word of a command, `rsv` 0 (30_encoding R70, R71, R72). -/
def encode (i : Instr) : Word := i.op ++ i.ctx ++ 0#14 ++ i.imm

/-- The mnemonic of a command, as spec/opcode_table.json has it. -/
def Instr.mnemonic : Instr → String
  | .blkReset => "BLK_RESET"
  | .brInit => "BR_INIT"
  | .brPeek _ => "BR_PEEK"
  | .brRead _ => "BR_READ"
  | .brFlush => "BR_FLUSH"
  | .brOvf => "BR_OVF"
  | .hufConfig _ => "HUF_CONFIG"
  | .hufImportFlat _ => "HUF_IMPORT_FLAT"
  | .hufImportRle _ => "HUF_IMPORT_RLE"
  | .hufDecode _ => "HUF_DECODE"
  | .rleDecode _ => "RLE_DECODE"
  | .rleFlush _ => "RLE_FLUSH"
  | .rleReset _ => "RLE_RESET"
  | .cdHdr => "CD_HDR"
  | .cdAssemble => "CD_ASSEMBLE"
  | .cdSync => "CD_SYNC"
  | .cdEcc => "CD_ECC"
  | .avhDecode => "AVH_DECODE"
  | .avhAudioTrees => "AVH_AUDIO_TREES"
  | .avhAudioChRaw => "AVH_AUDIO_CH.RAW"
  | .avhAudioChHuf => "AVH_AUDIO_CH.HUF"
  | .avhVideo => "AVH_VIDEO"

/-- The operand part of the assembler's text (30_encoding R75): `c<k>` for a context, `#<n>` for a bit count. -/
def Instr.operandText : Instr → String
  | .brPeek n => " #" ++ toString n.toNat
  | .brRead n => " #" ++ toString n.toNat
  | .hufConfig c => " c" ++ toString c.toNat
  | .hufImportFlat c => " c" ++ toString c.toNat
  | .hufImportRle c => " c" ++ toString c.toNat
  | .hufDecode c => " c" ++ toString c.toNat
  | .rleDecode c => " c" ++ toString c.toNat
  | .rleFlush c => " c" ++ toString c.toNat
  | .rleReset c => " c" ++ toString c.toNat
  | .blkReset => ""
  | .brInit => ""
  | .brFlush => ""
  | .brOvf => ""
  | .cdHdr => ""
  | .cdAssemble => ""
  | .cdSync => ""
  | .cdEcc => ""
  | .avhDecode => ""
  | .avhAudioTrees => ""
  | .avhAudioChRaw => ""
  | .avhAudioChHuf => ""
  | .avhVideo => ""

/-- The assembler's text of a command (30_encoding R75). -/
def Instr.assembly (i : Instr) : String := i.mnemonic ++ i.operandText

end Sys2Proof
end

