-- ==== Sys2Proof/Machine/State.lean ====
section
/-! DEFINITION. The state of the block as plain data (10_state R20 to R37, 20_memory R50), the ways a step can stop, and
the state after power-on. -/

namespace Sys2Proof.Machine

/-- One memory space: its size in bytes (an open parameter, 00_scope R6) and the bytes that differ from
`Config.unlistedByte`, by rising address (20_memory R50). -/
structure Memory where
  size : Nat
  cells : List Host.Cell
  deriving DecidableEq, Repr

/-- The bit reader (10_state R25). `pos` is an unbounded natural, as 00_scope R6 allows for `POS_W`. -/
structure BitReader where
  base : Word
  len : Word
  pos : Nat
  ovf : Bool
  deriving DecidableEq, Repr

/-- One decoder context `HD[c]` (10_state R30). -/
structure Context where
  numcodes : BitVec 9
  maxbits : BitVec 6
  valid : Bool
  len : Vector (BitVec 6) Config.maxCodes
  code : Vector Word Config.maxCodes
  prev : Byte
  run : BitVec 12
  deriving DecidableEq, Repr

/-- The bit reader and the seven decoder contexts (10_state R20, R25, R30): what the decoding procedures work on. -/
structure Decoder where
  br : BitReader
  hd : Vector Context 7
  deriving DecidableEq, Repr

/-- The four memory spaces (20_memory R50). -/
inductive Space where
  | src
  | dst
  | sec
  | sub
  deriving DecidableEq, Repr

/-- What the host can do between two commands (10_state R21, R23; 20_memory R60, R61; 70 R241). -/
inductive HostAction where
  /-- Write operand register `A[i]` (the `SETA` of 30_encoding R76). -/
  | writeA (i : Fin 4) (v : Word)
  /-- Write `CW`: issues one command (10_state R21). -/
  | writeCW (w : Word)
  /-- Write one byte of a memory space (the host or a collaborator codec, 20_memory R60). -/
  | writeByte (space : Space) (addr : Word) (b : Byte)
  /-- Power the block on again (70 R241). -/
  | powerOn
  deriving DecidableEq, Repr

/-- The error kinds the block raises (60_exceptions R211; code 3 is never produced, 93 U9, so it has no constructor). -/
inductive ErrorKind where
  | readError
  | invalidData
  | unsupportedFormat
  | outOfMemory
  | illegalCommand
  deriving DecidableEq, Repr

/-- The whole machine (10_state R20). -/
structure State where
  /-- `CW`, the command word last written (10_state R21). -/
  cw : Word
  /-- `A[0..3]`, the operands (10_state R21). -/
  a : Vector Word 4
  /-- `R[0..3]`, the results (10_state R21). -/
  r : Vector Word 4
  /-- `ST`, the status (10_state R22). -/
  st : Word
  /-- `BR.*` and `HD[0..6]` (10_state R25, R30). -/
  dec : Decoder
  /-- The compressed payload (20_memory R50). -/
  src : Memory
  /-- The output hunk buffer (20_memory R50). -/
  dst : Memory
  /-- The decompressed sector sub-stream (20_memory R50). -/
  sec : Memory
  /-- The decompressed subcode sub-stream (20_memory R50). -/
  sub : Memory
  /-- The model's own: whether the collaborator `FLAC_DEC` is attached (00_scope R6); no step changes it. -/
  flac : Bool
  /-- The model's own: what the host will do, first action first. -/
  host : List HostAction
  /-- The model's own: how many free-value events there have been; the free values of the next event are the constants
  of Config at this number. -/
  free : Nat
  deriving DecidableEq, Repr

/-- The reasons the machine stops. -/
inductive Fault where
  /-- The host writes a memory byte at an address the space does not have (`poll`). Safe: the spec gives no such byte
  (20_memory R50), and the block itself never makes the access (it raises `ReadError`, R55). Log entry 9. -/
  | hostOutsideMemory
  deriving DecidableEq, Repr

/-- The reasons an instruction has no meaning. -/
inductive Refusal where
  /-- Raised by `exec` for an instruction this model has not reached; safe. No arm of this model raises it. -/
  | notModelled (mnemonic : String)
  deriving DecidableEq, Repr

/-- A memory of a given size with nothing listed. -/
def Memory.blank (size : Nat) : Memory := { size := size, cells := [] }

/-- The bit reader after reset (10_state R37). -/
def BitReader.reset : BitReader := { base := 0, len := 0, pos := 0, ovf := false }

/-- A decoder context after power-on (10_state R37). `LEN` and `CODE` are unspecified there: 0 is a DESIGN CHOICE
(unsafe; unreadable while `VALID` is 0), log entry 3. -/
def Context.reset : Context :=
  { numcodes := 0, maxbits := 0, valid := false, len := Vector.replicate Config.maxCodes 0,
    code := Vector.replicate Config.maxCodes 0, prev := 0, run := 0 }

/-- The decoder after power-on (10_state R37). -/
def Decoder.reset : Decoder := { br := BitReader.reset, hd := Vector.replicate 7 Context.reset }

/-- The machine right after power-on (10_state R37, 70 R241). `CW` 0, the memory sizes, an absent FLAC collaborator and no
host action to come are DESIGN CHOICES: log entries 1, 5, 6, 7, 8. -/
def State.reset : State :=
  { cw := 0
    a := Vector.replicate 4 0
    r := Vector.replicate 4 0
    st := 0
    dec := Decoder.reset
    src := Memory.blank Config.resetSpaceSize
    dst := Memory.blank Config.resetSpaceSize
    sec := Memory.blank Config.resetSpaceSize
    sub := Memory.blank Config.resetSpaceSize
    flac := false
    host := []
    free := 0 }

end Sys2Proof.Machine
end

