-- ==== Sys2Proof/Machine/Ops.lean ====
section
/-! DEFINITION. The named operations over memory, registers and contexts (00_scope R8), the result of a procedure,
error entry (60_exceptions R216), the refusal by the latch (R217) and reset, the only way out (R218, 70 R240). -/

namespace Sys2Proof.Machine

/-! ## Memory (20_memory R50 to R56) -/

/-- The byte the list gives an address, `Config.unlistedByte` where it lists none. -/
def cellsGet : List Host.Cell → Nat → Byte
  | [], _ => Config.unlistedByte
  | (k, v) :: rest, a => if k = a then v else cellsGet rest a

/-- Put a byte at its place in the rising order. -/
def cellsInsert : List Host.Cell → Nat → Byte → List Host.Cell
  | [], a, b => [(a, b)]
  | (k, v) :: rest, a, b =>
    if a < k then (a, b) :: (k, v) :: rest
    else if a = k then (a, b) :: rest
    else (k, v) :: cellsInsert rest a b

/-- Drop the entry of an address. -/
def cellsErase : List Host.Cell → Nat → List Host.Cell
  | [], _ => []
  | (k, v) :: rest, a => if k = a then cellsErase rest a else (k, v) :: cellsErase rest a

/-- Write one byte, keeping the canonical form: a byte equal to what an unlisted address reads as is not listed. -/
def cellsPut (cells : List Host.Cell) (a : Nat) (b : Byte) : List Host.Cell :=
  if b = Config.unlistedByte then cellsErase cells a else cellsInsert cells a b

/-- Addresses from `lo` on, strictly rising and below `size`, and no entry equal to what an unlisted address reads as. -/
def cellsCanonical (size : Nat) : Nat → List Host.Cell → Bool
  | _, [] => true
  | lo, (k, v) :: rest =>
    decide (lo ≤ k) && decide (k < size) && decide (v ≠ Config.unlistedByte) && cellsCanonical size (k + 1) rest

/-- The canonical form of a memory. -/
def Memory.wf (m : Memory) : Bool := cellsCanonical m.size 0 m.cells

/-- `MemRead(S, a, 1)` inside the space. Every command tests its bounds first (20_memory R55). -/
def Memory.byte (m : Memory) (a : Nat) : Byte := cellsGet m.cells a

/-- `MemWrite(S, a, 1, b)`; an address outside the space holds no byte, so nothing is written there. -/
def Memory.setByte (m : Memory) (a : Nat) (b : Byte) : Memory :=
  if a < m.size then { m with cells := cellsPut m.cells a b } else m

/-- The bound test of `MemRead` and `MemWrite`: the `n` bytes from `a` are in the space (20_memory R55). -/
def Memory.inBounds (m : Memory) (a n : Nat) : Bool := decide (a + n ≤ m.size)

/-- `MemRead(S, a, n)`: the `n` bytes from `a` as a big-endian number (00_scope R8, 20_memory R52). -/
def Memory.readBE (m : Memory) (a : Nat) : Nat → Nat
  | 0 => 0
  | n + 1 => 256 * m.readBE a n + (m.byte (a + n)).toNat

/-- The `n` bytes from `a`, in order. -/
def Memory.readBytes (m : Memory) (a n : Nat) : List Byte := (List.range n).map fun i => m.byte (a + i)

/-- Write bytes one after another from `a`. -/
def Memory.writeBytes : Memory → Nat → List Byte → Memory
  | m, _, [] => m
  | m, a, b :: rest => Memory.writeBytes (m.setByte a b) (a + 1) rest

/-- The `n` big-endian bytes of `v` (20_memory R52). -/
def beBytes (n v : Nat) : List Byte := (List.range n).map fun i => BitVec.ofNat 8 (v >>> (8 * (n - 1 - i)))

/-- `MemWrite(S, a, n, v)` (00_scope R8). -/
def Memory.writeBE (m : Memory) (a n v : Nat) : Memory := m.writeBytes a (beBytes n v)

/-- The `n` bytes from `lo`, as far as the space goes, become the free bytes of event `k` (60_exceptions R216: DST after
a failed command; 70 R241: DST after power-on). -/
def Memory.unspecify (m : Memory) (lo n k : Nat) : Memory :=
  m.writeBytes lo ((List.range (min n (m.size - lo))).map fun i => Config.freeDst k (lo + i))

/-! ## Decoder contexts (10_state R30) -/

/-- `HD[c]`. -/
def Decoder.ctx (d : Decoder) (c : Fin 7) : Context := d.hd[c.val]'c.isLt

/-- Write `HD[c]`. -/
def Decoder.setCtx (d : Decoder) (c : Fin 7) (x : Context) : Decoder := { d with hd := d.hd.set c.val x c.isLt }

/-- `HD[c].LEN[s]`. -/
def Context.lenAt (x : Context) (s : Nat) : Nat := (x.len.toList.getD s 0).toNat

/-- `HD[c].CODE[s]`. -/
def Context.codeAt (x : Context) (s : Nat) : Nat := (x.code.toList.getD s 0).toNat

/-- `HD[c].LEN[0 .. NUMCODES-1]`, the entries that have meaning (10_state R30). -/
def Context.lens (x : Context) : List Nat := (x.len.toList.take x.numcodes.toNat).map BitVec.toNat

/-- The list with its `n` entries from `s` on replaced by `v`. -/
def fillList {α : Type} : List α → Nat → Nat → α → List α
  | [], _, _, _ => []
  | y :: ys, s + 1, n, v => y :: fillList ys s n v
  | _ :: ys, 0, n + 1, v => v :: fillList ys 0 n v
  | y :: ys, 0, 0, _ => y :: ys

theorem length_fillList {α : Type} (l : List α) (s n : Nat) (v : α) : (fillList l s n v).length = l.length := by
  induction l generalizing s n with
  | nil => simp [fillList]
  | cons y ys ih => cases s <;> cases n <;> simp [fillList, ih]

/-- `for i in 0 .. n-1: HD[c].LEN[s + i] <- v`. -/
def Context.setLens (x : Context) (s n v : Nat) : Context :=
  { x with len := ⟨(fillList x.len.toList s n (BitVec.ofNat 6 v)).toArray, by simp [length_fillList]⟩ }

/-- A table given by its entries. -/
def tableOf {α : Type} (f : Nat → α) : Vector α Config.maxCodes :=
  ⟨((List.range Config.maxCodes).map f).toArray, by simp⟩

/-- `LEN[*]` and `CODE[*]` of context `c` become unspecified: the free values of event `k` (41_huffman R130, 70 R240). -/
def Context.unspecifyTable (x : Context) (k c : Nat) : Context :=
  { x with len := tableOf (Config.freeLen k c), code := tableOf (Config.freeCode k c) }

/-! ## Results of procedures (00_scope R8) -/

/-- The result of a procedure over a state `σ`: it returns a value, or raises an error kind; either way with the state
it leaves ("keep whatever the pseudocode had written before the raise", 60_exceptions R216). -/
inductive Res (σ α : Type) where
  | ok (a : α) (t : σ)
  | raised (k : ErrorKind) (t : σ)
  deriving Repr

/-- Go on with the value and the state of a procedure that returned; a procedure that raises makes its caller raise
(00_scope R8). -/
def Res.andThen {σ α β : Type} (r : Res σ α) (f : α → σ → Res σ β) : Res σ β :=
  match r with
  | .ok a t => f a t
  | .raised k t => .raised k t

/-! ## Status, error entry, latch (60_exceptions R211, R216, R217) -/

/-- The code of an error kind in `ST.ERR` (60_exceptions R211). -/
def ErrorKind.code : ErrorKind → BitVec 3
  | .readError => 1
  | .invalidData => 2
  | .unsupportedFormat => 4
  | .outOfMemory => 5
  | .illegalCommand => 6

/-- The status word of a failed command: `ERR` in bits 2:0, `ERROP` in bits 15:8, the reserved bits 0 (10_state R22). -/
def stWord (k : ErrorKind) (op : BitVec 8) : Word := 0#16 ++ op ++ 0#5 ++ k.code

/-- `ST.ERR` (10_state R22). -/
def State.err (s : State) : BitVec 3 := s.st.extractLsb' 0 3

/-- `ST.ERROP` (10_state R22). -/
def State.errop (s : State) : BitVec 8 := s.st.extractLsb' 8 8

/-- `ST.ERR != 0`: the error latch (10_state R27). -/
def State.latched (s : State) : Bool := decide (s.err ≠ 0)

/-- `R[i] <- v`. -/
def State.setR (s : State) (i : Fin 4) (v : Word) : State := { s with r := s.r.set i.val v i.isLt }

/-- `R[0..3] <- v0, v1, v2, v3`. -/
def State.setResults (s : State) (v0 v1 v2 v3 : Word) : State := { s with r := #v[v0, v1, v2, v3] }

/-- `A[i] <- v`, the host's write (10_state R21, R23). -/
def State.setA (s : State) (i : Fin 4) (v : Word) : State := { s with a := s.a.set i.val v i.isLt }

/-- The status of a command that failed before it read any operand: an illegal word "raises IllegalCommand and changes
nothing else" (30_encoding R74). -/
def illegalWord (op : BitVec 8) (s : State) : State := { s with st := stWord .illegalCommand op }

/-- Error entry (60_exceptions R216), the block's one exception: `ST` written, `R[0..3]` unspecified, the `n` bytes of
`DST` from `lo` that the command may write unspecified, `A`, `BR`, `HD` and all other bytes kept. The free values are
those of event `s.free`. -/
def errorEntry (k : ErrorKind) (op : BitVec 8) (lo n : Nat) (s : State) : State :=
  { s with
    st := stWord k op
    r := #v[Config.freeResult s.free 0, Config.freeResult s.free 1, Config.freeResult s.free 2,
            Config.freeResult s.free 3]
    dst := s.dst.unspecify lo n s.free
    free := s.free + 1 }

/-- Error entry of a command that may write no byte of `DST`. -/
def raise (k : ErrorKind) (op : BitVec 8) (s : State) : State := errorEntry k op 0 0 s

/-- Every command but BLK_RESET: no effect at all while the latch is set, its own effect otherwise
(60_exceptions R217). -/
def command (s : State) (effect : State → State) : Host.Outcome State Fault Refusal :=
  .next (if s.latched then s else effect s)

/-- Run a decoding procedure on `BR` and `HD`, then what the command does with its value; a raise is error entry. -/
def runDecoder {α : Type} (op : BitVec 8) (s : State) (p : Decoder → Res Decoder α) (done : α → State → State) :
    State :=
  match p s.dec with
  | .ok v d => done v { s with dec := d }
  | .raised k d => raise k op { s with dec := d }

/-! ## Reset (70 R240, R241), the return from the error state (60_exceptions R218) -/

/-- A decoder context after reset number `k`: every control element 0, the table unspecified (70 R240). -/
def Context.cleared (k c : Nat) : Context := Context.reset.unspecifyTable k c

/-- The seven contexts after reset number `k` (70 R240). -/
def clearedContexts (k : Nat) : Vector Context 7 := ⟨((List.range 7).map (Context.cleared k)).toArray, by simp⟩

/-- The state BLK_RESET leaves: every register and control element 0, `LEN` and `CODE` unspecified, the four memories
(and `CW`, which R240 does not name) kept. -/
def blockReset (s : State) : State :=
  { s with
    a := Vector.replicate 4 0
    r := Vector.replicate 4 0
    st := 0
    dec := { br := BitReader.reset, hd := clearedContexts s.free }
    free := s.free + 1 }

/-- Power-on: as BLK_RESET, and `DST` unspecified as a whole (70 R241). `CW` 0 is log entry 1. -/
def powerOn (s : State) : State :=
  { blockReset s with cw := 0, dst := s.dst.unspecify 0 s.dst.size s.free }

end Sys2Proof.Machine
end

