-- ==== Sys2Proof/Machine/Flags.lean ====
section
/-! DEFINITION. The flags of 10_state R27 and the tests that read them: `BR.OVF`, `HD[c].VALID`, `HD[c].RUN`. (`ST.ERR` is
in Ops, with error entry.) -/

namespace Sys2Proof.Machine

/-- `BR.OVF` after a read that leaves the position at `pos` in a buffer of `len` bytes: set when the position is past the
last bit, and sticky (40_bitreader R123, R128). -/
def ovfAfterRead (ovf : Bool) (pos len : Nat) : Bool := ovf || decide (8 * len < pos)

/-- The value of a flag as a register reads it (40_bitreader R128). -/
def flagWord (b : Bool) : Word := if b then 1 else 0

/-- `HD[c].VALID <- b` (10_state R27). -/
def Decoder.setValid (d : Decoder) (c : Fin 7) (b : Bool) : Decoder := d.setCtx c { d.ctx c with valid := b }

/-- `HD[c].RUN <- 0` (10_state R27). -/
def Decoder.clearRun (d : Decoder) (c : Fin 7) : Decoder := d.setCtx c { d.ctx c with run := 0 }

/-- The deferred check of a composite command: an overflow, or a stream that ends at another byte than declared
(44_avhuff R190, R200). -/
def BitReader.streamBad (b : BitReader) (off declared : Nat) : Bool := b.ovf || decide (off ≠ declared)

end Sys2Proof.Machine
end

