-- ==== Sys2Proof/Machine/Operands.lean ====
section
/-! DEFINITION. The operand forms of a command (30_encoding R70, R72): a register `A[i]`, a context number, a bit count,
and the packed width and height of AVH_VIDEO. -/

namespace Sys2Proof.Machine

/-- `A[i]` as a natural (00_scope R9). -/
def State.opA (s : State) (i : Fin 4) : Nat := (s.a[i.val]'i.isLt).toNat

/-- The context a `ctx` field selects; `none` for 6 to 15 (30_encoding R74, 10_state R31). -/
def contextNumber (c : BitVec 4) : Option (Fin 7) :=
  if h : c.toNat < Config.nctx then some ⟨c.toNat, Nat.lt_trans h (by decide)⟩ else none

/-- A command with a context: an illegal number makes the word illegal, before any operand is read (30_encoding R74). -/
def withContext (op : BitVec 8) (c : BitVec 4) (s : State) (effect : Fin 7 → State) : State :=
  match contextNumber c with
  | none => illegalWord op s
  | some k => effect k

/-- A command with a bit count: a count above 32 makes the word illegal (30_encoding R74). -/
def withBitCount (op : BitVec 8) (n : BitVec 6) (s : State) (effect : Nat → State) : State :=
  if legalBitCount n then effect n.toNat else illegalWord op s

/-- `A[3][31:16]`, the width of AVH_VIDEO (30_encoding R72). -/
def State.videoWidth (s : State) : Nat := s.opA 3 / 65536

/-- `A[3][15:0]`, the height of AVH_VIDEO (30_encoding R72). -/
def State.videoHeight (s : State) : Nat := s.opA 3 % 65536

end Sys2Proof.Machine
end

