-- ==== Sys2Proof/Machine/BitReader.lean ====
section
/-! DEFINITION. The bit reader (40_bitreader). -/

namespace Sys2Proof.Machine

/-- `StreamBit(k)`: bit `7 - (k mod 8)` of byte `k div 8` of the buffer, 0 past its end (40_bitreader R121,
30_encoding R80). -/
def BitReader.streamBit (b : BitReader) (src : Memory) (k : Nat) : Bool :=
  decide (k < 8 * b.len.toNat) && (src.byte (b.base.toNat + k / 8)).getLsbD (7 - k % 8)

/-- The `n` stream bits from bit `k` on, first bit most significant (40_bitreader R121, 20_memory R53). -/
def BitReader.bitsAt (b : BitReader) (src : Memory) (k : Nat) : Nat → Nat
  | 0 => 0
  | n + 1 => 2 * b.bitsAt src k n + (b.streamBit src (k + n)).toNat

/-- `Peek(n)` (40_bitreader R121). -/
def BitReader.peek (b : BitReader) (src : Memory) (n : Nat) : Nat := b.bitsAt src b.pos n

/-- The state part of `Read(n)`: the position moves by `n`, and `OVF` records a position past the end
(40_bitreader R123). -/
def BitReader.advance (b : BitReader) (n : Nat) : BitReader :=
  { b with pos := b.pos + n, ovf := ovfAfterRead b.ovf (b.pos + n) b.len.toNat }

/-- `Read(n)` (40_bitreader R123). -/
def BitReader.read (b : BitReader) (src : Memory) (n : Nat) : Nat × BitReader := (b.peek src n, b.advance n)

/-- `ceil8(p)` (00_scope R8). -/
def ceil8 (p : Nat) : Nat := (p + 7) / 8

/-- `Flush()`: the byte offset reached and the reader at that byte boundary (40_bitreader R127). -/
def BitReader.flush (b : BitReader) : Nat × BitReader := (ceil8 b.pos, { b with pos := 8 * ceil8 b.pos })

/-- `BR.BASE <- p`. AVH_DECODE can name `p` = 2^32, for an empty region at the very end of a `SRC` of 2^32 bytes
(44_avhuff R180, R194); 00_scope R8 and R9 say that a value fits its register, so the spec states none for this one, and
`BASE` becomes a free value. DESIGN CHOICE, log entry 24. -/
def baseWord (p : Nat) : Word := if p < 2 ^ 32 then BitVec.ofNat 32 p else Config.freeBase p

/-- Attach the reader to `len` bytes of `SRC` from `base` (40_bitreader R124, 70 R249). -/
def BitReader.attach (base len : Nat) : BitReader :=
  { base := baseWord base, len := BitVec.ofNat 32 len, pos := 0, ovf := false }

/-- `BR <- b`. -/
def Decoder.setReader (d : Decoder) (b : BitReader) : Decoder := { d with br := b }

/-- `BR <- b` in the machine. -/
def State.setReader (s : State) (b : BitReader) : State := { s with dec := s.dec.setReader b }

/-- BR_INIT (40_bitreader R124). A buffer outside `SRC` raises `ReadError`, and "nothing is changed then" but the status
(log entry 15). -/
def execBrInit (s : State) : Host.Outcome State Fault Refusal :=
  command s fun s =>
    if s.src.inBounds (s.opA 0) (s.opA 1) then s.setReader (BitReader.attach (s.opA 0) (s.opA 1))
    else { s with st := stWord .readError 0x10#8 }

/-- BR_PEEK (40_bitreader R125). -/
def execBrPeek (n : BitVec 6) (s : State) : Host.Outcome State Fault Refusal :=
  command s fun s => withBitCount 0x11#8 n s fun k => s.setR 0 (BitVec.ofNat 32 (s.dec.br.peek s.src k))

/-- BR_READ (40_bitreader R126). -/
def execBrRead (n : BitVec 6) (s : State) : Host.Outcome State Fault Refusal :=
  command s fun s => withBitCount 0x12#8 n s fun k =>
    let (v, b) := s.dec.br.read s.src k
    (s.setReader b).setR 0 (BitVec.ofNat 32 v)

/-- `R[0]` of BR_FLUSH: the offset, or, where it does not fit 32 bits, a free value (40_bitreader R127, 93 U6, log entry
14). -/
def flushResult (off k : Nat) : Word := if off < 2 ^ 32 then BitVec.ofNat 32 off else Config.freeResult k 0

/-- BR_FLUSH (40_bitreader R127). -/
def execBrFlush (s : State) : Host.Outcome State Fault Refusal :=
  command s fun s =>
    let (off, b) := s.dec.br.flush
    let t := (s.setReader b).setR 0 (flushResult off s.free)
    if off < 2 ^ 32 then t else { t with free := s.free + 1 }

/-- BR_OVF (40_bitreader R128). -/
def execBrOvf (s : State) : Host.Outcome State Fault Refusal :=
  command s fun s => s.setR 0 (flagWord s.dec.br.ovf)

end Sys2Proof.Machine
end

