-- ==== Sys2Proof/Machine/Huffman.lean ====
section
/-! DEFINITION. The plain canonical Huffman decoder (41_huffman; 30_encoding R81 to R88). -/

namespace Sys2Proof.Machine

/-! ## Table construction (30_encoding R82 to R84) -/

/-- The Kraft sum `K` of a length list (30_encoding R82): `2^(MAXBITS - LEN[s])` for every used symbol. -/
def kraftSum (maxbits : Nat) (ls : List Nat) : Nat :=
  (ls.map fun l => if l = 0 then 0 else 2 ^ (maxbits - l)).sum

/-- A length list is valid: every length at most `MAXBITS`, and the Kraft sum at most `2^MAXBITS` (30_encoding R82). -/
def lengthsValid (maxbits : Nat) (ls : List Nat) : Bool :=
  ls.all (fun l => decide (l ≤ maxbits)) && decide (kraftSum maxbits ls ≤ 2 ^ maxbits)

/-- The list `first[l], first[l+1], ...` of `n` entries, where `first[l]` is `v`: `first[l+1]` is
`(first[l] + count[l]) << 1` (30_encoding R83). -/
def firstCodesFrom (ls : List Nat) : Nat → Nat → Nat → List Nat
  | 0, _, _ => []
  | n + 1, l, v => v :: firstCodesFrom ls n (l + 1) (2 * (v + ls.count l))

/-- `next[l] <- first[l]` for every `l` from 1 to `MAXBITS`, in the order `CANON_ORDER` names; entry 0 is not used
(30_encoding R83). -/
def initialNext (maxbits : Nat) (ls : List Nat) : List Nat :=
  match Config.canonOrder with
  | .shortFirst => 0 :: firstCodesFrom ls maxbits 1 0

/-- The last loop of 30_encoding R83, over the lengths of the symbols and their `CODE` entries: a used symbol takes
`next` of its length, an unused one keeps its entry. -/
def assignCodes : List Nat → List Nat → List Word → List Word
  | _, _, [] => []
  | [], _, cs => cs
  | l :: ls, next, c :: cs =>
    if l = 0 then c :: assignCodes ls next cs
    else BitVec.ofNat 32 (next.getD l 0) :: assignCodes ls (next.set l (next.getD l 0 + 1)) cs

theorem length_assignCodes (ls next : List Nat) (cs : List Word) : (assignCodes ls next cs).length = cs.length := by
  induction cs generalizing ls next with
  | nil => simp [assignCodes]
  | cons c cs ih =>
    cases ls with
    | nil => simp [assignCodes]
    | cons l ls => by_cases h : l = 0 <;> simp [assignCodes, h, ih]

/-- `assign HD[c].CODE by rule R83` (30_encoding R84), in the order `CANON_ORDER`. -/
def Context.withCodes (x : Context) : Context :=
  { x with code := ⟨(assignCodes x.lens (initialNext x.maxbits.toNat x.lens) x.code.toList).toArray,
      by simp [length_assignCodes]⟩ }

/-- `BuildTable(c)` (30_encoding R84). -/
def buildTable (c : Fin 7) (d : Decoder) : Res Decoder Unit :=
  let x := d.ctx c
  if lengthsValid x.maxbits.toNat x.lens then .ok () (d.setCtx c { x.withCodes with valid := true })
  else .raised .invalidData d

/-! ## Flat import (41_huffman R131) -/

/-- The loop of `ImportFlat(c)`: `n` fields from symbol `s` on. -/
def importFlatLoop (src : Memory) (c : Fin 7) : Nat → Nat → Decoder → Res Decoder Unit
  | 0, _, d => .ok () d
  | n + 1, s, d =>
    let (v, b) := d.br.read src (Config.flatW (d.ctx c).maxbits.toNat)
    let d' := d.setReader b
    if v > (d.ctx c).maxbits.toNat then .raised .invalidData d'
    else importFlatLoop src c n (s + 1) (d'.setCtx c ((d'.ctx c).setLens s 1 v))

/-- `ImportFlat(c)` (41_huffman R131). -/
def importFlat (src : Memory) (c : Fin 7) (d : Decoder) : Res Decoder Unit :=
  (importFlatLoop src c (d.ctx c).numcodes.toNat 0 (d.setValid c false)).andThen fun _ d => buildTable c d

/-! ## Decode (41_huffman R135) -/

/-- `l != 0 and v[M-1 : M-l] = CODE[s]`, for a table entry of length `l` and code word `code` and the peeked value `v` of
`maxbits` bits (41_huffman R135). -/
def codeMatches (maxbits v : Nat) (entry : BitVec 6 × Word) : Bool :=
  decide (entry.1.toNat ≠ 0) && decide (v >>> (maxbits - entry.1.toNat) = entry.2.toNat)

/-- The symbol whose code word starts the peeked value, if there is one (41_huffman R135). -/
def Context.symbolOf (x : Context) (v : Nat) : Option Nat :=
  ((x.len.toList.zip x.code.toList).take x.numcodes.toNat).findIdx? (codeMatches x.maxbits.toNat v)

/-- `DecodeOne(c)` (41_huffman R135). -/
def decodeOne (src : Memory) (c : Fin 7) (d : Decoder) : Res Decoder Nat :=
  let x := d.ctx c
  match x.symbolOf (d.br.peek src x.maxbits.toNat) with
  | some s => .ok s (d.setReader (d.br.advance (x.lenAt s)))
  | none => .raised .invalidData d

/-! ## RLE import (41_huffman R133) -/

/-- The run of an escape token: the small one `f + 1`, the large one `17 + 16*hi + lo` copies (30_encoding R88). -/
def runLength (src : Memory) (m : Nat) (d : Decoder) : Nat × Decoder :=
  if m = 9 then
    let (f, b) := d.br.read src 4
    (f + 1, d.setReader b)
  else
    let (hi, b) := d.br.read src 4
    let (lo, b') := b.read src 4
    (17 + 16 * hi + lo, d.setReader b')

/-- The loop of `ImportRle(c)`: `s` lengths are there, `prev` is the previous length. Each turn makes at least one
length, so `fuel` = the number of missing lengths is enough. -/
def importRleLoop (src : Memory) (c : Fin 7) : Nat → Nat → Nat → Decoder → Res Decoder Unit
  | 0, _, _, d => .ok () d
  | fuel + 1, s, prev, d =>
    if s < (d.ctx c).numcodes.toNat then
      (decodeOne src 6 d).andThen fun m d =>
        if m ≤ 8 then
          if m > (d.ctx c).maxbits.toNat then .raised .invalidData d
          else importRleLoop src c fuel (s + 1) m (d.setCtx c ((d.ctx c).setLens s 1 m))
        else
          let (n, d') := runLength src m d
          if s + n > (d'.ctx c).numcodes.toNat then .raised .invalidData d'
          else importRleLoop src c fuel (s + n) prev (d'.setCtx c ((d'.ctx c).setLens s n prev))
    else .ok () d

/-- `HD[6].NUMCODES <- 11; HD[6].MAXBITS <- 4` (41_huffman R133). -/
def Decoder.setMeta (d : Decoder) : Decoder :=
  d.setCtx 6 { d.ctx 6 with numcodes := BitVec.ofNat 9 Config.metaNumcodes, maxbits := BitVec.ofNat 6 Config.metaMaxbits }

/-- `ImportRle(c)` (41_huffman R133). -/
def importRle (src : Memory) (c : Fin 7) (d : Decoder) : Res Decoder Unit :=
  (importFlat src 6 (d.setValid c false).setMeta).andThen fun _ d =>
    (importRleLoop src c (d.ctx c).numcodes.toNat 0 0 d).andThen fun _ d => buildTable c d

/-! ## Commands -/

/-- HUF_CONFIG (41_huffman R130). -/
def execHufConfig (c : BitVec 4) (s : State) : Host.Outcome State Fault Refusal :=
  command s fun s => withContext 0x20#8 c s fun k =>
    if s.opA 0 > Config.maxCodes then raise .outOfMemory 0x20#8 s
    else if s.opA 0 = 0 ∨ s.opA 1 = 0 ∨ s.opA 1 > Config.maxbitsMax then raise .illegalCommand 0x20#8 s
    else
      { s with
        dec := s.dec.setCtx k (Context.unspecifyTable
          { s.dec.ctx k with
            numcodes := BitVec.ofNat 9 (s.opA 0), maxbits := BitVec.ofNat 6 (s.opA 1), valid := false, prev := 0,
            run := 0 } s.free k.val)
        free := s.free + 1 }

/-- HUF_IMPORT_FLAT (41_huffman R132). -/
def execHufImportFlat (c : BitVec 4) (s : State) : Host.Outcome State Fault Refusal :=
  command s fun s => withContext 0x21#8 c s fun k =>
    if (s.dec.ctx k).numcodes = 0 then raise .illegalCommand 0x21#8 s
    else runDecoder 0x21#8 s (importFlat s.src k) fun _ t => t

/-- HUF_IMPORT_RLE (41_huffman R134). -/
def execHufImportRle (c : BitVec 4) (s : State) : Host.Outcome State Fault Refusal :=
  command s fun s => withContext 0x22#8 c s fun k =>
    if (s.dec.ctx k).numcodes = 0 then raise .illegalCommand 0x22#8 s
    else runDecoder 0x22#8 s (importRle s.src k) fun _ t => t

/-- HUF_DECODE (41_huffman R136). -/
def execHufDecode (c : BitVec 4) (s : State) : Host.Outcome State Fault Refusal :=
  command s fun s => withContext 0x23#8 c s fun k =>
    if (s.dec.ctx k).valid then runDecoder 0x23#8 s (decodeOne s.src k) fun v t => t.setR 0 (BitVec.ofNat 32 v)
    else raise .illegalCommand 0x23#8 s

end Sys2Proof.Machine
end

