-- ==== Sys2Proof/Machine/HuffmanRle.lean ====
section
/-! DEFINITION. The RLE-output decoder (42_huffman_rle; 30_encoding R90). -/

namespace Sys2Proof.Machine

/-- `RleCount(code)` (42_huffman_rle R151, 30_encoding R90). -/
def rleCount (code : Nat) : Nat :=
  if code = 0 then 1 else if code ≤ 7 then 8 + code else 16 <<< (code - 8)

/-- `RleDecodeOne(c)` (42_huffman_rle R151). -/
def rleDecodeOne (src : Memory) (c : Fin 7) (d : Decoder) : Res Decoder Byte :=
  if (d.ctx c).run ≠ 0 then .ok (d.ctx c).prev (d.setCtx c { d.ctx c with run := (d.ctx c).run - 1 })
  else
    (decodeOne src c d).andThen fun s d =>
      let x := d.ctx c
      if s < 256 then .ok (x.prev + BitVec.ofNat 8 s) (d.setCtx c { x with prev := x.prev + BitVec.ofNat 8 s })
      else .ok x.prev (d.setCtx c { x with run := BitVec.ofNat 12 (rleCount (s - 256) - 1) })

/-- RLE_DECODE (42_huffman_rle R152). -/
def execRleDecode (c : BitVec 4) (s : State) : Host.Outcome State Fault Refusal :=
  command s fun s => withContext 0x30#8 c s fun k =>
    if (s.dec.ctx k).valid then runDecoder 0x30#8 s (rleDecodeOne s.src k) fun v t => t.setR 0 (v.setWidth 32)
    else raise .illegalCommand 0x30#8 s

/-- RLE_FLUSH (42_huffman_rle R153). -/
def execRleFlush (c : BitVec 4) (s : State) : Host.Outcome State Fault Refusal :=
  command s fun s => withContext 0x31#8 c s fun k => { s with dec := s.dec.clearRun k }

/-- RLE_RESET (42_huffman_rle R154). -/
def execRleReset (c : BitVec 4) (s : State) : Host.Outcome State Fault Refusal :=
  command s fun s => withContext 0x32#8 c s fun k =>
    { s with dec := s.dec.setCtx k { s.dec.ctx k with run := 0, prev := 0 } }

end Sys2Proof.Machine
end

