-- ==== Sys2Proof/Machine/Avhuff.lean ====
section
/-! DEFINITION. The AVHuff decoder (44_avhuff; 30_encoding R100 to R107). -/

namespace Sys2Proof.Machine

/-- What the AVHuff procedures work on: the bit reader and the contexts, and the output buffer. -/
structure Engine where
  dec : Decoder
  dst : Memory
  deriving DecidableEq, Repr

/-- A decoding procedure as a procedure that leaves `DST` alone. -/
def Engine.lift {α : Type} (e : Engine) (p : Decoder → Res Decoder α) : Res Engine α :=
  match p e.dec with
  | .ok a d => .ok a { e with dec := d }
  | .raised k d => .raised k { e with dec := d }

/-- The engine of the machine. -/
def State.engine (s : State) : Engine := { dec := s.dec, dst := s.dst }

/-- The machine with another engine. -/
def State.withEngine (s : State) (e : Engine) : State := { s with dec := e.dec, dst := e.dst }

/-- Run an AVHuff procedure, then what the command does with its value; a raise is error entry with the `n` bytes of `DST`
from `lo` as those the command may write (60_exceptions R216). -/
def runEngine {α : Type} (op : BitVec 8) (lo n : Nat) (s : State) (p : Engine → Res Engine α)
    (done : α → State → State) : State :=
  match p s.engine with
  | .ok v e => done v (s.withEngine e)
  | .raised k e => errorEntry k op lo n (s.withEngine e)

/-! ## Audio (44_avhuff R190 to R199) -/

/-- `HD[c].NUMCODES <- n; MAXBITS <- m; PREV <- 0; RUN <- 0; ImportRle(c); Flush()`: one tree of a shared stream, with the
byte offset reached (44_avhuff R190, R200). -/
def importTree (src : Memory) (c : Fin 7) (n m : Nat) (d : Decoder) : Res Decoder Nat :=
  (importRle src c (d.setCtx c
    { d.ctx c with numcodes := BitVec.ofNat 9 n, maxbits := BitVec.ofNat 6 m, prev := 0, run := 0 })).andThen
    fun _ d => .ok d.br.flush.1 (d.setReader d.br.flush.2)

/-- `AudioTrees(t, treesize)` (44_avhuff R190). -/
def audioTrees (src : Memory) (t treesize : Nat) (d : Decoder) : Res Decoder Unit :=
  if src.inBounds t treesize then
    (importTree src 1 Config.audioNumcodes Config.audioMaxbits (d.setReader (BitReader.attach t treesize))).andThen
      fun _ d => (importTree src 2 Config.audioNumcodes Config.audioMaxbits d).andThen
        fun off d => if d.br.streamBad off treesize then .raised .invalidData d else .ok () d
  else .raised .readError d

/-- The loop of `AudioRaw`: `n` samples from sample `i` on, with the running sum `acc` (44_avhuff R192, R196). -/
def audioRawLoop (src : Memory) (p q : Nat) : Nat → Nat → Half → Memory → Memory
  | 0, _, _, m => m
  | n + 1, i, acc, m =>
    let acc' := acc + BitVec.ofNat 16 (src.readBE (p + 2 * i) 2)
    audioRawLoop src p q n (i + 1) acc' (m.writeBE (q + 2 * i) 2 acc'.toNat)

/-- `AudioRaw(p, size, q, samples)` (44_avhuff R192). -/
def audioRaw (src : Memory) (p size q samples : Nat) (e : Engine) : Res Engine Unit :=
  if (src.inBounds p size && e.dst.inBounds q (2 * samples)) = false then .raised .readError e
  else if size < 2 * samples then .raised .invalidData e
  else .ok () { e with dst := audioRawLoop src p q samples 0 0 e.dst }

/-- The loop of `AudioHuf`: `n` samples from sample `i` on, with the running sum `acc` (44_avhuff R194, R196). -/
def audioHufLoop (src : Memory) (q : Nat) : Nat → Nat → Half → Engine → Res Engine Unit
  | 0, _, _, e => .ok () e
  | n + 1, i, acc, e =>
    (e.lift (decodeOne src 1)).andThen fun hi e => (e.lift (decodeOne src 2)).andThen fun lo e =>
      let acc' := acc + BitVec.ofNat 16 (256 * hi + lo)
      audioHufLoop src q n (i + 1) acc' { e with dst := e.dst.writeBE (q + 2 * i) 2 acc'.toNat }

/-- `AudioHuf(p, size, q, samples)` (44_avhuff R194). -/
def audioHuf (src : Memory) (p size q samples : Nat) (e : Engine) : Res Engine Unit :=
  if (src.inBounds p size && e.dst.inBounds q (2 * samples)) = false then .raised .readError e
  else if ((e.dec.ctx 1).valid && (e.dec.ctx 2).valid) = false then .raised .illegalCommand e
  else
    (audioHufLoop src q samples 0 0 { e with dec := e.dec.setReader (BitReader.attach p size) }).andThen fun _ e =>
      if e.dec.br.ovf then .raised .invalidData e else .ok () e

/-- Write `n` samples from sample `i` on, big-endian (44_avhuff R199). -/
def writeSamples (r : Nat → Half) (q : Nat) : Nat → Nat → Memory → Memory
  | 0, _, m => m
  | n + 1, i, m => writeSamples r q n (i + 1) (m.writeBE (q + 2 * i) 2 (r i).toNat)

/-- The loop of `FlacChannels` over the channel sizes; it returns `p` and `q` after the last channel (44_avhuff R199,
R180). -/
def flacLoop (src : Memory) (samples : Nat) : List Nat → Nat → Nat → Engine → Res Engine (Nat × Nat)
  | [], p, q, e => .ok (p, q) e
  | size :: rest, p, q, e =>
    match Config.flacDec (src.readBytes p size) samples with
    | none => .raised .invalidData e
    | some r => flacLoop src samples rest (p + size) (q + 2 * samples) { e with dst := writeSamples r q samples 0 e.dst }

/-- `FlacChannels(p, chsize, q, channels, samples)` (44_avhuff R199). -/
def flacChannels (src : Memory) (present : Bool) (chsize : List Nat) (p q samples : Nat) (e : Engine) :
    Res Engine (Nat × Nat) :=
  if present then flacLoop src samples chsize p q e else .raised .unsupportedFormat e

/-- The channel loop of AVH_DECODE, raw or Huffman; it returns `p` and `q` after the last channel (44_avhuff R180). -/
def channelLoop (src : Memory) (raw : Bool) (samples : Nat) : List Nat → Nat → Nat → Engine → Res Engine (Nat × Nat)
  | [], p, q, e => .ok (p, q) e
  | size :: rest, p, q, e =>
    (if raw then audioRaw src p size q samples e else audioHuf src p size q samples e).andThen fun _ e =>
      channelLoop src raw samples rest (p + size) (q + 2 * samples) e

/-! ## Video (44_avhuff R200) -/

/-- `MemWrite(DST, a, 1, RleDecodeOne(c))` (44_avhuff R200). -/
def videoSample (src : Memory) (c : Fin 7) (a : Nat) (e : Engine) : Res Engine Unit :=
  (e.lift (rleDecodeOne src c)).andThen fun v e => .ok () { e with dst := e.dst.setByte a v }

/-- One pixel pair: Y, Cb, Y, Cr (44_avhuff R200, 30_encoding R107). -/
def videoPair (src : Memory) (a : Nat) (e : Engine) : Res Engine Unit :=
  (videoSample src 3 a e).andThen fun _ e => (videoSample src 4 (a + 1) e).andThen fun _ e =>
    (videoSample src 3 (a + 2) e).andThen fun _ e => videoSample src 5 (a + 3) e

/-- `n` pixel pairs of one row, each 4 bytes after the one before it, from address `a` on (44_avhuff R200). -/
def videoPairs (src : Memory) : Nat → Nat → Engine → Res Engine Unit
  | 0, _, e => .ok () e
  | n + 1, a, e => (videoPair src a e).andThen fun _ e => videoPairs src n (a + 4) e

/-- The row end: `RUN <- 0` in the three video contexts (44_avhuff R200). -/
def flushRuns (e : Engine) : Engine := { e with dec := ((e.dec.clearRun 3).clearRun 4).clearRun 5 }

/-- `n` rows from row `y` on (44_avhuff R200). -/
def videoRows (src : Memory) (q width : Nat) : Nat → Nat → Engine → Res Engine Unit
  | 0, _, e => .ok () e
  | n + 1, y, e =>
    (videoPairs src (width / 2) (q + 2 * width * y) e).andThen fun _ e => videoRows src q width n (y + 1) (flushRuns e)

/-- The three trees of the video stream (44_avhuff R200, 30_encoding R106). -/
def videoTrees (src : Memory) (d : Decoder) : Res Decoder Unit :=
  (importTree src 3 Config.videoNumcodes Config.videoMaxbits d).andThen fun _ d =>
    (importTree src 4 Config.videoNumcodes Config.videoMaxbits d).andThen fun _ d =>
      (importTree src 5 Config.videoNumcodes Config.videoMaxbits d).andThen fun _ d => .ok () d

/-- `BR` attached to the video stream and past the preamble (44_avhuff R200). -/
def videoReader (p vlen : Nat) : BitReader := (BitReader.attach p vlen).advance Config.videoPreambleBits

/-- `Video(p, vlen, q, width, height)` (44_avhuff R200). -/
def video (src : Memory) (p vlen q width height : Nat) (e : Engine) : Res Engine Nat :=
  if (src.inBounds p vlen && e.dst.inBounds q (2 * width * height)) = false then .raised .readError e
  else if width % 2 = 1 then .raised .invalidData e
  else
    (Engine.lift { e with dec := e.dec.setReader (videoReader p vlen) } (videoTrees src)).andThen fun _ e =>
      (videoRows src q width height 0 e).andThen fun _ e =>
        let e' := { e with dec := e.dec.setReader e.dec.br.flush.2 }
        if e'.dec.br.streamBad e.dec.br.flush.1 vlen then .raised .invalidData e' else .ok (2 * width * height) e'

/-! ## Whole hunk (44_avhuff R180) -/

/-- The AVHuff input header (30_encoding R100). -/
structure AvhHeader where
  metasize : Nat
  channels : Nat
  samples : Nat
  width : Nat
  height : Nat
  treesize : Nat
  chsize : List Nat
  deriving DecidableEq, Repr

/-- Read the input header at `b` (30_encoding R100). -/
def readHeader (src : Memory) (b : Nat) : AvhHeader :=
  { metasize := src.readBE b 1
    channels := src.readBE (b + 1) 1
    samples := src.readBE (b + 2) 2
    width := src.readBE (b + 4) 2
    height := src.readBE (b + 6) 2
    treesize := src.readBE (b + 8) 2
    chsize := (List.range (src.readBE (b + 1) 1)).map fun c => src.readBE (b + 10 + 2 * c) 2 }

/-- `hdr`, the size of the input header (44_avhuff R180). -/
def AvhHeader.hdr (h : AvhHeader) : Nat := 10 + 2 * h.channels

/-- `treebytes` (44_avhuff R180). -/
def AvhHeader.treebytes (h : AvhHeader) : Nat := if h.treesize = 0 ∨ h.treesize = 0xFFFF then 0 else h.treesize

/-- `total`, the regions before the video stream (44_avhuff R180). -/
def AvhHeader.total (h : AvhHeader) : Nat := h.hdr + h.metasize + h.treebytes + h.chsize.sum

/-- `outlen` (44_avhuff R180). -/
def AvhHeader.outlen (h : AvhHeader) : Nat :=
  12 + h.metasize + 2 * h.channels * h.samples + 2 * h.width * h.height

/-- The tests of AVH_DECODE in their order: the first that fails names the error (44_avhuff R180, 60_exceptions R213). -/
def avhReject (src dst : Memory) (b complen destlen : Nat) (h : AvhHeader) : Option ErrorKind :=
  if (src.inBounds b complen && dst.inBounds 0 destlen) = false then some .readError
  else if complen < 10 then some .invalidData
  else if complen < h.hdr then some .invalidData
  else if h.total > complen then some .invalidData
  else if h.width * h.height > 0 ∧ h.width % 2 = 1 then some .invalidData
  else if h.outlen > destlen then some .invalidData
  else none

/-- The 12-byte output header (30_encoding R102). -/
def AvhHeader.outputBytes (h : AvhHeader) : List Byte :=
  [0x63, 0x68, 0x61, 0x76] ++ beBytes 1 h.metasize ++ beBytes 1 h.channels ++ beBytes 2 h.samples ++
    beBytes 2 h.width ++ beBytes 2 h.height

/-- The output header and the metadata copied from `p` (44_avhuff R180). -/
def avhPrologue (src : Memory) (h : AvhHeader) (p : Nat) (m : Memory) : Memory :=
  (m.writeBytes 0 h.outputBytes).writeBytes 12 (src.readBytes p h.metasize)

/-- The audio part: it returns `p` and `q` after it (44_avhuff R180). -/
def avhAudio (src : Memory) (present : Bool) (h : AvhHeader) (p q : Nat) (e : Engine) : Res Engine (Nat × Nat) :=
  if h.treesize = 0xFFFF then flacChannels src present h.chsize p q h.samples e
  else if h.treesize = 0 then channelLoop src true h.samples h.chsize p q e
  else
    (e.lift (audioTrees src p h.treesize)).andThen fun _ e =>
      channelLoop src false h.samples h.chsize (p + h.treesize) q e

/-- The video part, of all payload bytes from `p` to `stop`: it returns `q` after it (44_avhuff R180). -/
def avhVideoPart (src : Memory) (h : AvhHeader) (stop p q : Nat) (e : Engine) : Res Engine Nat :=
  if h.width * h.height > 0 then
    (video src p (stop - p) q h.width h.height e).andThen fun n e => .ok (q + n) e
  else .ok q e

/-- Zeros from `q` to `destlen - 1` (44_avhuff R180). -/
def zeroFill (q destlen : Nat) (m : Memory) : Memory := m.writeBytes q (List.replicate (destlen - q) 0)

/-- AVH_DECODE as a procedure: it returns the bytes produced before the zero fill (44_avhuff R180). -/
def avhHunk (src : Memory) (present : Bool) (b complen destlen : Nat) (e : Engine) : Res Engine Nat :=
  let h := readHeader src b
  match avhReject src e.dst b complen destlen h with
  | some k => .raised k e
  | none =>
    (avhAudio src present h (b + h.hdr + h.metasize) (12 + h.metasize)
      { e with dst := avhPrologue src h (b + h.hdr) e.dst }).andThen fun pq e =>
      (avhVideoPart src h (b + complen) pq.1 pq.2 e).andThen fun q e =>
        .ok q { e with dst := zeroFill q destlen e.dst }

/-! ## Commands -/

/-- AVH_DECODE (44_avhuff R180). -/
def execAvhDecode (s : State) : Host.Outcome State Fault Refusal :=
  command s fun s =>
    runEngine 0x50#8 0 (s.opA 2) s (avhHunk s.src s.flac (s.opA 0) (s.opA 1) (s.opA 2)) fun q t =>
      t.setR 0 (BitVec.ofNat 32 q)

/-- AVH_AUDIO_TREES (44_avhuff R190). -/
def execAvhAudioTrees (s : State) : Host.Outcome State Fault Refusal :=
  command s fun s => runDecoder 0x51#8 s (audioTrees s.src (s.opA 0) (s.opA 1)) fun _ t => t

/-- AVH_AUDIO_CH.RAW (44_avhuff R192). -/
def execAvhAudioChRaw (s : State) : Host.Outcome State Fault Refusal :=
  command s fun s =>
    runEngine 0x52#8 (s.opA 2) (2 * s.opA 3) s (audioRaw s.src (s.opA 0) (s.opA 1) (s.opA 2) (s.opA 3)) fun _ t => t

/-- AVH_AUDIO_CH.HUF (44_avhuff R194). -/
def execAvhAudioChHuf (s : State) : Host.Outcome State Fault Refusal :=
  command s fun s =>
    runEngine 0x52#8 (s.opA 2) (2 * s.opA 3) s (audioHuf s.src (s.opA 0) (s.opA 1) (s.opA 2) (s.opA 3)) fun _ t => t

/-- AVH_VIDEO (44_avhuff R200). -/
def execAvhVideo (s : State) : Host.Outcome State Fault Refusal :=
  command s fun s =>
    runEngine 0x53#8 (s.opA 2) (2 * s.videoWidth * s.videoHeight) s
      (video s.src (s.opA 0) (s.opA 1) (s.opA 2) s.videoWidth s.videoHeight) fun n t => t.setR 0 (BitVec.ofNat 32 n)

end Sys2Proof.Machine
end

