-- ==== Sys2Proof/Machine/Block.lean ====
section
/-! DEFINITION. The block reset command (70 R240). -/

namespace Sys2Proof.Machine

/-- BLK_RESET (70 R240): the one command that is executed while the error latch is set (60_exceptions R217). -/
def execBlkReset (s : State) : Host.Outcome State Fault Refusal := .next (blockReset s)

end Sys2Proof.Machine
end

