-- ==== Sys2Proof/Machine/CdFrame.lean ====
section
/-! DEFINITION. The CD frame unit (43_cd_frame; 30_encoding R95 to R99; 20_memory R58). -/

namespace Sys2Proof.Machine

/-! ## The ECC generator (43_cd_frame R168 to R170) -/

/-- `Mul2(x)`: times 2 in GF(2^8) with polynomial 0x11D (43_cd_frame R168). -/
def mul2 (x : Byte) : Byte := (x <<< 1) ^^^ (if x.msb then 0x1D else 0)

/-- `Div3(y)`: the field product of `y` and 0xF4 = 11110100b, the inverse of 3 (43_cd_frame R168). -/
def div3 (y : Byte) : Byte :=
  mul2 (mul2 (mul2 (mul2 (mul2 (mul2 (mul2 y ^^^ y) ^^^ y) ^^^ y)) ^^^ y))

/-- `EccByte(o, i)` (43_cd_frame R169): the four header bytes of a mode 2 sector read as 0. -/
def eccByte (m : Memory) (o i : Nat) : Byte :=
  if m.byte (o + 15) = 2 ∧ i < 4 then 0 else m.byte (o + 12 + i)

/-- The index after `index`: one step of `inc`, modulo `size` (43_cd_frame R170). -/
def eccNext (index inc size : Nat) : Nat := if index + inc ≥ size then index + inc - size else index + inc

/-- The inner loop of `EccPQ`: `n` bytes from `index` on, into the two sums `a` and `b` (43_cd_frame R170). -/
def eccSums (m : Memory) (o inc size : Nat) : Nat → Nat → Byte → Byte → Byte × Byte
  | 0, _, a, b => (a, b)
  | n + 1, index, a, b =>
    let t := eccByte m o index
    eccSums m o inc size n (eccNext index inc size) (mul2 (a ^^^ t)) (b ^^^ t)

/-- The start index of column or diagonal `major` (43_cd_frame R170). -/
def eccStart (major mult : Nat) : Nat := major / 2 * mult + major % 2

/-- The two parity bytes of column or diagonal `major` (43_cd_frame R170). -/
def eccParity (m : Memory) (o minors mult inc size major : Nat) : Byte × Byte :=
  let (a, b) := eccSums m o inc size minors (eccStart major mult) 0 0
  let p := div3 (mul2 a ^^^ b)
  (p, p ^^^ b)

/-- The outer loop of `EccPQ`: `n` columns or diagonals from `major` on (43_cd_frame R170). -/
def eccPQLoop (o majors minors mult inc dest : Nat) : Nat → Nat → Memory → Memory
  | 0, _, m => m
  | n + 1, major, m =>
    let (p, q) := eccParity m o minors mult inc (majors * minors) major
    eccPQLoop o majors minors mult inc dest n (major + 1)
      ((m.setByte (o + dest + major) p).setByte (o + dest + majors + major) q)

/-- `EccPQ(o, majors, minors, mult, inc, dest)` (43_cd_frame R170). -/
def eccPQ (o majors minors mult inc dest : Nat) (m : Memory) : Memory :=
  eccPQLoop o majors minors mult inc dest majors 0 m

/-- `EccGen(o)`: P parity, then Q parity (43_cd_frame R170). -/
def eccGen (o : Nat) (m : Memory) : Memory := eccPQ o 52 43 86 88 2248 (eccPQ o 86 24 2 86 2076 m)

/-! ## Sync and frames (43_cd_frame R162, R164) -/

/-- The 12 bytes of the sync pattern (30_encoding R98). -/
def syncPattern : List Byte := [0x00, 0xFF, 0xFF, 0xFF, 0xFF, 0xFF, 0xFF, 0xFF, 0xFF, 0xFF, 0xFF, 0x00]

/-- `WriteSync(o)` (43_cd_frame R164). -/
def writeSync (o : Nat) (m : Memory) : Memory := m.writeBytes o syncPattern

/-- The ECC-presence bit of frame `f`, least significant bit first (30_encoding R96). -/
def eccFlag (src : Memory) (bitmap f : Nat) : Bool := (src.byte (bitmap + f / 8)).getLsbD (f % 8)

/-- One turn of the loop of CD_ASSEMBLE: the sector, the subcode, then sync and ECC where the frame is flagged
(43_cd_frame R162). -/
def assembleFrame (src sec sub : Memory) (bitmap f : Nat) (m : Memory) : Memory :=
  let m1 := m.writeBytes (2448 * f) (sec.readBytes (2352 * f) 2352)
  let m2 := m1.writeBytes (2448 * f + 2352) (sub.readBytes (96 * f) 96)
  if eccFlag src bitmap f then eccGen (2448 * f) (writeSync (2448 * f) m2) else m2

/-- The loop of CD_ASSEMBLE: `n` frames from `f` on (43_cd_frame R162). -/
def assembleLoop (src sec sub : Memory) (bitmap : Nat) : Nat → Nat → Memory → Memory
  | 0, _, m => m
  | n + 1, f, m => assembleLoop src sec sub bitmap n (f + 1) (assembleFrame src sec sub bitmap f m)

/-! ## Commands -/

/-- `lenbytes` (43_cd_frame R160, 30_encoding R95). -/
def cdLenBytes (destlen : Nat) : Nat := if destlen < 65536 then 2 else 3

/-- `eccbytes + lenbytes`, the header size (43_cd_frame R160). -/
def cdHeaderBytes (destlen : Nat) : Nat := ceil8 (destlen / 2448) + cdLenBytes destlen

/-- `base`, the compressed length of the first sub-stream (43_cd_frame R160). -/
def cdBaseLength (src : Memory) (payload destlen : Nat) : Nat :=
  src.readBE (payload + ceil8 (destlen / 2448)) (cdLenBytes destlen)

/-- CD_HDR (43_cd_frame R160). -/
def execCdHdr (s : State) : Host.Outcome State Fault Refusal :=
  command s fun s =>
    let complen := s.opA 1
    let destlen := s.opA 2
    let hdr := cdHeaderBytes destlen
    let base := cdBaseLength s.src (s.opA 0) destlen
    if s.src.inBounds (s.opA 0) complen = false then raise .readError 0x40#8 s
    else if destlen % 2448 ≠ 0 then raise .invalidData 0x40#8 s
    else if hdr > complen then raise .invalidData 0x40#8 s
    else if hdr + base > complen then raise .invalidData 0x40#8 s
    else
      s.setResults (BitVec.ofNat 32 (destlen / 2448)) (BitVec.ofNat 32 hdr) (BitVec.ofNat 32 base)
        (BitVec.ofNat 32 (complen - hdr - base))

/-- The bound tests of CD_ASSEMBLE (43_cd_frame R162). -/
def assembleFits (s : State) : Bool :=
  s.dst.inBounds 0 (2448 * s.opA 0) && s.sec.inBounds 0 (2352 * s.opA 0) && s.sub.inBounds 0 (96 * s.opA 0) &&
    s.src.inBounds (s.opA 1) (ceil8 (s.opA 0))

/-- CD_ASSEMBLE (43_cd_frame R162). -/
def execCdAssemble (s : State) : Host.Outcome State Fault Refusal :=
  command s fun s =>
    if assembleFits s then { s with dst := assembleLoop s.src s.sec s.sub (s.opA 1) (s.opA 0) 0 s.dst }
    else errorEntry .readError 0x41#8 0 (2448 * s.opA 0) s

/-- CD_SYNC (43_cd_frame R164). -/
def execCdSync (s : State) : Host.Outcome State Fault Refusal :=
  command s fun s =>
    if s.dst.inBounds (s.opA 0) 12 then { s with dst := writeSync (s.opA 0) s.dst }
    else errorEntry .readError 0x42#8 (s.opA 0) 12 s

/-- CD_ECC (43_cd_frame R166). -/
def execCdEcc (s : State) : Host.Outcome State Fault Refusal :=
  command s fun s =>
    if s.dst.inBounds (s.opA 0) 2352 then { s with dst := eccGen (s.opA 0) s.dst }
    else errorEntry .readError 0x43#8 (s.opA 0 + 2076) 276 s

end Sys2Proof.Machine
end

