-- ==== Sys2Proof/Machine/Dispatch.lean ====
section
/-! DEFINITION. One arm per command, each one call of its meaning. -/

namespace Sys2Proof.Machine

def exec (i : Instr) (s : State) : Host.Outcome State Fault Refusal :=
  match i with
  | .blkReset => Sys2Proof.Machine.execBlkReset s
  | .brInit => Sys2Proof.Machine.execBrInit s
  | .brPeek n => Sys2Proof.Machine.execBrPeek n s
  | .brRead n => Sys2Proof.Machine.execBrRead n s
  | .brFlush => Sys2Proof.Machine.execBrFlush s
  | .brOvf => Sys2Proof.Machine.execBrOvf s
  | .hufConfig c => Sys2Proof.Machine.execHufConfig c s
  | .hufImportFlat c => Sys2Proof.Machine.execHufImportFlat c s
  | .hufImportRle c => Sys2Proof.Machine.execHufImportRle c s
  | .hufDecode c => Sys2Proof.Machine.execHufDecode c s
  | .rleDecode c => Sys2Proof.Machine.execRleDecode c s
  | .rleFlush c => Sys2Proof.Machine.execRleFlush c s
  | .rleReset c => Sys2Proof.Machine.execRleReset c s
  | .cdHdr => Sys2Proof.Machine.execCdHdr s
  | .cdAssemble => Sys2Proof.Machine.execCdAssemble s
  | .cdSync => Sys2Proof.Machine.execCdSync s
  | .cdEcc => Sys2Proof.Machine.execCdEcc s
  | .avhDecode => Sys2Proof.Machine.execAvhDecode s
  | .avhAudioTrees => Sys2Proof.Machine.execAvhAudioTrees s
  | .avhAudioChRaw => Sys2Proof.Machine.execAvhAudioChRaw s
  | .avhAudioChHuf => Sys2Proof.Machine.execAvhAudioChHuf s
  | .avhVideo => Sys2Proof.Machine.execAvhVideo s

end Sys2Proof.Machine
end

