-- ==== Sys2Proof/Machine/HostPort.lean ====
section
/-! DEFINITION. The host's side of a step (10_state R21, R23; 20_memory R60, R61; 70 R241): the next host action, and what
a command word that is no command does (30_encoding R74). -/

namespace Sys2Proof.Machine

/-- A memory space of the machine (20_memory R50). -/
def State.memory (s : State) : Space → Memory
  | .src => s.src
  | .dst => s.dst
  | .sec => s.sec
  | .sub => s.sub

/-- The machine with another memory in one space. -/
def State.setMemory (s : State) (space : Space) (m : Memory) : State :=
  match space with
  | .src => { s with src := m }
  | .dst => { s with dst := m }
  | .sec => { s with sec := m }
  | .sub => { s with sub := m }

/-- What a look at the host's next action gives: the step is over, or a command has been issued in `CW`. -/
inductive Poll where
  | answered (o : Host.Outcome State Fault Refusal)
  | issued (s : State)
  deriving Repr

/-- The host writes one byte of memory (20_memory R60). -/
def hostWrite (s : State) (space : Space) (addr : Word) (b : Byte) : Host.Outcome State Fault Refusal :=
  if addr.toNat < (s.memory space).size then .next (s.setMemory space ((s.memory space).setByte addr.toNat b))
  else .fault .hostOutsideMemory

/-- Take the host's next action. With none left the block waits, and keeps all its state (70 R241, 60_exceptions R229). -/
def poll (s : State) : Poll :=
  match s.host with
  | [] => .answered (.next s)
  | .writeA i v :: rest => .answered (.next (({ s with host := rest } : State).setA i v))
  | .writeCW w :: rest => .issued { s with host := rest, cw := w }
  | .writeByte space addr b :: rest => .answered (hostWrite { s with host := rest } space addr b)
  | .powerOn :: rest => .answered (.next (powerOn { s with host := rest }))

/-- A word in `CW` that is no command: `IllegalCommand`, unless the latch is set (30_encoding R74, 60_exceptions R217). -/
def rejectWord (s : State) : Host.Outcome State Fault Refusal :=
  command s fun s => illegalWord (opField s.cw) s

/-- The machine with a host that writes `w` to `CW` next. -/
def State.hostIssues (s : State) (w : Word) : State := { s with host := .writeCW w :: s.host }

end Sys2Proof.Machine
end

