-- ==== Sys2Proof/Machine/Step.lean ====
section
/-! DEFINITION. One step: the host's next action; a write of `CW` issues one command, which runs to completion
(00_scope R2, 10_state R21). -/

namespace Sys2Proof.Machine

/-- Run the command in `CW`, or reject its word (30_encoding R74). -/
def issue (s : State) : Host.Outcome State Fault Refusal :=
  match decode s.cw with
  | .ok i => exec i s
  | .error _ => rejectWord s

/-- One step of the machine. -/
def step (s : State) : Host.Outcome State Fault Refusal :=
  match poll s with
  | .answered o => o
  | .issued t => issue t

/-- The state with the instruction of bits `w` where the next step takes it: the host's next action writes it to `CW`. -/
def State.withFetchWord (s : State) (nbits w : Nat) : State := s.hostIssues (BitVec.ofNat 32 (w % 2 ^ nbits))

end Sys2Proof.Machine
end

