-- ==== Sys2Proof/Safety.lean ====
section
/-! DEFINITION. The terms statements use: what a well-formed state is (the invariant that every step keeps), what a stream
holds, the canonical code as a formula, the RLE tree format, code words of the ECC, runs of one command. -/

namespace Sys2Proof.Machine

/-! ## Well-formed states -/

/-- `ST` as 10_state R22 gives it: the reserved bits read 0, `ERR` is a code the block writes (60_exceptions R211: never 3
or 7), and `ERROP` is 0 when `ERR` is. -/
abbrev statusWf (st : Word) : Prop :=
  st.extractLsb' 16 16 = 0 ∧ st.extractLsb' 3 5 = 0 ∧ st.extractLsb' 0 3 ∈ [0, 1, 2, 4, 5, 6] ∧
    (st.extractLsb' 0 3 = 0 → st.extractLsb' 8 8 = 0)

/-- `BR.OVF` says exactly that the position is past the last bit (40_bitreader R123), and the buffer lies in `SRC`
(40_bitreader R124: the reader never raises `ReadError` afterwards, 20_memory R55). -/
abbrev BitReader.wf (b : BitReader) (src : Memory) : Prop :=
  b.ovf = decide (8 * b.len.toNat < b.pos) ∧ b.base.toNat + b.len.toNat ≤ src.size

/-- `first[l]` of 30_encoding R83 as a recursion on the length; `first[0]` is not used. -/
def firstCode (ls : List Nat) : Nat → Nat
  | 0 => 0
  | 1 => 0
  | l + 2 => 2 * (firstCode ls (l + 1) + ls.count (l + 1))

/-- The canonical code word of symbol `s` (30_encoding R83): `first` of its length, plus one for every smaller symbol of
that length. -/
def canonicalCode (ls : List Nat) (s : Nat) : Nat :=
  firstCode ls (ls.getD s 0) + (ls.take s).count (ls.getD s 0)

/-- A decoder context within its bounds (10_state R30); one with a table (`VALID` = 1) is configured, its lengths are valid
(30_encoding R82) and its code words canonical (30_encoding R83). -/
abbrev Context.wf (x : Context) : Prop :=
  x.numcodes.toNat ≤ Config.maxCodes ∧ x.maxbits.toNat ≤ Config.maxbitsMax ∧ x.run.toNat ≤ 2047 ∧
    (x.valid = true → x.numcodes ≠ 0 ∧ lengthsValid x.maxbits.toNat x.lens = true ∧
      ∀ s, s < x.numcodes.toNat → x.lenAt s ≠ 0 → x.codeAt s = canonicalCode x.lens s)

/-- A memory in its canonical form whose addresses are 32-bit byte addresses (20_memory R50). -/
abbrev memoryWf (m : Memory) : Prop := m.wf = true ∧ m.size ≤ 2 ^ 32

/-- A well-formed machine. -/
abbrev State.wf (s : State) : Prop :=
  statusWf s.st ∧ s.dec.br.wf s.src ∧ (∀ c : Fin 7, (s.dec.ctx c).wf) ∧
    memoryWf s.src ∧ memoryWf s.dst ∧ memoryWf s.sec ∧ memoryWf s.sub

/-- The machine runs: no error is latched (10_state R27). -/
abbrev State.running (s : State) : Prop := s.err = 0

/-- The state a step or a command answers with, if it does. -/
def nextOf (o : Host.Outcome State Fault Refusal) : Option State :=
  match o with
  | .next t => some t
  | .fault _ => none
  | .refused _ => none

/-! ## Streams -/

/-- The `n` bits of `v`, most significant first (20_memory R53). -/
def msbBits (n v : Nat) : List Bool := (List.range n).map fun i => v.testBit (n - 1 - i)

/-- The `n` stream bits from bit `k` on (30_encoding R80). -/
def BitReader.streamBits (b : BitReader) (src : Memory) (k n : Nat) : List Bool :=
  (List.range n).map fun i => b.streamBit src (k + i)

/-- The stream holds these bits from bit `k` on. -/
abbrev BitReader.holdsAt (b : BitReader) (src : Memory) (k : Nat) (bits : List Bool) : Prop :=
  b.streamBits src k bits.length = bits

/-- The code word of symbol `s` under the canonical code of a length list, as stream bits (30_encoding R83). -/
def codeWord (ls : List Nat) (s : Nat) : List Bool := msbBits (ls.getD s 0) (canonicalCode ls s)

/-- The symbols all have a code word (30_encoding R81). -/
abbrev usedSymbols (ls : List Nat) (syms : List Nat) : Prop := ∀ s ∈ syms, s < ls.length ∧ ls.getD s 0 ≠ 0

/-- No used symbol has its code word at bit `k`: a decode there matches nothing (41_huffman R135). -/
abbrev BitReader.unmatched (b : BitReader) (src : Memory) (k : Nat) (ls : List Nat) : Prop :=
  ∀ u < ls.length, ls.getD u 0 ≠ 0 → ¬ b.holdsAt src k (codeWord ls u)

/-! ## The RLE tree format (30_encoding R87, R88) -/

/-- A token of the RLE protocol (30_encoding R88). -/
inductive Token where
  | literal (m : Nat)
  | small (f : Nat)
  | large (hi lo : Nat)
  deriving DecidableEq, Repr

/-- The meta symbol a token starts with (30_encoding R87). -/
def Token.symbol : Token → Nat
  | .literal m => m
  | .small _ => 9
  | .large _ _ => 10

/-- The raw fields after the meta code word (30_encoding R88). -/
def Token.rawBits : Token → List Bool
  | .literal _ => []
  | .small f => msbBits 4 f
  | .large hi lo => msbBits 4 hi ++ msbBits 4 lo

/-- The fields of a token are in range (30_encoding R88). -/
def Token.fits : Token → Bool
  | .literal m => decide (m ≤ 8)
  | .small f => decide (f < 16)
  | .large hi lo => decide (hi < 16) && decide (lo < 16)

/-- The lengths a token list produces after the previous length `prev` (30_encoding R88). -/
def expandTokens : Nat → List Token → List Nat
  | _, [] => []
  | _, .literal m :: rest => m :: expandTokens m rest
  | prev, .small f :: rest => List.replicate (f + 1) prev ++ expandTokens prev rest
  | prev, .large hi lo :: rest => List.replicate (17 + 16 * hi + lo) prev ++ expandTokens prev rest

/-- A tree in the RLE protocol: the lengths of the meta code and the tokens (30_encoding R87, R88). -/
structure RleTree where
  metaLens : List Nat
  tokens : List Token
  deriving DecidableEq, Repr

/-- The stream bits of a tree (30_encoding R87, R88). -/
def RleTree.bits (t : RleTree) : List Bool :=
  t.metaLens.flatMap (msbBits 4) ++ t.tokens.flatMap fun tok => codeWord t.metaLens tok.symbol ++ tok.rawBits

/-- The length list a tree conveys (30_encoding R88). -/
def RleTree.lens (t : RleTree) : List Nat := expandTokens 0 t.tokens

/-- A legal tree for an alphabet: a valid meta code with a word for each token used, as many lengths as symbols, and a
length list that passes `BuildTable` (41_huffman R138). -/
abbrev RleTree.legal (t : RleTree) (numcodes maxbits : Nat) : Prop :=
  t.metaLens.length = 11 ∧ lengthsValid 4 t.metaLens = true ∧
    (∀ tok ∈ t.tokens, tok.fits = true ∧ t.metaLens.getD tok.symbol 0 ≠ 0) ∧
    t.lens.length = numcodes ∧ lengthsValid maxbits t.lens = true

/-- A tree whose tokens can all be read: a valid meta code with a word for each token used (41_huffman R133). -/
abbrev RleTree.readable (t : RleTree) : Prop :=
  t.metaLens.length = 11 ∧ lengthsValid 4 t.metaLens = true ∧
    ∀ tok ∈ t.tokens, tok.fits = true ∧ t.metaLens.getD tok.symbol 0 ≠ 0

/-- The stream from bit `k` on is no tree of an alphabet with `MAXBITS` 8, for one of the reasons of 41_huffman R134: the
meta table is invalid; or, after any good tokens, no meta code word matches, a run passes the end of the alphabet, or the
finished lengths are over the Kraft sum. (A literal is at most 8, so none is above `MAXBITS`.) -/
inductive BadTree (b : BitReader) (src : Memory) (k numcodes : Nat) : Prop
  | invalidMeta (metaLens : List Nat) (hl : metaLens.length = 11) (hv : ∀ v ∈ metaLens, v < 16)
      (hs : b.holdsAt src k (metaLens.flatMap (msbBits 4))) (hk : lengthsValid 4 metaLens = false)
  | noMetaWord (t : RleTree) (ht : t.readable) (hn : t.lens.length < numcodes) (hs : b.holdsAt src k t.bits)
      (hu : b.unmatched src (k + t.bits.length) t.metaLens)
  | longRun (t : RleTree) (tok : Token) (ht : t.readable) (hn : t.lens.length < numcodes) (hf : tok.fits = true)
      (hc : t.metaLens.getD tok.symbol 0 ≠ 0) (hr : numcodes < (expandTokens 0 (t.tokens ++ [tok])).length)
      (hs : b.holdsAt src k (t.bits ++ codeWord t.metaLens tok.symbol ++ tok.rawBits))
  | overKraft (t : RleTree) (ht : t.readable) (hn : t.lens.length = numcodes) (hs : b.holdsAt src k t.bits)
      (hk : lengthsValid 8 t.lens = false)

/-! ## Runs of one command -/

/-- Issue one command `n` times: the results in `R[0]` and the last state, if every one answers a next state. -/
def runMany (i : Instr) : Nat → State → Option (List Word × State)
  | 0, s => some ([], s)
  | n + 1, s =>
    match exec i s with
    | .next t => (runMany i n t).map fun p => (t.r[0] :: p.1, p.2)
    | .fault _ => none
    | .refused _ => none

/-! ## Code words of the ECC (43_cd_frame R170) -/

/-- The code word of column or diagonal `major` in a sector: its covered bytes in order, then its two parity bytes
(43_cd_frame R170). -/
def eccCodeWord (m : Memory) (o majors minors mult inc dest major : Nat) : List Byte :=
  (List.range minors).map (fun k => eccByte m o ((eccStart major mult + inc * k) % (majors * minors))) ++
    [m.byte (o + dest + major), m.byte (o + dest + majors + major)]

/-- The xor of all bytes of a code word. -/
def wordXor (ws : List Byte) : Byte := ws.foldl (fun a w => a ^^^ w) 0

/-- The weighted sum of a code word: `2^(n-1-i)` times byte `i`, in GF(2^8) (43_cd_frame R170, 95_test_vectors V43-4). -/
def wordWeighted (ws : List Byte) : Byte := ws.foldl (fun a w => mul2 a ^^^ w) 0

/-- Every column and every diagonal of the sector at `o` is a code word: its xor and its weighted sum are 0
(43_cd_frame R170). -/
abbrev eccHolds (m : Memory) (o : Nat) : Prop :=
  (∀ major < 86, wordXor (eccCodeWord m o 86 24 2 86 2076 major) = 0 ∧
    wordWeighted (eccCodeWord m o 86 24 2 86 2076 major) = 0) ∧
  (∀ major < 52, wordXor (eccCodeWord m o 52 43 86 88 2248 major) = 0 ∧
    wordWeighted (eccCodeWord m o 52 43 86 88 2248 major) = 0)

/-! ## Fields of memory, samples -/

/-- The 16-bit big-endian field at `a` (20_memory R52). -/
def halfAt (m : Memory) (a : Nat) : Nat := 256 * (m.byte a).toNat + (m.byte (a + 1)).toNat

/-- Sample `i` of a channel: the sum of deltas 0 to `i` modulo 65536 (44_avhuff R196). -/
def sampleOf (delta : Nat → Nat) (i : Nat) : Nat := ((List.range (i + 1)).map delta).sum % 65536

/-- The payload at `b` has the input header `h` (30_encoding R100). -/
abbrev headerAt (src : Memory) (b : Nat) (h : AvhHeader) : Prop :=
  h.metasize = (src.byte b).toNat ∧ h.channels = (src.byte (b + 1)).toNat ∧ h.samples = halfAt src (b + 2) ∧
    h.width = halfAt src (b + 4) ∧ h.height = halfAt src (b + 6) ∧ h.treesize = halfAt src (b + 8) ∧
    h.chsize = (List.range h.channels).map fun c => halfAt src (b + 10 + 2 * c)

/-- All tests of AVH_DECODE pass for the payload with header `h` (44_avhuff R180). -/
abbrev hunkFits (s : State) (h : AvhHeader) : Prop :=
  s.opA 0 + s.opA 1 ≤ s.src.size ∧ s.opA 2 ≤ s.dst.size ∧ 10 + 2 * h.channels ≤ s.opA 1 ∧ h.total ≤ s.opA 1 ∧
    (h.width * h.height > 0 → h.width % 2 = 0) ∧ h.outlen ≤ s.opA 2

/-- `DST` holds the output header and the metadata of the payload at `b` (30_encoding R102, R103). -/
abbrev startsHunk (src : Memory) (b : Nat) (h : AvhHeader) (m : Memory) : Prop :=
  m.byte 0 = 0x63 ∧ m.byte 1 = 0x68 ∧ m.byte 2 = 0x61 ∧ m.byte 3 = 0x76 ∧
    (∀ i < 8, m.byte (4 + i) = src.byte (b + i)) ∧
    (∀ i < h.metasize, m.byte (12 + i) = src.byte (b + 10 + 2 * h.channels + i))

/-- What `FLAC_DEC` returns for each channel, the first from `p` on; nothing when it fails on one (44_avhuff R199). -/
def flacResults (src : Memory) (samples : Nat) : List Nat → Nat → Option (List (Nat → Half))
  | [], _ => some []
  | size :: rest, p =>
    (Config.flacDec (src.readBytes p size) samples).bind fun r => (flacResults src samples rest (p + size)).map (r :: ·)

/-! ## AVH_DECODE as its part commands (the opening of 44_avhuff; R180) -/

/-- Issue a command with these operands: the state after it, if it succeeds. -/
def partCommand (i : Instr) (a : Vector Word 4) (s : State) : Option State :=
  match exec i { s with a := a } with
  | .next t => if t.err = 0 then some t else none
  | .fault _ => none
  | .refused _ => none

/-- One AVH_AUDIO_CH command for every channel, the first at `p` in `SRC` and at `q` in `DST` (44_avhuff R180). -/
def channelParts (i : Instr) (samples : Nat) : List Nat → Nat → Nat → State → Option State
  | [], _, _, s => some s
  | size :: rest, p, q, s =>
    (partCommand i #v[BitVec.ofNat 32 p, BitVec.ofNat 32 size, BitVec.ofNat 32 q, BitVec.ofNat 32 samples] s).bind
      (channelParts i samples rest (p + size) (q + 2 * samples))

/-- The audio commands of a hunk without FLAC audio: raw channels, or the trees and then the Huffman channels
(44_avhuff R180). -/
def audioParts (h : AvhHeader) (p q : Nat) (s : State) : Option State :=
  if h.treesize = 0 then channelParts .avhAudioChRaw h.samples h.chsize p q s
  else
    (partCommand .avhAudioTrees #v[BitVec.ofNat 32 p, BitVec.ofNat 32 h.treesize, 0, 0] s).bind
      (channelParts .avhAudioChHuf h.samples h.chsize (p + h.treesize) q)

/-- The AVH_VIDEO command of a hunk, if the hunk has video, on `vlen` bytes from `p` (44_avhuff R180). -/
def videoPart (h : AvhHeader) (p vlen q : Nat) (s : State) : Option State :=
  if 0 < h.width * h.height then
    partCommand .avhVideo #v[BitVec.ofNat 32 p, BitVec.ofNat 32 vlen, BitVec.ofNat 32 q,
      BitVec.ofNat 32 (65536 * h.width + h.height)] s
  else some s

/-- Every region of the payload at `b` that a part command reads starts at an address that an operand register can hold. -/
abbrev partsAddressable (b : Nat) (h : AvhHeader) : Prop :=
  (h.treebytes ≠ 0 → b + h.hdr + h.metasize < 2 ^ 32) ∧
    (∀ c < h.channels, b + h.hdr + h.metasize + h.treebytes + (h.chsize.take c).sum < 2 ^ 32) ∧
    (0 < h.width * h.height → b + h.total < 2 ^ 32)

/-! ## What each command may do -/

/-- The command fails with kind `k`: the next state records it with the command's operation code (60_exceptions R216). -/
abbrev raises (i : Instr) (s : State) (k : ErrorKind) : Prop := ∃ t, exec i s = .next t ∧ t.st = stWord k i.op

/-- The error kinds a command can raise, besides `IllegalCommand` for an illegal word (60_exceptions R212). -/
def errorKindsOf : Instr → List ErrorKind
  | .blkReset => []
  | .brInit => [.readError]
  | .brPeek _ => []
  | .brRead _ => []
  | .brFlush => []
  | .brOvf => []
  | .hufConfig _ => [.outOfMemory, .illegalCommand]
  | .hufImportFlat _ => [.invalidData, .illegalCommand]
  | .hufImportRle _ => [.invalidData, .illegalCommand]
  | .hufDecode _ => [.invalidData, .illegalCommand]
  | .rleDecode _ => [.invalidData, .illegalCommand]
  | .rleFlush _ => []
  | .rleReset _ => []
  | .cdHdr => [.readError, .invalidData]
  | .cdAssemble => [.readError]
  | .cdSync => [.readError]
  | .cdEcc => [.readError]
  | .avhDecode => [.readError, .invalidData, .unsupportedFormat]
  | .avhAudioTrees => [.readError, .invalidData]
  | .avhAudioChRaw => [.readError, .invalidData]
  | .avhAudioChHuf => [.readError, .invalidData, .illegalCommand]
  | .avhVideo => [.readError, .invalidData]

/-- The `DST` bytes a command may write, as a start and a length (20_memory R51, R66; the command rules). -/
def dstRange (s : State) : Instr → Nat × Nat
  | .cdAssemble => (0, 2448 * s.opA 0)
  | .cdSync => (s.opA 0, 12)
  | .cdEcc => (s.opA 0 + 2076, 276)
  | .avhDecode => (0, s.opA 2)
  | .avhAudioChRaw => (s.opA 2, 2 * s.opA 3)
  | .avhAudioChHuf => (s.opA 2, 2 * s.opA 3)
  | .avhVideo => (s.opA 2, 2 * s.videoWidth * s.videoHeight)
  | .blkReset => (0, 0)
  | .brInit => (0, 0)
  | .brPeek _ => (0, 0)
  | .brRead _ => (0, 0)
  | .brFlush => (0, 0)
  | .brOvf => (0, 0)
  | .hufConfig _ => (0, 0)
  | .hufImportFlat _ => (0, 0)
  | .hufImportRle _ => (0, 0)
  | .hufDecode _ => (0, 0)
  | .rleDecode _ => (0, 0)
  | .rleFlush _ => (0, 0)
  | .rleReset _ => (0, 0)
  | .cdHdr => (0, 0)
  | .avhAudioTrees => (0, 0)

/-- The decoder contexts a command may change (10_state R31; the command rules). -/
def touchedContexts : Instr → List (Fin 7)
  | .hufConfig c => (contextNumber c).toList
  | .hufImportFlat c => (contextNumber c).toList
  | .hufImportRle c => 6 :: (contextNumber c).toList
  | .rleDecode c => (contextNumber c).toList
  | .rleFlush c => (contextNumber c).toList
  | .rleReset c => (contextNumber c).toList
  | .avhDecode => [1, 2, 3, 4, 5, 6]
  | .avhAudioTrees => [1, 2, 6]
  | .avhVideo => [3, 4, 5, 6]
  | .blkReset => [0, 1, 2, 3, 4, 5, 6]
  | .brInit => []
  | .brPeek _ => []
  | .brRead _ => []
  | .brFlush => []
  | .brOvf => []
  | .hufDecode _ => []
  | .cdHdr => []
  | .cdAssemble => []
  | .cdSync => []
  | .cdEcc => []
  | .avhAudioChRaw => []
  | .avhAudioChHuf => []

/-- The result registers a command writes when it succeeds (30_encoding R72). -/
def resultsOf : Instr → List (Fin 4)
  | .blkReset => [0, 1, 2, 3]
  | .brPeek _ => [0]
  | .brRead _ => [0]
  | .brFlush => [0]
  | .brOvf => [0]
  | .hufDecode _ => [0]
  | .rleDecode _ => [0]
  | .cdHdr => [0, 1, 2, 3]
  | .avhDecode => [0]
  | .avhVideo => [0]
  | .brInit => []
  | .hufConfig _ => []
  | .hufImportFlat _ => []
  | .hufImportRle _ => []
  | .rleFlush _ => []
  | .rleReset _ => []
  | .cdAssemble => []
  | .cdSync => []
  | .cdEcc => []
  | .avhAudioTrees => []
  | .avhAudioChRaw => []
  | .avhAudioChHuf => []

/-- What a command may do to the bit reader: nothing, move it on in its buffer, or attach it to another buffer
(40_bitreader; 70 R249). -/
inductive ReaderUse where
  | untouched
  | moved
  | attached
  deriving DecidableEq, Repr

/-- What each command may do to the bit reader (40_bitreader; 70 R240, R249). -/
def readerUse : Instr → ReaderUse
  | .blkReset => .attached
  | .brInit => .attached
  | .avhDecode => .attached
  | .avhAudioTrees => .attached
  | .avhAudioChHuf => .attached
  | .avhVideo => .attached
  | .brRead _ => .moved
  | .brFlush => .moved
  | .hufImportFlat _ => .moved
  | .hufImportRle _ => .moved
  | .hufDecode _ => .moved
  | .rleDecode _ => .moved
  | .brPeek _ => .untouched
  | .brOvf => .untouched
  | .hufConfig _ => .untouched
  | .rleFlush _ => .untouched
  | .rleReset _ => .untouched
  | .cdHdr => .untouched
  | .cdAssemble => .untouched
  | .cdSync => .untouched
  | .cdEcc => .untouched
  | .avhAudioChRaw => .untouched

/-- The assigned operation codes (30_encoding R71). -/
def assignedOps : List (BitVec 8) :=
  [0x00, 0x10, 0x11, 0x12, 0x13, 0x14, 0x20, 0x21, 0x22, 0x23, 0x30, 0x31, 0x32, 0x40, 0x41, 0x42, 0x43, 0x50, 0x51, 0x52,
    0x53]

/-- The operation codes of the commands that take a context (30_encoding R72). -/
def contextOps : List (BitVec 8) := [0x20, 0x21, 0x22, 0x23, 0x30, 0x31, 0x32]

/-- The list of 30_encoding R74: what makes a command word illegal. -/
abbrev illegalByRule (w : Word) : Prop :=
  opField w ∉ assignedOps ∨ rsvField w ≠ 0 ∨ (opField w ∉ contextOps ∧ ctxField w ≠ 0) ∨
    (opField w ∈ contextOps ∧ 6 ≤ (ctxField w).toNat) ∨
    (opField w ∉ [0x11, 0x12, 0x52] ∧ immField w ≠ 0) ∨
    (opField w ∈ [0x11, 0x12] ∧ 32 < (immField w).toNat) ∨ (opField w = 0x52 ∧ 1 < (immField w).toNat)

/-! ## Scripts of the video planes (44_avhuff R200, R201; 42_huffman_rle R151) -/

/-- Predictor and run of one plane. -/
structure Plane where
  prev : Byte
  run : Nat
  deriving DecidableEq, Repr

/-- The three planes. -/
structure Planes where
  y : Plane
  cb : Plane
  cr : Plane
  deriving DecidableEq, Repr

/-- The planes at the top left (44_avhuff R200). -/
def Planes.start : Planes := { y := ⟨0, 0⟩, cb := ⟨0, 0⟩, cr := ⟨0, 0⟩ }

/-- The next sample of a plane, from the code word of a symbol, or from none inside a run (42_huffman_rle R151,
30_encoding R106); `none` where the script does not fit the state. -/
def Plane.play (p : Plane) : Option Nat → Option (Byte × Plane)
  | none => if p.run = 0 then none else some (p.prev, { p with run := p.run - 1 })
  | some s =>
    if p.run ≠ 0 then none
    else if s < 256 then some (p.prev + BitVec.ofNat 8 s, { prev := p.prev + BitVec.ofNat 8 s, run := 0 })
    else some (p.prev, { p with run := rleCount (s - 256) - 1 })

/-- The code words of one pixel pair: Y, Cb, Y, Cr, each absent inside a run (30_encoding R106, R107). -/
structure PairCodes where
  y1 : Option Nat
  cb : Option Nat
  y2 : Option Nat
  cr : Option Nat
  deriving DecidableEq, Repr

/-- The four bytes of a pixel pair. -/
def Planes.playPair (p : Planes) (c : PairCodes) : Option (List Byte × Planes) :=
  (p.y.play c.y1).bind fun a => (p.cb.play c.cb).bind fun b => (a.2.play c.y2).bind fun a' =>
    (p.cr.play c.cr).map fun d => ([a.1, b.1, a'.1, d.1], { y := a'.2, cb := b.2, cr := d.2 })

/-- The bytes of the pixel pairs of a row. -/
def Planes.playPairs (p : Planes) : List PairCodes → Option (List Byte × Planes)
  | [] => some ([], p)
  | c :: cs => (p.playPair c).bind fun a => (Planes.playPairs a.2 cs).map fun b => (a.1 ++ b.1, b.2)

/-- The row end: every run is cut (44_avhuff R200). -/
def Planes.cut (p : Planes) : Planes :=
  { y := { p.y with run := 0 }, cb := { p.cb with run := 0 }, cr := { p.cr with run := 0 } }

/-- The bytes of all rows, and the planes after the last row end. -/
def Planes.playRows (p : Planes) : List (List PairCodes) → Option (List Byte × Planes)
  | [] => some ([], p)
  | r :: rs => (p.playPairs r).bind fun a => (Planes.playRows a.2.cut rs).map fun b => (a.1 ++ b.1, b.2)

/-- The stream bits of one sample of a script. -/
def scriptBits (ls : List Nat) : Option Nat → List Bool
  | none => []
  | some s => codeWord ls s

/-- The stream bits of a pixel pair, under the codes of the three trees (30_encoding R106). -/
def PairCodes.bits (ty tcb tcr : List Nat) (c : PairCodes) : List Bool :=
  scriptBits ty c.y1 ++ scriptBits tcb c.cb ++ scriptBits ty c.y2 ++ scriptBits tcr c.cr

/-- At bit `k` the planes are in front of a pixel pair that needs a code word where none matches: at its first Y sample, at
Cb, at the second Y or at Cr, after the code words of the samples before it (44_avhuff R200, 42_huffman_rle R151). -/
inductive StuckPair (b : BitReader) (src : Memory) (ty tcb tcr : List Nat) (p : Planes) (k : Nat) : Prop
  | y1 (hr : p.y.run = 0) (hu : b.unmatched src k ty)
  | cb (c1 : Option Nat) (y : Byte × Plane) (bits : List Bool) (h1 : p.y.play c1 = some y)
      (u1 : usedSymbols ty c1.toList) (hb : bits = scriptBits ty c1) (hs : b.holdsAt src k bits) (hr : p.cb.run = 0)
      (hu : b.unmatched src (k + bits.length) tcb)
  | y2 (c1 c2 : Option Nat) (y cb : Byte × Plane) (bits : List Bool) (h1 : p.y.play c1 = some y)
      (h2 : p.cb.play c2 = some cb) (u1 : usedSymbols ty c1.toList) (u2 : usedSymbols tcb c2.toList)
      (hb : bits = scriptBits ty c1 ++ scriptBits tcb c2) (hs : b.holdsAt src k bits) (hr : y.2.run = 0)
      (hu : b.unmatched src (k + bits.length) ty)
  | cr (c1 c2 c3 : Option Nat) (y cb y' : Byte × Plane) (bits : List Bool) (h1 : p.y.play c1 = some y)
      (h2 : p.cb.play c2 = some cb) (h3 : y.2.play c3 = some y') (u1 : usedSymbols ty c1.toList)
      (u2 : usedSymbols tcb c2.toList) (u3 : usedSymbols ty c3.toList)
      (hb : bits = scriptBits ty c1 ++ scriptBits tcb c2 ++ scriptBits ty c3) (hs : b.holdsAt src k bits)
      (hr : p.cr.run = 0) (hu : b.unmatched src (k + bits.length) tcr)

/-- Every symbol of a pixel pair has a code word in its tree. -/
abbrev PairCodes.coded (ty tcb tcr : List Nat) (c : PairCodes) : Prop :=
  usedSymbols ty c.y1.toList ∧ usedSymbols tcb c.cb.toList ∧ usedSymbols ty c.y2.toList ∧ usedSymbols tcr c.cr.toList

end Sys2Proof.Machine
end

