-- ==== Sys2Proof/Certificates/Slice0/Obligations.lean ====
section
/-! DEFINITION. The statements for the provers. Every one is about every state, not about runs from reset. -/

open Sys2Proof Sys2Proof.Machine

/-! ## The command word -/

/-- 30_encoding R70 to R72: the word of every legal command decodes to that command, every operand kept. -/
def Obligations.DecodeOfEncode : Prop :=
  ∀ i : Instr, i.wellFormed = true → decode (encode i) = .ok i

/-- 30_encoding R74, R70, R71: a word that decodes is the word of the legal command it decodes to, so no two words mean one
command and no reserved word means any. -/
def Obligations.DecodedWordIsTheEncodedOne : Prop :=
  ∀ (w : Word) (i : Instr), decode w = .ok i → i.wellFormed = true ∧ encode i = w

/-- 30_encoding R74: which words are illegal, and that an illegal word raises `IllegalCommand` and changes nothing else. -/
def Obligations.IllegalWordsRaiseIllegalCommand : Prop :=
  (∀ w : Word, (∃ e, decode w = .error e) ↔ illegalByRule w) ∧
    ∀ (s : State) (w : Word), s.running → illegalByRule w →
      step (s.hostIssues w) = .next { s with cw := w, st := stWord .illegalCommand (opField w) }

/-- 30_encoding R70, R71, R75: ten command words and their commands. Nine words are written out in the spec (R71, R75,
95_test_vectors V30-1; 0x11000008 in V40-1, 0x22000000 in V41-5); 0x31500000 is put together from the fields of R70. -/
def Obligations.SpecWordsDecode : Prop :=
  decode 0x00000000#32 = .ok .blkReset ∧ decode 0x12000005#32 = .ok (.brRead 5) ∧
    decode 0x11000008#32 = .ok (.brPeek 8) ∧ decode 0x23300000#32 = .ok (.hufDecode 3) ∧
    decode 0x22000000#32 = .ok (.hufImportRle 0) ∧ decode 0x31500000#32 = .ok (.rleFlush 5) ∧
    decode 0x41000000#32 = .ok .cdAssemble ∧ decode 0x52000000#32 = .ok .avhAudioChRaw ∧
    decode 0x52000001#32 = .ok .avhAudioChHuf ∧ decode 0x53000000#32 = .ok .avhVideo

/-- 10_state R21, 00_scope R2: a step with a host that writes `CW` runs the decoded command, whole, on the state with that
word in `CW`. -/
def Obligations.StepRunsTheIssuedCommand : Prop :=
  (∀ (s : State) (w : Word) (rest : List HostAction) (i : Instr), s.host = .writeCW w :: rest → decode w = .ok i →
    step s = exec i { s with host := rest, cw := w }) ∧
  (∀ (s : State) (i : Instr), i.wellFormed = true →
    step (s.withFetchWord 32 (encode i).toNat) = exec i { s with cw := encode i })

/-- 30_encoding R74: a command whose context or bit count is out of range raises `IllegalCommand` before any operand is
read, and changes nothing else. -/
def Obligations.OutOfRangeCommandsRaiseIllegalCommand : Prop :=
  ∀ (i : Instr) (s : State), i.wellFormed = false → s.running →
    exec i s = .next { s with st := stWord .illegalCommand i.op }

/-! ## Latch, reset, host -/

/-- 60_exceptions R217: while an error is latched every word but 0 has no effect at all; the word 0 is executed and clears
the status. That `CW` itself takes the host's word is the model's choice (log entry 22). -/
def Obligations.LatchedBlockIgnoresEveryOtherWord : Prop :=
  ∀ (s : State) (w : Word), ¬ s.running →
    (w ≠ 0 → step (s.hostIssues w) = .next { s with cw := w }) ∧
      (w = 0 → ∃ t, step (s.hostIssues w) = .next t ∧ t.st = 0)

/-- 60_exceptions R218, 10_state R22: a latched status stays as it is through every step but a reset. -/
def Obligations.OnlyResetClearsTheLatch : Prop :=
  ∀ s t : State, step s = .next t → ¬ s.running →
    t.st = s.st ∨ (t.st = 0 ∧ ∃ rest, s.host = .writeCW 0 :: rest ∨ s.host = .powerOn :: rest)

/-- 70 R240: what BLK_RESET leaves, in every state, latched or not; its word is 0 and no other word is it. -/
def Obligations.BlkResetClearsTheBlock : Prop :=
  (∀ w : Word, decode w = .ok .blkReset ↔ w = 0) ∧
  ∀ s : State, ∃ t, exec .blkReset s = .next t ∧ t.a = Vector.replicate 4 0 ∧ t.r = Vector.replicate 4 0 ∧ t.st = 0 ∧
    t.dec.br = { base := 0, len := 0, pos := 0, ovf := false } ∧
    (∀ c : Fin 7, (t.dec.ctx c).numcodes = 0 ∧ (t.dec.ctx c).maxbits = 0 ∧ (t.dec.ctx c).valid = false ∧
      (t.dec.ctx c).prev = 0 ∧ (t.dec.ctx c).run = 0) ∧
    t.src = s.src ∧ t.dst = s.dst ∧ t.sec = s.sec ∧ t.sub = s.sub

/-- 70 R241: power-on gives what BLK_RESET gives, and keeps of `DST` only its size. That power-on is an action in the
host's list is the model's choice (log entry 7). -/
def Obligations.PowerOnResetsTheBlock : Prop :=
  ∀ (s : State) (rest : List HostAction), s.host = .powerOn :: rest →
    ∃ t, step s = .next t ∧ t.a = Vector.replicate 4 0 ∧ t.r = Vector.replicate 4 0 ∧ t.st = 0 ∧
      t.dec.br = { base := 0, len := 0, pos := 0, ovf := false } ∧
      (∀ c : Fin 7, (t.dec.ctx c).numcodes = 0 ∧ (t.dec.ctx c).maxbits = 0 ∧ (t.dec.ctx c).valid = false ∧
        (t.dec.ctx c).prev = 0 ∧ (t.dec.ctx c).run = 0) ∧
      t.src = s.src ∧ t.sec = s.sec ∧ t.sub = s.sub ∧ t.dst.size = s.dst.size ∧ t.flac = s.flac ∧ t.host = rest

/-- 10_state R37: the state right after power-on, where the spec gives a value. -/
def Obligations.ResetStateHoldsTheResetValues : Prop :=
  State.reset.a = Vector.replicate 4 0 ∧ State.reset.r = Vector.replicate 4 0 ∧ State.reset.st = 0 ∧
    State.reset.dec.br = { base := 0, len := 0, pos := 0, ovf := false } ∧
    ∀ c : Fin 7, (State.reset.dec.ctx c).numcodes = 0 ∧ (State.reset.dec.ctx c).maxbits = 0 ∧
      (State.reset.dec.ctx c).valid = false ∧ (State.reset.dec.ctx c).prev = 0 ∧ (State.reset.dec.ctx c).run = 0

/-- The state after power-on is well-formed. -/
def Obligations.ResetIsWellFormed : Prop := State.reset.wf

/-- Every step keeps a machine well-formed: the reserved bits and the legal codes of `ST` (10_state R22), `OVF` saying
exactly that the position is past the buffer, which lies in `SRC` (40_bitreader R123, R124), contexts within their bounds
and every valid table canonical (10_state R30, 30_encoding R82, R83), memories in canonical form. -/
def Obligations.StepKeepsWellFormed : Prop :=
  ∀ s t : State, s.wf → step s = .next t → t.wf

/-- 10_state R23, 20_memory R60, 60_exceptions R229: what the host's own actions do, and that the block waits when the host
does nothing. That the host's actions are a list in State, and that a host write outside a space is a fault, are the
model's choices (log entries 7, 9). -/
def Obligations.HostActionsDoWhatTheySay : Prop :=
  ∀ s : State,
    (s.host = [] → step s = .next s) ∧
    (∀ i v rest, s.host = .writeA i v :: rest →
      ∃ t, step s = .next t ∧ t.opA i = v.toNat ∧ (∀ j, j ≠ i → t.opA j = s.opA j) ∧
        t = { s with host := rest, a := t.a }) ∧
    (∀ space addr b rest, s.host = .writeByte space addr b :: rest →
      (addr.toNat < (s.memory space).size →
        ∃ t, step s = .next t ∧ (t.memory space).byte addr.toNat = b ∧
          (∀ x, x ≠ addr.toNat → (t.memory space).byte x = (s.memory space).byte x) ∧
          (∀ other, other ≠ space → t.memory other = s.memory other) ∧
          t = { s with host := rest, src := t.src, dst := t.dst, sec := t.sec, sub := t.sub }) ∧
      ((s.memory space).size ≤ addr.toNat → step s = .fault .hostOutsideMemory))

/-! ## What every command may and may not do -/

/-- 60_exceptions R210, R212: a legal command that runs either completes, or records one of the kinds its row lists, with
its own operation code. -/
def Obligations.CommandsRaiseOnlyTheirListedKinds : Prop :=
  ∀ (i : Instr) (s t : State), i.wellFormed = true → s.running → exec i s = .next t →
    t.running ∨ ∃ k ∈ errorKindsOf i, t.st = stWord k i.op

/-- 60_exceptions R216: what error entry keeps, for every command: the operands, the read-only spaces, and every `DST` byte
the command's rule may not write. -/
def Obligations.ErrorEntryKeepsOperandsAndOtherBytes : Prop :=
  ∀ (i : Instr) (s t : State), s.running → exec i s = .next t → ¬ t.running →
    (∃ k, t.st = stWord k i.op) ∧ t.a = s.a ∧ t.src = s.src ∧ t.sec = s.sec ∧ t.sub = s.sub ∧
      t.dst.size = s.dst.size ∧
      ∀ x, x < (dstRange s i).1 ∨ (dstRange s i).1 + (dstRange s i).2 ≤ x → t.dst.byte x = s.dst.byte x

/-- 20_memory R66, R51, R57: whatever a command does, failing included, it writes `DST` only, and only the bytes its rule
names; it never writes `A` (but for the reset), `CW` or what lies outside the block. -/
def Obligations.CommandsWriteOnlyTheirDstBytes : Prop :=
  ∀ (i : Instr) (s t : State), exec i s = .next t →
    t.src = s.src ∧ t.sec = s.sec ∧ t.sub = s.sub ∧ t.dst.size = s.dst.size ∧ t.cw = s.cw ∧ t.flac = s.flac ∧
      t.host = s.host ∧ (i ≠ .blkReset → t.a = s.a) ∧
      ∀ x, x < (dstRange s i).1 ∨ (dstRange s i).1 + (dstRange s i).2 ≤ x → t.dst.byte x = s.dst.byte x

/-- 10_state R21: the result registers that a successful command does not name keep their values. -/
def Obligations.ResultsNotNamedAreKept : Prop :=
  ∀ (i : Instr) (s t : State) (j : Fin 4), s.running → exec i s = .next t → t.running → j ∉ resultsOf i →
    t.r[j.val] = s.r[j.val]

/-- 10_state R31, 40_bitreader R124, 70 R249: a command leaves every context alone that its rule does not name, and the bit
reader alone unless its rule moves or re-attaches it; one that moves it keeps it in the same buffer and never goes back. It covers failed commands too: that they keep what is
not named follows 60_exceptions R216, in the reading of log entry 13 (93 U7 allows any value). -/
def Obligations.ContextsAndReaderNotNamedAreKept : Prop :=
  ∀ (i : Instr) (s t : State), exec i s = .next t →
    (∀ c, c ∉ touchedContexts i → t.dec.ctx c = s.dec.ctx c) ∧
    (readerUse i = .untouched → t.dec.br = s.dec.br) ∧
    (readerUse i = .moved → t.dec.br.base = s.dec.br.base ∧ t.dec.br.len = s.dec.br.len ∧
      s.dec.br.pos ≤ t.dec.br.pos ∧ (s.dec.br.ovf = true → t.dec.br.ovf = true))

/-! ## Bit reader -/

/-- 40_bitreader R124: BR_INIT attaches the reader to a buffer inside `SRC`, and nothing else changes; a buffer outside it
raises `ReadError`, and nothing but the status changes. -/
def Obligations.BrInitAttachesTheReader : Prop :=
  encode .brInit = 0x10000000#32 ∧
  ∀ s : State, s.running →
    (s.opA 0 + s.opA 1 ≤ s.src.size → exec .brInit s =
      .next { s with dec := { s.dec with br := { base := s.a[0], len := s.a[1], pos := 0, ovf := false } } }) ∧
    (s.src.size < s.opA 0 + s.opA 1 → exec .brInit s = .next { s with st := stWord .readError 0x10#8 })

/-- 40_bitreader R121, R125: BR_PEEK returns the next `n` stream bits, first bit most significant, zeros past the buffer, and
changes nothing else; a count above 32 is an illegal word. -/
def Obligations.BrPeekReturnsTheNextBits : Prop :=
  ∀ (s : State) (n : BitVec 6), s.running →
    (n.toNat ≤ 32 → encode (.brPeek n) = 0x11000000#32 ||| n.setWidth 32 ∧
      ∃ v, v < 2 ^ n.toNat ∧
        (∀ i < n.toNat, v.testBit (n.toNat - 1 - i) =
          (decide (s.dec.br.pos + i < 8 * s.dec.br.len.toNat) &&
            (s.src.byte (s.dec.br.base.toNat + (s.dec.br.pos + i) / 8)).getLsbD (7 - (s.dec.br.pos + i) % 8))) ∧
        exec (.brPeek n) s = .next { s with r := s.r.set 0 (BitVec.ofNat 32 v) }) ∧
    (32 < n.toNat → exec (.brPeek n) s = .next { s with st := stWord .illegalCommand 0x11#8 })

/-- 40_bitreader R121, R123, R126: BR_READ returns the bits BR_PEEK returns, moves the position by `n`, and sets `OVF` when
the position is then past the last bit; nothing else changes. -/
def Obligations.BrReadConsumesTheNextBits : Prop :=
  ∀ (s : State) (n : BitVec 6), s.running →
    (n.toNat ≤ 32 → encode (.brRead n) = 0x12000000#32 ||| n.setWidth 32 ∧
      ∃ v, v < 2 ^ n.toNat ∧
        (∀ i < n.toNat, v.testBit (n.toNat - 1 - i) =
          (decide (s.dec.br.pos + i < 8 * s.dec.br.len.toNat) &&
            (s.src.byte (s.dec.br.base.toNat + (s.dec.br.pos + i) / 8)).getLsbD (7 - (s.dec.br.pos + i) % 8))) ∧
        exec (.brRead n) s = .next { s with
          r := s.r.set 0 (BitVec.ofNat 32 v)
          dec := { s.dec with br := { s.dec.br with
            pos := s.dec.br.pos + n.toNat
            ovf := s.dec.br.ovf || decide (8 * s.dec.br.len.toNat < s.dec.br.pos + n.toNat) } } }) ∧
    (32 < n.toNat → exec (.brRead n) s = .next { s with st := stWord .illegalCommand 0x12#8 })

/-- 40_bitreader R122: reads are exact at every position: reading `n` then `m` bits gives the two parts of what one read of
`n + m` bits gives, and leaves the same reader. -/
def Obligations.BrReadSplits : Prop :=
  ∀ (s t u v : State) (n m k : BitVec 6), s.running → k.toNat ≤ 32 → n.toNat + m.toNat = k.toNat →
    exec (.brRead n) s = .next t → exec (.brRead m) t = .next u → exec (.brRead k) s = .next v →
      v.r[0].toNat = t.r[0].toNat * 2 ^ m.toNat + u.r[0].toNat ∧ u.dec = v.dec

/-- 40_bitreader R127: BR_FLUSH returns the byte offset reached and moves the position there; `OVF`, the buffer and all else
are kept. An offset that does not fit `R[0]` (93 U6) leaves a free value there (log entry 14). -/
def Obligations.BrFlushRoundsUpToAByte : Prop :=
  encode .brFlush = 0x13000000#32 ∧
  ∀ s : State, s.running →
    ((s.dec.br.pos + 7) / 8 < 2 ^ 32 → exec .brFlush s = .next { s with
      r := s.r.set 0 (BitVec.ofNat 32 ((s.dec.br.pos + 7) / 8))
      dec := { s.dec with br := { s.dec.br with pos := 8 * ((s.dec.br.pos + 7) / 8) } } }) ∧
    (2 ^ 32 ≤ (s.dec.br.pos + 7) / 8 → ∃ t, exec .brFlush s = .next t ∧ t = { s with
      r := s.r.set 0 t.r[0]
      dec := { s.dec with br := { s.dec.br with pos := 8 * ((s.dec.br.pos + 7) / 8) } }
      free := s.free + 1 })

/-- 40_bitreader R128: BR_OVF returns the flag and changes nothing else; the flag is sticky: no command clears it but those
that re-attach the reader, and the reset. -/
def Obligations.BrOvfReportsTheStickyFlag : Prop :=
  encode .brOvf = 0x14000000#32 ∧
  (∀ s : State, s.running →
    exec .brOvf s = .next { s with r := s.r.set 0 (if s.dec.br.ovf then 1 else 0) }) ∧
  (∀ (i : Instr) (s t : State), exec i s = .next t → s.dec.br.ovf = true → t.dec.br.ovf = false →
    i ∈ [.blkReset, .brInit, .avhDecode, .avhAudioTrees, .avhAudioChHuf, .avhVideo])

/-! ## Plain decoder -/

/-- 41_huffman R130: HUF_CONFIG sets the alphabet and the largest length and clears the table, the predictor and the run of
its context, which is all it changes (`free` counts the unspecified tables); its two errors, in their order. -/
def Obligations.HufConfigConstructsTheContext : Prop :=
  ∀ (s : State) (k : Fin 7), s.running → k.val < 6 →
    encode (.hufConfig (BitVec.ofNat 4 k.val)) = 0x20000000#32 ||| (BitVec.ofNat 32 k.val <<< 20) ∧
    (272 < s.opA 0 → raises (.hufConfig (BitVec.ofNat 4 k.val)) s .outOfMemory) ∧
    (s.opA 0 ≤ 272 → (s.opA 0 = 0 ∨ s.opA 1 = 0 ∨ 32 < s.opA 1) →
      raises (.hufConfig (BitVec.ofNat 4 k.val)) s .illegalCommand) ∧
    (1 ≤ s.opA 0 → s.opA 0 ≤ 272 → 1 ≤ s.opA 1 → s.opA 1 ≤ 32 →
      ∃ t, exec (.hufConfig (BitVec.ofNat 4 k.val)) s = .next t ∧
        (t.dec.ctx k).numcodes.toNat = s.opA 0 ∧ (t.dec.ctx k).maxbits.toNat = s.opA 1 ∧ (t.dec.ctx k).valid = false ∧
        (t.dec.ctx k).prev = 0 ∧ (t.dec.ctx k).run = 0 ∧ (∀ c, c ≠ k → t.dec.ctx c = s.dec.ctx c) ∧
        t.dec.br = s.dec.br ∧ t = { s with dec := t.dec, free := t.free })

/-- 41_huffman R131, R132, 30_encoding R82 to R86: HUF_IMPORT_FLAT on the stream of any `NUMCODES` fields of `MAXBITS` bits:
a valid length array is imported with its canonical code, an invalid one raises `InvalidData`. -/
def Obligations.FlatImportReadsTheLengthFields : Prop :=
  ∀ (s : State) (k : Fin 7), s.running → k.val < 6 →
    encode (.hufImportFlat (BitVec.ofNat 4 k.val)) = 0x21000000#32 ||| (BitVec.ofNat 32 k.val <<< 20) ∧
    ((s.dec.ctx k).numcodes = 0 → raises (.hufImportFlat (BitVec.ofNat 4 k.val)) s .illegalCommand) ∧
    ∀ fields : List Nat, (s.dec.ctx k).wf → (s.dec.ctx k).numcodes ≠ 0 →
      fields.length = (s.dec.ctx k).numcodes.toNat → (∀ v ∈ fields, v < 2 ^ (s.dec.ctx k).maxbits.toNat) →
      s.dec.br.holdsAt s.src s.dec.br.pos (fields.flatMap (msbBits (s.dec.ctx k).maxbits.toNat)) →
      (lengthsValid (s.dec.ctx k).maxbits.toNat fields = true →
        ∃ d : Decoder, exec (.hufImportFlat (BitVec.ofNat 4 k.val)) s = .next { s with dec := d } ∧
          d.br.base = s.dec.br.base ∧ d.br.len = s.dec.br.len ∧
          d.br.pos = s.dec.br.pos + fields.length * (s.dec.ctx k).maxbits.toNat ∧
          d.br.ovf = (s.dec.br.ovf || decide (8 * d.br.len.toNat < d.br.pos)) ∧
          (∀ c, c ≠ k → d.ctx c = s.dec.ctx c) ∧ (d.ctx k).valid = true ∧ (d.ctx k).lens = fields ∧
          (∀ u < fields.length, fields.getD u 0 ≠ 0 → (d.ctx k).codeAt u = canonicalCode fields u) ∧
          (d.ctx k).numcodes = (s.dec.ctx k).numcodes ∧ (d.ctx k).maxbits = (s.dec.ctx k).maxbits ∧
          (d.ctx k).prev = (s.dec.ctx k).prev ∧ (d.ctx k).run = (s.dec.ctx k).run) ∧
      (lengthsValid (s.dec.ctx k).maxbits.toNat fields = false →
        raises (.hufImportFlat (BitVec.ofNat 4 k.val)) s .invalidData)

/-- 41_huffman R133, R134, R138, 30_encoding R87, R88: HUF_IMPORT_RLE on the stream of any legal tree (a meta code, then
literal, small and large escape tokens) returns the length list the tree conveys, builds its canonical code, and moves the
reader by exactly the tree's bits. -/
def Obligations.RleImportRoundTrip : Prop :=
  ∀ (s : State) (k : Fin 7) (tree : RleTree), s.running → k.val < 6 → (s.dec.ctx k).wf → (s.dec.ctx k).numcodes ≠ 0 →
    tree.legal (s.dec.ctx k).numcodes.toNat (s.dec.ctx k).maxbits.toNat →
    s.dec.br.holdsAt s.src s.dec.br.pos tree.bits →
    ∃ d : Decoder, exec (.hufImportRle (BitVec.ofNat 4 k.val)) s = .next { s with dec := d } ∧
      d.br.base = s.dec.br.base ∧ d.br.len = s.dec.br.len ∧ d.br.pos = s.dec.br.pos + tree.bits.length ∧
      d.br.ovf = (s.dec.br.ovf || decide (8 * d.br.len.toNat < d.br.pos)) ∧
      (∀ c, c ≠ k → c ≠ 6 → d.ctx c = s.dec.ctx c) ∧ (d.ctx k).valid = true ∧ (d.ctx k).lens = tree.lens ∧
      (∀ u < tree.lens.length, tree.lens.getD u 0 ≠ 0 → (d.ctx k).codeAt u = canonicalCode tree.lens u) ∧
      (d.ctx k).numcodes = (s.dec.ctx k).numcodes ∧ (d.ctx k).maxbits = (s.dec.ctx k).maxbits ∧
      (d.ctx k).prev = (s.dec.ctx k).prev ∧ (d.ctx k).run = (s.dec.ctx k).run

/-- 41_huffman R133, R134: HUF_IMPORT_RLE fails on an unconfigured context, on an invalid meta table, and after good tokens
on a stream that spells no meta code word, a literal above `MAXBITS`, a run past the end of the alphabet, or a finished
length list over the Kraft sum. -/
def Obligations.RleImportRejectsBadStreams : Prop :=
  ∀ (s : State) (k : Fin 7), s.running → k.val < 6 →
    ((s.dec.ctx k).numcodes = 0 → raises (.hufImportRle (BitVec.ofNat 4 k.val)) s .illegalCommand) ∧
    ((s.dec.ctx k).wf → (s.dec.ctx k).numcodes ≠ 0 →
      (∀ metaLens : List Nat, metaLens.length = 11 → (∀ v ∈ metaLens, v < 16) →
        s.dec.br.holdsAt s.src s.dec.br.pos (metaLens.flatMap (msbBits 4)) → lengthsValid 4 metaLens = false →
        raises (.hufImportRle (BitVec.ofNat 4 k.val)) s .invalidData) ∧
      (∀ tree : RleTree, tree.metaLens.length = 11 → lengthsValid 4 tree.metaLens = true →
        (∀ tok ∈ tree.tokens, tok.fits = true ∧ tree.metaLens.getD tok.symbol 0 ≠ 0) →
        (∀ v ∈ tree.lens, v ≤ (s.dec.ctx k).maxbits.toNat) → s.dec.br.holdsAt s.src s.dec.br.pos tree.bits →
        (tree.lens.length < (s.dec.ctx k).numcodes.toNat →
          (∀ m < 11, tree.metaLens.getD m 0 ≠ 0 →
            ¬ s.dec.br.holdsAt s.src (s.dec.br.pos + tree.bits.length) (codeWord tree.metaLens m)) →
          raises (.hufImportRle (BitVec.ofNat 4 k.val)) s .invalidData) ∧
        (tree.lens.length < (s.dec.ctx k).numcodes.toNat →
          (∀ m ≤ 8, tree.metaLens.getD m 0 ≠ 0 → (s.dec.ctx k).maxbits.toNat < m →
            s.dec.br.holdsAt s.src (s.dec.br.pos + tree.bits.length) (codeWord tree.metaLens m) →
            raises (.hufImportRle (BitVec.ofNat 4 k.val)) s .invalidData)) ∧
        (tree.lens.length < (s.dec.ctx k).numcodes.toNat →
          (∀ tok : Token, tok.fits = true → tree.metaLens.getD tok.symbol 0 ≠ 0 →
            (s.dec.ctx k).numcodes.toNat < (expandTokens 0 (tree.tokens ++ [tok])).length →
            s.dec.br.holdsAt s.src (s.dec.br.pos + tree.bits.length)
              (codeWord tree.metaLens tok.symbol ++ tok.rawBits) →
            raises (.hufImportRle (BitVec.ofNat 4 k.val)) s .invalidData)) ∧
        (tree.lens.length = (s.dec.ctx k).numcodes.toNat →
          lengthsValid (s.dec.ctx k).maxbits.toNat tree.lens = false →
          raises (.hufImportRle (BitVec.ofNat 4 k.val)) s .invalidData)))

/-- 30_encoding R83, R85: the table of every well-formed context with a table is the canonical code: each code word fits
its length, no code word is a prefix of another, the first symbol in the order by (length, symbol) has the word of zeros,
and each next one the word before it plus one, shifted by the difference of the lengths. -/
def Obligations.ValidTablesAreCanonical : Prop :=
  ∀ x : Context, x.wf → x.valid = true →
    ∀ u v : Nat, u < x.numcodes.toNat → v < x.numcodes.toNat → x.lenAt u ≠ 0 → x.lenAt v ≠ 0 →
      x.codeAt u < 2 ^ x.lenAt u ∧
      (u ≠ v → x.lenAt u ≤ x.lenAt v → x.codeAt v >>> (x.lenAt v - x.lenAt u) ≠ x.codeAt u) ∧
      ((∀ w < x.numcodes.toNat, x.lenAt w ≠ 0 → x.lenAt u < x.lenAt w ∨ (x.lenAt u = x.lenAt w ∧ u ≤ w)) →
        x.codeAt u = 0) ∧
      ((x.lenAt u < x.lenAt v ∨ (x.lenAt u = x.lenAt v ∧ u < v)) →
        (∀ w < x.numcodes.toNat, x.lenAt w ≠ 0 →
          (x.lenAt w < x.lenAt u ∨ (x.lenAt w = x.lenAt u ∧ w ≤ u)) ∨
            (x.lenAt v < x.lenAt w ∨ (x.lenAt v = x.lenAt w ∧ v ≤ w))) →
        x.codeAt v = (x.codeAt u + 1) <<< (x.lenAt v - x.lenAt u))

/-- 41_huffman R135, R136: HUF_DECODE returns the symbol whose code word the stream holds and consumes exactly that word;
where it holds none, `InvalidData` and nothing is consumed; without a table, `IllegalCommand`. -/
def Obligations.HufDecodeReturnsTheMatchedSymbol : Prop :=
  ∀ (s : State) (k : Fin 7), s.running → k.val < 6 →
    encode (.hufDecode (BitVec.ofNat 4 k.val)) = 0x23000000#32 ||| (BitVec.ofNat 32 k.val <<< 20) ∧
    ((s.dec.ctx k).valid = false → raises (.hufDecode (BitVec.ofNat 4 k.val)) s .illegalCommand) ∧
    ((s.dec.ctx k).wf → (s.dec.ctx k).valid = true →
      (∀ sym < (s.dec.ctx k).numcodes.toNat, (s.dec.ctx k).lenAt sym ≠ 0 →
        s.dec.br.holdsAt s.src s.dec.br.pos (codeWord (s.dec.ctx k).lens sym) →
        exec (.hufDecode (BitVec.ofNat 4 k.val)) s = .next { s with
          r := s.r.set 0 (BitVec.ofNat 32 sym)
          dec := s.dec.setReader (s.dec.br.advance ((s.dec.ctx k).lenAt sym)) }) ∧
      ((∀ sym < (s.dec.ctx k).numcodes.toNat, (s.dec.ctx k).lenAt sym ≠ 0 →
          ¬ s.dec.br.holdsAt s.src s.dec.br.pos (codeWord (s.dec.ctx k).lens sym)) →
        ∃ t, exec (.hufDecode (BitVec.ofNat 4 k.val)) s = .next t ∧ t.st = stWord .invalidData 0x23#8 ∧
          t.dec = s.dec))

/-- 41_huffman R137: decoding a stream encoded with the same table reproduces the symbol sequence, and moves the reader by
the sum of the lengths. -/
def Obligations.HufDecodeRoundTrip : Prop :=
  ∀ (s : State) (k : Fin 7) (syms : List Nat), s.running → k.val < 6 → (s.dec.ctx k).wf → s.dec.br.wf s.src →
    (s.dec.ctx k).valid = true → usedSymbols (s.dec.ctx k).lens syms →
    s.dec.br.holdsAt s.src s.dec.br.pos (syms.flatMap (codeWord (s.dec.ctx k).lens)) →
    ∃ t, runMany (.hufDecode (BitVec.ofNat 4 k.val)) syms.length s = some (syms.map (BitVec.ofNat 32), t) ∧
      t.dec.br.pos = s.dec.br.pos + (syms.map (s.dec.ctx k).lenAt).sum ∧ (∀ c, t.dec.ctx c = s.dec.ctx c)

/-! ## RLE-output decoder -/

/-- 42_huffman_rle R151, R152: RLE_DECODE inside a run replays the predictor and reads no bits; otherwise a symbol below 256
moves the predictor, an escape starts a run; no match is `InvalidData`, no table `IllegalCommand` even inside a run. -/
def Obligations.RleDecodeReturnsTheNextByte : Prop :=
  ∀ (s : State) (k : Fin 7), s.running → k.val < 6 →
    encode (.rleDecode (BitVec.ofNat 4 k.val)) = 0x30000000#32 ||| (BitVec.ofNat 32 k.val <<< 20) ∧
    ((s.dec.ctx k).valid = false → raises (.rleDecode (BitVec.ofNat 4 k.val)) s .illegalCommand) ∧
    ((s.dec.ctx k).valid = true → (s.dec.ctx k).run ≠ 0 →
      exec (.rleDecode (BitVec.ofNat 4 k.val)) s = .next { s with
        r := s.r.set 0 ((s.dec.ctx k).prev.setWidth 32)
        dec := s.dec.setCtx k { s.dec.ctx k with run := (s.dec.ctx k).run - 1 } }) ∧
    ((s.dec.ctx k).wf → (s.dec.ctx k).valid = true → (s.dec.ctx k).run = 0 →
      (∀ sym < (s.dec.ctx k).numcodes.toNat, (s.dec.ctx k).lenAt sym ≠ 0 →
        s.dec.br.holdsAt s.src s.dec.br.pos (codeWord (s.dec.ctx k).lens sym) →
        (sym < 256 → exec (.rleDecode (BitVec.ofNat 4 k.val)) s = .next { s with
          r := s.r.set 0 (BitVec.ofNat 32 (((s.dec.ctx k).prev.toNat + sym) % 256))
          dec := (s.dec.setReader (s.dec.br.advance ((s.dec.ctx k).lenAt sym))).setCtx k
            { s.dec.ctx k with prev := BitVec.ofNat 8 ((s.dec.ctx k).prev.toNat + sym) } }) ∧
        (256 ≤ sym → exec (.rleDecode (BitVec.ofNat 4 k.val)) s = .next { s with
          r := s.r.set 0 ((s.dec.ctx k).prev.setWidth 32)
          dec := (s.dec.setReader (s.dec.br.advance ((s.dec.ctx k).lenAt sym))).setCtx k
            { s.dec.ctx k with run := BitVec.ofNat 12 (rleCount (sym - 256) - 1) } })) ∧
      ((∀ sym < (s.dec.ctx k).numcodes.toNat, (s.dec.ctx k).lenAt sym ≠ 0 →
          ¬ s.dec.br.holdsAt s.src s.dec.br.pos (codeWord (s.dec.ctx k).lens sym)) →
        ∃ t, exec (.rleDecode (BitVec.ofNat 4 k.val)) s = .next t ∧ t.st = stWord .invalidData 0x30#8 ∧
          t.dec = s.dec))

/-- 42_huffman_rle R153: RLE_FLUSH clears the run of its context and nothing else, configured or not. -/
def Obligations.RleFlushCutsTheRun : Prop :=
  ∀ (s : State) (k : Fin 7), s.running → k.val < 6 →
    encode (.rleFlush (BitVec.ofNat 4 k.val)) = 0x31000000#32 ||| (BitVec.ofNat 32 k.val <<< 20) ∧
    ∃ d : Decoder, exec (.rleFlush (BitVec.ofNat 4 k.val)) s = .next { s with dec := d } ∧ d.br = s.dec.br ∧
      (∀ c, c ≠ k → d.ctx c = s.dec.ctx c) ∧ d.ctx k = { s.dec.ctx k with run := 0 }

/-- 42_huffman_rle R154: RLE_RESET clears the run and the predictor of its context and nothing else. -/
def Obligations.RleResetStartsASession : Prop :=
  ∀ (s : State) (k : Fin 7), s.running → k.val < 6 →
    encode (.rleReset (BitVec.ofNat 4 k.val)) = 0x32000000#32 ||| (BitVec.ofNat 32 k.val <<< 20) ∧
    ∃ d : Decoder, exec (.rleReset (BitVec.ofNat 4 k.val)) s = .next { s with dec := d } ∧ d.br = s.dec.br ∧
      (∀ c, c ≠ k → d.ctx c = s.dec.ctx c) ∧ d.ctx k = { s.dec.ctx k with run := 0, prev := 0 }

/-- 42_huffman_rle R156, 30_encoding R90: an escape of count `n` yields `n` outputs equal to the predictor and consumes its
one code word; the sixteen counts are those of the table. -/
def Obligations.RleEscapeReplaysThePredictor : Prop :=
  (List.range 16).map rleCount = [1, 9, 10, 11, 12, 13, 14, 15, 16, 32, 64, 128, 256, 512, 1024, 2048] ∧
  ∀ (s : State) (k : Fin 7) (code : Nat), s.running → k.val < 6 → (s.dec.ctx k).wf → (s.dec.ctx k).valid = true →
    (s.dec.ctx k).run = 0 → 256 + code < (s.dec.ctx k).numcodes.toNat → (s.dec.ctx k).lenAt (256 + code) ≠ 0 →
    s.dec.br.holdsAt s.src s.dec.br.pos (codeWord (s.dec.ctx k).lens (256 + code)) →
    ∃ t, runMany (.rleDecode (BitVec.ofNat 4 k.val)) (rleCount code) s =
        some (List.replicate (rleCount code) ((s.dec.ctx k).prev.setWidth 32), t) ∧
      t.dec.br = s.dec.br.advance ((s.dec.ctx k).lenAt (256 + code)) ∧ (∀ c, t.dec.ctx c = s.dec.ctx c)

/-- 42_huffman_rle R156: after RLE_RESET, symbols below 256 yield their running sums modulo 256. -/
def Obligations.RleDeltasSumUp : Prop :=
  ∀ (s : State) (k : Fin 7) (syms : List Nat), s.running → k.val < 6 → (s.dec.ctx k).wf → (s.dec.ctx k).valid = true →
    usedSymbols (s.dec.ctx k).lens syms → (∀ d ∈ syms, d < 256) →
    s.dec.br.holdsAt s.src s.dec.br.pos (syms.flatMap (codeWord (s.dec.ctx k).lens)) →
    ∃ t u, exec (.rleReset (BitVec.ofNat 4 k.val)) s = .next t ∧
      runMany (.rleDecode (BitVec.ofNat 4 k.val)) syms.length t =
        some ((List.range syms.length).map fun i => BitVec.ofNat 32 ((syms.take (i + 1)).sum % 256), u) ∧
      u.dec.br.pos = s.dec.br.pos + (syms.map (s.dec.ctx k).lenAt).sum

/-! ## CD frame unit -/

/-- 43_cd_frame R160, 30_encoding R95: CD_HDR's results and its errors in their order; nothing but `R[0..3]` changes. -/
def Obligations.CdHdrParsesThePayloadHeader : Prop :=
  encode .cdHdr = 0x40000000#32 ∧
  ∀ (s : State) (frames eccbytes lenbytes base : Nat), s.running →
    frames = s.opA 2 / 2448 → eccbytes = (frames + 7) / 8 → lenbytes = (if s.opA 2 < 65536 then 2 else 3) →
    base = (if s.opA 2 < 65536 then halfAt s.src (s.opA 0 + eccbytes)
      else 65536 * (s.src.byte (s.opA 0 + eccbytes)).toNat + halfAt s.src (s.opA 0 + eccbytes + 1)) →
    (s.src.size < s.opA 0 + s.opA 1 → raises .cdHdr s .readError) ∧
    (s.opA 0 + s.opA 1 ≤ s.src.size →
      (s.opA 2 % 2448 ≠ 0 ∨ s.opA 1 < eccbytes + lenbytes + base → raises .cdHdr s .invalidData) ∧
      (s.opA 2 % 2448 = 0 → eccbytes + lenbytes + base ≤ s.opA 1 → exec .cdHdr s = .next { s with
        r := #v[BitVec.ofNat 32 frames, BitVec.ofNat 32 (eccbytes + lenbytes), BitVec.ofNat 32 base,
          BitVec.ofNat 32 (s.opA 1 - (eccbytes + lenbytes) - base)] }))

/-- 43_cd_frame R164, 30_encoding R98: CD_SYNC writes the 12 bytes of the sync pattern and nothing else, or raises
`ReadError` where they do not lie in `DST`. -/
def Obligations.CdSyncWritesThePattern : Prop :=
  encode .cdSync = 0x42000000#32 ∧
  ∀ s : State, s.running →
    (s.dst.size < s.opA 0 + 12 → raises .cdSync s .readError) ∧
    (s.opA 0 + 12 ≤ s.dst.size → ∃ m : Memory, exec .cdSync s = .next { s with dst := m } ∧ m.size = s.dst.size ∧
      (∀ i < 12, m.byte (s.opA 0 + i) = if i = 0 ∨ i = 11 then 0x00 else 0xFF) ∧
      (∀ x, x < s.opA 0 ∨ s.opA 0 + 12 ≤ x → m.byte x = s.dst.byte x))

/-- 43_cd_frame R166, R169, R170: CD_ECC writes sector bytes 2076 to 2351 only, and makes every one of the 86 columns and 52
diagonals a code word; or raises `ReadError` where the sector does not lie in `DST`. The generator is that of R170 (log
entry 16). -/
def Obligations.CdEccMakesEveryCodeWordZero : Prop :=
  encode .cdEcc = 0x43000000#32 ∧
  ∀ s : State, s.running →
    (s.dst.size < s.opA 0 + 2352 → raises .cdEcc s .readError) ∧
    (s.opA 0 + 2352 ≤ s.dst.size → ∃ m : Memory, exec .cdEcc s = .next { s with dst := m } ∧ m.size = s.dst.size ∧
      eccHolds m (s.opA 0) ∧
      (∀ x, x < s.opA 0 + 2076 ∨ s.opA 0 + 2352 ≤ x → m.byte x = s.dst.byte x))

/-- 43_cd_frame R166: applying CD_ECC twice gives the same bytes as once, and what it writes depends on sector bytes 12 to
2075 alone. -/
def Obligations.CdEccDependsOnThePayloadOnly : Prop :=
  ∀ s s' t t' : State, s.running → s'.running → s.opA 0 + 2352 ≤ s.dst.size → s'.opA 0 + 2352 ≤ s'.dst.size →
    exec .cdEcc s = .next t → exec .cdEcc s' = .next t' →
    (∀ i, 12 ≤ i → i < 2076 → s.dst.byte (s.opA 0 + i) = s'.dst.byte (s'.opA 0 + i)) →
    (∀ i, 2076 ≤ i → i < 2352 → t.dst.byte (s.opA 0 + i) = t'.dst.byte (s'.opA 0 + i)) ∧
    ∃ u, exec .cdEcc t = .next u ∧ ∀ x, u.dst.byte x = t.dst.byte x

/-- 43_cd_frame R162, R172, 20_memory R58: the hunk CD_ASSEMBLE builds: sector bytes and subcode of every frame from `SEC` and
`SUB`, sync and ECC in the frames whose bit is set and in those only, every byte after the last frame kept; or `ReadError`
where a region lies outside its space. The ECC clause is about the generator of R170 (log entry 16). -/
def Obligations.CdAssembleBuildsEveryFrame : Prop :=
  encode .cdAssemble = 0x41000000#32 ∧
  ∀ s : State, s.running →
    (s.dst.size < 2448 * s.opA 0 ∨ s.sec.size < 2352 * s.opA 0 ∨ s.sub.size < 96 * s.opA 0 ∨
      s.src.size < s.opA 1 + (s.opA 0 + 7) / 8 → raises .cdAssemble s .readError) ∧
    (2448 * s.opA 0 ≤ s.dst.size → 2352 * s.opA 0 ≤ s.sec.size → 96 * s.opA 0 ≤ s.sub.size →
      s.opA 1 + (s.opA 0 + 7) / 8 ≤ s.src.size →
      ∃ m : Memory, exec .cdAssemble s = .next { s with dst := m } ∧ m.size = s.dst.size ∧
        (∀ f < s.opA 0,
          (∀ i, 12 ≤ i → i < 2076 → m.byte (2448 * f + i) = s.sec.byte (2352 * f + i)) ∧
          (∀ i < 96, m.byte (2448 * f + 2352 + i) = s.sub.byte (96 * f + i)) ∧
          ((s.src.byte (s.opA 1 + f / 8)).getLsbD (f % 8) = false →
            ∀ i < 2352, m.byte (2448 * f + i) = s.sec.byte (2352 * f + i)) ∧
          ((s.src.byte (s.opA 1 + f / 8)).getLsbD (f % 8) = true →
            (∀ i < 12, m.byte (2448 * f + i) = if i = 0 ∨ i = 11 then 0x00 else 0xFF) ∧ eccHolds m (2448 * f))) ∧
        (∀ x, 2448 * s.opA 0 ≤ x → m.byte x = s.dst.byte x))

/-- 43_cd_frame R168: doubling in the field, and division by 3 as the inverse of `x + 2x`. -/
def Obligations.FieldDivisionUndoesTripling : Prop :=
  ∀ x : Byte, (mul2 x).toNat = (2 * x.toNat ^^^ (if 128 ≤ x.toNat then 0x11D else 0)) % 256 ∧
    div3 (x ^^^ mul2 x) = x ∧ div3 x ^^^ mul2 (div3 x) = x

/-! ## AVHuff -/

/-- 44_avhuff R192, R196: AVH_AUDIO_CH.RAW writes the running sums of the big-endian deltas, and changes nothing else; its
errors in their order. -/
def Obligations.AudioRawWritesTheRunningSums : Prop :=
  encode .avhAudioChRaw = 0x52000000#32 ∧
  ∀ s : State, s.running →
    (s.src.size < s.opA 0 + s.opA 1 ∨ s.dst.size < s.opA 2 + 2 * s.opA 3 → raises .avhAudioChRaw s .readError) ∧
    (s.opA 0 + s.opA 1 ≤ s.src.size → s.opA 2 + 2 * s.opA 3 ≤ s.dst.size →
      (s.opA 1 < 2 * s.opA 3 → raises .avhAudioChRaw s .invalidData) ∧
      (2 * s.opA 3 ≤ s.opA 1 → ∃ m : Memory, exec .avhAudioChRaw s = .next { s with dst := m } ∧ m.size = s.dst.size ∧
        (∀ i < s.opA 3, halfAt m (s.opA 2 + 2 * i) = sampleOf (fun j => halfAt s.src (s.opA 0 + 2 * j)) i) ∧
        (∀ x, x < s.opA 2 ∨ s.opA 2 + 2 * s.opA 3 ≤ x → m.byte x = s.dst.byte x)))

/-- 44_avhuff R190, 30_encoding R104: AVH_AUDIO_TREES on a region of two legal trees, each padded to a byte: both are
imported when the second ends exactly at the region's end, `InvalidData` when it ends elsewhere; `ReadError` where the
region does not lie in `SRC`. (Trees that fail to import: `AudioTreesRejectsBadTrees`.) -/
def Obligations.AudioTreesImportsBothTrees : Prop :=
  encode .avhAudioTrees = 0x51000000#32 ∧
  ∀ s : State, s.running →
    (s.src.size < s.opA 0 + s.opA 1 → raises .avhAudioTrees s .readError) ∧
    ∀ (hi lo : RleTree) (off1 off2 : Nat), s.opA 0 + s.opA 1 ≤ s.src.size → hi.legal 256 8 → lo.legal 256 8 →
      off1 = (hi.bits.length + 7) / 8 → off2 = off1 + (lo.bits.length + 7) / 8 →
      (BitReader.mk s.a[0] s.a[1] 0 false).holdsAt s.src 0 hi.bits →
      (BitReader.mk s.a[0] s.a[1] 0 false).holdsAt s.src (8 * off1) lo.bits →
      (off2 ≠ s.opA 1 → raises .avhAudioTrees s .invalidData) ∧
      (off2 = s.opA 1 → ∃ d : Decoder, exec .avhAudioTrees s = .next { s with dec := d } ∧
        d.br = { base := s.a[0], len := s.a[1], pos := 8 * s.opA 1, ovf := false } ∧
        (d.ctx 1).wf ∧ (d.ctx 1).valid = true ∧ (d.ctx 1).lens = hi.lens ∧ (d.ctx 1).prev = 0 ∧ (d.ctx 1).run = 0 ∧
        (d.ctx 2).wf ∧ (d.ctx 2).valid = true ∧ (d.ctx 2).lens = lo.lens ∧ (d.ctx 2).prev = 0 ∧ (d.ctx 2).run = 0 ∧
        (∀ c, c ∉ ([1, 2, 6] : List (Fin 7)) → d.ctx c = s.dec.ctx c))

/-- 44_avhuff R190, 41_huffman R134: AVH_AUDIO_TREES raises `InvalidData` when the first tree of the region fails to import,
when the second does after a legal first one, and on an empty region. -/
def Obligations.AudioTreesRejectsBadTrees : Prop :=
  ∀ (s : State) (b : BitReader), s.running → s.opA 0 + s.opA 1 ≤ s.src.size → b = ⟨s.a[0], s.a[1], 0, false⟩ →
    (s.opA 1 = 0 → raises .avhAudioTrees s .invalidData) ∧
    (BadTree b s.src 0 256 → raises .avhAudioTrees s .invalidData) ∧
    ∀ hi : RleTree, hi.legal 256 8 → b.holdsAt s.src 0 hi.bits →
      BadTree b s.src (8 * ((hi.bits.length + 7) / 8)) 256 → raises .avhAudioTrees s .invalidData

/-- 44_avhuff R194, R196, 30_encoding R105: AVH_AUDIO_CH.HUF on a stream of interleaved high and low code words writes the
running sums of the deltas; a stream that ends before its code words do is `InvalidData`, missing trees `IllegalCommand`.
(Streams where a code word matches nothing: `AudioHufRejectsUnmatchedWords`.) -/
def Obligations.AudioHufWritesTheRunningSums : Prop :=
  encode .avhAudioChHuf = 0x52000001#32 ∧
  ∀ s : State, s.running →
    (s.src.size < s.opA 0 + s.opA 1 ∨ s.dst.size < s.opA 2 + 2 * s.opA 3 → raises .avhAudioChHuf s .readError) ∧
    (s.opA 0 + s.opA 1 ≤ s.src.size → s.opA 2 + 2 * s.opA 3 ≤ s.dst.size →
      ((s.dec.ctx 1).valid = false ∨ (s.dec.ctx 2).valid = false → raises .avhAudioChHuf s .illegalCommand) ∧
      ∀ (pairs : List (Nat × Nat)) (bits : List Bool), (s.dec.ctx 1).wf → (s.dec.ctx 2).wf →
        (s.dec.ctx 1).valid = true → (s.dec.ctx 2).valid = true → pairs.length = s.opA 3 →
        usedSymbols (s.dec.ctx 1).lens (pairs.map Prod.fst) → usedSymbols (s.dec.ctx 2).lens (pairs.map Prod.snd) →
        bits = pairs.flatMap (fun p => codeWord (s.dec.ctx 1).lens p.1 ++ codeWord (s.dec.ctx 2).lens p.2) →
        (BitReader.mk s.a[0] s.a[1] 0 false).holdsAt s.src 0 bits →
        (8 * s.opA 1 < bits.length → raises .avhAudioChHuf s .invalidData) ∧
        (bits.length ≤ 8 * s.opA 1 → ∃ m : Memory, exec .avhAudioChHuf s = .next { s with
            dst := m
            dec := { s.dec with br := { base := s.a[0], len := s.a[1], pos := bits.length, ovf := false } } } ∧
          m.size = s.dst.size ∧
          (∀ i < s.opA 3, halfAt m (s.opA 2 + 2 * i) =
            sampleOf (fun j => 256 * (pairs.getD j (0, 0)).1 + (pairs.getD j (0, 0)).2) i) ∧
          (∀ x, x < s.opA 2 ∨ s.opA 2 + 2 * s.opA 3 ≤ x → m.byte x = s.dst.byte x)))

/-- 44_avhuff R194: AVH_AUDIO_CH.HUF raises `InvalidData` when, after the code words of some samples, no high code word
matches, or after the high code word no low one does. -/
def Obligations.AudioHufRejectsUnmatchedWords : Prop :=
  ∀ (s : State) (b : BitReader) (pairs : List (Nat × Nat)) (bits : List Bool), s.running →
    s.opA 0 + s.opA 1 ≤ s.src.size → s.opA 2 + 2 * s.opA 3 ≤ s.dst.size → b = ⟨s.a[0], s.a[1], 0, false⟩ →
    (s.dec.ctx 1).wf → (s.dec.ctx 2).wf → (s.dec.ctx 1).valid = true → (s.dec.ctx 2).valid = true →
    pairs.length < s.opA 3 → usedSymbols (s.dec.ctx 1).lens (pairs.map Prod.fst) →
    usedSymbols (s.dec.ctx 2).lens (pairs.map Prod.snd) →
    bits = pairs.flatMap (fun p => codeWord (s.dec.ctx 1).lens p.1 ++ codeWord (s.dec.ctx 2).lens p.2) →
    b.holdsAt s.src 0 bits →
    (b.unmatched s.src bits.length (s.dec.ctx 1).lens → raises .avhAudioChHuf s .invalidData) ∧
    ∀ hi : Nat, usedSymbols (s.dec.ctx 1).lens [hi] → b.holdsAt s.src bits.length (codeWord (s.dec.ctx 1).lens hi) →
      b.unmatched s.src (bits.length + (s.dec.ctx 1).lenAt hi) (s.dec.ctx 2).lens →
      raises .avhAudioChHuf s .invalidData

/-- 44_avhuff R200, R201, 30_encoding R106, R107: AVH_VIDEO on a stream of three legal trees and the code words of any script
of pixel pairs (deltas, escapes, samples inside runs) writes the bytes the script spells, Y Cb Y Cr, every run cut at the
row end; a stream that ends at another byte than declared is `InvalidData`, as is an odd width. (Trees that fail to import
and code words that match nothing: `VideoRejectsBadStreams`.) -/
def Obligations.VideoWritesTheScriptedRows : Prop :=
  encode .avhVideo = 0x53000000#32 ∧
  ∀ (s : State) (width height : Nat), s.running → width = (s.a[3] >>> 16).toNat → height = (s.a[3] &&& 0xFFFF).toNat →
    (s.src.size < s.opA 0 + s.opA 1 ∨ s.dst.size < s.opA 2 + 2 * width * height → raises .avhVideo s .readError) ∧
    (s.opA 0 + s.opA 1 ≤ s.src.size → s.opA 2 + 2 * width * height ≤ s.dst.size →
      (width % 2 = 1 → raises .avhVideo s .invalidData) ∧
      ∀ (ty tcb tcr : RleTree) (o1 o2 o3 : Nat) (rows : List (List PairCodes)) (bits : List Bool) (bytes : List Byte)
        (planes : Planes), width % 2 = 0 → ty.legal 272 8 → tcb.legal 272 8 → tcr.legal 272 8 →
        o1 = (ty.bits.length + 7) / 8 → o2 = o1 + (tcb.bits.length + 7) / 8 → o3 = o2 + (tcr.bits.length + 7) / 8 →
        rows.length = height → (∀ row ∈ rows, row.length = width / 2) →
        (∀ row ∈ rows, ∀ c ∈ row, c.coded ty.lens tcb.lens tcr.lens) →
        Planes.start.playRows rows = some (bytes, planes) →
        bits = rows.flatMap (fun row => row.flatMap (PairCodes.bits ty.lens tcb.lens tcr.lens)) →
        (BitReader.mk s.a[0] s.a[1] 0 false).holdsAt s.src 0 ty.bits →
        (BitReader.mk s.a[0] s.a[1] 0 false).holdsAt s.src (8 * o1) tcb.bits →
        (BitReader.mk s.a[0] s.a[1] 0 false).holdsAt s.src (8 * o2) tcr.bits →
        (BitReader.mk s.a[0] s.a[1] 0 false).holdsAt s.src (8 * o3) bits →
        (o3 + (bits.length + 7) / 8 ≠ s.opA 1 → raises .avhVideo s .invalidData) ∧
        (o3 + (bits.length + 7) / 8 = s.opA 1 → ∃ (m : Memory) (d : Decoder), exec .avhVideo s = .next { s with
            r := s.r.set 0 (BitVec.ofNat 32 (2 * width * height)), dst := m, dec := d } ∧
          m.size = s.dst.size ∧ (∀ i < 2 * width * height, m.byte (s.opA 2 + i) = bytes.getD i 0) ∧
          (∀ x, x < s.opA 2 ∨ s.opA 2 + 2 * width * height ≤ x → m.byte x = s.dst.byte x) ∧
          d.br = { base := s.a[0], len := s.a[1], pos := 8 * s.opA 1, ovf := false } ∧
          (d.ctx 3).valid = true ∧ (d.ctx 3).lens = ty.lens ∧ (d.ctx 3).prev = planes.y.prev ∧ (d.ctx 3).run = 0 ∧
          (d.ctx 4).valid = true ∧ (d.ctx 4).lens = tcb.lens ∧ (d.ctx 4).prev = planes.cb.prev ∧ (d.ctx 4).run = 0 ∧
          (d.ctx 5).valid = true ∧ (d.ctx 5).lens = tcr.lens ∧ (d.ctx 5).prev = planes.cr.prev ∧ (d.ctx 5).run = 0 ∧
          (∀ c, c ∉ ([3, 4, 5, 6] : List (Fin 7)) → d.ctx c = s.dec.ctx c)))

/-- 44_avhuff R200, 41_huffman R134: AVH_VIDEO raises `InvalidData` when its first, second or third tree fails to import, and
when, after the rows and pixel pairs of any script, a sample of the next pair needs a code word and none matches. -/
def Obligations.VideoRejectsBadStreams : Prop :=
  ∀ (s : State) (b : BitReader) (width height : Nat), s.running → width = (s.a[3] >>> 16).toNat →
    height = (s.a[3] &&& 0xFFFF).toNat → s.opA 0 + s.opA 1 ≤ s.src.size → s.opA 2 + 2 * width * height ≤ s.dst.size →
    width % 2 = 0 → b = ⟨s.a[0], s.a[1], 0, false⟩ →
    (BadTree b s.src 0 272 → raises .avhVideo s .invalidData) ∧
    ∀ (ty : RleTree) (o1 : Nat), ty.legal 272 8 → b.holdsAt s.src 0 ty.bits → o1 = (ty.bits.length + 7) / 8 →
      (BadTree b s.src (8 * o1) 272 → raises .avhVideo s .invalidData) ∧
      ∀ (tcb : RleTree) (o2 : Nat), tcb.legal 272 8 → b.holdsAt s.src (8 * o1) tcb.bits →
        o2 = o1 + (tcb.bits.length + 7) / 8 →
        (BadTree b s.src (8 * o2) 272 → raises .avhVideo s .invalidData) ∧
        ∀ (tcr : RleTree) (o3 : Nat) (rows : List (List PairCodes)) (row : List PairCodes) (bits : List Bool)
          (bytes bytes' : List Byte) (planes planes' : Planes), tcr.legal 272 8 → b.holdsAt s.src (8 * o2) tcr.bits →
          o3 = o2 + (tcr.bits.length + 7) / 8 → rows.length < height → (∀ r ∈ rows, r.length = width / 2) →
          row.length < width / 2 → (∀ r ∈ row :: rows, ∀ c ∈ r, c.coded ty.lens tcb.lens tcr.lens) →
          Planes.start.playRows rows = some (bytes, planes) → planes.playPairs row = some (bytes', planes') →
          bits = (rows ++ [row]).flatMap (fun r => r.flatMap (PairCodes.bits ty.lens tcb.lens tcr.lens)) →
          b.holdsAt s.src (8 * o3) bits →
          StuckPair b s.src ty.lens tcb.lens tcr.lens planes' (8 * o3 + bits.length) → raises .avhVideo s .invalidData

/-- 44_avhuff R180, R181, R196, 30_encoding R100 to R105: AVH_DECODE on every payload with raw audio and no video: header,
metadata, the running sums channel after channel, zeros to the end of the hunk; the bit reader and the contexts are left
alone. -/
def Obligations.AvhDecodeRawHunk : Prop :=
  encode .avhDecode = 0x50000000#32 ∧
  ∀ (s : State) (h : AvhHeader), s.running → headerAt s.src (s.opA 0) h → hunkFits s h → h.treesize = 0 →
    h.width * h.height = 0 → (∀ c < h.channels, 2 * h.samples ≤ h.chsize.getD c 0) →
    ∃ m : Memory, exec .avhDecode s = .next { s with r := s.r.set 0 (BitVec.ofNat 32 h.outlen), dst := m } ∧
      m.size = s.dst.size ∧ startsHunk s.src (s.opA 0) h m ∧
      (∀ c < h.channels, ∀ i < h.samples, halfAt m (12 + h.metasize + 2 * h.samples * c + 2 * i) =
        sampleOf (fun j => halfAt s.src
          (s.opA 0 + 10 + 2 * h.channels + h.metasize + (h.chsize.take c).sum + 2 * j)) i) ∧
      (∀ x, h.outlen ≤ x → x < s.opA 2 → m.byte x = 0) ∧ (∀ x, s.opA 2 ≤ x → m.byte x = s.dst.byte x)

/-- 44_avhuff R180 and the opening of 44_avhuff: AVH_DECODE of any hunk without FLAC audio is what the part commands do one
after another on the regions of the payload, after the output header and before the zero fill: AVH_AUDIO_TREES for Huffman
audio, AVH_AUDIO_CH for every channel, AVH_VIDEO where there is video. Where a part fails, `InvalidData`. The regions start
at addresses that `A[0]` can hold. -/
def Obligations.AvhDecodeIsItsParts : Prop :=
  ∀ (s : State) (h : AvhHeader), s.running → headerAt s.src (s.opA 0) h → hunkFits s h → h.treesize ≠ 0xFFFF →
    partsAddressable (s.opA 0) h →
    match (audioParts h (s.opA 0 + h.hdr + h.metasize) (12 + h.metasize)
        { s with dst := avhPrologue s.src h (s.opA 0 + h.hdr) s.dst }).bind
      (videoPart h (s.opA 0 + h.total) (s.opA 1 - h.total) (12 + h.metasize + 2 * h.channels * h.samples)) with
    | some t => exec .avhDecode s = .next { s with
        r := s.r.set 0 (BitVec.ofNat 32 h.outlen), dst := zeroFill h.outlen (s.opA 2) t.dst, dec := t.dec }
    | none => raises .avhDecode s .invalidData

/-- 44_avhuff R205: what holds for every payload on which AVH_DECODE succeeds. -/
def Obligations.AvhDecodeOutputProperties : Prop :=
  ∀ (s t : State) (h : AvhHeader), s.running → headerAt s.src (s.opA 0) h → exec .avhDecode s = .next t → t.running →
    t.dst.byte 0 = 0x63 ∧ t.dst.byte 1 = 0x68 ∧ t.dst.byte 2 = 0x61 ∧ t.dst.byte 3 = 0x76 ∧
      (∀ i < 8, t.dst.byte (4 + i) = s.src.byte (s.opA 0 + i)) ∧
      t.r[0].toNat = 12 + h.metasize + 2 * h.channels * h.samples + 2 * h.width * h.height ∧ t.r[0].toNat ≤ s.opA 2 ∧
      (∀ x, t.r[0].toNat ≤ x → x < s.opA 2 → t.dst.byte x = 0) ∧
      (∀ x, s.opA 2 ≤ x → t.dst.byte x = s.dst.byte x)

/-- 44_avhuff R180, 60_exceptions R213: the structural tests of AVH_DECODE: a payload or hunk outside its space is
`ReadError`; then a payload shorter than its header or its regions, an odd width, or an output longer than the hunk is
`InvalidData`, with no decoder or reader change. That the failed command keeps the reader and the contexts follows
60_exceptions R216, in the reading of log entry 13 (93 U7 allows any value). -/
def Obligations.AvhDecodeRejectsBadStructure : Prop :=
  ∀ (s : State) (h : AvhHeader), s.running → headerAt s.src (s.opA 0) h →
    (s.src.size < s.opA 0 + s.opA 1 ∨ s.dst.size < s.opA 2 → raises .avhDecode s .readError) ∧
    (s.opA 0 + s.opA 1 ≤ s.src.size → s.opA 2 ≤ s.dst.size →
      (s.opA 1 < 10 ∨ s.opA 1 < 10 + 2 * h.channels ∨ s.opA 1 < h.total ∨ (0 < h.width * h.height ∧ h.width % 2 = 1) ∨
        s.opA 2 < h.outlen) →
      ∃ t, exec .avhDecode s = .next t ∧ t.st = stWord .invalidData 0x50#8 ∧ t.dec = s.dec)

/-- 44_avhuff R199, R180: FLAC audio of any channels: without the collaborator `UnsupportedFormat`; where it fails on a channel
`InvalidData`; else the samples of every channel are what it returns, and the hunk goes on with its video, if it has any,
as AVH_VIDEO does it, and with the zero fill. The collaborator is an open parameter (log entry 6). -/
def Obligations.AvhDecodeFlacHunk : Prop :=
  ∀ (s : State) (h : AvhHeader), s.running → headerAt s.src (s.opA 0) h → hunkFits s h → h.treesize = 0xFFFF →
    (s.flac = false → raises .avhDecode s .unsupportedFormat) ∧
    (s.flac = true → (0 < h.width * h.height → s.opA 0 + h.total < 2 ^ 32) →
      match flacResults s.src h.samples h.chsize (s.opA 0 + h.hdr + h.metasize) with
      | none => raises .avhDecode s .invalidData
      | some rs => ∃ m : Memory, m.size = s.dst.size ∧ startsHunk s.src (s.opA 0) h m ∧
          (∀ c < h.channels, ∀ i < h.samples,
            halfAt m (12 + h.metasize + 2 * h.samples * c + 2 * i) = (rs.getD c (fun _ => 0) i).toNat) ∧
          (∀ x, 12 + h.metasize + 2 * h.channels * h.samples ≤ x → m.byte x = s.dst.byte x) ∧
          match videoPart h (s.opA 0 + h.total) (s.opA 1 - h.total) (12 + h.metasize + 2 * h.channels * h.samples)
              { s with dst := m } with
          | none => raises .avhDecode s .invalidData
          | some t => ∃ m' : Memory, exec .avhDecode s = .next { s with
                r := s.r.set 0 (BitVec.ofNat 32 h.outlen), dst := m', dec := t.dec } ∧ m'.size = s.dst.size ∧
              (∀ x < h.outlen, m'.byte x = t.dst.byte x) ∧ (∀ x, h.outlen ≤ x → x < s.opA 2 → m'.byte x = 0) ∧
              (∀ x, s.opA 2 ≤ x → m'.byte x = s.dst.byte x))
end

