-- ==== Sys2Proof/Laws/Memory.lean ====
section
/-! SUPPORT. What the memory operations do: reading after writing, sizes, and that each keeps the canonical form. -/

namespace Sys2Proof.Machine

/-! ## Cells -/

theorem cellsGet_erase (l : List Host.Cell) (a x : Nat) :
    cellsGet (cellsErase l a) x = if x = a then Config.unlistedByte else cellsGet l x := by
  induction l with
  | nil => simp [cellsErase, cellsGet]
  | cons p rest ih =>
    obtain ⟨k, v⟩ := p
    by_cases hk : k = a
    · simp only [cellsErase, hk, if_true, ih, cellsGet]
      split <;> simp_all [eq_comm]
    · simp only [cellsErase, hk, if_false, cellsGet, ih]
      split <;> split <;> simp_all

theorem cellsGet_insert (l : List Host.Cell) (a x : Nat) (b : Byte) :
    cellsGet (cellsInsert l a b) x = if x = a then b else cellsGet l x := by
  induction l with
  | nil => simp only [cellsInsert, cellsGet, @eq_comm _ a x]
  | cons p rest ih =>
    obtain ⟨k, v⟩ := p
    by_cases h1 : a < k
    · simp only [cellsInsert, if_pos h1, cellsGet, @eq_comm _ a x]
    · by_cases h2 : a = k
      · subst h2
        rw [cellsInsert, if_neg h1, if_pos rfl]
        by_cases hx : x = a
        · simp [cellsGet, hx]
        · have hx' : ¬ a = x := fun e => hx e.symm
          simp [cellsGet, hx, hx']
      · rw [cellsInsert, if_neg h1, if_neg h2]
        simp only [cellsGet, ih]
        by_cases hk : k = x
        · have hx : ¬ x = a := fun e => h2 (by omega)
          simp [hk, hx]
        · simp [hk]

theorem cellsGet_put (l : List Host.Cell) (a x : Nat) (b : Byte) :
    cellsGet (cellsPut l a b) x = if x = a then b else cellsGet l x := by
  unfold cellsPut
  split
  · next h => rw [cellsGet_erase, h]
  · rw [cellsGet_insert]

theorem cellsCanonical_mono {size lo lo' : Nat} {l : List Host.Cell} (h : cellsCanonical size lo l = true)
    (hl : lo' ≤ lo) : cellsCanonical size lo' l = true := by
  cases l with
  | nil => rfl
  | cons p rest =>
    obtain ⟨k, v⟩ := p
    simp only [cellsCanonical, Bool.and_eq_true, decide_eq_true_eq] at h ⊢
    exact ⟨⟨⟨by omega, h.1.1.2⟩, h.1.2⟩, h.2⟩

theorem cellsCanonical_erase {size lo : Nat} {l : List Host.Cell} (h : cellsCanonical size lo l = true) (a : Nat) :
    cellsCanonical size lo (cellsErase l a) = true := by
  induction l generalizing lo with
  | nil => rfl
  | cons p rest ih =>
    obtain ⟨k, v⟩ := p
    simp only [cellsCanonical, Bool.and_eq_true, decide_eq_true_eq] at h
    by_cases hk : k = a
    · simp only [cellsErase, hk, if_true]
      exact cellsCanonical_mono (ih h.2) (by omega)
    · simp only [cellsErase, hk, if_false, cellsCanonical, Bool.and_eq_true, decide_eq_true_eq]
      exact ⟨h.1, ih h.2⟩

theorem cellsCanonical_insert {size lo : Nat} {l : List Host.Cell} {a : Nat} {b : Byte}
    (h : cellsCanonical size lo l = true) (hlo : lo ≤ a) (ha : a < size) (hb : b ≠ Config.unlistedByte) :
    cellsCanonical size lo (cellsInsert l a b) = true := by
  induction l generalizing lo with
  | nil => simp [cellsInsert, cellsCanonical, hlo, ha, hb]
  | cons p rest ih =>
    obtain ⟨k, v⟩ := p
    simp only [cellsCanonical, Bool.and_eq_true, decide_eq_true_eq] at h
    simp only [cellsInsert]
    split
    · simp only [cellsCanonical, Bool.and_eq_true, decide_eq_true_eq]
      exact ⟨⟨⟨hlo, ha⟩, hb⟩, ⟨⟨⟨by omega, h.1.1.2⟩, h.1.2⟩, h.2⟩⟩
    · split
      · next h2 =>
        subst h2
        simp only [cellsCanonical, Bool.and_eq_true, decide_eq_true_eq]
        exact ⟨⟨⟨hlo, ha⟩, hb⟩, h.2⟩
      · simp only [cellsCanonical, Bool.and_eq_true, decide_eq_true_eq]
        exact ⟨h.1, ih h.2 (by omega)⟩

/-! ## One byte -/

@[simp] theorem Memory.size_setByte (m : Memory) (a : Nat) (b : Byte) : (m.setByte a b).size = m.size := by
  unfold Memory.setByte; split <;> rfl

theorem Memory.byte_setByte (m : Memory) (a x : Nat) (b : Byte) :
    (m.setByte a b).byte x = if x = a ∧ a < m.size then b else m.byte x := by
  unfold Memory.setByte
  by_cases h : a < m.size
  · simp only [h, if_true, Memory.byte, cellsGet_put, and_true]
  · simp [h]

theorem Memory.byte_setByte_same (m : Memory) {a : Nat} (b : Byte) (h : a < m.size) : (m.setByte a b).byte a = b := by
  simp [Memory.byte_setByte, h]

theorem Memory.byte_setByte_of_ne (m : Memory) {a x : Nat} (b : Byte) (h : x ≠ a) :
    (m.setByte a b).byte x = m.byte x := by
  simp [Memory.byte_setByte, h]

theorem Memory.wf_setByte {m : Memory} (h : m.wf = true) (a : Nat) (b : Byte) : (m.setByte a b).wf = true := by
  unfold Memory.setByte
  by_cases ha : a < m.size
  · simp only [ha, if_true, Memory.wf, cellsPut]
    split
    · exact cellsCanonical_erase h a
    · next hb => exact cellsCanonical_insert h (Nat.zero_le a) ha hb
  · simpa [ha] using h

@[simp] theorem Memory.byte_blank (size a : Nat) : (Memory.blank size).byte a = Config.unlistedByte := rfl

@[simp] theorem Memory.wf_blank (size : Nat) : (Memory.blank size).wf = true := rfl

/-! ## Many bytes -/

@[simp] theorem Memory.writeBytes_nil (m : Memory) (a : Nat) : m.writeBytes a [] = m := rfl

@[simp] theorem Memory.writeBytes_cons (m : Memory) (a : Nat) (b : Byte) (bs : List Byte) :
    m.writeBytes a (b :: bs) = (m.setByte a b).writeBytes (a + 1) bs := rfl

@[simp] theorem Memory.size_writeBytes (m : Memory) (a : Nat) (bs : List Byte) : (m.writeBytes a bs).size = m.size := by
  induction bs generalizing m a with
  | nil => rfl
  | cons b bs ih => simp [ih]

/-- What writing bytes one after another does to every byte: those of the range that the space has are the written ones,
all others are as before. -/
theorem Memory.byte_writeBytes (m : Memory) (a x : Nat) (bs : List Byte) :
    (m.writeBytes a bs).byte x = if a ≤ x ∧ x < a + bs.length ∧ x < m.size then bs.getD (x - a) 0 else m.byte x := by
  induction bs generalizing m a with
  | nil =>
    have h : ¬ (a ≤ x ∧ x < a + ([] : List Byte).length ∧ x < m.size) := by simp; omega
    rw [if_neg h]; rfl
  | cons b bs ih =>
    rw [Memory.writeBytes_cons, ih, Memory.size_setByte, Memory.byte_setByte]
    by_cases h1 : x = a
    · subst h1
      by_cases h2 : x < m.size
      · simp [h2]
      · simp [h2]
    · by_cases h2 : a + 1 ≤ x ∧ x < a + 1 + bs.length ∧ x < m.size
      · have h3 : a ≤ x ∧ x < a + (b :: bs).length ∧ x < m.size := by simp; omega
        rw [if_pos h2, if_pos h3]
        obtain ⟨k, rfl⟩ : ∃ k, x = a + 1 + k := ⟨x - (a + 1), by omega⟩
        have e1 : a + 1 + k - a = k + 1 := by omega
        have e2 : a + 1 + k - (a + 1) = k := by omega
        rw [e1, e2]; simp
      · have h3 : ¬ (a ≤ x ∧ x < a + (b :: bs).length ∧ x < m.size) := by simp; omega
        have h4 : ¬ (x = a ∧ a < m.size) := by omega
        rw [if_neg h2, if_neg h3, if_neg h4]

theorem Memory.byte_writeBytes_of_not_mem (m : Memory) {a x : Nat} {bs : List Byte} (h : x < a ∨ a + bs.length ≤ x) :
    (m.writeBytes a bs).byte x = m.byte x := by
  rw [Memory.byte_writeBytes, if_neg (by omega)]

theorem Memory.byte_writeBytes_of_mem (m : Memory) {a i : Nat} {bs : List Byte} (hi : i < bs.length)
    (hs : a + i < m.size) : (m.writeBytes a bs).byte (a + i) = bs.getD i 0 := by
  rw [Memory.byte_writeBytes, if_pos (by omega)]
  congr 1; omega

theorem Memory.wf_writeBytes {m : Memory} (h : m.wf = true) (a : Nat) (bs : List Byte) :
    (m.writeBytes a bs).wf = true := by
  induction bs generalizing m a with
  | nil => exact h
  | cons b bs ih => exact ih (Memory.wf_setByte h a b) (a + 1)

@[simp] theorem Memory.length_readBytes (m : Memory) (a n : Nat) : (m.readBytes a n).length = n := by
  simp [Memory.readBytes]

theorem Memory.getD_readBytes (m : Memory) (a : Nat) {n i : Nat} (h : i < n) :
    (m.readBytes a n).getD i 0 = m.byte (a + i) := by
  simp [Memory.readBytes, List.getD, h]

@[simp] theorem length_beBytes (n v : Nat) : (beBytes n v).length = n := by simp [beBytes]

@[simp] theorem Memory.size_writeBE (m : Memory) (a n v : Nat) : (m.writeBE a n v).size = m.size := by
  simp [Memory.writeBE]

theorem Memory.wf_writeBE {m : Memory} (h : m.wf = true) (a n v : Nat) : (m.writeBE a n v).wf = true :=
  Memory.wf_writeBytes h _ _

theorem Memory.byte_writeBE_of_not_mem (m : Memory) {a x n v : Nat} (h : x < a ∨ a + n ≤ x) :
    (m.writeBE a n v).byte x = m.byte x :=
  Memory.byte_writeBytes_of_not_mem m (by simpa using h)

/-- A big-endian read depends only on the bytes it covers. -/
theorem Memory.readBE_congr {m m' : Memory} {a n : Nat} (h : ∀ i, i < n → m.byte (a + i) = m'.byte (a + i)) :
    m.readBE a n = m'.readBE a n := by
  induction n with
  | zero => rfl
  | succ n ih => simp only [Memory.readBE, ih fun i hi => h i (by omega), h n (by omega)]

theorem Memory.readBE_lt (m : Memory) (a n : Nat) : m.readBE a n < 256 ^ n := by
  induction n with
  | zero => simp [Memory.readBE]
  | succ n ih =>
    have h := (m.byte (a + n)).isLt
    simp only [Memory.readBE, Nat.pow_succ]; omega

@[simp] theorem Memory.readBE_two (m : Memory) (a : Nat) :
    m.readBE a 2 = 256 * (m.byte a).toNat + (m.byte (a + 1)).toNat := by
  simp [Memory.readBE]

/-- Reading a 16-bit field right after writing it. -/
theorem Memory.readBE_writeBE_two (m : Memory) {a v : Nat} (h : a + 2 ≤ m.size) (hv : v < 65536) :
    (m.writeBE a 2 v).readBE a 2 = v := by
  have h0 := m.byte_writeBytes_of_mem (a := a) (i := 0) (bs := beBytes 2 v) (by simp) (by omega)
  have h1 := m.byte_writeBytes_of_mem (a := a) (i := 1) (bs := beBytes 2 v) (by simp) (by omega)
  have e0 : (beBytes 2 v).getD 0 0 = BitVec.ofNat 8 (v >>> 8) := rfl
  have e1 : (beBytes 2 v).getD 1 0 = BitVec.ofNat 8 (v >>> 0) := rfl
  rw [e0] at h0; rw [e1] at h1
  rw [Nat.add_zero] at h0
  rw [Memory.readBE_two, Memory.writeBE, h0, h1]
  simp only [BitVec.toNat_ofNat, Nat.shiftRight_eq_div_pow]
  omega

/-! ## Unspecified bytes -/

@[simp] theorem Memory.size_unspecify (m : Memory) (lo n k : Nat) : (m.unspecify lo n k).size = m.size := by
  simp [Memory.unspecify]

@[simp] theorem Memory.unspecify_zero (m : Memory) (lo k : Nat) : m.unspecify lo 0 k = m := by
  simp [Memory.unspecify]

theorem Memory.wf_unspecify {m : Memory} (h : m.wf = true) (lo n k : Nat) : (m.unspecify lo n k).wf = true :=
  Memory.wf_writeBytes h _ _

/-- The bytes of the range are the free values of the event, all others are as before. -/
theorem Memory.byte_unspecify (m : Memory) (lo n k x : Nat) :
    (m.unspecify lo n k).byte x = if lo ≤ x ∧ x < lo + n ∧ x < m.size then Config.freeDst k x else m.byte x := by
  rw [Memory.unspecify, Memory.byte_writeBytes]
  by_cases h : lo ≤ x ∧ x < lo + n ∧ x < m.size
  · rw [if_pos (by simp; omega), if_pos h]
    obtain ⟨i, rfl⟩ : ∃ i, x = lo + i := ⟨x - lo, by omega⟩
    have hi : i < min n (m.size - lo) := by omega
    simp [List.getD, hi]
  · rw [if_neg (by simp; omega), if_neg h]

theorem Memory.byte_unspecify_of_not_mem (m : Memory) {lo n k x : Nat} (h : x < lo ∨ lo + n ≤ x) :
    (m.unspecify lo n k).byte x = m.byte x := by
  rw [Memory.byte_unspecify, if_neg (by omega)]

end Sys2Proof.Machine
end

