-- ==== Sys2Proof/Laws/CdFrame.lean ====
section
/-! SUPPORT. Where the CD frame unit writes: the size, the canonical form and every byte outside the range are kept. -/

namespace Sys2Proof.Machine

/-- The memory `m'` is `m` with nothing changed but the `n` bytes from `lo`. -/
structure Memory.Writes (lo n : Nat) (m m' : Memory) : Prop where
  size : m'.size = m.size
  wf : m.wf = true → m'.wf = true
  outside : ∀ x, x < lo ∨ lo + n ≤ x → m'.byte x = m.byte x

theorem Memory.Writes.refl (lo n : Nat) (m : Memory) : m.Writes lo n m := ⟨rfl, id, fun _ _ => rfl⟩

theorem Memory.Writes.trans {lo n : Nat} {a b c : Memory} (h1 : a.Writes lo n b) (h2 : b.Writes lo n c) : a.Writes lo n c :=
  ⟨h2.size.trans h1.size, fun h => h2.wf (h1.wf h), fun x h => (h2.outside x h).trans (h1.outside x h)⟩

theorem Memory.Writes.mono {lo n lo' n' : Nat} {a b : Memory} (h : a.Writes lo n b) (h1 : lo' ≤ lo)
    (h2 : lo + n ≤ lo' + n') : a.Writes lo' n' b :=
  ⟨h.size, h.wf, fun x hx => h.outside x (by omega)⟩

theorem Memory.writes_setByte (m : Memory) (a : Nat) (b : Byte) : m.Writes a 1 (m.setByte a b) :=
  ⟨m.size_setByte a b, fun h => Memory.wf_setByte h a b, fun x h => m.byte_setByte_of_ne b (by omega)⟩

theorem Memory.writes_writeBytes (m : Memory) (a : Nat) (bs : List Byte) : m.Writes a bs.length (m.writeBytes a bs) :=
  ⟨m.size_writeBytes a bs, fun h => Memory.wf_writeBytes h a bs, fun _ h => m.byte_writeBytes_of_not_mem h⟩

theorem Memory.writes_writeBE (m : Memory) (a n v : Nat) : m.Writes a n (m.writeBE a n v) :=
  ⟨m.size_writeBE a n v, fun h => Memory.wf_writeBE h a n v, fun _ h => m.byte_writeBE_of_not_mem h⟩

theorem Memory.writes_unspecify (m : Memory) (lo n k : Nat) : m.Writes lo n (m.unspecify lo n k) :=
  ⟨m.size_unspecify lo n k, fun h => Memory.wf_unspecify h lo n k, fun _ h => m.byte_unspecify_of_not_mem h⟩

/-- `EccPQ` writes its two rows of parity bytes only (43_cd_frame R170). -/
theorem eccPQLoop_writes (o majors minors mult inc dest n major : Nat) (m : Memory) (h : major + n ≤ majors) :
    m.Writes (o + dest) (2 * majors) (eccPQLoop o majors minors mult inc dest n major m) := by
  induction n generalizing major m with
  | zero => exact Memory.Writes.refl _ _ _
  | succ n ih =>
    refine Memory.Writes.trans ?_ (ih (major + 1) _ (by omega))
    exact ((m.writes_setByte _ _).mono (by omega) (by omega)).trans
      ((Memory.writes_setByte _ _ _).mono (by omega) (by omega))

/-- `EccGen` writes sector bytes 2076 to 2351 only (43_cd_frame R166, R170). -/
theorem eccGen_writes (o : Nat) (m : Memory) : m.Writes (o + 2076) 276 (eccGen o m) :=
  ((eccPQLoop_writes o 86 24 2 86 2076 86 0 m (by omega)).mono (by omega) (by omega)).trans
    ((eccPQLoop_writes o 52 43 86 88 2248 52 0 _ (by omega)).mono (by omega) (by omega))

/-- `WriteSync` writes 12 bytes (43_cd_frame R164). -/
theorem writeSync_writes (o : Nat) (m : Memory) : m.Writes o 12 (writeSync o m) := m.writes_writeBytes o syncPattern

/-- One turn of CD_ASSEMBLE writes one frame (43_cd_frame R162). -/
theorem assembleFrame_writes (src sec sub : Memory) (bitmap f : Nat) (m : Memory) :
    m.Writes (2448 * f) 2448 (assembleFrame src sec sub bitmap f m) := by
  have h1 : m.Writes (2448 * f) 2448 (m.writeBytes (2448 * f) (sec.readBytes (2352 * f) 2352)) :=
    (m.writes_writeBytes _ _).mono (by omega) (by rw [Memory.length_readBytes]; omega)
  have h2 := h1.trans ((Memory.writes_writeBytes _ (2448 * f + 2352) (sub.readBytes (96 * f) 96)).mono (by omega)
    (by rw [Memory.length_readBytes]))
  simp only [assembleFrame]
  split
  · exact h2.trans (((writeSync_writes _ _).mono (by omega) (by omega)).trans
      ((eccGen_writes _ _).mono (by omega) (by omega)))
  · exact h2

/-- The loop of CD_ASSEMBLE writes its frames and nothing else (43_cd_frame R162). -/
theorem assembleLoop_writes (src sec sub : Memory) (bitmap n f : Nat) (m : Memory) :
    m.Writes (2448 * f) (2448 * n) (assembleLoop src sec sub bitmap n f m) := by
  induction n generalizing f m with
  | zero => exact Memory.Writes.refl _ _ _
  | succ n ih =>
    exact ((assembleFrame_writes src sec sub bitmap f m).mono (by omega) (by omega)).trans
      ((ih (f + 1) _).mono (by omega) (by omega))

end Sys2Proof.Machine
end

