-- ==== Sys2Proof/Laws/State.lean ====
section
/-! SUPPORT. One lemma per field per update of the state, true by rfl; the status word's fields. -/

namespace Sys2Proof.Machine

/-! ## State.setR -/

@[simp] theorem State.setR_cw (s : State) (i : Fin 4) (v : Word) : (s.setR i v).cw = s.cw := rfl

@[simp] theorem State.setR_a (s : State) (i : Fin 4) (v : Word) : (s.setR i v).a = s.a := rfl

@[simp] theorem State.setR_r (s : State) (i : Fin 4) (v : Word) :
    (s.setR i v).r = s.r.set i.val v i.isLt := rfl

@[simp] theorem State.setR_st (s : State) (i : Fin 4) (v : Word) : (s.setR i v).st = s.st := rfl

@[simp] theorem State.setR_dec (s : State) (i : Fin 4) (v : Word) : (s.setR i v).dec = s.dec := rfl

@[simp] theorem State.setR_src (s : State) (i : Fin 4) (v : Word) : (s.setR i v).src = s.src := rfl

@[simp] theorem State.setR_dst (s : State) (i : Fin 4) (v : Word) : (s.setR i v).dst = s.dst := rfl

@[simp] theorem State.setR_sec (s : State) (i : Fin 4) (v : Word) : (s.setR i v).sec = s.sec := rfl

@[simp] theorem State.setR_sub (s : State) (i : Fin 4) (v : Word) : (s.setR i v).sub = s.sub := rfl

@[simp] theorem State.setR_flac (s : State) (i : Fin 4) (v : Word) : (s.setR i v).flac = s.flac := rfl

@[simp] theorem State.setR_host (s : State) (i : Fin 4) (v : Word) : (s.setR i v).host = s.host := rfl

@[simp] theorem State.setR_free (s : State) (i : Fin 4) (v : Word) : (s.setR i v).free = s.free := rfl

/-! ## State.setResults -/

@[simp] theorem State.setResults_cw (s : State) (v0 v1 v2 v3 : Word) : (s.setResults v0 v1 v2 v3).cw = s.cw := rfl

@[simp] theorem State.setResults_a (s : State) (v0 v1 v2 v3 : Word) : (s.setResults v0 v1 v2 v3).a = s.a := rfl

@[simp] theorem State.setResults_r (s : State) (v0 v1 v2 v3 : Word) :
    (s.setResults v0 v1 v2 v3).r = #v[v0, v1, v2, v3] := rfl

@[simp] theorem State.setResults_st (s : State) (v0 v1 v2 v3 : Word) : (s.setResults v0 v1 v2 v3).st = s.st := rfl

@[simp] theorem State.setResults_dec (s : State) (v0 v1 v2 v3 : Word) : (s.setResults v0 v1 v2 v3).dec = s.dec := rfl

@[simp] theorem State.setResults_src (s : State) (v0 v1 v2 v3 : Word) : (s.setResults v0 v1 v2 v3).src = s.src := rfl

@[simp] theorem State.setResults_dst (s : State) (v0 v1 v2 v3 : Word) : (s.setResults v0 v1 v2 v3).dst = s.dst := rfl

@[simp] theorem State.setResults_sec (s : State) (v0 v1 v2 v3 : Word) : (s.setResults v0 v1 v2 v3).sec = s.sec := rfl

@[simp] theorem State.setResults_sub (s : State) (v0 v1 v2 v3 : Word) : (s.setResults v0 v1 v2 v3).sub = s.sub := rfl

@[simp] theorem State.setResults_flac (s : State) (v0 v1 v2 v3 : Word) : (s.setResults v0 v1 v2 v3).flac = s.flac := rfl

@[simp] theorem State.setResults_host (s : State) (v0 v1 v2 v3 : Word) : (s.setResults v0 v1 v2 v3).host = s.host := rfl

@[simp] theorem State.setResults_free (s : State) (v0 v1 v2 v3 : Word) : (s.setResults v0 v1 v2 v3).free = s.free := rfl

/-! ## State.setA -/

@[simp] theorem State.setA_cw (s : State) (i : Fin 4) (v : Word) : (s.setA i v).cw = s.cw := rfl

@[simp] theorem State.setA_a (s : State) (i : Fin 4) (v : Word) :
    (s.setA i v).a = s.a.set i.val v i.isLt := rfl

@[simp] theorem State.setA_r (s : State) (i : Fin 4) (v : Word) : (s.setA i v).r = s.r := rfl

@[simp] theorem State.setA_st (s : State) (i : Fin 4) (v : Word) : (s.setA i v).st = s.st := rfl

@[simp] theorem State.setA_dec (s : State) (i : Fin 4) (v : Word) : (s.setA i v).dec = s.dec := rfl

@[simp] theorem State.setA_src (s : State) (i : Fin 4) (v : Word) : (s.setA i v).src = s.src := rfl

@[simp] theorem State.setA_dst (s : State) (i : Fin 4) (v : Word) : (s.setA i v).dst = s.dst := rfl

@[simp] theorem State.setA_sec (s : State) (i : Fin 4) (v : Word) : (s.setA i v).sec = s.sec := rfl

@[simp] theorem State.setA_sub (s : State) (i : Fin 4) (v : Word) : (s.setA i v).sub = s.sub := rfl

@[simp] theorem State.setA_flac (s : State) (i : Fin 4) (v : Word) : (s.setA i v).flac = s.flac := rfl

@[simp] theorem State.setA_host (s : State) (i : Fin 4) (v : Word) : (s.setA i v).host = s.host := rfl

@[simp] theorem State.setA_free (s : State) (i : Fin 4) (v : Word) : (s.setA i v).free = s.free := rfl

/-! ## State.setReader -/

@[simp] theorem State.setReader_cw (s : State) (b : BitReader) : (s.setReader b).cw = s.cw := rfl

@[simp] theorem State.setReader_a (s : State) (b : BitReader) : (s.setReader b).a = s.a := rfl

@[simp] theorem State.setReader_r (s : State) (b : BitReader) : (s.setReader b).r = s.r := rfl

@[simp] theorem State.setReader_st (s : State) (b : BitReader) : (s.setReader b).st = s.st := rfl

@[simp] theorem State.setReader_dec (s : State) (b : BitReader) :
    (s.setReader b).dec = s.dec.setReader b := rfl

@[simp] theorem State.setReader_src (s : State) (b : BitReader) : (s.setReader b).src = s.src := rfl

@[simp] theorem State.setReader_dst (s : State) (b : BitReader) : (s.setReader b).dst = s.dst := rfl

@[simp] theorem State.setReader_sec (s : State) (b : BitReader) : (s.setReader b).sec = s.sec := rfl

@[simp] theorem State.setReader_sub (s : State) (b : BitReader) : (s.setReader b).sub = s.sub := rfl

@[simp] theorem State.setReader_flac (s : State) (b : BitReader) : (s.setReader b).flac = s.flac := rfl

@[simp] theorem State.setReader_host (s : State) (b : BitReader) : (s.setReader b).host = s.host := rfl

@[simp] theorem State.setReader_free (s : State) (b : BitReader) : (s.setReader b).free = s.free := rfl

/-! ## State.withEngine -/

@[simp] theorem State.withEngine_cw (s : State) (e : Engine) : (s.withEngine e).cw = s.cw := rfl

@[simp] theorem State.withEngine_a (s : State) (e : Engine) : (s.withEngine e).a = s.a := rfl

@[simp] theorem State.withEngine_r (s : State) (e : Engine) : (s.withEngine e).r = s.r := rfl

@[simp] theorem State.withEngine_st (s : State) (e : Engine) : (s.withEngine e).st = s.st := rfl

@[simp] theorem State.withEngine_dec (s : State) (e : Engine) :
    (s.withEngine e).dec = e.dec := rfl

@[simp] theorem State.withEngine_src (s : State) (e : Engine) : (s.withEngine e).src = s.src := rfl

@[simp] theorem State.withEngine_dst (s : State) (e : Engine) :
    (s.withEngine e).dst = e.dst := rfl

@[simp] theorem State.withEngine_sec (s : State) (e : Engine) : (s.withEngine e).sec = s.sec := rfl

@[simp] theorem State.withEngine_sub (s : State) (e : Engine) : (s.withEngine e).sub = s.sub := rfl

@[simp] theorem State.withEngine_flac (s : State) (e : Engine) : (s.withEngine e).flac = s.flac := rfl

@[simp] theorem State.withEngine_host (s : State) (e : Engine) : (s.withEngine e).host = s.host := rfl

@[simp] theorem State.withEngine_free (s : State) (e : Engine) : (s.withEngine e).free = s.free := rfl

/-! ## illegalWord -/

@[simp] theorem illegalWord_cw (op : BitVec 8) (s : State) : (illegalWord op s).cw = s.cw := rfl

@[simp] theorem illegalWord_a (op : BitVec 8) (s : State) : (illegalWord op s).a = s.a := rfl

@[simp] theorem illegalWord_r (op : BitVec 8) (s : State) : (illegalWord op s).r = s.r := rfl

@[simp] theorem illegalWord_st (op : BitVec 8) (s : State) :
    (illegalWord op s).st = stWord .illegalCommand op := rfl

@[simp] theorem illegalWord_dec (op : BitVec 8) (s : State) : (illegalWord op s).dec = s.dec := rfl

@[simp] theorem illegalWord_src (op : BitVec 8) (s : State) : (illegalWord op s).src = s.src := rfl

@[simp] theorem illegalWord_dst (op : BitVec 8) (s : State) : (illegalWord op s).dst = s.dst := rfl

@[simp] theorem illegalWord_sec (op : BitVec 8) (s : State) : (illegalWord op s).sec = s.sec := rfl

@[simp] theorem illegalWord_sub (op : BitVec 8) (s : State) : (illegalWord op s).sub = s.sub := rfl

@[simp] theorem illegalWord_flac (op : BitVec 8) (s : State) : (illegalWord op s).flac = s.flac := rfl

@[simp] theorem illegalWord_host (op : BitVec 8) (s : State) : (illegalWord op s).host = s.host := rfl

@[simp] theorem illegalWord_free (op : BitVec 8) (s : State) : (illegalWord op s).free = s.free := rfl

/-! ## errorEntry -/

@[simp] theorem errorEntry_cw (k : ErrorKind) (op : BitVec 8) (lo n : Nat) (s : State) : (errorEntry k op lo n s).cw = s.cw := rfl

@[simp] theorem errorEntry_a (k : ErrorKind) (op : BitVec 8) (lo n : Nat) (s : State) : (errorEntry k op lo n s).a = s.a := rfl

@[simp] theorem errorEntry_r (k : ErrorKind) (op : BitVec 8) (lo n : Nat) (s : State) :
    (errorEntry k op lo n s).r = #v[Config.freeResult s.free 0, Config.freeResult s.free 1,
      Config.freeResult s.free 2, Config.freeResult s.free 3] := rfl

@[simp] theorem errorEntry_st (k : ErrorKind) (op : BitVec 8) (lo n : Nat) (s : State) :
    (errorEntry k op lo n s).st = stWord k op := rfl

@[simp] theorem errorEntry_dec (k : ErrorKind) (op : BitVec 8) (lo n : Nat) (s : State) : (errorEntry k op lo n s).dec = s.dec := rfl

@[simp] theorem errorEntry_src (k : ErrorKind) (op : BitVec 8) (lo n : Nat) (s : State) : (errorEntry k op lo n s).src = s.src := rfl

@[simp] theorem errorEntry_dst (k : ErrorKind) (op : BitVec 8) (lo n : Nat) (s : State) :
    (errorEntry k op lo n s).dst = s.dst.unspecify lo n s.free := rfl

@[simp] theorem errorEntry_sec (k : ErrorKind) (op : BitVec 8) (lo n : Nat) (s : State) : (errorEntry k op lo n s).sec = s.sec := rfl

@[simp] theorem errorEntry_sub (k : ErrorKind) (op : BitVec 8) (lo n : Nat) (s : State) : (errorEntry k op lo n s).sub = s.sub := rfl

@[simp] theorem errorEntry_flac (k : ErrorKind) (op : BitVec 8) (lo n : Nat) (s : State) : (errorEntry k op lo n s).flac = s.flac := rfl

@[simp] theorem errorEntry_host (k : ErrorKind) (op : BitVec 8) (lo n : Nat) (s : State) : (errorEntry k op lo n s).host = s.host := rfl

@[simp] theorem errorEntry_free (k : ErrorKind) (op : BitVec 8) (lo n : Nat) (s : State) :
    (errorEntry k op lo n s).free = s.free + 1 := rfl

/-! ## raise -/

@[simp] theorem raise_cw (k : ErrorKind) (op : BitVec 8) (s : State) : (raise k op s).cw = s.cw := rfl

@[simp] theorem raise_a (k : ErrorKind) (op : BitVec 8) (s : State) : (raise k op s).a = s.a := rfl

@[simp] theorem raise_r (k : ErrorKind) (op : BitVec 8) (s : State) :
    (raise k op s).r = #v[Config.freeResult s.free 0, Config.freeResult s.free 1,
      Config.freeResult s.free 2, Config.freeResult s.free 3] := rfl

@[simp] theorem raise_st (k : ErrorKind) (op : BitVec 8) (s : State) :
    (raise k op s).st = stWord k op := rfl

@[simp] theorem raise_dec (k : ErrorKind) (op : BitVec 8) (s : State) : (raise k op s).dec = s.dec := rfl

@[simp] theorem raise_src (k : ErrorKind) (op : BitVec 8) (s : State) : (raise k op s).src = s.src := rfl

@[simp] theorem raise_dst (k : ErrorKind) (op : BitVec 8) (s : State) : (raise k op s).dst = s.dst := by
  simp [raise]

@[simp] theorem raise_sec (k : ErrorKind) (op : BitVec 8) (s : State) : (raise k op s).sec = s.sec := rfl

@[simp] theorem raise_sub (k : ErrorKind) (op : BitVec 8) (s : State) : (raise k op s).sub = s.sub := rfl

@[simp] theorem raise_flac (k : ErrorKind) (op : BitVec 8) (s : State) : (raise k op s).flac = s.flac := rfl

@[simp] theorem raise_host (k : ErrorKind) (op : BitVec 8) (s : State) : (raise k op s).host = s.host := rfl

@[simp] theorem raise_free (k : ErrorKind) (op : BitVec 8) (s : State) :
    (raise k op s).free = s.free + 1 := rfl

/-! ## blockReset -/

@[simp] theorem blockReset_cw (s : State) : (blockReset s).cw = s.cw := rfl

@[simp] theorem blockReset_a (s : State) :
    (blockReset s).a = Vector.replicate 4 0 := rfl

@[simp] theorem blockReset_r (s : State) :
    (blockReset s).r = Vector.replicate 4 0 := rfl

@[simp] theorem blockReset_st (s : State) :
    (blockReset s).st = 0 := rfl

@[simp] theorem blockReset_dec (s : State) :
    (blockReset s).dec = { br := BitReader.reset, hd := clearedContexts s.free } := rfl

@[simp] theorem blockReset_src (s : State) : (blockReset s).src = s.src := rfl

@[simp] theorem blockReset_dst (s : State) : (blockReset s).dst = s.dst := rfl

@[simp] theorem blockReset_sec (s : State) : (blockReset s).sec = s.sec := rfl

@[simp] theorem blockReset_sub (s : State) : (blockReset s).sub = s.sub := rfl

@[simp] theorem blockReset_flac (s : State) : (blockReset s).flac = s.flac := rfl

@[simp] theorem blockReset_host (s : State) : (blockReset s).host = s.host := rfl

@[simp] theorem blockReset_free (s : State) :
    (blockReset s).free = s.free + 1 := rfl

/-! ## powerOn -/

@[simp] theorem powerOn_cw (s : State) :
    (powerOn s).cw = 0 := rfl

@[simp] theorem powerOn_a (s : State) :
    (powerOn s).a = Vector.replicate 4 0 := rfl

@[simp] theorem powerOn_r (s : State) :
    (powerOn s).r = Vector.replicate 4 0 := rfl

@[simp] theorem powerOn_st (s : State) :
    (powerOn s).st = 0 := rfl

@[simp] theorem powerOn_dec (s : State) :
    (powerOn s).dec = { br := BitReader.reset, hd := clearedContexts s.free } := rfl

@[simp] theorem powerOn_src (s : State) : (powerOn s).src = s.src := rfl

@[simp] theorem powerOn_dst (s : State) :
    (powerOn s).dst = s.dst.unspecify 0 s.dst.size s.free := rfl

@[simp] theorem powerOn_sec (s : State) : (powerOn s).sec = s.sec := rfl

@[simp] theorem powerOn_sub (s : State) : (powerOn s).sub = s.sub := rfl

@[simp] theorem powerOn_flac (s : State) : (powerOn s).flac = s.flac := rfl

@[simp] theorem powerOn_host (s : State) : (powerOn s).host = s.host := rfl

@[simp] theorem powerOn_free (s : State) :
    (powerOn s).free = s.free + 1 := rfl

/-! ## State.hostIssues -/

@[simp] theorem State.hostIssues_cw (s : State) (w : Word) : (s.hostIssues w).cw = s.cw := rfl

@[simp] theorem State.hostIssues_a (s : State) (w : Word) : (s.hostIssues w).a = s.a := rfl

@[simp] theorem State.hostIssues_r (s : State) (w : Word) : (s.hostIssues w).r = s.r := rfl

@[simp] theorem State.hostIssues_st (s : State) (w : Word) : (s.hostIssues w).st = s.st := rfl

@[simp] theorem State.hostIssues_dec (s : State) (w : Word) : (s.hostIssues w).dec = s.dec := rfl

@[simp] theorem State.hostIssues_src (s : State) (w : Word) : (s.hostIssues w).src = s.src := rfl

@[simp] theorem State.hostIssues_dst (s : State) (w : Word) : (s.hostIssues w).dst = s.dst := rfl

@[simp] theorem State.hostIssues_sec (s : State) (w : Word) : (s.hostIssues w).sec = s.sec := rfl

@[simp] theorem State.hostIssues_sub (s : State) (w : Word) : (s.hostIssues w).sub = s.sub := rfl

@[simp] theorem State.hostIssues_flac (s : State) (w : Word) : (s.hostIssues w).flac = s.flac := rfl

@[simp] theorem State.hostIssues_host (s : State) (w : Word) :
    (s.hostIssues w).host = .writeCW w :: s.host := rfl

@[simp] theorem State.hostIssues_free (s : State) (w : Word) : (s.hostIssues w).free = s.free := rfl

/-! ## The engine -/

@[simp] theorem State.engine_dec (s : State) : s.engine.dec = s.dec := rfl

@[simp] theorem State.engine_dst (s : State) : s.engine.dst = s.dst := rfl

@[simp] theorem State.withEngine_engine (s : State) : s.withEngine s.engine = s := rfl

/-! ## Decoder updates -/

@[simp] theorem Decoder.setReader_br (d : Decoder) (b : BitReader) : (d.setReader b).br = b := rfl

@[simp] theorem Decoder.setReader_hd (d : Decoder) (b : BitReader) : (d.setReader b).hd = d.hd := rfl

@[simp] theorem Decoder.ctx_setReader (d : Decoder) (b : BitReader) (c : Fin 7) : (d.setReader b).ctx c = d.ctx c := rfl

@[simp] theorem Decoder.setCtx_br (d : Decoder) (c : Fin 7) (x : Context) : (d.setCtx c x).br = d.br := rfl

theorem Decoder.ctx_setCtx (d : Decoder) (c c' : Fin 7) (x : Context) :
    (d.setCtx c x).ctx c' = if c' = c then x else d.ctx c' := by
  simp only [Decoder.ctx, Decoder.setCtx, Vector.getElem_set]
  by_cases h : c = c'
  · simp [h]
  · have h' : c.val ≠ c'.val := fun e => h (Fin.ext e)
    simp [h', Ne.symm h]

@[simp] theorem Decoder.ctx_setCtx_self (d : Decoder) (c : Fin 7) (x : Context) : (d.setCtx c x).ctx c = x := by
  simp [Decoder.ctx_setCtx]

theorem Decoder.ctx_setCtx_of_ne (d : Decoder) {c c' : Fin 7} (x : Context) (h : c' ≠ c) :
    (d.setCtx c x).ctx c' = d.ctx c' := by
  simp [Decoder.ctx_setCtx, h]

@[simp] theorem Decoder.setCtx_setCtx (d : Decoder) (c : Fin 7) (x y : Context) :
    (d.setCtx c x).setCtx c y = d.setCtx c y := by
  simp [Decoder.setCtx]

@[simp] theorem Decoder.setCtx_ctx (d : Decoder) (c : Fin 7) : d.setCtx c (d.ctx c) = d := by
  simp [Decoder.setCtx, Decoder.ctx]

theorem Decoder.setCtx_setReader (d : Decoder) (c : Fin 7) (x : Context) (b : BitReader) :
    (d.setCtx c x).setReader b = (d.setReader b).setCtx c x := rfl

@[simp] theorem Decoder.setReader_setReader (d : Decoder) (b b' : BitReader) :
    (d.setReader b).setReader b' = d.setReader b' := rfl

@[simp] theorem Decoder.setReader_self (d : Decoder) : d.setReader d.br = d := rfl

/-- Two decoders with the same reader and the same contexts are the same. -/
theorem Decoder.ext_ctx {d d' : Decoder} (hb : d.br = d'.br) (hc : ∀ c, d.ctx c = d'.ctx c) : d = d' := by
  obtain ⟨b, h⟩ := d
  obtain ⟨b', h'⟩ := d'
  obtain rfl : b = b' := hb
  congr 1
  ext1 i hi
  exact hc ⟨i, hi⟩

@[simp] theorem Decoder.setValid_br (d : Decoder) (c : Fin 7) (b : Bool) : (d.setValid c b).br = d.br := rfl

@[simp] theorem Decoder.clearRun_br (d : Decoder) (c : Fin 7) : (d.clearRun c).br = d.br := rfl

@[simp] theorem Decoder.setMeta_br (d : Decoder) : d.setMeta.br = d.br := rfl

@[simp] theorem Decoder.ctx_setValid_self (d : Decoder) (c : Fin 7) (b : Bool) :
    (d.setValid c b).ctx c = { d.ctx c with valid := b } := by
  simp [Decoder.setValid]

theorem Decoder.ctx_setValid_of_ne (d : Decoder) {c c' : Fin 7} (b : Bool) (h : c' ≠ c) :
    (d.setValid c b).ctx c' = d.ctx c' := by
  simp [Decoder.setValid, Decoder.ctx_setCtx, h]

@[simp] theorem Decoder.ctx_clearRun_self (d : Decoder) (c : Fin 7) :
    (d.clearRun c).ctx c = { d.ctx c with run := 0 } := by
  simp [Decoder.clearRun]

theorem Decoder.ctx_clearRun_of_ne (d : Decoder) {c c' : Fin 7} (h : c' ≠ c) :
    (d.clearRun c).ctx c' = d.ctx c' := by
  simp [Decoder.clearRun, Decoder.ctx_setCtx, h]

theorem Decoder.ctx_setMeta_of_ne (d : Decoder) {c : Fin 7} (h : c ≠ 6) : d.setMeta.ctx c = d.ctx c := by
  simp [Decoder.setMeta, Decoder.ctx_setCtx, h]

/-! ## Contexts after a reset -/

theorem ctx_clearedContexts (b : BitReader) (k : Nat) (c : Fin 7) :
    (Decoder.ctx { br := b, hd := clearedContexts k } c) = Context.cleared k c.val := by
  simp only [Decoder.ctx, clearedContexts]
  simp

@[simp] theorem ctx_reset (c : Fin 7) : Decoder.reset.ctx c = Context.reset := by
  simp [Decoder.ctx, Decoder.reset]

/-! ## The status word (10_state R22) -/

@[simp] theorem stWord_err (k : ErrorKind) (op : BitVec 8) : (stWord k op).extractLsb' 0 3 = k.code := by
  cases k <;> revert op <;> decide

@[simp] theorem stWord_errop (k : ErrorKind) (op : BitVec 8) : (stWord k op).extractLsb' 8 8 = op := by
  cases k <;> revert op <;> decide

theorem stWord_reserved (k : ErrorKind) (op : BitVec 8) :
    (stWord k op).extractLsb' 16 16 = 0 ∧ (stWord k op).extractLsb' 3 5 = 0 := by
  cases k <;> revert op <;> decide

theorem stWord_toNat (k : ErrorKind) (op : BitVec 8) : (stWord k op).toNat = k.code.toNat + 256 * op.toNat := by
  cases k <;> revert op <;> decide

theorem code_ne_zero (k : ErrorKind) : k.code ≠ 0 := by cases k <;> decide

end Sys2Proof.Machine
end

