-- ==== Sys2Proof/Laws/Results.lean ====
section
/-! SUPPORT. What the shared shapes of a command do: the latch, the operand checks, the result of a procedure. -/

namespace Sys2Proof.Machine

/-! ## The latch (60_exceptions R217) -/

theorem command_of_latched {s : State} (h : s.err ≠ 0) (f : State → State) : command s f = .next s := by
  have h' : s.latched = true := by simpa [State.latched] using h
  simp [command, h']

theorem command_of_running {s : State} (h : s.err = 0) (f : State → State) : command s f = .next (f s) := by
  simp [command, State.latched, h]

/-- What a gated command answers: the state unchanged while latched, its own effect otherwise. -/
theorem command_eq_next {s t : State} {f : State → State} (h : command s f = .next t) :
    (s.err ≠ 0 ∧ t = s) ∨ (s.err = 0 ∧ t = f s) := by
  by_cases he : s.err = 0
  · rw [command_of_running he] at h
    injection h with h
    exact .inr ⟨he, h.symm⟩
  · rw [command_of_latched he] at h
    injection h with h
    exact .inl ⟨he, h.symm⟩

/-! ## Operand checks (30_encoding R74) -/

theorem contextNumber_ofNat (k : Fin 7) (h : k.val < 6) : contextNumber (BitVec.ofNat 4 k.val) = some k := by
  revert k; decide

theorem contextNumber_eq_some {c : BitVec 4} {k : Fin 7} (h : contextNumber c = some k) : k.val = c.toNat ∧ k.val < 6 := by
  unfold contextNumber at h
  split at h
  · injection h with h; subst h; exact ⟨rfl, by assumption⟩
  · cases h

theorem contextNumber_eq_none {c : BitVec 4} (h : contextNumber c = none) : legalContext c = false := by
  revert c; decide

theorem withContext_ofNat (op : BitVec 8) (k : Fin 7) (h : k.val < 6) (s : State) (f : Fin 7 → State) :
    withContext op (BitVec.ofNat 4 k.val) s f = f k := by
  simp [withContext, contextNumber_ofNat k h]

theorem withContext_of_illegal (op : BitVec 8) {c : BitVec 4} (h : legalContext c = false) (s : State)
    (f : Fin 7 → State) : withContext op c s f = illegalWord op s := by
  have hn : contextNumber c = none := by revert c; decide
  simp [withContext, hn]

theorem withBitCount_of_legal (op : BitVec 8) {n : BitVec 6} (h : legalBitCount n = true) (s : State)
    (f : Nat → State) : withBitCount op n s f = f n.toNat := by
  simp [withBitCount, h]

theorem withBitCount_of_illegal (op : BitVec 8) {n : BitVec 6} (h : legalBitCount n = false) (s : State)
    (f : Nat → State) : withBitCount op n s f = illegalWord op s := by
  simp [withBitCount, h]

/-! ## Results of procedures -/

/-- The state a procedure leaves, whether it returned or raised. -/
def Res.state {σ α : Type} : Res σ α → σ
  | .ok _ t => t
  | .raised _ t => t

@[simp] theorem Res.state_ok {σ α : Type} (a : α) (t : σ) : (Res.ok a t).state = t := rfl

@[simp] theorem Res.state_raised {σ α : Type} (k : ErrorKind) (t : σ) : (Res.raised k t : Res σ α).state = t := rfl

@[simp] theorem Res.andThen_of_ok {σ α β : Type} (a : α) (t : σ) (f : α → σ → Res σ β) :
    (Res.ok a t).andThen f = f a t := rfl

@[simp] theorem Res.andThen_of_raised {σ α β : Type} (k : ErrorKind) (t : σ) (f : α → σ → Res σ β) :
    (Res.raised k t).andThen f = .raised k t := rfl

theorem Res.andThen_eq_ok {σ α β : Type} {r : Res σ α} {f : α → σ → Res σ β} {b : β} {u : σ}
    (h : r.andThen f = .ok b u) : ∃ a t, r = .ok a t ∧ f a t = .ok b u := by
  cases r with
  | ok a t => exact ⟨a, t, rfl, h⟩
  | raised k t => cases h

theorem Res.andThen_eq_raised {σ α β : Type} {r : Res σ α} {f : α → σ → Res σ β} {k : ErrorKind} {u : σ}
    (h : r.andThen f = .raised k u) : r = .raised k u ∨ ∃ a t, r = .ok a t ∧ f a t = .raised k u := by
  cases r with
  | ok a t => exact .inr ⟨a, t, rfl, h⟩
  | raised k' t =>
    injection h with h1 h2
    exact .inl (by rw [h1, h2])

/-- A relation between the states before and after that holds of each part of a sequence, and composes, holds of the
whole. -/
theorem Res.state_andThen {σ α β : Type} (R : σ → Prop) {r : Res σ α} {f : α → σ → Res σ β} (h1 : R r.state)
    (h2 : ∀ a t, r = .ok a t → R t → R (f a t).state) : R (r.andThen f).state := by
  cases r with
  | ok a t => exact h2 a t rfl h1
  | raised k t => exact h1

/-- What running a decoding procedure gives: its own end, or error entry after the state it left. -/
theorem runDecoder_cases {α : Type} (op : BitVec 8) (s : State) (p : Decoder → Res Decoder α) (done : α → State → State) :
    (∃ v d, p s.dec = .ok v d ∧ runDecoder op s p done = done v { s with dec := d }) ∨
      (∃ k d, p s.dec = .raised k d ∧ runDecoder op s p done = raise k op { s with dec := d }) := by
  unfold runDecoder
  cases h : p s.dec with
  | ok v d => exact .inl ⟨v, d, rfl, rfl⟩
  | raised k d => exact .inr ⟨k, d, rfl, rfl⟩

/-- What running an AVHuff procedure gives: its own end, or error entry after the state it left. -/
theorem runEngine_cases {α : Type} (op : BitVec 8) (lo n : Nat) (s : State) (p : Engine → Res Engine α)
    (done : α → State → State) :
    (∃ v e, p s.engine = .ok v e ∧ runEngine op lo n s p done = done v (s.withEngine e)) ∨
      (∃ k e, p s.engine = .raised k e ∧ runEngine op lo n s p done = errorEntry k op lo n (s.withEngine e)) := by
  unfold runEngine
  cases h : p s.engine with
  | ok v e => exact .inl ⟨v, e, rfl, rfl⟩
  | raised k e => exact .inr ⟨k, e, rfl, rfl⟩

/-- What a lifted decoding procedure gives: `DST` is left alone. -/
theorem Engine.lift_cases {α : Type} (e : Engine) (p : Decoder → Res Decoder α) :
    (∃ v d, p e.dec = .ok v d ∧ e.lift p = .ok v { e with dec := d }) ∨
      (∃ k d, p e.dec = .raised k d ∧ e.lift p = .raised k { e with dec := d }) := by
  unfold Engine.lift
  cases h : p e.dec with
  | ok v d => exact .inl ⟨v, d, rfl, rfl⟩
  | raised k d => exact .inr ⟨k, d, rfl, rfl⟩

@[simp] theorem Engine.lift_of_ok {α : Type} {e : Engine} {p : Decoder → Res Decoder α} {v : α} {d : Decoder}
    (h : p e.dec = .ok v d) : e.lift p = .ok v { e with dec := d } := by
  simp [Engine.lift, h]

@[simp] theorem Engine.dst_lift {α : Type} (e : Engine) (p : Decoder → Res Decoder α) : (e.lift p).state.dst = e.dst := by
  rcases e.lift_cases p with ⟨v, d, -, h⟩ | ⟨k, d, -, h⟩ <;> simp [h]

end Sys2Proof.Machine
end

