-- ==== Sys2Proof/Laws/BitReader.lean ====
section
/-! SUPPORT. What the bit reader reads: the bits of a peeked value, splitting a read, and streams that hold known bits. -/

namespace Sys2Proof.Machine

/-! ## The reader's updates -/

@[simp] theorem BitReader.advance_base (b : BitReader) (n : Nat) : (b.advance n).base = b.base := rfl

@[simp] theorem BitReader.advance_len (b : BitReader) (n : Nat) : (b.advance n).len = b.len := rfl

@[simp] theorem BitReader.advance_pos (b : BitReader) (n : Nat) : (b.advance n).pos = b.pos + n := rfl

@[simp] theorem BitReader.advance_ovf (b : BitReader) (n : Nat) :
    (b.advance n).ovf = (b.ovf || decide (8 * b.len.toNat < b.pos + n)) := rfl

@[simp] theorem BitReader.read_fst (b : BitReader) (src : Memory) (n : Nat) : (b.read src n).1 = b.peek src n := rfl

@[simp] theorem BitReader.read_snd (b : BitReader) (src : Memory) (n : Nat) : (b.read src n).2 = b.advance n := rfl

@[simp] theorem BitReader.flush_fst (b : BitReader) : b.flush.1 = ceil8 b.pos := rfl

@[simp] theorem BitReader.flush_base (b : BitReader) : b.flush.2.base = b.base := rfl

@[simp] theorem BitReader.flush_len (b : BitReader) : b.flush.2.len = b.len := rfl

@[simp] theorem BitReader.flush_pos (b : BitReader) : b.flush.2.pos = 8 * ceil8 b.pos := rfl

@[simp] theorem BitReader.flush_ovf (b : BitReader) : b.flush.2.ovf = b.ovf := rfl

/-- Where the address fits its register `BASE` holds it. -/
theorem baseWord_of_lt {p : Nat} (h : p < 2 ^ 32) : baseWord p = BitVec.ofNat 32 p := by
  unfold baseWord; rw [if_pos h]

/-- What `BASE` holds is never above the address: the free value of an address that does not fit is below 2^32. -/
theorem baseWord_le (p : Nat) : (baseWord p).toNat ≤ p := by
  unfold baseWord
  split
  · exact Nat.le_trans (by simp) (Nat.mod_le p (2 ^ 32))
  · have := (Config.freeBase p).isLt; omega

/-- BR_INIT's addresses always fit. -/
theorem BitReader.attach_word (base len : Word) :
    BitReader.attach base.toNat len.toNat = { base := base, len := len, pos := 0, ovf := false } := by
  simp [BitReader.attach, baseWord_of_lt base.isLt]

/-- Consecutive reads consume as one: exact also for the overflow flag, because the position only grows. -/
theorem BitReader.advance_advance (b : BitReader) (n m : Nat) : (b.advance n).advance m = b.advance (n + m) := by
  simp only [BitReader.advance, ovfAfterRead, BitReader.mk.injEq, true_and, Nat.add_assoc]
  rw [Bool.or_assoc]
  congr 1
  by_cases h : 8 * b.len.toNat < b.pos + n
  · have h' : 8 * b.len.toNat < b.pos + (n + m) := by omega
    simp [h, h']
  · simp [h]

/-! ## Streams depend on base and length only -/

theorem BitReader.streamBit_congr {b b' : BitReader} (hb : b.base = b'.base) (hl : b.len = b'.len) (src : Memory)
    (k : Nat) : b.streamBit src k = b'.streamBit src k := by
  simp [BitReader.streamBit, hb, hl]

theorem BitReader.bitsAt_congr {b b' : BitReader} (hb : b.base = b'.base) (hl : b.len = b'.len) (src : Memory)
    (k n : Nat) : b.bitsAt src k n = b'.bitsAt src k n := by
  induction n with
  | zero => rfl
  | succ n ih => simp [BitReader.bitsAt, ih, BitReader.streamBit_congr hb hl]

theorem BitReader.streamBits_congr {b b' : BitReader} (hb : b.base = b'.base) (hl : b.len = b'.len) (src : Memory)
    (k n : Nat) : b.streamBits src k n = b'.streamBits src k n := by
  simp [BitReader.streamBits, BitReader.streamBit_congr hb hl]

/-! ## The bits of a value -/

theorem BitReader.bitsAt_lt (b : BitReader) (src : Memory) (k n : Nat) : b.bitsAt src k n < 2 ^ n := by
  induction n with
  | zero => simp [BitReader.bitsAt]
  | succ n ih =>
    have h : (b.streamBit src (k + n)).toNat ≤ 1 := Bool.toNat_le _
    simp only [BitReader.bitsAt, Nat.pow_succ]; omega

theorem BitReader.bitsAt_add (b : BitReader) (src : Memory) (k n m : Nat) :
    b.bitsAt src k (n + m) = b.bitsAt src k n * 2 ^ m + b.bitsAt src (k + n) m := by
  induction m with
  | zero => simp [BitReader.bitsAt]
  | succ m ih =>
    rw [← Nat.add_assoc, BitReader.bitsAt, BitReader.bitsAt, ih, Nat.pow_succ, Nat.add_assoc k n m]; ring

/-- The top `l` bits of a peek are a shorter peek. -/
theorem BitReader.bitsAt_shiftRight (b : BitReader) (src : Memory) (k : Nat) {l n : Nat} (h : l ≤ n) :
    b.bitsAt src k n >>> (n - l) = b.bitsAt src k l := by
  obtain ⟨m, rfl⟩ : ∃ m, n = l + m := ⟨n - l, by omega⟩
  have e : l + m - l = m := by omega
  have hlt := b.bitsAt_lt src (k + l) m
  rw [e, Nat.shiftRight_eq_div_pow, BitReader.bitsAt_add, Nat.add_comm, Nat.add_mul_div_right _ _ (by positivity),
    Nat.div_eq_of_lt hlt, Nat.zero_add]

theorem BitReader.testBit_bitsAt (b : BitReader) (src : Memory) (k : Nat) {n i : Nat} (h : i < n) :
    (b.bitsAt src k n).testBit (n - 1 - i) = b.streamBit src (k + i) := by
  have hs := b.bitsAt_shiftRight src k (l := i + 1) (n := n) (by omega)
  have e : n - (i + 1) = n - 1 - i := by omega
  rw [e] at hs
  have : (b.bitsAt src k n).testBit (n - 1 - i) = (b.bitsAt src k n >>> (n - 1 - i)).testBit 0 := by
    simp
  rw [this, hs, BitReader.bitsAt]
  cases b.streamBit src (k + i) <;> simp [Nat.testBit_zero]

@[simp] theorem length_msbBits (n v : Nat) : (msbBits n v).length = n := by simp [msbBits]

@[simp] theorem BitReader.length_streamBits (b : BitReader) (src : Memory) (k n : Nat) :
    (b.streamBits src k n).length = n := by simp [BitReader.streamBits]

theorem BitReader.streamBits_eq_msbBits (b : BitReader) (src : Memory) (k n : Nat) :
    b.streamBits src k n = msbBits n (b.bitsAt src k n) := by
  apply List.ext_getElem (by simp)
  intro i h1 h2
  simp only [BitReader.length_streamBits] at h1
  simp [BitReader.streamBits, msbBits, BitReader.testBit_bitsAt b src k h1]

theorem msbBits_inj {n v w : Nat} (hv : v < 2 ^ n) (hw : w < 2 ^ n) (h : msbBits n v = msbBits n w) : v = w := by
  apply Nat.eq_of_testBit_eq
  intro i
  by_cases hi : i < n
  · have := congrArg (fun l => l[n - 1 - i]?) h
    have hlt : n - 1 - i < n := by omega
    have e : n - 1 - (n - 1 - i) = i := by omega
    simpa [msbBits, hlt, e] using this
  · have hp : 2 ^ n ≤ 2 ^ i := Nat.pow_le_pow_right (by omega) (by omega)
    rw [Nat.testBit_lt_two_pow (by omega), Nat.testBit_lt_two_pow (by omega)]

/-- A stream that holds the bits of `v` reads as `v`. -/
theorem BitReader.bitsAt_of_holdsAt {b : BitReader} {src : Memory} {k n v : Nat} (hv : v < 2 ^ n)
    (h : b.holdsAt src k (msbBits n v)) : b.bitsAt src k n = v := by
  have h' : b.streamBits src k n = msbBits n v := by
    have h2 := h
    unfold BitReader.holdsAt at h2
    rwa [length_msbBits] at h2
  rw [BitReader.streamBits_eq_msbBits] at h'
  exact msbBits_inj (b.bitsAt_lt src k n) hv h'

theorem BitReader.holdsAt_of_bitsAt (b : BitReader) (src : Memory) (k n : Nat) :
    b.holdsAt src k (msbBits n (b.bitsAt src k n)) := by
  simp [BitReader.holdsAt, BitReader.streamBits_eq_msbBits]

theorem BitReader.streamBits_add (b : BitReader) (src : Memory) (k n m : Nat) :
    b.streamBits src k (n + m) = b.streamBits src k n ++ b.streamBits src (k + n) m := by
  simp [BitReader.streamBits, List.range_add, Nat.add_assoc]

theorem BitReader.holdsAt_append {b : BitReader} {src : Memory} {k : Nat} {xs ys : List Bool} :
    b.holdsAt src k (xs ++ ys) ↔ b.holdsAt src k xs ∧ b.holdsAt src (k + xs.length) ys := by
  unfold BitReader.holdsAt
  rw [List.length_append, BitReader.streamBits_add]
  constructor
  · intro h
    exact List.append_inj h (by simp)
  · rintro ⟨h1, h2⟩
    rw [h1, h2]

@[simp] theorem BitReader.holdsAt_nil (b : BitReader) (src : Memory) (k : Nat) : b.holdsAt src k [] := by
  simp [BitReader.holdsAt, BitReader.streamBits]

theorem BitReader.holdsAt_congr {b b' : BitReader} (hb : b.base = b'.base) (hl : b.len = b'.len) (src : Memory)
    (k : Nat) (xs : List Bool) : b.holdsAt src k xs ↔ b'.holdsAt src k xs := by
  unfold BitReader.holdsAt
  rw [BitReader.streamBits_congr hb hl]

end Sys2Proof.Machine
end

