-- ==== Sys2Proof/Laws/Canonical.lean ====
section
/-! SUPPORT. The canonical code: the assignment loop of 30_encoding R83 computes `canonicalCode`, its words fit their
lengths when the Kraft inequality holds, and no word begins another. -/

namespace Sys2Proof.Machine

/-! ## The numbers `first[l]` -/

@[simp] theorem length_firstCodesFrom (ls : List Nat) (n l v : Nat) : (firstCodesFrom ls n l v).length = n := by
  induction n generalizing l v with
  | zero => rfl
  | succ n ih => simp [firstCodesFrom, ih]

theorem getD_firstCodesFrom (ls : List Nat) {n i : Nat} (l : Nat) (h : i < n) :
    (firstCodesFrom ls n (l + 1) (firstCode ls (l + 1))).getD i 0 = firstCode ls (l + 1 + i) := by
  induction n generalizing l i with
  | zero => omega
  | succ n ih =>
    rw [firstCodesFrom]
    cases i with
    | zero => simp
    | succ i =>
      have e : 2 * (firstCode ls (l + 1) + ls.count (l + 1)) = firstCode ls (l + 1 + 1) := rfl
      rw [e, List.getD_cons_succ, ih (l + 1) (by omega)]
      congr 1; omega

theorem initialNext_eq (maxbits : Nat) (ls : List Nat) : initialNext maxbits ls = 0 :: firstCodesFrom ls maxbits 1 0 := rfl

theorem length_initialNext (maxbits : Nat) (ls : List Nat) : (initialNext maxbits ls).length = maxbits + 1 := by
  simp [initialNext_eq]

theorem getD_initialNext {maxbits l : Nat} (ls : List Nat) (h1 : 1 ≤ l) (h2 : l ≤ maxbits) :
    (initialNext maxbits ls).getD l 0 = firstCode ls l := by
  obtain ⟨i, rfl⟩ : ∃ i, l = i + 1 := ⟨l - 1, by omega⟩
  have h := getD_firstCodesFrom ls (n := maxbits) (i := i) 0 (by omega)
  have e0 : firstCode ls (0 + 1) = 0 := rfl
  rw [e0] at h
  rw [initialNext_eq, List.getD_cons_succ, h]
  congr 1; omega

/-! ## The assignment loop -/

/-- The loop gives symbol `s` of length `l` the word `next[l]` plus one for every earlier symbol of that length; an unused
symbol keeps its entry. -/
theorem getD_assignCodes {ls next : List Nat} {cs : List Word} {s : Nat} (hs : s < ls.length) (hc : s < cs.length)
    (hn : ∀ l ∈ ls, l < next.length) :
    (assignCodes ls next cs).getD s 0 =
      if ls.getD s 0 = 0 then cs.getD s 0
      else BitVec.ofNat 32 (next.getD (ls.getD s 0) 0 + (ls.take s).count (ls.getD s 0)) := by
  induction cs generalizing ls next s with
  | nil => simp at hc
  | cons c cs ih =>
    cases ls with
    | nil => simp at hs
    | cons l ls =>
      have hl : l < next.length := hn l (by simp)
      have hn' : ∀ x ∈ ls, x < next.length := fun x hx => hn x (by simp [hx])
      cases s with
      | zero => by_cases h0 : l = 0 <;> simp [assignCodes, h0]
      | succ s =>
        have hs' : s < ls.length := by simpa using hs
        have hc' : s < cs.length := by simpa using hc
        by_cases h0 : l = 0
        · rw [assignCodes, if_pos h0, List.getD_cons_succ, ih hs' hc' hn']
          simp only [List.getD_cons_succ, List.take_succ_cons, List.count_cons, h0]
          split
          · rfl
          · next hne =>
            have hb : (0 == ls.getD s 0) = false := by rw [beq_eq_false_iff_ne]; exact fun e => hne e.symm
            rw [hb]; rfl
        · rw [assignCodes, if_neg h0, List.getD_cons_succ, ih hs' hc' (by simpa using hn')]
          simp only [List.getD_cons_succ, List.take_succ_cons, List.count_cons]
          split
          · rfl
          · next hne =>
            by_cases he : l = ls.getD s 0
            · have hb : (l == ls.getD s 0) = true := by simpa using he
              have hg : (next.set l (next.getD l 0 + 1)).getD (ls.getD s 0) 0 = next.getD l 0 + 1 := by
                rw [← he]; simp [List.getD, hl]
              rw [hg, hb, ← he]; congr 1; simp; omega
            · have hb : (l == ls.getD s 0) = false := by simpa using he
              have hg : (next.set l (next.getD l 0 + 1)).getD (ls.getD s 0) 0 = next.getD (ls.getD s 0) 0 := by
                rw [List.getD, List.getElem?_set, if_neg he]; rfl
              rw [hg, hb]; rfl

/-- What a valid length list says of one length. -/
theorem lengthsValid_iff {maxbits : Nat} {ls : List Nat} :
    lengthsValid maxbits ls = true ↔ (∀ l ∈ ls, l ≤ maxbits) ∧ kraftSum maxbits ls ≤ 2 ^ maxbits := by
  simp [lengthsValid]

theorem getD_mem_or {ls : List Nat} (s : Nat) : ls.getD s 0 ∈ ls ∨ ls.getD s 0 = 0 := by
  by_cases h : s < ls.length
  · left; simp [List.getD, h]
  · right; simp [List.getD, List.getElem?_eq_none (Nat.le_of_not_lt h)]

/-- The loop computes the canonical code (30_encoding R83). -/
theorem getD_assignCodes_canonical {maxbits s : Nat} {ls : List Nat} {cs : List Word}
    (hv : ∀ l ∈ ls, l ≤ maxbits) (hs : s < ls.length) (hc : s < cs.length) (hu : ls.getD s 0 ≠ 0) :
    (assignCodes ls (initialNext maxbits ls) cs).getD s 0 = BitVec.ofNat 32 (canonicalCode ls s) := by
  have hm : ls.getD s 0 ≤ maxbits := by
    rcases getD_mem_or (ls := ls) s with h | h
    · exact hv _ h
    · omega
  rw [getD_assignCodes hs hc (fun l hl => by rw [length_initialNext]; have := hv l hl; omega), if_neg hu,
    getD_initialNext ls (by omega) hm, canonicalCode]

/-! ## The Kraft inequality bounds the words -/

/-- The Kraft sum in units of `2^-l`, over the lengths up to `l`. -/
def kraftPart (ls : List Nat) (l : Nat) : Nat :=
  (ls.map fun x => if x = 0 ∨ l < x then 0 else 2 ^ (l - x)).sum

theorem kraftPart_succ (ls : List Nat) (l : Nat) : kraftPart ls (l + 1) = 2 * kraftPart ls l + ls.count (l + 1) := by
  induction ls with
  | nil => rfl
  | cons x xs ih =>
    unfold kraftPart at ih ⊢
    simp only [List.map_cons, List.sum_cons, List.count_cons, ih, Nat.mul_add]
    by_cases h0 : x = 0
    · simp [h0]
    · by_cases h1 : x = l + 1
      · subst h1; simp; omega
      · by_cases h2 : l + 1 < x
        · have h3 : l < x := by omega
          simp [h2, h3, h1]
        · have h3 : ¬ l < x := by omega
          have e : l + 1 - x = (l - x) + 1 := by omega
          simp only [h0, h2, h3, or_self, if_false, e, Nat.pow_succ]
          simp [h1]; omega

theorem kraftPart_eq (ls : List Nat) (l : Nat) : kraftPart ls (l + 1) = firstCode ls (l + 1) + ls.count (l + 1) := by
  induction l with
  | zero =>
    rw [kraftPart_succ]
    have h : kraftPart ls 0 = 0 := by
      unfold kraftPart
      rw [List.sum_eq_zero]
      intro y hy
      obtain ⟨x, -, rfl⟩ := List.mem_map.1 hy
      split <;> simp_all
    rw [h]; rfl
  | succ l ih => rw [kraftPart_succ, ih]; rfl

theorem kraftPart_le {maxbits l : Nat} (ls : List Nat) (h : l ≤ maxbits) :
    kraftPart ls l * 2 ^ (maxbits - l) ≤ kraftSum maxbits ls := by
  induction ls with
  | nil => simp [kraftPart]
  | cons x xs ih =>
    unfold kraftPart kraftSum at ih ⊢
    simp only [List.map_cons, List.sum_cons, Nat.add_mul]
    apply Nat.add_le_add _ ih
    by_cases h0 : x = 0
    · simp [h0]
    · by_cases h1 : l < x
      · simp [h1]
      · have e : maxbits - x = (l - x) + (maxbits - l) := by omega
        simp only [h0, h1, or_self, if_false, e, Nat.pow_add]; exact Nat.le_refl _

/-- The words of length `l` fit `l` bits when the Kraft inequality holds. -/
theorem firstCode_add_count_le {maxbits l : Nat} {ls : List Nat} (hk : kraftSum maxbits ls ≤ 2 ^ maxbits) (h1 : 1 ≤ l)
    (h2 : l ≤ maxbits) : firstCode ls l + ls.count l ≤ 2 ^ l := by
  obtain ⟨i, rfl⟩ : ∃ i, l = i + 1 := ⟨l - 1, by omega⟩
  rw [← kraftPart_eq]
  have h := Nat.le_trans (kraftPart_le ls h2) hk
  have e : 2 ^ maxbits = 2 ^ (i + 1) * 2 ^ (maxbits - (i + 1)) := by rw [← Nat.pow_add]; congr 1; omega
  rw [e] at h
  exact Nat.le_of_mul_le_mul_right h (by positivity)

/-- A symbol's rank among the symbols of its length is below their number. -/
theorem count_take_lt {ls : List Nat} {s : Nat} (hs : s < ls.length) :
    (ls.take s).count (ls.getD s 0) + 1 ≤ ls.count (ls.getD s 0) := by
  have hg : ls.getD s 0 = ls[s] := by simp [List.getD, hs]
  have hd : ls.drop s = ls[s] :: ls.drop (s + 1) := List.drop_eq_getElem_cons hs
  have hc : ls.count ls[s] = (ls.take s).count ls[s] + (ls.drop s).count ls[s] := by
    rw [← List.count_append, List.take_append_drop]
  rw [hg, hc, hd, List.count_cons_self]; omega

/-- Every canonical word is a number of its length's bits (30_encoding R83). -/
theorem canonicalCode_lt {maxbits s : Nat} {ls : List Nat} (hv : lengthsValid maxbits ls = true) (hs : s < ls.length)
    (hu : ls.getD s 0 ≠ 0) : canonicalCode ls s < 2 ^ ls.getD s 0 := by
  obtain ⟨hm, hk⟩ := lengthsValid_iff.1 hv
  have hl : ls.getD s 0 ≤ maxbits := by
    rcases getD_mem_or (ls := ls) s with h | h
    · exact hm _ h
    · omega
  have h1 := firstCode_add_count_le hk (by omega) hl
  have h2 := count_take_lt hs
  unfold canonicalCode; omega

/-! ## No word begins another -/

theorem firstCode_ge (ls : List Nat) (l d : Nat) :
    (firstCode ls (l + 1) + ls.count (l + 1)) * 2 ^ (d + 1) ≤ firstCode ls (l + 1 + (d + 1)) := by
  induction d with
  | zero => simp only [firstCode]; omega
  | succ d ih =>
    have e : firstCode ls (l + 1 + (d + 1 + 1)) = 2 * (firstCode ls (l + 1 + (d + 1)) + ls.count (l + 1 + (d + 1))) := rfl
    rw [e, Nat.pow_succ, ← Nat.mul_assoc]; omega

theorem count_take_mono {ls : List Nat} {s t : Nat} (l : Nat) (h : s ≤ t) : (ls.take s).count l ≤ (ls.take t).count l := by
  have : ls.take s = (ls.take t).take s := by rw [List.take_take, Nat.min_eq_left h]
  rw [this]
  exact List.Sublist.count_le l (List.take_sublist _ _)

theorem count_take_strict {ls : List Nat} {s t : Nat} (hs : s < ls.length) (h : s < t) :
    (ls.take s).count (ls.getD s 0) + 1 ≤ (ls.take t).count (ls.getD s 0) := by
  have h1 : (ls.take (s + 1)).count (ls.getD s 0) = (ls.take s).count (ls.getD s 0) + 1 := by
    have hg : ls.getD s 0 = ls[s] := by simp [List.getD, hs]
    rw [hg, List.take_succ_eq_append_getElem hs, List.count_append, List.count_singleton_self]
  have h2 := count_take_mono (ls := ls) (ls.getD s 0) (show s + 1 ≤ t by omega)
  omega

/-- Two symbols of one length have different words. -/
theorem canonicalCode_ne {ls : List Nat} {s t : Nat} (hs : s < ls.length) (ht : t < ls.length) (hne : s ≠ t)
    (hl : ls.getD s 0 = ls.getD t 0) : canonicalCode ls s ≠ canonicalCode ls t := by
  unfold canonicalCode
  rcases Nat.lt_or_gt_of_ne hne with h | h
  · have := count_take_strict hs h
    rw [← hl]; omega
  · have := count_take_strict ht h
    rw [hl]; omega

/-- No word of the canonical code begins the word of another used symbol (30_encoding R83, R85). -/
theorem canonicalCode_prefixFree {ls : List Nat} {s t : Nat} (hs : s < ls.length) (ht : t < ls.length) (hne : s ≠ t)
    (hu : ls.getD s 0 ≠ 0) (hle : ls.getD s 0 ≤ ls.getD t 0) :
    canonicalCode ls t >>> (ls.getD t 0 - ls.getD s 0) ≠ canonicalCode ls s := by
  by_cases he : ls.getD s 0 = ls.getD t 0
  · rw [he, Nat.sub_self, Nat.shiftRight_zero]
    exact (canonicalCode_ne hs ht hne he).symm
  · obtain ⟨i, hi⟩ : ∃ i, ls.getD s 0 = i + 1 := ⟨ls.getD s 0 - 1, by omega⟩
    obtain ⟨d, hd⟩ : ∃ d, ls.getD t 0 = i + 1 + (d + 1) := ⟨ls.getD t 0 - (i + 1) - 1, by omega⟩
    have h1 := firstCode_ge ls i d
    have h2 := count_take_lt hs
    have h3 : (firstCode ls (i + 1) + ls.count (i + 1)) * 2 ^ (d + 1) ≤ canonicalCode ls t := by
      unfold canonicalCode; rw [hd]; omega
    have h4 := Nat.div_le_div_right (c := 2 ^ (d + 1)) h3
    rw [Nat.mul_div_cancel _ (by positivity)] at h4
    have e : ls.getD t 0 - ls.getD s 0 = d + 1 := by omega
    rw [e, Nat.shiftRight_eq_div_pow]
    rw [hi] at h2
    have h5 : canonicalCode ls s = firstCode ls (i + 1) + (ls.take s).count (i + 1) := by
      unfold canonicalCode; rw [hi]
    omega

end Sys2Proof.Machine
end

