-- ==== Sys2Proof/Laws/Table.lean ====
section
/-! SUPPORT. The tables of a context: reading them after writing them, `BuildTable`, and the symbol a peeked value starts
with. -/

namespace Sys2Proof.Machine

/-! ## Writing lengths -/

theorem getD_fillList {α : Type} (l : List α) (s n : Nat) (v d : α) (i : Nat) :
    (fillList l s n v).getD i d = if s ≤ i ∧ i < s + n ∧ i < l.length then v else l.getD i d := by
  induction l generalizing s n i with
  | nil => simp [fillList]
  | cons y ys ih =>
    cases s with
    | succ s =>
      cases i with
      | zero => simp [fillList]
      | succ i =>
        rw [fillList, List.getD_cons_succ, List.getD_cons_succ, ih]
        by_cases h : s ≤ i ∧ i < s + n ∧ i < ys.length
        · rw [if_pos h, if_pos (by simp; omega)]
        · rw [if_neg h, if_neg (by simp; omega)]
    | zero =>
      cases n with
      | zero => simp [fillList]
      | succ n =>
        cases i with
        | zero => simp [fillList]
        | succ i =>
          rw [fillList, List.getD_cons_succ, List.getD_cons_succ, ih]
          by_cases h : 0 ≤ i ∧ i < 0 + n ∧ i < ys.length
          · rw [if_pos h, if_pos (by simp; omega)]
          · rw [if_neg h, if_neg (by simp; omega)]

@[simp] theorem Context.setLens_numcodes (x : Context) (s n v : Nat) : (x.setLens s n v).numcodes = x.numcodes := rfl

@[simp] theorem Context.setLens_maxbits (x : Context) (s n v : Nat) : (x.setLens s n v).maxbits = x.maxbits := rfl

@[simp] theorem Context.setLens_valid (x : Context) (s n v : Nat) : (x.setLens s n v).valid = x.valid := rfl

@[simp] theorem Context.setLens_code (x : Context) (s n v : Nat) : (x.setLens s n v).code = x.code := rfl

@[simp] theorem Context.setLens_prev (x : Context) (s n v : Nat) : (x.setLens s n v).prev = x.prev := rfl

@[simp] theorem Context.setLens_run (x : Context) (s n v : Nat) : (x.setLens s n v).run = x.run := rfl

theorem Context.lenAt_setLens (x : Context) (s n i : Nat) {v : Nat} (hv : v < 64) :
    (x.setLens s n v).lenAt i = if s ≤ i ∧ i < s + n ∧ i < Config.maxCodes then v else x.lenAt i := by
  have h1 : (x.setLens s n v).lenAt i = ((fillList x.len.toList s n (BitVec.ofNat 6 v)).getD i 0).toNat := rfl
  rw [h1, getD_fillList]
  simp only [Vector.length_toList]
  split
  · rw [BitVec.toNat_ofNat, Nat.mod_eq_of_lt (by omega)]
  · rfl

/-! ## The lengths that have meaning -/

theorem Context.length_lens {x : Context} (h : x.numcodes.toNat ≤ Config.maxCodes) : x.lens.length = x.numcodes.toNat := by
  simp only [Context.lens, List.length_map, List.length_take, Vector.length_toList]
  omega

theorem Context.getD_lens (x : Context) {s : Nat} (h : s < x.numcodes.toNat) : x.lens.getD s 0 = x.lenAt s := by
  simp only [Context.lens, Context.lenAt, List.getD, List.getElem?_map, List.getElem?_take_of_lt h]
  cases x.len.toList[s]? <;> rfl

/-- The lengths that have meaning are the list of them. -/
theorem Context.lens_eq {x : Context} {ls : List Nat} (h : x.numcodes.toNat ≤ Config.maxCodes)
    (hl : ls.length = x.numcodes.toNat) (hs : ∀ s, s < ls.length → x.lenAt s = ls.getD s 0) : x.lens = ls := by
  apply List.ext_getElem (by rw [x.length_lens h, hl])
  intro i h1 h2
  have h3 : i < x.numcodes.toNat := by omega
  have e1 := x.getD_lens h3
  have e2 := hs i h2
  rw [← e1] at e2
  simpa [List.getD, h1, h2] using e2

/-! ## Code words -/

@[simp] theorem Context.withCodes_numcodes (x : Context) : x.withCodes.numcodes = x.numcodes := rfl

@[simp] theorem Context.withCodes_maxbits (x : Context) : x.withCodes.maxbits = x.maxbits := rfl

@[simp] theorem Context.withCodes_valid (x : Context) : x.withCodes.valid = x.valid := rfl

@[simp] theorem Context.withCodes_prev (x : Context) : x.withCodes.prev = x.prev := rfl

@[simp] theorem Context.withCodes_run (x : Context) : x.withCodes.run = x.run := rfl

@[simp] theorem Context.withCodes_lens (x : Context) : x.withCodes.lens = x.lens := rfl

@[simp] theorem Context.withCodes_lenAt (x : Context) (s : Nat) : x.withCodes.lenAt s = x.lenAt s := rfl

/-- The table `BuildTable` builds holds the canonical code (30_encoding R83, R84). -/
theorem Context.codeAt_withCodes {x : Context} (hn : x.numcodes.toNat ≤ Config.maxCodes)
    (hm : x.maxbits.toNat ≤ Config.maxbitsMax) (hv : lengthsValid x.maxbits.toNat x.lens = true) {s : Nat}
    (hs : s < x.numcodes.toNat) (hu : x.lenAt s ≠ 0) : x.withCodes.codeAt s = canonicalCode x.lens s := by
  have hl := x.getD_lens hs
  have hs' : s < x.lens.length := by rw [x.length_lens hn]; exact hs
  have hlt := canonicalCode_lt hv hs' (by rw [hl]; exact hu)
  have hle : x.lens.getD s 0 ≤ x.maxbits.toNat := by
    rcases getD_mem_or (ls := x.lens) s with h | h
    · exact (lengthsValid_iff.1 hv).1 _ h
    · omega
  have h2 : 2 ^ x.lens.getD s 0 ≤ 2 ^ 32 := Nat.pow_le_pow_right (by omega) (by simp [Config.maxbitsMax] at hm; omega)
  have h1 : x.withCodes.codeAt s = ((assignCodes x.lens (initialNext x.maxbits.toNat x.lens) x.code.toList).getD s 0).toNat :=
    rfl
  rw [h1, getD_assignCodes_canonical (lengthsValid_iff.1 hv).1 hs' (by simp [Config.maxCodes] at hn ⊢; omega)
    (by rw [hl]; exact hu), BitVec.toNat_ofNat, Nat.mod_eq_of_lt (by omega)]

/-! ## The symbol a peeked value starts with -/

/-- Symbol `s` is used and its code word starts the value `v` of `MAXBITS` bits (41_huffman R135). -/
abbrev Context.hit (x : Context) (v s : Nat) : Prop :=
  x.lenAt s ≠ 0 ∧ v >>> (x.maxbits.toNat - x.lenAt s) = x.codeAt s

theorem Context.table_entry {x : Context} (hn : x.numcodes.toNat ≤ Config.maxCodes) {s : Nat}
    (hs : s < ((x.len.toList.zip x.code.toList).take x.numcodes.toNat).length) (v : Nat) :
    s < x.numcodes.toNat ∧
      (codeMatches x.maxbits.toNat v ((x.len.toList.zip x.code.toList).take x.numcodes.toNat)[s] = true ↔ x.hit v s) := by
  have hs' : s < x.numcodes.toNat := by
    simp only [List.length_take] at hs; omega
  have hlt : s < Config.maxCodes := by omega
  refine ⟨hs', ?_⟩
  simp only [Context.hit, Context.lenAt, Context.codeAt, codeMatches, List.getElem_take, List.getElem_zip,
    Bool.and_eq_true, decide_eq_true_eq, List.getD]
  have e1 : x.len.toList[s]?.getD 0 = x.len.toList[s]'(by simpa using hlt) := by simp [hlt]
  have e2 : x.code.toList[s]?.getD 0 = x.code.toList[s]'(by simpa using hlt) := by simp [hlt]
  rw [e1, e2]

theorem Context.symbolOf_eq_some_iff {x : Context} (hn : x.numcodes.toNat ≤ Config.maxCodes) {v s : Nat} :
    x.symbolOf v = some s ↔ s < x.numcodes.toNat ∧ x.hit v s ∧ ∀ j, j < s → ¬ x.hit v j := by
  have hlen : ((x.len.toList.zip x.code.toList).take x.numcodes.toNat).length = x.numcodes.toNat := by
    simp only [List.length_take, List.length_zip, Vector.length_toList]; omega
  unfold Context.symbolOf
  rw [List.findIdx?_eq_some_iff_getElem]
  constructor
  · rintro ⟨h, hp, hj⟩
    refine ⟨(x.table_entry hn h v).1, (x.table_entry hn h v).2.1 hp, fun j hjs hh => ?_⟩
    exact hj j hjs ((x.table_entry hn (by omega) v).2.2 hh)
  · rintro ⟨h, hp, hj⟩
    refine ⟨by omega, (x.table_entry hn (by omega) v).2.2 hp, fun j hjs hh => ?_⟩
    exact hj j hjs ((x.table_entry hn (by omega) v).2.1 hh)

theorem Context.symbolOf_eq_none_iff {x : Context} (hn : x.numcodes.toNat ≤ Config.maxCodes) {v : Nat} :
    x.symbolOf v = none ↔ ∀ s, s < x.numcodes.toNat → ¬ x.hit v s := by
  constructor
  · intro h s hs hh
    have hlen : ((x.len.toList.zip x.code.toList).take x.numcodes.toNat).length = x.numcodes.toNat := by
      simp only [List.length_take, List.length_zip, Vector.length_toList]; omega
    have h1 := (List.findIdx?_eq_none_iff.1 h) _
      (List.getElem_mem (show s < ((x.len.toList.zip x.code.toList).take x.numcodes.toNat).length by omega))
    have h2 := (x.table_entry hn (show s < _ by omega) v).2.2 hh
    rw [h2] at h1; cases h1
  · intro h
    cases hx : x.symbolOf v with
    | none => rfl
    | some s =>
      obtain ⟨h1, h2, -⟩ := (x.symbolOf_eq_some_iff hn).1 hx
      exact absurd h2 (h s h1)

/-- The symbol found is a symbol of the alphabet. -/
theorem Context.symbolOf_lt {x : Context} {v s : Nat} (h : x.symbolOf v = some s) : s < x.numcodes.toNat := by
  unfold Context.symbolOf at h
  obtain ⟨h1, -⟩ := List.findIdx?_eq_some_iff_getElem.1 h
  simp only [List.length_take] at h1; omega

/-- In a table that passed the build at most one symbol is hit, so the one that is hit is found. -/
theorem Context.symbolOf_of_hit {x : Context} (hw : x.wf) (hv : x.valid = true) {v s : Nat}
    (hs : s < x.numcodes.toNat) (hh : x.hit v s) : x.symbolOf v = some s := by
  obtain ⟨hn, -, -, hval⟩ := hw
  obtain ⟨-, hlv, hcode⟩ := hval hv
  refine (x.symbolOf_eq_some_iff hn).2 ⟨hs, hh, fun j hj hjh => ?_⟩
  have hjn : j < x.numcodes.toNat := by omega
  have cs := hcode s hs hh.1
  have cj := hcode j hjn hjh.1
  have hls := x.getD_lens hs
  have hlj := x.getD_lens hjn
  have hlen := x.length_lens hn
  have hle : ∀ t, t < x.numcodes.toNat → x.lenAt t ≤ x.maxbits.toNat := fun t ht => by
    have h1 := x.getD_lens ht
    rcases getD_mem_or (ls := x.lens) t with h | h
    · have := (lengthsValid_iff.1 hlv).1 _ h; omega
    · omega
  have hs2 := hle s hs
  have hj2 := hle j hjn
  rcases Nat.le_total (x.lenAt s) (x.lenAt j) with h | h
  · apply canonicalCode_prefixFree (ls := x.lens) (s := s) (t := j) (by omega) (by omega) (by omega)
      (by rw [hls]; exact hh.1) (by omega)
    rw [← cs, ← cj, ← hh.2, ← hjh.2, ← Nat.shiftRight_add, hls, hlj]
    congr 1; omega
  · apply canonicalCode_prefixFree (ls := x.lens) (s := j) (t := s) (by omega) (by omega) (by omega)
      (by rw [hlj]; exact hjh.1) (by omega)
    rw [← cs, ← cj, ← hh.2, ← hjh.2, ← Nat.shiftRight_add, hls, hlj]
    congr 1; omega

/-- What `BuildTable` answers. -/
theorem buildTable_of_valid {c : Fin 7} {d : Decoder}
    (h : lengthsValid (d.ctx c).maxbits.toNat (d.ctx c).lens = true) :
    buildTable c d = .ok () (d.setCtx c { (d.ctx c).withCodes with valid := true }) := by
  simp [buildTable, h]

theorem buildTable_of_invalid {c : Fin 7} {d : Decoder}
    (h : lengthsValid (d.ctx c).maxbits.toNat (d.ctx c).lens = false) : buildTable c d = .raised .invalidData d := by
  simp [buildTable, h]

end Sys2Proof.Machine
end

