-- ==== Sys2Proof/Laws/Huffman.lean ====
section
/-! SUPPORT. What the plain decoder's procedures can do: one specification lemma each (what it may change, and the error
kinds it may raise), and what they do on a stream that holds known fields or code words. -/

namespace Sys2Proof.Machine

/-! ## A reader that has only moved on -/

/-- The reader `b'` is `b` after some reads and flushes of the same buffer. -/
structure BitReader.Follows (b b' : BitReader) : Prop where
  base : b'.base = b.base
  len : b'.len = b.len
  pos : b.pos ≤ b'.pos
  ovf : b.ovf = true → b'.ovf = true
  exact : b.ovf = decide (8 * b.len.toNat < b.pos) → b'.ovf = decide (8 * b.len.toNat < b'.pos)

theorem BitReader.Follows.refl (b : BitReader) : b.Follows b := ⟨rfl, rfl, Nat.le_refl _, id, id⟩

theorem BitReader.Follows.trans {a b c : BitReader} (h1 : a.Follows b) (h2 : b.Follows c) : a.Follows c := by
  refine ⟨h2.base.trans h1.base, h2.len.trans h1.len, Nat.le_trans h1.pos h2.pos, fun h => h2.ovf (h1.ovf h), fun h => ?_⟩
  have h3 := h1.exact h
  rw [← h1.len] at h3 ⊢
  exact h2.exact h3

theorem BitReader.follows_advance (b : BitReader) (n : Nat) : b.Follows (b.advance n) := by
  refine ⟨rfl, rfl, Nat.le_add_right _ _, fun h => by simp [h], fun h => ?_⟩
  rw [BitReader.advance_ovf, BitReader.advance_pos, h]
  by_cases h1 : 8 * b.len.toNat < b.pos
  · have h2 : 8 * b.len.toNat < b.pos + n := by omega
    simp [h1, h2]
  · simp [h1]

theorem BitReader.follows_flush (b : BitReader) : b.Follows b.flush.2 := by
  refine ⟨rfl, rfl, ?_, id, fun h => ?_⟩
  · simp only [BitReader.flush_pos, ceil8]; omega
  · rw [BitReader.flush_ovf, BitReader.flush_pos, h]
    have h1 : 8 * b.len.toNat < b.pos ↔ 8 * b.flush.2.len.toNat < 8 * ceil8 b.pos := by
      rw [BitReader.flush_len, ceil8]; omega
    exact decide_eq_decide.2 h1

/-- A well-formed reader stays well-formed. -/
theorem BitReader.Follows.wf {b b' : BitReader} (h : b.Follows b') {src : Memory} (hw : b.wf src) : b'.wf src := by
  refine ⟨?_, ?_⟩
  · rw [h.len]; exact h.exact hw.1
  · rw [h.base, h.len]; exact hw.2

/-! ## A context that keeps all but its table -/

/-- The context `y` has the configuration, the predictor and the run of `x`. -/
structure Context.Keeps (x y : Context) : Prop where
  numcodes : y.numcodes = x.numcodes
  maxbits : y.maxbits = x.maxbits
  prev : y.prev = x.prev
  run : y.run = x.run

theorem Context.Keeps.refl (x : Context) : x.Keeps x := ⟨rfl, rfl, rfl, rfl⟩

theorem Context.Keeps.trans {x y z : Context} (h1 : x.Keeps y) (h2 : y.Keeps z) : x.Keeps z :=
  ⟨h2.numcodes.trans h1.numcodes, h2.maxbits.trans h1.maxbits, h2.prev.trans h1.prev, h2.run.trans h1.run⟩

theorem Context.keeps_setLens (x : Context) (s n v : Nat) : x.Keeps (x.setLens s n v) := ⟨rfl, rfl, rfl, rfl⟩

/-- What an import may do to the decoder: move the reader on, rewrite the table of context `c`; nothing else. -/
structure Decoder.Imports (c : Fin 7) (d d' : Decoder) : Prop where
  reader : d.br.Follows d'.br
  others : ∀ c', c' ≠ c → d'.ctx c' = d.ctx c'
  target : (d.ctx c).Keeps (d'.ctx c)

theorem Decoder.Imports.refl (c : Fin 7) (d : Decoder) : d.Imports c d :=
  ⟨BitReader.Follows.refl _, fun _ _ => rfl, Context.Keeps.refl _⟩

theorem Decoder.Imports.trans {c : Fin 7} {d e f : Decoder} (h1 : d.Imports c e) (h2 : e.Imports c f) : d.Imports c f :=
  ⟨h1.reader.trans h2.reader, fun c' h => (h2.others c' h).trans (h1.others c' h), h1.target.trans h2.target⟩

theorem Decoder.imports_setValid (c : Fin 7) (d : Decoder) (b : Bool) : d.Imports c (d.setValid c b) := by
  refine ⟨BitReader.Follows.refl _, fun c' h => d.ctx_setValid_of_ne b h, ?_⟩
  rw [Decoder.ctx_setValid_self]; exact ⟨rfl, rfl, rfl, rfl⟩

theorem Decoder.imports_setLens (c : Fin 7) (d : Decoder) (s n v : Nat) :
    d.Imports c (d.setCtx c ((d.ctx c).setLens s n v)) := by
  refine ⟨BitReader.Follows.refl _, fun c' h => d.ctx_setCtx_of_ne _ h, ?_⟩
  rw [Decoder.ctx_setCtx_self]; exact Context.keeps_setLens _ _ _ _

theorem Decoder.imports_advance (c : Fin 7) (d : Decoder) (n : Nat) : d.Imports c (d.setReader (d.br.advance n)) :=
  ⟨BitReader.follows_advance _ _, fun _ _ => rfl, Context.Keeps.refl _⟩

/-- The table of a context is one that `BuildTable` built: its fourth clause of being well-formed, but for the alphabet's
size. -/
abbrev Context.built (x : Context) : Prop :=
  lengthsValid x.maxbits.toNat x.lens = true ∧
    ∀ s, s < x.numcodes.toNat → x.lenAt s ≠ 0 → x.codeAt s = canonicalCode x.lens s

/-- Everything `BuildTable` can do. -/
theorem buildTable_spec (c : Fin 7) (d : Decoder) (hn : (d.ctx c).numcodes.toNat ≤ Config.maxCodes)
    (hm : (d.ctx c).maxbits.toNat ≤ Config.maxbitsMax) :
    d.Imports c (buildTable c d).state ∧
      (∀ d', buildTable c d = .ok () d' → (d'.ctx c).valid = true ∧ (d'.ctx c).built ∧ (d'.ctx c).lens = (d.ctx c).lens) ∧
      (∀ k d', buildTable c d = .raised k d' → k = .invalidData ∧ d' = d) := by
  cases hv : lengthsValid (d.ctx c).maxbits.toNat (d.ctx c).lens with
  | true =>
    rw [buildTable_of_valid hv]
    refine ⟨⟨BitReader.Follows.refl _, fun c' h => d.ctx_setCtx_of_ne _ h, ?_⟩, ?_, ?_⟩
    · simp only [Res.state_ok, Decoder.ctx_setCtx_self]; exact ⟨rfl, rfl, rfl, rfl⟩
    · intro d' h
      injection h with _ h
      subst h
      rw [Decoder.ctx_setCtx_self]
      exact ⟨rfl, ⟨hv, fun s hs hu => Context.codeAt_withCodes hn hm hv hs hu⟩, rfl⟩
    · intro k d' h; cases h
  | false =>
    rw [buildTable_of_invalid hv]
    refine ⟨Decoder.Imports.refl _ _, ?_, ?_⟩
    · intro d' h; cases h
    · intro k d' h
      injection h with h1 h2
      exact ⟨h1.symm, h2.symm⟩

/-! ## Flat import -/

/-- One turn of the loop of the flat import. -/
theorem importFlatLoop_succ (src : Memory) (c : Fin 7) (n s : Nat) (d : Decoder) :
    importFlatLoop src c (n + 1) s d =
      if d.br.peek src (d.ctx c).maxbits.toNat > (d.ctx c).maxbits.toNat then
        .raised .invalidData (d.setReader (d.br.advance (d.ctx c).maxbits.toNat))
      else importFlatLoop src c n (s + 1) ((d.setReader (d.br.advance (d.ctx c).maxbits.toNat)).setCtx c
        ((d.ctx c).setLens s 1 (d.br.peek src (d.ctx c).maxbits.toNat))) := rfl

/-- Everything the loop of the flat import can do; `VALID` is not touched. -/
theorem importFlatLoop_spec (src : Memory) (c : Fin 7) (n s : Nat) (d : Decoder) :
    d.Imports c (importFlatLoop src c n s d).state ∧
      ((importFlatLoop src c n s d).state.ctx c).valid = (d.ctx c).valid ∧
      (∀ k d', importFlatLoop src c n s d = .raised k d' → k = .invalidData) := by
  induction n generalizing s d with
  | zero => exact ⟨Decoder.Imports.refl _ _, rfl, fun k d' h => by cases h⟩
  | succ n ih =>
    rw [importFlatLoop_succ]
    split
    · exact ⟨d.imports_advance c _, rfl, fun k d' h => by injection h with h; exact h.symm⟩
    · obtain ⟨h1, h2, h3⟩ := ih (s + 1) ((d.setReader (d.br.advance (d.ctx c).maxbits.toNat)).setCtx c
        ((d.ctx c).setLens s 1 (d.br.peek src (d.ctx c).maxbits.toNat)))
      refine ⟨(d.imports_advance c _).trans ((Decoder.imports_setLens c _ s 1 _).trans h1), ?_, h3⟩
      rw [h2, Decoder.ctx_setCtx_self]; rfl

/-- Everything the flat import can do (41_huffman R131): on success the table is built, on failure `VALID` is 0. -/
theorem importFlat_spec (src : Memory) (c : Fin 7) (d : Decoder) (hn : (d.ctx c).numcodes.toNat ≤ Config.maxCodes)
    (hm : (d.ctx c).maxbits.toNat ≤ Config.maxbitsMax) :
    d.Imports c (importFlat src c d).state ∧
      (∀ d', importFlat src c d = .ok () d' → (d'.ctx c).valid = true ∧ (d'.ctx c).built) ∧
      (∀ k d', importFlat src c d = .raised k d' → k = .invalidData ∧ (d'.ctx c).valid = false) := by
  have hl := importFlatLoop_spec src c (d.ctx c).numcodes.toNat 0 (d.setValid c false)
  unfold importFlat
  cases hr : importFlatLoop src c (d.ctx c).numcodes.toNat 0 (d.setValid c false) with
  | raised k e =>
    rw [hr] at hl
    obtain ⟨h1, h2, h3⟩ := hl
    refine ⟨(d.imports_setValid c false).trans h1, fun d' h => by simp at h, fun k' d' h => ?_⟩
    simp only [Res.andThen_of_raised] at h
    injection h with h4 h5
    subst h4 h5
    refine ⟨h3 _ _ rfl, ?_⟩
    have := h2
    rw [Decoder.ctx_setValid_self] at this
    exact this
  | ok u e =>
    rw [hr] at hl
    obtain ⟨h1, h2, -⟩ := hl
    have h4 : d.Imports c e := (d.imports_setValid c false).trans h1
    obtain ⟨b1, b2, b3⟩ := buildTable_spec c e (by rw [h4.target.numcodes]; exact hn) (by rw [h4.target.maxbits]; exact hm)
    simp only [Res.andThen_of_ok]
    refine ⟨h4.trans b1, fun d' h => ⟨(b2 d' h).1, (b2 d' h).2.1⟩, fun k d' h => ?_⟩
    obtain ⟨h5, h6⟩ := b3 k d' h
    subst h6
    refine ⟨h5, ?_⟩
    have := h2
    rw [Decoder.ctx_setValid_self] at this
    exact this

/-! ## Decode -/

/-- Everything `DecodeOne` can do (41_huffman R135): a symbol of the alphabet, and the reader moved by its length; or
`InvalidData` and nothing consumed. -/
theorem decodeOne_spec (src : Memory) (c : Fin 7) (d : Decoder) :
    (∃ s, (d.ctx c).symbolOf (d.br.peek src (d.ctx c).maxbits.toNat) = some s ∧ s < (d.ctx c).numcodes.toNat ∧
        decodeOne src c d = .ok s (d.setReader (d.br.advance ((d.ctx c).lenAt s)))) ∨
      ((d.ctx c).symbolOf (d.br.peek src (d.ctx c).maxbits.toNat) = none ∧ decodeOne src c d = .raised .invalidData d) := by
  cases h : (d.ctx c).symbolOf (d.br.peek src (d.ctx c).maxbits.toNat) with
  | some s => exact .inl ⟨s, rfl, Context.symbolOf_lt h, by simp only [decodeOne, h]⟩
  | none => exact .inr ⟨rfl, by simp only [decodeOne, h]⟩

theorem decodeOne_follows (src : Memory) (c : Fin 7) (d : Decoder) :
    ∃ b, d.br.Follows b ∧ (decodeOne src c d).state = d.setReader b := by
  rcases decodeOne_spec src c d with ⟨s, -, -, h⟩ | ⟨-, h⟩
  · exact ⟨_, d.br.follows_advance _, by rw [h]; rfl⟩
  · exact ⟨_, BitReader.Follows.refl _, by rw [h]; rfl⟩

theorem decodeOne_kind {src : Memory} {c : Fin 7} {d d' : Decoder} {k : ErrorKind} (h : decodeOne src c d = .raised k d') :
    k = .invalidData ∧ d' = d := by
  rcases decodeOne_spec src c d with ⟨s, -, -, h'⟩ | ⟨-, h'⟩
  · rw [h'] at h; cases h
  · rw [h'] at h
    injection h with h1 h2
    exact ⟨h1.symm, h2.symm⟩

/-- In a context with a built table, a stream that holds the code word of a used symbol hits that symbol. -/
theorem hit_of_codeWord {src : Memory} {x : Context} {b : BitReader} (hw : x.wf) (hv : x.valid = true) {s : Nat}
    (hs : s < x.numcodes.toNat) (hu : x.lenAt s ≠ 0) (h : b.holdsAt src b.pos (codeWord x.lens s)) :
    x.hit (b.peek src x.maxbits.toNat) s := by
  obtain ⟨hn, -, -, hval⟩ := hw
  obtain ⟨-, hlv, hcode⟩ := hval hv
  have hl := x.getD_lens hs
  have hs' : s < x.lens.length := by rw [x.length_lens hn]; exact hs
  have hle : x.lenAt s ≤ x.maxbits.toNat := by
    rcases getD_mem_or (ls := x.lens) s with h | h
    · have := (lengthsValid_iff.1 hlv).1 _ h; omega
    · omega
  refine ⟨hu, ?_⟩
  rw [BitReader.peek, BitReader.bitsAt_shiftRight b src b.pos hle, hcode s hs hu]
  have hlt := canonicalCode_lt hlv hs' (by rw [hl]; exact hu)
  rw [← hl]
  exact BitReader.bitsAt_of_holdsAt hlt h

theorem codeWord_of_hit {src : Memory} {x : Context} {b : BitReader} (hw : x.wf) (hv : x.valid = true) {s : Nat}
    (hs : s < x.numcodes.toNat) (h : x.hit (b.peek src x.maxbits.toNat) s) :
    b.holdsAt src b.pos (codeWord x.lens s) := by
  obtain ⟨-, -, -, hval⟩ := hw
  obtain ⟨-, hlv, hcode⟩ := hval hv
  have hl := x.getD_lens hs
  have hle : x.lenAt s ≤ x.maxbits.toNat := by
    rcases getD_mem_or (ls := x.lens) s with h | h
    · have := (lengthsValid_iff.1 hlv).1 _ h; omega
    · omega
  have h2 := h.2
  rw [BitReader.peek, BitReader.bitsAt_shiftRight b src b.pos hle, hcode s hs h.1] at h2
  rw [codeWord, hl, ← h2]
  exact b.holdsAt_of_bitsAt src b.pos _

/-- `DecodeOne` on a stream that holds the code word of a used symbol (41_huffman R135, R137). -/
theorem decodeOne_of_codeWord {src : Memory} {c : Fin 7} {d : Decoder} (hw : (d.ctx c).wf) (hv : (d.ctx c).valid = true)
    {s : Nat} (hs : s < (d.ctx c).numcodes.toNat) (hu : (d.ctx c).lenAt s ≠ 0)
    (h : d.br.holdsAt src d.br.pos (codeWord (d.ctx c).lens s)) :
    decodeOne src c d = .ok s (d.setReader (d.br.advance ((d.ctx c).lenAt s))) := by
  simp only [decodeOne, (d.ctx c).symbolOf_of_hit hw hv hs (hit_of_codeWord hw hv hs hu h)]

/-! ## RLE import -/

theorem runLength_snd (src : Memory) (m : Nat) (d : Decoder) : ∃ n, (runLength src m d).2 = d.setReader (d.br.advance n) := by
  unfold runLength
  split
  · exact ⟨4, rfl⟩
  · refine ⟨4 + 4, ?_⟩
    simp only [BitReader.read, BitReader.advance_advance]

theorem Decoder.imports_of_setReader {c : Fin 7} {d : Decoder} {b : BitReader} (h : d.br.Follows b) :
    d.Imports c (d.setReader b) := ⟨h, fun _ _ => rfl, Context.Keeps.refl _⟩

/-- Everything the loop of the RLE import can do; `VALID` is not touched. -/
theorem importRleLoop_spec (src : Memory) (c : Fin 7) (fuel s prev : Nat) (d : Decoder) :
    d.Imports c (importRleLoop src c fuel s prev d).state ∧
      ((importRleLoop src c fuel s prev d).state.ctx c).valid = (d.ctx c).valid ∧
      (∀ k d', importRleLoop src c fuel s prev d = .raised k d' → k = .invalidData) := by
  induction fuel generalizing s prev d with
  | zero => exact ⟨Decoder.Imports.refl _ _, rfl, fun k d' h => by cases h⟩
  | succ fuel ih =>
    rw [importRleLoop]
    split
    · rcases decodeOne_spec src 6 d with ⟨m, -, -, h⟩ | ⟨-, h⟩
      · rw [h, Res.andThen_of_ok]
        have h0 : d.Imports c (d.setReader (d.br.advance ((d.ctx 6).lenAt m))) := d.imports_advance c _
        have hv0 : ((d.setReader (d.br.advance ((d.ctx 6).lenAt m))).ctx c).valid = (d.ctx c).valid := rfl
        generalize d.setReader (d.br.advance ((d.ctx 6).lenAt m)) = e at h0 hv0
        split
        · split
          · exact ⟨h0, hv0, fun k d' h => by injection h with h; exact h.symm⟩
          · obtain ⟨h1, h2, h3⟩ := ih (s + 1) m (e.setCtx c ((e.ctx c).setLens s 1 m))
            refine ⟨h0.trans ((Decoder.imports_setLens c _ s 1 _).trans h1), ?_, h3⟩
            rw [h2, Decoder.ctx_setCtx_self]; exact hv0
        · obtain ⟨n, hn⟩ := runLength_snd src m e
          have h5 : e.Imports c (runLength src m e).2 := by rw [hn]; exact e.imports_advance c n
          have h6 : ((runLength src m e).2.ctx c).valid = (d.ctx c).valid := by rw [hn]; exact hv0
          simp only []
          split
          · exact ⟨h0.trans h5, h6, fun k d' h => by injection h with h; exact h.symm⟩
          · obtain ⟨h1, h2, h3⟩ := ih (s + (runLength src m e).1) prev ((runLength src m e).2.setCtx c
              (((runLength src m e).2.ctx c).setLens s (runLength src m e).1 prev))
            refine ⟨h0.trans (h5.trans ((Decoder.imports_setLens c _ s _ _).trans h1)), ?_, h3⟩
            rw [h2, Decoder.ctx_setCtx_self]; exact h6
      · rw [h]
        exact ⟨Decoder.Imports.refl _ _, rfl, fun k d' h => by injection h with h; exact h.symm⟩
    · exact ⟨Decoder.Imports.refl _ _, rfl, fun k d' h => by cases h⟩

@[simp] theorem ctx_setMeta_numcodes (d : Decoder) : (d.setMeta.ctx 6).numcodes = 11 := by
  simp [Decoder.setMeta, Config.metaNumcodes]

@[simp] theorem ctx_setMeta_maxbits (d : Decoder) : (d.setMeta.ctx 6).maxbits = 4 := by
  simp [Decoder.setMeta, Config.metaMaxbits]

/-- What the RLE import may do to the decoder: move the reader on, rewrite the table of context `c` and the meta decoder;
nothing else. -/
structure Decoder.ImportsRle (c : Fin 7) (d d' : Decoder) : Prop where
  reader : d.br.Follows d'.br
  others : ∀ c', c' ≠ c → c' ≠ 6 → d'.ctx c' = d.ctx c'
  target : (d.ctx c).Keeps (d'.ctx c)

/-- Everything the RLE import can do (41_huffman R133): on success the table is built, on failure `VALID` is 0; the meta
decoder stays well-formed. -/
theorem importRle_spec (src : Memory) (c : Fin 7) (d : Decoder) (hc : c ≠ 6)
    (hn : (d.ctx c).numcodes.toNat ≤ Config.maxCodes) (hm : (d.ctx c).maxbits.toNat ≤ Config.maxbitsMax) :
    d.ImportsRle c (importRle src c d).state ∧
      ((d.ctx 6).run.toNat ≤ 2047 → ((importRle src c d).state.ctx 6).wf) ∧
      (∀ d', importRle src c d = .ok () d' → (d'.ctx c).valid = true ∧ (d'.ctx c).built) ∧
      (∀ k d', importRle src c d = .raised k d' → k = .invalidData ∧ (d'.ctx c).valid = false) := by
  have hc' : (6 : Fin 7) ≠ c := fun e => hc e.symm
  have e1 : (((d.setValid c false).setMeta).ctx 6).numcodes = 11 := ctx_setMeta_numcodes _
  have e2 : (((d.setValid c false).setMeta).ctx 6).maxbits = 4 := ctx_setMeta_maxbits _
  have e3 : ((d.setValid c false).setMeta).ctx c = { d.ctx c with valid := false } := by
    rw [Decoder.ctx_setMeta_of_ne _ hc, Decoder.ctx_setValid_self]
  have e4 : (((d.setValid c false).setMeta).ctx 6).run = (d.ctx 6).run := by
    simp [Decoder.setMeta, Decoder.setValid, Decoder.ctx_setCtx, hc']
  have e5 : ∀ c'', c'' ≠ c → c'' ≠ 6 → ((d.setValid c false).setMeta).ctx c'' = d.ctx c'' := fun c'' h h' => by
    rw [Decoder.ctx_setMeta_of_ne _ h', Decoder.ctx_setValid_of_ne _ _ h]
  have e6 : ((d.setValid c false).setMeta).br = d.br := rfl
  unfold importRle
  generalize (d.setValid c false).setMeta = g at e1 e2 e3 e4 e5 e6
  obtain ⟨f1, f2, f3⟩ := importFlat_spec src 6 g (by rw [e1]; decide) (by rw [e2]; decide)
  cases hr : importFlat src 6 g with
  | raised k e =>
    rw [hr] at f1
    have f4 := f3 k e hr
    rw [Res.andThen_of_raised]
    refine ⟨⟨?_, ?_, ?_⟩, ?_, ?_, ?_⟩
    · have := f1.reader; rw [e6] at this; exact this
    · intro c'' h h'; exact (f1.others c'' h').trans (e5 c'' h h')
    · rw [Res.state_raised, show e.ctx c = g.ctx c from f1.others c hc, e3]; exact ⟨rfl, rfl, rfl, rfl⟩
    · intro hrun
      have t := f1.target
      rw [Res.state_raised] at t ⊢
      refine ⟨?_, ?_, ?_, fun h => ?_⟩
      · rw [t.numcodes, e1]; decide
      · rw [t.maxbits, e2]; decide
      · rw [t.run, e4]; exact hrun
      · rw [f4.2] at h; cases h
    · intro d' h; cases h
    · intro k' d' h
      injection h with h1 h2
      subst h1 h2
      refine ⟨f4.1, ?_⟩
      rw [show e.ctx c = g.ctx c from f1.others c hc, e3]
  | ok u e =>
    rw [hr] at f1
    have f4 := f2 e hr
    rw [Res.andThen_of_ok]
    have e7 : e.ctx c = { d.ctx c with valid := false } := (f1.others c hc).trans e3
    obtain ⟨l1, l2, l3⟩ := importRleLoop_spec src c (e.ctx c).numcodes.toNat 0 0 e
    have hmeta : (d.ctx 6).run.toNat ≤ 2047 → (e.ctx 6).wf := fun hrun => by
      have t := f1.target
      rw [Res.state_ok] at t
      refine ⟨?_, ?_, ?_, fun h => ⟨?_, f4.2⟩⟩
      · rw [t.numcodes, e1]; decide
      · rw [t.maxbits, e2]; decide
      · rw [t.run, e4]; exact hrun
      · rw [t.numcodes, e1]; decide
    have h0 : d.ImportsRle c e := by
      refine ⟨?_, fun c'' h h' => (f1.others c'' h').trans (e5 c'' h h'), ?_⟩
      · have := f1.reader; rw [e6] at this; exact this
      · rw [e7]; exact ⟨rfl, rfl, rfl, rfl⟩
    cases hl : importRleLoop src c (e.ctx c).numcodes.toNat 0 0 e with
    | raised k e' =>
      rw [hl] at l1 l2
      rw [Res.andThen_of_raised]
      refine ⟨⟨h0.reader.trans l1.reader, fun c'' h h' => (l1.others c'' h).trans (h0.others c'' h h'),
        h0.target.trans l1.target⟩, fun hrun => ?_, (fun d' h => by cases h), fun k' d' h => ?_⟩
      · rw [l1.others 6 hc']; exact hmeta hrun
      · injection h with h1 h2
        subst h1 h2
        refine ⟨l3 _ _ hl, ?_⟩
        rw [Res.state_raised] at l2
        rw [l2, e7]
    | ok u' e' =>
      rw [hl] at l1 l2
      rw [Res.andThen_of_ok]
      have h1 : d.ImportsRle c e' := ⟨h0.reader.trans l1.reader, fun c'' h h' => (l1.others c'' h).trans (h0.others c'' h h'),
        h0.target.trans l1.target⟩
      obtain ⟨b1, b2, b3⟩ := buildTable_spec c e' (by rw [h1.target.numcodes]; exact hn) (by rw [h1.target.maxbits]; exact hm)
      refine ⟨⟨h1.reader.trans b1.reader, fun c'' h h' => (b1.others c'' h).trans (h1.others c'' h h'),
        h1.target.trans b1.target⟩, fun hrun => ?_, fun d' h => ⟨(b2 d' h).1, (b2 d' h).2.1⟩, fun k d' h => ?_⟩
      · rw [b1.others 6 hc', show e'.ctx 6 = e.ctx 6 from l1.others 6 hc']; exact hmeta hrun
      · obtain ⟨h2, h3⟩ := b3 k d' h
        subst h3
        refine ⟨h2, ?_⟩
        rw [Res.state_ok] at l2
        rw [l2, e7]

end Sys2Proof.Machine
end

