-- ==== Sys2Proof/Laws/HuffmanRle.lean ====
section
/-! SUPPORT. What the RLE-output decoder can do: one specification lemma (42_huffman_rle R151), and the bound of its run
counts (30_encoding R90). -/

namespace Sys2Proof.Machine

/-- Every run count of the alphabet is 1 to 2048 (30_encoding R90). -/
theorem rleCount_bounds {code : Nat} (h : code ≤ 15) : 1 ≤ rleCount code ∧ rleCount code ≤ 2048 := by
  revert code; decide

/-- Everything `RleDecodeOne` can do (42_huffman_rle R151): replay inside a run, a delta, an escape, or `InvalidData` with
nothing changed. -/
theorem rleDecodeOne_spec (src : Memory) (c : Fin 7) (d : Decoder) :
    ((d.ctx c).run ≠ 0 ∧
        rleDecodeOne src c d = .ok (d.ctx c).prev (d.setCtx c { d.ctx c with run := (d.ctx c).run - 1 })) ∨
      ((d.ctx c).run = 0 ∧ ∃ s d', decodeOne src c d = .ok s d' ∧ s < 256 ∧
        rleDecodeOne src c d = .ok ((d'.ctx c).prev + BitVec.ofNat 8 s)
          (d'.setCtx c { d'.ctx c with prev := (d'.ctx c).prev + BitVec.ofNat 8 s })) ∨
      ((d.ctx c).run = 0 ∧ ∃ s d', decodeOne src c d = .ok s d' ∧ 256 ≤ s ∧
        rleDecodeOne src c d = .ok (d'.ctx c).prev
          (d'.setCtx c { d'.ctx c with run := BitVec.ofNat 12 (rleCount (s - 256) - 1) })) ∨
      ((d.ctx c).run = 0 ∧ decodeOne src c d = .raised .invalidData d ∧
        rleDecodeOne src c d = .raised .invalidData d) := by
  by_cases hr : (d.ctx c).run = 0
  · rcases decodeOne_spec src c d with ⟨s, -, -, h⟩ | ⟨-, h⟩
    · by_cases hs : s < 256
      · refine .inr (.inl ⟨hr, s, _, h, hs, ?_⟩)
        simp only [rleDecodeOne, hr, ne_eq, not_true_eq_false, if_false, h, Res.andThen_of_ok, if_pos hs]
      · refine .inr (.inr (.inl ⟨hr, s, _, h, by omega, ?_⟩))
        simp only [rleDecodeOne, hr, ne_eq, not_true_eq_false, if_false, h, Res.andThen_of_ok, if_neg hs]
    · refine .inr (.inr (.inr ⟨hr, h, ?_⟩))
      simp only [rleDecodeOne, hr, ne_eq, not_true_eq_false, if_false, h, Res.andThen_of_raised]
  · exact .inl ⟨hr, by simp only [rleDecodeOne, ne_eq, hr, not_false_eq_true, if_true]⟩

/-- The decoder `d'` is `d` after its reader moved on and the predictor and the run of context `c` changed. -/
structure Decoder.Replays (c : Fin 7) (d d' : Decoder) : Prop where
  reader : d.br.Follows d'.br
  others : ∀ c', c' ≠ c → d'.ctx c' = d.ctx c'
  target : ∃ p r, d'.ctx c = { d.ctx c with prev := p, run := r }

/-- The frame of `RleDecodeOne` and the only kind it raises. -/
theorem rleDecodeOne_frame (src : Memory) (c : Fin 7) (d : Decoder) :
    d.Replays c (rleDecodeOne src c d).state ∧
      (∀ k d', rleDecodeOne src c d = .raised k d' → k = .invalidData ∧ d' = d) := by
  have hd : ∀ s d', decodeOne src c d = .ok s d' → d.br.Follows d'.br ∧ ∀ c', d'.ctx c' = d.ctx c' := by
    intro s d' h
    obtain ⟨b, hb, h'⟩ := decodeOne_follows src c d
    rw [h, Res.state_ok] at h'
    subst h'
    exact ⟨hb, fun _ => rfl⟩
  rcases rleDecodeOne_spec src c d with ⟨-, h⟩ | ⟨-, s, d', h0, -, h⟩ | ⟨-, s, d', h0, -, h⟩ | ⟨-, -, h⟩
  · rw [h]
    exact ⟨⟨BitReader.Follows.refl _, fun c' hc => d.ctx_setCtx_of_ne _ hc, _, _, d.ctx_setCtx_self _ _⟩,
      fun k d' h => by cases h⟩
  · obtain ⟨h1, h2⟩ := hd s d' h0
    rw [h]
    refine ⟨⟨h1, fun c' hc => (d'.ctx_setCtx_of_ne _ hc).trans (h2 c'), (d'.ctx c).prev + BitVec.ofNat 8 s, (d.ctx c).run, ?_⟩,
      fun k d' h => by cases h⟩
    rw [Res.state_ok, Decoder.ctx_setCtx_self, h2]
  · obtain ⟨h1, h2⟩ := hd s d' h0
    rw [h]
    refine ⟨⟨h1, fun c' hc => (d'.ctx_setCtx_of_ne _ hc).trans (h2 c'), (d.ctx c).prev,
      BitVec.ofNat 12 (rleCount (s - 256) - 1), ?_⟩, fun k d' h => by cases h⟩
    rw [Res.state_ok, Decoder.ctx_setCtx_self, h2]
  · rw [h]
    exact ⟨⟨BitReader.Follows.refl _, fun _ _ => rfl, (d.ctx c).prev, (d.ctx c).run, rfl⟩,
      fun k d' h => by injection h with h1 h2; exact ⟨h1.symm, h2.symm⟩⟩

end Sys2Proof.Machine
end

