-- ==== Sys2Proof/Laws/Avhuff.lean ====
section
/-! SUPPORT. Frames of the AVHuff procedures: the contexts they touch, the `DST` bytes they write, and that they keep the
bit reader and the contexts well-formed. -/

namespace Sys2Proof.Machine

/-- The bit reader and the contexts are well-formed. -/
abbrev Decoder.wf (src : Memory) (d : Decoder) : Prop := d.br.wf src ∧ ∀ c : Fin 7, (d.ctx c).wf

/-- A decoding procedure went from `d` to `d'`: it touched the contexts `cs` only, and kept everything well-formed. -/
structure Decoder.Runs (src : Memory) (cs : List (Fin 7)) (d d' : Decoder) : Prop where
  others : ∀ c, c ∉ cs → d'.ctx c = d.ctx c
  wf : d.wf src → d'.wf src

theorem Decoder.Runs.refl (src : Memory) (cs : List (Fin 7)) (d : Decoder) : d.Runs src cs d := ⟨fun _ _ => rfl, id⟩

theorem Decoder.Runs.trans {src : Memory} {cs : List (Fin 7)} {a b c : Decoder} (h1 : a.Runs src cs b)
    (h2 : b.Runs src cs c) : a.Runs src cs c :=
  ⟨fun x hx => (h2.others x hx).trans (h1.others x hx), fun h => h2.wf (h1.wf h)⟩

theorem Decoder.Runs.mono {src : Memory} {cs cs' : List (Fin 7)} {a b : Decoder} (h : a.Runs src cs b)
    (hs : ∀ c, c ∈ cs → c ∈ cs') : a.Runs src cs' b :=
  ⟨fun x hx => h.others x fun hc => hx (hs x hc), h.wf⟩

theorem Decoder.runs_attach {src : Memory} {p n : Nat} (h : src.inBounds p n = true) (d : Decoder) :
    d.Runs src [] (d.setReader (BitReader.attach p n)) := by
  refine ⟨fun _ _ => rfl, fun hw => ⟨⟨?_, ?_⟩, hw.2⟩⟩
  · simp [Decoder.setReader, BitReader.attach]
  · have h' : p + n ≤ src.size := by simpa [Memory.inBounds] using h
    have h1 : (baseWord p).toNat ≤ p := baseWord_le p
    have h2 : n % 2 ^ 32 ≤ n := Nat.mod_le _ _
    simp only [Decoder.setReader, BitReader.attach, BitVec.toNat_ofNat]
    omega

theorem Decoder.runs_flush (src : Memory) (d : Decoder) : d.Runs src [] (d.setReader d.br.flush.2) :=
  ⟨fun _ _ => rfl, fun hw => ⟨d.br.follows_flush.wf hw.1, hw.2⟩⟩

theorem Decoder.runs_decodeOne (src : Memory) (c : Fin 7) (d : Decoder) : d.Runs src [] (decodeOne src c d).state := by
  obtain ⟨b, hb, h⟩ := decodeOne_follows src c d
  rw [h]
  exact ⟨fun _ _ => rfl, fun hw => ⟨hb.wf hw.1, hw.2⟩⟩

/-- A context whose run count is replaced by one of at most 2047, and whose predictor changes, stays well-formed. -/
theorem Context.wf_replay {x : Context} (h : x.wf) (p : Byte) {r : BitVec 12} (hr : r.toNat ≤ 2047) :
    Context.wf { x with prev := p, run := r } := ⟨h.1, h.2.1, hr, h.2.2.2⟩

theorem Decoder.wf_setCtx {src : Memory} {d : Decoder} (h : d.wf src) {c : Fin 7} {x : Context} (hx : x.wf) :
    (d.setCtx c x).wf src := by
  refine ⟨h.1, fun c' => ?_⟩
  by_cases hc : c' = c
  · subst hc; rw [Decoder.ctx_setCtx_self]; exact hx
  · rw [Decoder.ctx_setCtx_of_ne _ _ hc]; exact h.2 c'

theorem Decoder.runs_clearRun (src : Memory) (c : Fin 7) (d : Decoder) : d.Runs src [c] (d.clearRun c) := by
  refine ⟨fun c' hc => d.ctx_setCtx_of_ne _ (by simpa using hc), fun hw => ?_⟩
  exact Decoder.wf_setCtx hw (Context.wf_replay (hw.2 c) (d.ctx c).prev (r := 0) (by decide))

theorem Decoder.runs_rleDecodeOne (src : Memory) (c : Fin 7) (d : Decoder) :
    d.Runs src [c] (rleDecodeOne src c d).state := by
  refine ⟨fun c' hc => (rleDecodeOne_frame src c d).1.others c' (by simpa using hc), fun hw => ?_⟩
  have hd : ∀ s d', decodeOne src c d = .ok s d' → d'.wf src ∧ d'.ctx c = d.ctx c := by
    intro s d' h
    have h1 := d.runs_decodeOne src c
    rw [h] at h1
    exact ⟨h1.wf hw, h1.others c (by simp)⟩
  rcases rleDecodeOne_spec src c d with ⟨hr, h⟩ | ⟨-, s, d', h0, -, h⟩ | ⟨-, s, d', h0, hs, h⟩ | ⟨-, -, h⟩
  · rw [h]
    refine Decoder.wf_setCtx hw (Context.wf_replay (hw.2 c) (d.ctx c).prev ?_)
    have h1 := (hw.2 c).2.2.1
    have h2 : ∀ r : BitVec 12, r ≠ 0 → r.toNat ≤ 2047 → (r - 1).toNat ≤ 2047 := by bv_omega
    exact h2 _ hr h1
  · obtain ⟨h1, h2⟩ := hd s d' h0
    rw [h]
    exact Decoder.wf_setCtx h1 (Context.wf_replay (h1.2 c) _ (h1.2 c).2.2.1)
  · obtain ⟨h1, h2⟩ := hd s d' h0
    rw [h]
    refine Decoder.wf_setCtx h1 (Context.wf_replay (h1.2 c) (d'.ctx c).prev ?_)
    have hlt : s < (d.ctx c).numcodes.toNat := by
      rcases decodeOne_spec src c d with ⟨s', -, h3, h4⟩ | ⟨-, h4⟩
      · rw [h0] at h4; injection h4 with h4; omega
      · rw [h0] at h4; cases h4
    have hn : (d.ctx c).numcodes.toNat ≤ 272 := (hw.2 c).1
    have hb := rleCount_bounds (code := s - 256) (by omega)
    simp only [BitVec.toNat_ofNat]
    omega
  · rw [h]; exact hw

/-- One tree of a shared stream: the context and the meta decoder are touched, the context keeps the alphabet set here. -/
theorem Decoder.runs_importTree (src : Memory) (c : Fin 7) (hc : c ≠ 6) {n m : Nat} (hn0 : n ≠ 0) (hn : n ≤ 272)
    (hm : m ≤ 32) (d : Decoder) :
    d.Runs src [c, 6] (importTree src c n m d).state ∧
      (∀ off d', importTree src c n m d = .ok off d' → (d'.ctx c).valid = true) ∧
      (∀ k d', importTree src c n m d = .raised k d' → k = .invalidData) := by
  unfold importTree
  generalize hg : d.setCtx c { d.ctx c with
    numcodes := BitVec.ofNat 9 n, maxbits := BitVec.ofNat 6 m, prev := 0, run := 0 } = g
  have g1 : ∀ c', c' ≠ c → g.ctx c' = d.ctx c' := fun c' h => by rw [← hg]; exact d.ctx_setCtx_of_ne _ h
  have g2 : g.ctx c = { d.ctx c with
      numcodes := BitVec.ofNat 9 n, maxbits := BitVec.ofNat 6 m, prev := 0, run := 0 } := by
    rw [← hg]; exact d.ctx_setCtx_self _ _
  have g3 : g.br = d.br := by rw [← hg]; rfl
  have en : (g.ctx c).numcodes.toNat = n := by rw [g2]; simp; omega
  have em : (g.ctx c).maxbits.toNat = m := by rw [g2]; simp; omega
  obtain ⟨s1, s2, s3, s4⟩ := importRle_spec src c g hc (by rw [en]; exact hn) (by rw [em]; exact hm)
  have key : d.Runs src [c, 6] (importRle src c g).state := by
    refine ⟨fun c' h => ?_, fun hw => ⟨?_, fun c' => ?_⟩⟩
    · simp only [List.mem_cons, List.not_mem_nil, or_false, not_or] at h
      rw [s1.others c' h.1 h.2, g1 c' h.1]
    · have := s1.reader
      rw [g3] at this
      exact this.wf hw.1
    · by_cases h6 : c' = 6
      · subst h6
        exact s2 (by rw [g1 6 (fun e => hc e.symm)]; exact (hw.2 6).2.2.1)
      · by_cases h7 : c' = c
        · subst h7
          have t := s1.target
          have tn : ((importRle src c' g).state.ctx c').numcodes.toNat = n := by rw [t.numcodes, en]
          refine ⟨by rw [tn]; exact hn, by rw [t.maxbits, em]; exact hm, by rw [t.run, g2]; simp, fun hv => ?_⟩
          cases hr : importRle src c' g with
          | ok u d' =>
            rw [hr] at tn
            rw [Res.state_ok] at tn ⊢
            exact ⟨fun h0 => hn0 (by rw [← tn, h0]; rfl), (s3 d' hr).2⟩
          | raised k d' =>
            rw [hr, Res.state_raised, (s4 k d' hr).2] at hv; cases hv
        · rw [s1.others c' h7 h6, g1 c' h7]; exact hw.2 c'
  cases hr : importRle src c g with
  | ok u d' =>
    rw [hr] at key
    rw [Res.andThen_of_ok]
    refine ⟨key.trans ((d'.runs_flush src).mono (by simp)), fun off d'' h => ?_, fun k d'' h => by cases h⟩
    injection h with h1 h2
    subst h2
    exact (s3 d' hr).1
  | raised k d' =>
    rw [hr] at key
    rw [Res.andThen_of_raised]
    refine ⟨key, (fun off d'' h => by cases h), fun k' d'' h => ?_⟩
    injection h with h1 h2
    subst h1
    exact (s4 _ _ hr).1

/-- What `AudioTrees` can do (44_avhuff R190): contexts 1, 2 and the meta decoder; on success both trees are valid. -/
theorem Decoder.runs_audioTrees (src : Memory) (t n : Nat) (d : Decoder) :
    d.Runs src [1, 2, 6] (audioTrees src t n d).state ∧
      (∀ u d', audioTrees src t n d = .ok u d' → (d'.ctx 1).valid = true ∧ (d'.ctx 2).valid = true) ∧
      (∀ k d', audioTrees src t n d = .raised k d' → k = .readError ∨ k = .invalidData) := by
  unfold audioTrees
  by_cases hb : src.inBounds t n = true
  · rw [if_pos hb]
    obtain ⟨a1, a2, a3⟩ := Decoder.runs_importTree src 1 (by decide) (n := Config.audioNumcodes) (m := Config.audioMaxbits)
      (by decide) (by decide) (by decide) (d.setReader (BitReader.attach t n))
    have a0 := ((Decoder.runs_attach hb d).mono (cs' := [1, 2, 6]) (by simp)).trans (a1.mono (by decide))
    cases h1 : importTree src 1 Config.audioNumcodes Config.audioMaxbits (d.setReader (BitReader.attach t n)) with
    | raised k e =>
      rw [h1] at a0
      exact ⟨a0, (fun u d' h => by cases h), fun k' d' h => by injection h with h; subst h; exact .inr (a3 _ _ h1)⟩
    | ok o e =>
      rw [h1] at a0
      rw [Res.andThen_of_ok]
      obtain ⟨b1, b2, b3⟩ := Decoder.runs_importTree src 2 (by decide) (n := Config.audioNumcodes)
        (m := Config.audioMaxbits) (by decide) (by decide) (by decide) e
      have b0 := a0.trans (b1.mono (by decide))
      cases h2 : importTree src 2 Config.audioNumcodes Config.audioMaxbits e with
      | raised k f =>
        rw [h2] at b0
        exact ⟨b0, (fun u d' h => by cases h), fun k' d' h => by injection h with h; subst h; exact .inr (b3 _ _ h2)⟩
      | ok o' f =>
        rw [h2] at b0 b1
        rw [Res.andThen_of_ok]
        split
        · exact ⟨b0, (fun u d' h => by cases h), fun k' d' h => by injection h with h; exact .inr h.symm⟩
        · refine ⟨b0, fun u d' h => ?_, fun k' d' h => by cases h⟩
          injection h with _ h
          subst h
          refine ⟨?_, b2 _ _ h2⟩
          rw [show f.ctx 1 = e.ctx 1 from b1.others 1 (by decide)]
          exact a2 _ _ h1
  · rw [if_neg hb]
    exact ⟨Decoder.Runs.refl _ _ _, (fun u d' h => by cases h), fun k d' h => by injection h with h; exact .inl h.symm⟩

/-! ## The engine -/

/-- An AVHuff procedure went from `e` to `e'`: it touched the contexts `cs`, wrote only the `n` bytes of `DST` from `lo`,
and kept everything well-formed. -/
structure Engine.Runs (src : Memory) (cs : List (Fin 7)) (lo n : Nat) (e e' : Engine) : Prop where
  dec : e.dec.Runs src cs e'.dec
  dst : e.dst.Writes lo n e'.dst

theorem Engine.Runs.refl (src : Memory) (cs : List (Fin 7)) (lo n : Nat) (e : Engine) : e.Runs src cs lo n e :=
  ⟨Decoder.Runs.refl _ _ _, Memory.Writes.refl _ _ _⟩

theorem Engine.Runs.trans {src : Memory} {cs : List (Fin 7)} {lo n : Nat} {a b c : Engine} (h1 : a.Runs src cs lo n b)
    (h2 : b.Runs src cs lo n c) : a.Runs src cs lo n c := ⟨h1.dec.trans h2.dec, h1.dst.trans h2.dst⟩

theorem Engine.Runs.mono {src : Memory} {cs cs' : List (Fin 7)} {lo n lo' n' : Nat} {a b : Engine}
    (h : a.Runs src cs lo n b) (hs : ∀ c, c ∈ cs → c ∈ cs') (h1 : lo' ≤ lo) (h2 : lo + n ≤ lo' + n') :
    a.Runs src cs' lo' n' b := ⟨h.dec.mono hs, h.dst.mono h1 h2⟩

theorem Engine.runs_lift {α : Type} {src : Memory} {cs : List (Fin 7)} {e : Engine} {p : Decoder → Res Decoder α}
    (h : e.dec.Runs src cs (p e.dec).state) (lo n : Nat) : e.Runs src cs lo n (e.lift p).state := by
  rcases e.lift_cases p with ⟨v, d, h1, h2⟩ | ⟨k, d, h1, h2⟩
  · rw [h1] at h; rw [h2]; exact ⟨h, Memory.Writes.refl _ _ _⟩
  · rw [h1] at h; rw [h2]; exact ⟨h, Memory.Writes.refl _ _ _⟩

theorem Engine.lift_kind {α : Type} {e : Engine} {p : Decoder → Res Decoder α} {k : ErrorKind} {e' : Engine}
    (h : e.lift p = .raised k e') : ∃ d, p e.dec = .raised k d := by
  rcases e.lift_cases p with ⟨v, d, -, h2⟩ | ⟨k', d, h1, h2⟩
  · rw [h2] at h; cases h
  · rw [h2] at h; injection h with h; subst h; exact ⟨d, h1⟩

/-- What an AVHuff procedure can do, said once: its frame, and the error kinds it raises. -/
structure Engine.Spec {α : Type} (src : Memory) (cs : List (Fin 7)) (lo n : Nat) (kinds : List ErrorKind) (e : Engine)
    (r : Res Engine α) : Prop where
  runs : e.Runs src cs lo n r.state
  kind : ∀ k e', r = .raised k e' → k ∈ kinds

theorem Engine.Spec.ret {α : Type} {src : Memory} {cs : List (Fin 7)} {lo n : Nat} {kinds : List ErrorKind}
    {e e' : Engine} (h : e.Runs src cs lo n e') (a : α) : e.Spec src cs lo n kinds (.ok a e') :=
  ⟨h, fun k e'' h => by cases h⟩

theorem Engine.Spec.fail {α : Type} {src : Memory} {cs : List (Fin 7)} {lo n : Nat} {kinds : List ErrorKind}
    {e e' : Engine} (h : e.Runs src cs lo n e') {k : ErrorKind} (hk : k ∈ kinds) :
    e.Spec src cs lo n kinds (.raised k e' : Res Engine α) :=
  ⟨h, fun k' e'' h => by injection h with h; subst h; exact hk⟩

theorem Engine.Spec.andThen {α β : Type} {src : Memory} {cs : List (Fin 7)} {lo n : Nat} {kinds : List ErrorKind}
    {e : Engine} {r : Res Engine α} {f : α → Engine → Res Engine β} (h1 : e.Spec src cs lo n kinds r)
    (h2 : ∀ a e', r = .ok a e' → e'.Spec src cs lo n kinds (f a e')) : e.Spec src cs lo n kinds (r.andThen f) := by
  cases r with
  | ok a e' => exact ⟨h1.runs.trans (h2 a e' rfl).runs, (h2 a e' rfl).kind⟩
  | raised k e' => exact ⟨h1.runs, fun k' e'' h => by injection h with h; subst h; exact h1.kind _ _ rfl⟩

theorem Engine.Spec.weaken {α : Type} {src : Memory} {cs cs' : List (Fin 7)} {lo n lo' n' : Nat}
    {kinds kinds' : List ErrorKind} {e : Engine} {r : Res Engine α} (h : e.Spec src cs lo n kinds r)
    (hc : ∀ c, c ∈ cs → c ∈ cs') (h1 : lo' ≤ lo) (h2 : lo + n ≤ lo' + n') (hk : ∀ k, k ∈ kinds → k ∈ kinds') :
    e.Spec src cs' lo' n' kinds' r :=
  ⟨h.runs.mono hc h1 h2, fun k e' h' => hk k (h.kind k e' h')⟩

/-- A change of `DST` alone. -/
theorem Engine.runs_dst {src : Memory} {cs : List (Fin 7)} {lo n : Nat} {e : Engine} {m : Memory}
    (h : e.dst.Writes lo n m) : e.Runs src cs lo n { e with dst := m } := ⟨Decoder.Runs.refl _ _ _, h⟩

/-! ## Audio -/

theorem audioRawLoop_writes (src : Memory) (p q n i : Nat) (acc : Half) (m : Memory) :
    m.Writes (q + 2 * i) (2 * n) (audioRawLoop src p q n i acc m) := by
  induction n generalizing i acc m with
  | zero => exact Memory.Writes.refl _ _ _
  | succ n ih =>
    exact ((m.writes_writeBE _ 2 _).mono (by omega) (by omega)).trans ((ih (i + 1) _ _).mono (by omega) (by omega))

/-- What `AudioRaw` can do (44_avhuff R192). -/
theorem audioRaw_spec (src : Memory) (p size q samples : Nat) (e : Engine) :
    e.Spec src [] q (2 * samples) [.readError, .invalidData] (audioRaw src p size q samples e) := by
  unfold audioRaw
  split
  · exact .fail (.refl _ _ _ _ _) (by simp)
  · split
    · exact .fail (.refl _ _ _ _ _) (by simp)
    · exact .ret (Engine.runs_dst ((audioRawLoop_writes src p q samples 0 0 e.dst).mono (by omega) (by omega))) _

theorem decodeOne_lift_spec (src : Memory) (c : Fin 7) (lo n : Nat) (e : Engine) :
    e.Spec src [] lo n [.invalidData] (e.lift (decodeOne src c)) := by
  refine ⟨Engine.runs_lift (Decoder.runs_decodeOne src c e.dec) lo n, fun k e' h => ?_⟩
  obtain ⟨d, h⟩ := Engine.lift_kind h
  simp [(decodeOne_kind h).1]

theorem audioHufLoop_spec (src : Memory) (q n i : Nat) (acc : Half) (e : Engine) :
    e.Spec src [] (q + 2 * i) (2 * n) [.invalidData] (audioHufLoop src q n i acc e) := by
  induction n generalizing i acc e with
  | zero => exact .ret (.refl _ _ _ _ _) _
  | succ n ih =>
    rw [audioHufLoop]
    refine .andThen (decodeOne_lift_spec src 1 _ _ e) fun hi e1 _ => .andThen (decodeOne_lift_spec src 2 _ _ e1)
      fun lo e2 _ => ?_
    have h := (ih (i + 1) (acc + BitVec.ofNat 16 (256 * hi + lo))
      { e2 with dst := e2.dst.writeBE (q + 2 * i) 2 (acc + BitVec.ofNat 16 (256 * hi + lo)).toNat })
    exact ⟨(Engine.runs_dst ((e2.dst.writes_writeBE _ 2 _).mono (by omega) (by omega))).trans
      (h.runs.mono (by simp) (by omega) (by omega)), h.kind⟩

/-- What `AudioHuf` can do (44_avhuff R194). -/
theorem audioHuf_spec (src : Memory) (p size q samples : Nat) (e : Engine) :
    e.Spec src [] q (2 * samples) [.readError, .invalidData, .illegalCommand] (audioHuf src p size q samples e) := by
  unfold audioHuf
  split
  · exact .fail (.refl _ _ _ _ _) (by simp)
  · next hb =>
    split
    · exact .fail (.refl _ _ _ _ _) (by simp)
    · have hp : src.inBounds p size = true := by
        cases h : src.inBounds p size with
        | true => rfl
        | false => simp [h] at hb
      refine .andThen ?_ fun u e' _ => ?_
      · have h := audioHufLoop_spec src q samples 0 0 { e with dec := e.dec.setReader (BitReader.attach p size) }
        refine ⟨Engine.Runs.trans (b := { e with dec := e.dec.setReader (BitReader.attach p size) })
          ⟨Decoder.runs_attach hp e.dec, Memory.Writes.refl _ _ _⟩ (h.runs.mono (by simp) (by omega) (by omega)), ?_⟩
        intro k e' hk
        have := h.kind k e' hk
        simp only [List.mem_singleton] at this
        simp [this]
      · split
        · exact .fail (.refl _ _ _ _ _) (by simp)
        · exact .ret (.refl _ _ _ _ _) _

theorem writeSamples_writes (r : Nat → Half) (q n i : Nat) (m : Memory) :
    m.Writes (q + 2 * i) (2 * n) (writeSamples r q n i m) := by
  induction n generalizing i m with
  | zero => exact Memory.Writes.refl _ _ _
  | succ n ih =>
    exact ((m.writes_writeBE _ 2 _).mono (by omega) (by omega)).trans ((ih (i + 1) _).mono (by omega) (by omega))

/-- What `FlacChannels` can do (44_avhuff R199); it returns where `p` and `q` have moved. -/
theorem flacLoop_spec (src : Memory) (samples : Nat) (chsize : List Nat) (p q : Nat) (e : Engine) :
    e.Spec src [] q (2 * samples * chsize.length) [.invalidData] (flacLoop src samples chsize p q e) ∧
      (∀ pq e', flacLoop src samples chsize p q e = .ok pq e' →
        pq = (p + chsize.sum, q + 2 * samples * chsize.length)) := by
  induction chsize generalizing p q e with
  | nil => exact ⟨.ret (.refl _ _ _ _ _) _, fun pq e' h => by injection h with h; rw [← h]; simp⟩
  | cons size rest ih =>
    rw [flacLoop]
    cases h : Config.flacDec (src.readBytes p size) samples with
    | none => exact ⟨.fail (.refl _ _ _ _ _) (by simp), fun pq e' h => by cases h⟩
    | some r =>
      obtain ⟨h1, h2⟩ := ih (p + size) (q + 2 * samples) { e with dst := writeSamples r q samples 0 e.dst }
      have e1 : 2 * samples * (size :: rest).length = 2 * samples * rest.length + 2 * samples := by
        rw [List.length_cons, Nat.mul_succ]
      refine ⟨⟨Engine.Runs.trans (b := { e with dst := writeSamples r q samples 0 e.dst })
        (Engine.runs_dst ((writeSamples_writes r q samples 0 e.dst).mono (by omega) (by omega)))
        (h1.runs.mono (by simp) (by omega) (by omega)), h1.kind⟩, fun pq e' h => ?_⟩
      rw [h2 pq e' h, e1]
      simp only [List.sum_cons, Prod.mk.injEq]
      omega

/-- What the channel loop can do (44_avhuff R180); it returns where `p` and `q` have moved. -/
theorem channelLoop_spec (src : Memory) (raw : Bool) (samples : Nat) (chsize : List Nat) (p q : Nat) (e : Engine) :
    e.Spec src [] q (2 * samples * chsize.length) [.readError, .invalidData, .illegalCommand]
        (channelLoop src raw samples chsize p q e) ∧
      (∀ pq e', channelLoop src raw samples chsize p q e = .ok pq e' →
        pq = (p + chsize.sum, q + 2 * samples * chsize.length)) := by
  induction chsize generalizing p q e with
  | nil => exact ⟨.ret (.refl _ _ _ _ _) _, fun pq e' h => by injection h with h; rw [← h]; simp⟩
  | cons size rest ih =>
    have e1 : 2 * samples * (size :: rest).length = 2 * samples * rest.length + 2 * samples := by
      rw [List.length_cons, Nat.mul_succ]
    rw [channelLoop]
    refine ⟨.andThen ?_ fun u e' _ => ?_, fun pq e' h => ?_⟩
    · cases raw with
      | true => exact (audioRaw_spec src p size q samples e).weaken (by simp) (by omega) (by omega) (by decide)
      | false => exact (audioHuf_spec src p size q samples e).weaken (by simp) (by omega) (by omega) (by decide)
    · exact (ih (p + size) (q + 2 * samples) e').1.weaken (by simp) (by omega) (by omega) (by simp)
    · obtain ⟨u, e'', -, h2⟩ := Res.andThen_eq_ok h
      rw [(ih (p + size) (q + 2 * samples) e'').2 pq e' h2, e1]
      simp only [List.sum_cons, Prod.mk.injEq]
      omega

/-! ## Video -/

theorem videoSample_spec (src : Memory) (c : Fin 7) (a : Nat) (e : Engine) :
    e.Spec src [c] a 1 [.invalidData] (videoSample src c a e) := by
  refine .andThen ⟨Engine.runs_lift (Decoder.runs_rleDecodeOne src c e.dec) a 1, fun k e' h => ?_⟩ fun v e' _ =>
    .ret (Engine.runs_dst (e'.dst.writes_setByte a v)) _
  obtain ⟨d, h⟩ := Engine.lift_kind h
  simp [((rleDecodeOne_frame src c e.dec).2 _ _ h).1]

theorem videoPair_spec (src : Memory) (a : Nat) (e : Engine) :
    e.Spec src [3, 4, 5] a 4 [.invalidData] (videoPair src a e) := by
  refine .andThen ((videoSample_spec src 3 a e).weaken (by simp) (by omega) (by omega) (by simp)) fun u e1 _ =>
    .andThen ((videoSample_spec src 4 _ e1).weaken (by simp) (by omega) (by omega) (by simp)) fun u e2 _ =>
    .andThen ((videoSample_spec src 3 _ e2).weaken (by simp) (by omega) (by omega) (by simp)) fun u e3 _ =>
    (videoSample_spec src 5 _ e3).weaken (by simp) (by omega) (by omega) (by simp)

theorem videoPairs_spec (src : Memory) (n a : Nat) (e : Engine) :
    e.Spec src [3, 4, 5] a (4 * n) [.invalidData] (videoPairs src n a e) := by
  induction n generalizing a e with
  | zero => exact .ret (.refl _ _ _ _ _) _
  | succ n ih =>
    exact .andThen ((videoPair_spec src a e).weaken (by simp) (by omega) (by omega) (by simp)) fun u e' _ =>
      (ih (a + 4) e').weaken (by simp) (by omega) (by omega) (by simp)

theorem runs_flushRuns (src : Memory) (lo n : Nat) (e : Engine) : e.Runs src [3, 4, 5] lo n (flushRuns e) :=
  ⟨((Decoder.runs_clearRun src 3 e.dec).mono (by simp)).trans
    (((Decoder.runs_clearRun src 4 _).mono (by simp)).trans ((Decoder.runs_clearRun src 5 _).mono (by simp))),
    Memory.Writes.refl _ _ _⟩

theorem videoRows_spec (src : Memory) (q width n y : Nat) (e : Engine) :
    e.Spec src [3, 4, 5] (q + 2 * width * y) (2 * width * n) [.invalidData] (videoRows src q width n y e) := by
  induction n generalizing y e with
  | zero => exact .ret (.refl _ _ _ _ _) _
  | succ n ih =>
    have e1 : 2 * width * (n + 1) = 2 * width * n + 2 * width := Nat.mul_succ _ _
    have e2 : 2 * width * (y + 1) = 2 * width * y + 2 * width := Nat.mul_succ _ _
    refine .andThen ((videoPairs_spec src _ _ e).weaken (by simp) (by omega) (by omega) (by simp)) fun u e' _ => ?_
    have h := ih (y + 1) (flushRuns e')
    exact ⟨(runs_flushRuns src _ _ e').trans (h.runs.mono (by simp) (by omega) (by omega)), h.kind⟩

theorem videoTrees_spec (src : Memory) (d : Decoder) :
    d.Runs src [3, 4, 5, 6] (videoTrees src d).state ∧
      (∀ k d', videoTrees src d = .raised k d' → k = .invalidData) := by
  unfold videoTrees
  obtain ⟨a1, -, a3⟩ := Decoder.runs_importTree src 3 (by decide) (n := Config.videoNumcodes) (m := Config.videoMaxbits)
    (by decide) (by decide) (by decide) d
  have a0 := a1.mono (cs' := [3, 4, 5, 6]) (by decide)
  cases h1 : importTree src 3 Config.videoNumcodes Config.videoMaxbits d with
  | raised k e => rw [h1] at a0; exact ⟨a0, fun k' d' h => by injection h with h; subst h; exact a3 _ _ h1⟩
  | ok o e =>
    rw [h1] at a0
    rw [Res.andThen_of_ok]
    obtain ⟨b1, -, b3⟩ := Decoder.runs_importTree src 4 (by decide) (n := Config.videoNumcodes)
      (m := Config.videoMaxbits) (by decide) (by decide) (by decide) e
    have b0 := a0.trans (b1.mono (by decide))
    cases h2 : importTree src 4 Config.videoNumcodes Config.videoMaxbits e with
    | raised k f => rw [h2] at b0; exact ⟨b0, fun k' d' h => by injection h with h; subst h; exact b3 _ _ h2⟩
    | ok o' f =>
      rw [h2] at b0
      rw [Res.andThen_of_ok]
      obtain ⟨c1, -, c3⟩ := Decoder.runs_importTree src 5 (by decide) (n := Config.videoNumcodes)
        (m := Config.videoMaxbits) (by decide) (by decide) (by decide) f
      have c0 := b0.trans (c1.mono (by decide))
      cases h3 : importTree src 5 Config.videoNumcodes Config.videoMaxbits f with
      | raised k g => rw [h3] at c0; exact ⟨c0, fun k' d' h => by injection h with h; subst h; exact c3 _ _ h3⟩
      | ok o'' g => rw [h3] at c0; exact ⟨c0, fun k' d' h => by cases h⟩

/-- What `Video` can do (44_avhuff R200); it returns the bytes it wrote. -/
theorem video_spec (src : Memory) (p vlen q width height : Nat) (e : Engine) :
    e.Spec src [3, 4, 5, 6] q (2 * width * height) [.readError, .invalidData] (video src p vlen q width height e) ∧
      (∀ n e', video src p vlen q width height e = .ok n e' → n = 2 * width * height) := by
  unfold video
  split
  · exact ⟨.fail (.refl _ _ _ _ _) (by simp), fun n e' h => by cases h⟩
  · next hb =>
    split
    · exact ⟨.fail (.refl _ _ _ _ _) (by simp), fun n e' h => by cases h⟩
    · have hp : src.inBounds p vlen = true := by
        cases h : src.inBounds p vlen with
        | true => rfl
        | false => simp [h] at hb
      have hr : videoReader p vlen = BitReader.attach p vlen := rfl
      rw [hr]
      refine ⟨.andThen ?_ fun u e1 _ => .andThen ?_ fun u e2 _ => ?_, fun n e' h => ?_⟩
      · have h := videoTrees_spec src (e.dec.setReader (BitReader.attach p vlen))
        refine ⟨Engine.Runs.trans (b := { e with dec := e.dec.setReader (BitReader.attach p vlen) })
          ⟨(Decoder.runs_attach hp e.dec).mono (by simp), Memory.Writes.refl _ _ _⟩ (Engine.runs_lift h.1 _ _), ?_⟩
        intro k e' hk
        obtain ⟨d, hk⟩ := Engine.lift_kind hk
        simp [h.2 _ _ hk]
      · exact (videoRows_spec src q width height 0 e1).weaken (by decide) (by omega) (by omega) (by simp)
      · have h : e2.Runs src [3, 4, 5, 6] q (2 * width * height) { e2 with dec := e2.dec.setReader e2.dec.br.flush.2 } :=
          ⟨(e2.dec.runs_flush src).mono (by simp), Memory.Writes.refl _ _ _⟩
        simp only []
        split
        · exact .fail h (by simp)
        · exact .ret h _
      · obtain ⟨u, e1, -, h⟩ := Res.andThen_eq_ok h
        obtain ⟨u, e2, -, h⟩ := Res.andThen_eq_ok h
        simp only [] at h
        split at h
        · cases h
        · injection h with h; exact h.symm

/-! ## Whole hunk -/

/-- The output header and the metadata, `12 + metasize` bytes from address 0 (30_encoding R102). -/
theorem avhPrologue_writes (src : Memory) (h : AvhHeader) (p : Nat) (m : Memory) :
    m.Writes 0 (12 + h.metasize) (avhPrologue src h p m) :=
  ((m.writes_writeBytes 0 h.outputBytes).mono (by omega) (by simp [AvhHeader.outputBytes])).trans
    ((Memory.writes_writeBytes _ 12 _).mono (by omega) (by rw [Memory.length_readBytes]; omega))

/-- What the audio part can do (44_avhuff R180). -/
theorem avhAudio_spec (src : Memory) (present : Bool) (h : AvhHeader) (p q : Nat) (e : Engine) :
    e.Spec src [1, 2, 6] q (2 * h.samples * h.chsize.length)
        [.readError, .invalidData, .unsupportedFormat, .illegalCommand] (avhAudio src present h p q e) ∧
      (∀ pq e', avhAudio src present h p q e = .ok pq e' →
        pq = (p + h.treebytes + h.chsize.sum, q + 2 * h.samples * h.chsize.length)) := by
  unfold avhAudio AvhHeader.treebytes
  by_cases h1 : h.treesize = 0xFFFF
  · rw [if_pos h1, if_pos (.inr h1)]
    unfold flacChannels
    split
    · obtain ⟨f1, f2⟩ := flacLoop_spec src h.samples h.chsize p q e
      exact ⟨f1.weaken (by simp) (by omega) (by omega) (by simp), fun pq e' h' => by rw [f2 pq e' h']; simp⟩
    · exact ⟨.fail (.refl _ _ _ _ _) (by simp), fun pq e' h => by cases h⟩
  · rw [if_neg h1]
    by_cases h2 : h.treesize = 0
    · rw [if_pos h2, if_pos (.inl h2)]
      obtain ⟨f1, f2⟩ := channelLoop_spec src true h.samples h.chsize p q e
      exact ⟨f1.weaken (by simp) (by omega) (by omega) (by decide), fun pq e' h' => by rw [f2 pq e' h']; simp⟩
    · rw [if_neg h2, if_neg (by omega)]
      refine ⟨.andThen ?_ fun u e1 _ => ?_, fun pq e' h' => ?_⟩
      · obtain ⟨t1, -, t3⟩ := Decoder.runs_audioTrees src p h.treesize e.dec
        refine ⟨Engine.runs_lift t1 _ _, fun k e' h' => ?_⟩
        obtain ⟨d, h'⟩ := Engine.lift_kind h'
        rcases t3 _ _ h' with h' | h' <;> simp [h']
      · exact (channelLoop_spec src false h.samples h.chsize (p + h.treesize) q e1).1.weaken (by simp) (by omega) (by omega)
          (by decide)
      · obtain ⟨u, e1, -, h'⟩ := Res.andThen_eq_ok h'
        exact (channelLoop_spec src false h.samples h.chsize (p + h.treesize) q e1).2 pq e' h'

theorem zeroFill_writes (q destlen : Nat) (m : Memory) : m.Writes q (destlen - q) (zeroFill q destlen m) :=
  (m.writes_writeBytes q _).mono (by omega) (by simp)

/-- What the video part can do (44_avhuff R180). -/
theorem avhVideoPart_spec (src : Memory) (h : AvhHeader) (stop p q : Nat) (e : Engine) :
    e.Spec src [3, 4, 5, 6] q (2 * h.width * h.height) [.readError, .invalidData] (avhVideoPart src h stop p q e) ∧
      (∀ q' e', avhVideoPart src h stop p q e = .ok q' e' → q' = q + 2 * h.width * h.height) := by
  unfold avhVideoPart
  split
  · obtain ⟨v1, v2⟩ := video_spec src p (stop - p) q h.width h.height e
    refine ⟨.andThen v1 fun n e' _ => .ret (.refl _ _ _ _ _) _, fun q' e' h' => ?_⟩
    obtain ⟨n, e1, h1, h2⟩ := Res.andThen_eq_ok h'
    injection h2 with h2
    rw [← h2, v2 n e1 h1]
  · next hz =>
    refine ⟨.ret (.refl _ _ _ _ _) _, fun q' e' h' => ?_⟩
    injection h' with h'
    have hz' : h.width * h.height = 0 := by omega
    rw [Nat.mul_assoc, hz', ← h', Nat.mul_zero, Nat.add_zero]

@[simp] theorem length_readHeader_chsize (src : Memory) (b : Nat) :
    (readHeader src b).chsize.length = (readHeader src b).channels := by
  simp [readHeader]

/-- The tests of AVH_DECODE have all passed. -/
theorem avhReject_none {src dst : Memory} {b complen destlen : Nat} {h : AvhHeader}
    (hn : avhReject src dst b complen destlen h = none) :
    src.inBounds b complen = true ∧ dst.inBounds 0 destlen = true ∧ 10 ≤ complen ∧ h.hdr ≤ complen ∧
      h.total ≤ complen ∧ ¬ (h.width * h.height > 0 ∧ h.width % 2 = 1) ∧ h.outlen ≤ destlen := by
  unfold avhReject at hn
  split at hn
  · cases hn
  · next h0 =>
    split at hn
    · cases hn
    · split at hn
      · cases hn
      · split at hn
        · cases hn
        · split at hn
          · cases hn
          · split at hn
            · cases hn
            · simp only [Bool.and_eq_false_iff, not_or, Bool.not_eq_false] at h0
              exact ⟨h0.1, h0.2, by omega, by omega, by omega, by assumption, by omega⟩

theorem avhReject_kind {src dst : Memory} {b complen destlen : Nat} {h : AvhHeader} {k : ErrorKind}
    (hk : avhReject src dst b complen destlen h = some k) : k = .readError ∨ k = .invalidData := by
  unfold avhReject at hk
  repeat' split at hk
  all_goals first | (injection hk with hk; subst hk; simp) | cases hk

/-- What AVH_DECODE can do (44_avhuff R180): contexts 1 to 6, the hunk's bytes of `DST`; on success the bytes produced
before the zero fill are `outlen`, and the tests have all passed. -/
theorem avhHunk_spec (src : Memory) (present : Bool) (b complen destlen : Nat) (e : Engine) :
    e.Spec src [1, 2, 3, 4, 5, 6] 0 destlen [.readError, .invalidData, .unsupportedFormat, .illegalCommand]
        (avhHunk src present b complen destlen e) ∧
      (∀ n e', avhHunk src present b complen destlen e = .ok n e' →
        avhReject src e.dst b complen destlen (readHeader src b) = none ∧ n = (readHeader src b).outlen) := by
  unfold avhHunk
  simp only []
  generalize hh : readHeader src b = h
  have hl : h.chsize.length = h.channels := by rw [← hh]; exact length_readHeader_chsize src b
  cases hr : avhReject src e.dst b complen destlen h with
  | some k =>
    refine ⟨.fail (.refl _ _ _ _ _) ?_, fun n e' h => by cases h⟩
    rcases avhReject_kind hr with h' | h' <;> simp [h']
  | none =>
    obtain ⟨-, -, -, -, -, -, hout⟩ := avhReject_none hr
    have ho : h.outlen = 12 + h.metasize + 2 * h.samples * h.chsize.length + 2 * h.width * h.height := by
      rw [AvhHeader.outlen, hl, Nat.mul_assoc 2 h.channels, Nat.mul_comm h.channels, ← Nat.mul_assoc]
    obtain ⟨a1, a2⟩ := avhAudio_spec src present h (b + h.hdr + h.metasize) (12 + h.metasize)
      { e with dst := avhPrologue src h (b + h.hdr) e.dst }
    refine ⟨.andThen ?_ fun pq e1 he1 => .andThen ?_ fun q e2 he2 => ?_, fun n e' h' => ?_⟩
    · refine ⟨Engine.Runs.trans (b := { e with dst := avhPrologue src h (b + h.hdr) e.dst })
        (Engine.runs_dst ((avhPrologue_writes src h (b + h.hdr) e.dst).mono (by omega) (by omega)))
        (a1.runs.mono (by decide) (by omega) (by omega)), fun k e' hk => ?_⟩
      exact a1.kind k e' hk
    · rw [a2 pq e1 he1]
      exact (avhVideoPart_spec src h (b + complen) _ _ e1).1.weaken (by decide) (by omega) (by simp only []; omega) (by decide)
    · exact .ret (Engine.runs_dst ((zeroFill_writes q destlen e2.dst).mono (by omega) (by
        rw [(avhVideoPart_spec src h (b + complen) pq.1 pq.2 e1).2 q e2 he2, a2 pq e1 he1]; simp only []; omega))) _
    · obtain ⟨pq, e1, he1, h'⟩ := Res.andThen_eq_ok h'
      obtain ⟨q, e2, he2, h'⟩ := Res.andThen_eq_ok h'
      injection h' with h'
      refine ⟨rfl, ?_⟩
      rw [← h', (avhVideoPart_spec src h (b + complen) pq.1 pq.2 e1).2 q e2 he2, a2 pq e1 he1, ho]

/-! ## Part commands of AVH_DECODE -/

/-- A part command answers a state exactly when the command succeeds with it. -/
theorem partCommand_eq_some_iff {i : Instr} {a : Vector Word 4} {s t : State} :
    partCommand i a s = some t ↔ exec i { s with a := a } = .next t ∧ t.running := by
  unfold partCommand
  split <;> simp_all only [Option.ite_none_right_eq_some, Option.some.injEq, Host.Outcome.next.injEq, reduceCtorEq, false_and]
  constructor
  · rintro ⟨h, rfl⟩; exact ⟨rfl, h⟩
  · rintro ⟨rfl, h⟩; exact ⟨h, rfl⟩

@[simp] theorem channelParts_nil (i : Instr) (n p q : Nat) (s : State) : channelParts i n [] p q s = some s := rfl

@[simp] theorem channelParts_cons (i : Instr) (n size p q : Nat) (rest : List Nat) (s : State) :
    channelParts i n (size :: rest) p q s =
      (partCommand i #v[BitVec.ofNat 32 p, BitVec.ofNat 32 size, BitVec.ofNat 32 q, BitVec.ofNat 32 n] s).bind
        (channelParts i n rest (p + size) (q + 2 * n)) := rfl

theorem videoPart_of_no_video {h : AvhHeader} (hv : h.width * h.height = 0) (p vlen q : Nat) (s : State) :
    videoPart h p vlen q s = some s := by
  simp [videoPart, hv]

/-- The channels FLAC audio answers for are as many as the header has. -/
theorem length_flacResults {src : Memory} {n : Nat} {sizes : List Nat} {p : Nat} {rs : List (Nat → Half)}
    (h : flacResults src n sizes p = some rs) : rs.length = sizes.length := by
  induction sizes generalizing p rs with
  | nil => simp [flacResults] at h; simp [← h]
  | cons size rest ih =>
    simp only [flacResults, Option.bind_eq_some_iff, Option.map_eq_some_iff] at h
    obtain ⟨r, -, rs', h', rfl⟩ := h
    simp [ih h']

end Sys2Proof.Machine
end

