-- ==== Sys2Proof/Laws/PerInstr.lean ====
section
/-! SUPPORT. Facts about every command, one lemma per constructor: the command word carries its operation code, its context
and its immediate in the fields of 30_encoding R70, and zeros in `rsv`. -/

namespace Sys2Proof.Laws.EncodesOp

/-- The four fields of a command's word (30_encoding R70). -/
def Statement (i : Instr) : Prop :=
  opField (encode i) = i.op ∧ ctxField (encode i) = i.ctx ∧ rsvField (encode i) = 0 ∧ immField (encode i) = i.imm

theorem blkReset : Statement .blkReset := by unfold Statement; decide

theorem brInit : Statement .brInit := by unfold Statement; decide

theorem brPeek (n : BitVec 6) : Statement (.brPeek n) := by
  unfold Statement; revert n; decide

theorem brRead (n : BitVec 6) : Statement (.brRead n) := by
  unfold Statement; revert n; decide

theorem brFlush : Statement .brFlush := by unfold Statement; decide

theorem brOvf : Statement .brOvf := by unfold Statement; decide

theorem hufConfig (c : BitVec 4) : Statement (.hufConfig c) := by
  unfold Statement; revert c; decide

theorem hufImportFlat (c : BitVec 4) : Statement (.hufImportFlat c) := by
  unfold Statement; revert c; decide

theorem hufImportRle (c : BitVec 4) : Statement (.hufImportRle c) := by
  unfold Statement; revert c; decide

theorem hufDecode (c : BitVec 4) : Statement (.hufDecode c) := by
  unfold Statement; revert c; decide

theorem rleDecode (c : BitVec 4) : Statement (.rleDecode c) := by
  unfold Statement; revert c; decide

theorem rleFlush (c : BitVec 4) : Statement (.rleFlush c) := by
  unfold Statement; revert c; decide

theorem rleReset (c : BitVec 4) : Statement (.rleReset c) := by
  unfold Statement; revert c; decide

theorem cdHdr : Statement .cdHdr := by unfold Statement; decide

theorem cdAssemble : Statement .cdAssemble := by unfold Statement; decide

theorem cdSync : Statement .cdSync := by unfold Statement; decide

theorem cdEcc : Statement .cdEcc := by unfold Statement; decide

theorem avhDecode : Statement .avhDecode := by unfold Statement; decide

theorem avhAudioTrees : Statement .avhAudioTrees := by unfold Statement; decide

theorem avhAudioChRaw : Statement .avhAudioChRaw := by unfold Statement; decide

theorem avhAudioChHuf : Statement .avhAudioChHuf := by unfold Statement; decide

theorem avhVideo : Statement .avhVideo := by unfold Statement; decide

end Sys2Proof.Laws.EncodesOp
end

