-- ==== Sys2Proof/Tests/Slice0.lean ====
section
/-! SUPPORT. Tests on fixed values, each of one step, with expected results from spec/95_test_vectors.md (named V…) or from
an example of a rule; and for each statement with hypotheses a witness: concrete values that meet them all. -/

namespace Sys2Proof.Tests

open Sys2Proof.Machine

/-! ## Small states -/

/-- A memory of exactly these bytes. -/
def memoryOf (bs : List Byte) : Memory := (Memory.blank bs.length).writeBytes 0 bs

/-- The state after power-on with these bytes in `SRC`, a blank `DST` of `n` bytes and these operands. -/
def start (src : List Byte) (n : Nat) (a : Vector Word 4) : State :=
  { State.reset with src := memoryOf src, dst := Memory.blank n, a := a }

/-- A context with the canonical table of these lengths. -/
def tableContext (maxbits : Nat) (ls : List Nat) : Context :=
  { Context.withCodes { Context.reset with
      numcodes := BitVec.ofNat 9 ls.length
      maxbits := BitVec.ofNat 6 maxbits
      len := tableOf fun i => BitVec.ofNat 6 (ls.getD i 0) } with valid := true }

/-- The state with another context `c`. -/
def withTable (s : State) (c : Fin 7) (x : Context) : State := { s with dec := s.dec.setCtx c x }

/-- The state with the reader on its whole `SRC`, at bit `pos`. -/
def atBit (s : State) (pos : Nat) : State :=
  s.setReader { base := 0, len := BitVec.ofNat 32 s.src.size, pos := pos, ovf := false }

/-- What one command leaves, looked at through `f`. -/
def after {α : Type} (i : Instr) (s : State) (f : State → α) : Option α := (nextOf (exec i s)).map f

/-- 272 lengths, all 0 but the listed ones. -/
def sparse (n : Nat) (used : List (Nat × Nat)) : List Nat :=
  (List.range n).map fun s => ((used.find? fun p => p.1 == s).map Prod.snd).getD 0

/-! ## Well-formedness (30_encoding R74): ill-formed terms are refused -/

theorem test_wellFormed_refuses_contexts_6_to_15 :
    ∀ c : BitVec 4, 6 ≤ c.toNat →
      [Instr.hufConfig c, .hufImportFlat c, .hufImportRle c, .hufDecode c, .rleDecode c, .rleFlush c, .rleReset c].all
        (fun i => !i.wellFormed) = true := by decide

theorem test_wellFormed_refuses_counts_above_32 :
    ∀ n : BitVec 6, 32 < n.toNat → [Instr.brPeek n, .brRead n].all (fun i => !i.wellFormed) = true := by decide

theorem test_wellFormed_accepts_the_bounds :
    [Instr.brPeek 32, .brRead 0, .hufDecode 5, .rleDecode 0, .blkReset].all Instr.wellFormed = true := by decide

/-! ## Decoding (V30-1, V30-2) -/

/-- Every legal word of V30-1, and more, one for each constructor at least. -/
theorem test_decode_legal_words :
    [(0x00000000, Instr.blkReset), (0x10000000, .brInit), (0x11000020, .brPeek 32), (0x12000005, .brRead 5),
      (0x12000000, .brRead 0), (0x13000000, .brFlush), (0x14000000, .brOvf), (0x20000000, .hufConfig 0),
      (0x20500000, .hufConfig 5), (0x21000000, .hufImportFlat 0), (0x22300000, .hufImportRle 3),
      (0x23300000, .hufDecode 3), (0x30300000, .rleDecode 3), (0x31300000, .rleFlush 3), (0x32300000, .rleReset 3),
      (0x40000000, .cdHdr), (0x41000000, .cdAssemble), (0x42000000, .cdSync), (0x43000000, .cdEcc),
      (0x50000000, .avhDecode), (0x51000000, .avhAudioTrees), (0x52000000, .avhAudioChRaw),
      (0x52000001, .avhAudioChHuf), (0x53000000, .avhVideo)].all
        (fun p => decide (decodeTableWord 32 p.1 = some p.2)) = true := by decide

/-- Every illegal word of V30-2: rejected, and `ST` afterwards. -/
theorem test_illegal_words :
    [(0x60000000, 0x00006006), (0x01000000, 0x00000106), (0xFF000000, 0x0000FF06), (0x13000040, 0x00001306),
      (0x10100000, 0x00001006), (0x20600000, 0x00002006), (0x23F00000, 0x00002306), (0x12000021, 0x00001206),
      (0x1100003F, 0x00001106), (0x52000002, 0x00005206), (0x13000001, 0x00001306), (0x00000001, 0x00000006)].all
        (fun p : Word × Word => decide ((nextOf (step (State.reset.hostIssues p.1))).map State.st = some p.2)) = true := by
  decide +kernel

/-- The assembler's text of the examples of 30_encoding R75. -/
theorem test_assembly :
    (Instr.brRead 5).assembly = "BR_READ #5" ∧ (Instr.hufDecode 3).assembly = "HUF_DECODE c3" ∧
      Instr.avhAudioChHuf.assembly = "AVH_AUDIO_CH.HUF" := by decide

/-! ## One step of each command -/

/-- V60-1: BLK_RESET with an error latched. -/
theorem test_blkReset : after .blkReset { State.reset with st := 0x1206, a := #v[1, 2, 3, 4] } (fun t => (t.st, t.a)) =
    some (0, #v[0, 0, 0, 0]) := by decide

/-- 40_bitreader R124, its example. -/
theorem test_brInit : after .brInit { State.reset with a := #v[0x100, 4, 0, 0] } (fun t => t.dec.br) =
    some { base := 0x100, len := 4, pos := 0, ovf := false } := by decide

/-- V40-5. -/
theorem test_brInit_outside : after .brInit (start [0, 0] 0 #v[1, 2, 0, 0]) State.st = some 0x00001001 := by decide

/-- V40-1, row 2. -/
theorem test_brPeek : after (.brPeek 32) (atBit (start [0xA5, 0xC3] 0 #v[0, 2, 0, 0]) 0)
    (fun t => (t.r[0], t.dec.br.pos, t.dec.br.ovf)) = some (0xA5C30000, 0, false) := by decide

/-- V40-2, third read. -/
theorem test_brRead : after (.brRead 8) (atBit (start [0xA5, 0xC3] 0 #v[0, 2, 0, 0]) 12)
    (fun t => (t.r[0], t.dec.br.pos, t.dec.br.ovf)) = some (0x30, 20, true) := by decide

/-- V40-6: 32 bits at an unaligned position. -/
theorem test_brRead_unaligned : after (.brRead 32) (atBit (start [0x12, 0x34, 0x56, 0x78, 0x9A, 0xBC] 0 #v[0, 6, 0, 0]) 4)
    (fun t => (t.r[0], t.dec.br.pos, t.dec.br.ovf)) = some (0x23456789, 36, false) := by decide

/-- 40_bitreader R127, its example. -/
theorem test_brFlush : after .brFlush (atBit (start [0, 0, 0, 0] 0 #v[0, 4, 0, 0]) 25) (fun t => (t.r[0], t.dec.br.pos)) =
    some (4, 32) := by decide

/-- V40-1, row 8. -/
theorem test_brOvf : after .brOvf (State.reset.setReader { base := 0, len := 2, pos := 24, ovf := true }) (fun t => t.r[0]) =
    some 1 := by decide

/-- 41_huffman R130, its example. -/
theorem test_hufConfig : after (.hufConfig 0) { State.reset with a := #v[16, 8, 0, 0] }
    (fun t => ((t.dec.ctx 0).numcodes, (t.dec.ctx 0).maxbits, (t.dec.ctx 0).valid)) = some (16, 8, false) := by
  decide +kernel

/-- V41-8, its first four rows. -/
theorem test_hufConfig_errors :
    [(273, 0, 0x00002005), (0, 0, 0x00002006), (4, 33, 0x00002006), (4, 0, 0x00002006)].all
      (fun p : Word × Word × Word =>
        decide (after (.hufConfig 0) { State.reset with a := #v[p.1, p.2.1, 0, 0] } State.st = some p.2.2)) = true := by
  decide +kernel

/-- An unconfigured table of 4 symbols of at most 3 bits. -/
def config43 : Context := { Context.reset with numcodes := 4, maxbits := 3 }

/-- V41-1: flat import. -/
theorem test_hufImportFlat : after (.hufImportFlat 0) (withTable (atBit (start [0x29, 0xB5, 0xBB, 0x80] 0 #v[4, 3, 0, 0]) 0)
      0 config43)
    (fun t => ((t.dec.ctx 0).lens, (List.range 4).map (t.dec.ctx 0).codeAt, (t.dec.ctx 0).valid, t.dec.br.pos)) =
    some ([1, 2, 3, 3], [0, 2, 6, 7], true, 12) := by decide +kernel

/-- V41-3 (a) and (b): rejected flat imports. -/
theorem test_hufImportFlat_rejects :
    [([0x24, 0x80], 12), ([0x80, 0x00], 3)].all (fun p : List Byte × Nat =>
      decide (after (.hufImportFlat 0) (withTable (atBit (start p.1 0 #v[4, 3, 0, 0]) 0) 0 config43)
        (fun t => (t.st, t.dec.br.pos, (t.dec.ctx 0).valid)) = some (0x00002102, p.2, false))) = true := by decide +kernel

/-- V41-5: RLE import of a list with a run of 18. -/
theorem test_hufImportRle : after (.hufImportRle 0) (withTable (atBit
      (start [0x22, 0x00, 0x00, 0x00, 0x02, 0x26, 0x03, 0x00] 0 #v[20, 8, 0, 0]) 0)
      0 { Context.reset with numcodes := 20, maxbits := 8 })
    (fun t => ((t.dec.ctx 0).lens, t.dec.br.pos)) = some (1 :: 1 :: List.replicate 18 0, 64) := by decide +kernel

/-- V41-1, the third decode: symbol 2. -/
theorem test_hufDecode : after (.hufDecode 0) (withTable (atBit (start [0x29, 0xB5, 0xBB, 0x80] 0 #v[4, 3, 0, 0]) 15)
      0 (tableContext 3 [1, 2, 3, 3]))
    (fun t => (t.r[0], t.dec.br.pos)) = some (2, 18) := by decide +kernel

/-- V41-2: no code word matches, nothing is consumed. -/
theorem test_hufDecode_unmatched : after (.hufDecode 0) (withTable (atBit (start [0x20, 0x04] 0 #v[4, 3, 0, 0]) 13)
      0 (tableContext 3 [1, 0, 0, 0]))
    (fun t => (t.st, t.dec.br.pos)) = some (0x00002302, 13) := by decide +kernel

/-- The table of V42-1. -/
def table42 : Context := tableContext 8 (sparse 272 [(0, 1), (1, 3), (255, 3), (256, 4), (259, 4), (264, 3)])

/-- The state of V42-1 with its data bytes at bit 7, in front of symbol 259, and `PREV` 2. -/
def state42 (run : BitVec 12) : State :=
  withTable (atBit (start [0x91, 0xF7, 0xB0] 0 #v[272, 8, 0, 0]) 7) 3 { table42 with prev := 2, run := run }

/-- V42-1, call 4: the escape. -/
theorem test_rleDecode : after (.rleDecode 3) (state42 0) (fun t => (t.r[0], t.dec.br.pos, (t.dec.ctx 3).run)) =
    some (2, 11, 10) := by decide +kernel

/-- V42-1, call 5: inside the run no bit is read. -/
theorem test_rleDecode_in_run : after (.rleDecode 3) (state42 10) (fun t => (t.r[0], t.dec.br.pos, (t.dec.ctx 3).run)) =
    some (2, 7, 9) := by decide +kernel

/-- 42_huffman_rle R153, its example. -/
theorem test_rleFlush : after (.rleFlush 4) (withTable State.reset 4 { Context.reset with prev := 2, run := 8 })
    (fun t => ((t.dec.ctx 4).prev, (t.dec.ctx 4).run)) = some (2, 0) := by decide

/-- 42_huffman_rle R154, its example. -/
theorem test_rleReset : after (.rleReset 4) (withTable State.reset 4 { Context.reset with prev := 0x7F, run := 3 })
    (fun t => ((t.dec.ctx 4).prev, (t.dec.ctx 4).run)) = some (0, 0) := by decide

/-- V43-6, row 1. -/
theorem test_cdHdr : after .cdHdr (start (0x01 :: 0x00 :: 0x10 :: List.replicate 37 0) 0 #v[0, 40, 2448, 0]) State.r =
    some #v[1, 3, 0x10, 0x15] := by decide +kernel

/-- V43-6, rows 2, 3 and 4. -/
theorem test_cdHdr_errors :
    [(0x10, 40, 2449), (0x10, 2, 2448), (0x26, 40, 2448)].all (fun p : Byte × Word × Word =>
      decide (after .cdHdr (start (0x01 :: 0x00 :: p.1 :: List.replicate 37 0) 0 #v[0, p.2.1, p.2.2, 0]) State.st =
        some 0x00004002)) = true := by decide +kernel

/-- S1, 43_cd_frame R164. -/
theorem test_cdSync : after .cdSync (start [] 2460 #v[2448, 0, 0, 0]) (fun t => t.dst.readBytes 2448 12) =
    some [0x00, 0xFF, 0xFF, 0xFF, 0xFF, 0xFF, 0xFF, 0xFF, 0xFF, 0xFF, 0xFF, 0x00] := by decide +kernel

/-- A blank sector with the header and byte of V43-5. -/
def sector435 : State :=
  { start [] 2352 #v[0, 0, 0, 0] with
    dst := (Memory.blank 2352).writeBytes 12 [0x12, 0x34, 0x56, 0x02, 0x01] }

/-- V43-5: P and Q parity. -/
theorem test_cdEcc : after .cdEcc sector435 (fun t => ([2080, 2166, 2292, 2294, 2296, 2344, 2346, 2348].map t.dst.byte,
      t.dst.cells.length)) = some ([0xF5, 0xF4, 0x48, 0x24, 0x6C, 0xBD, 0xD0, 0x6D], 13) := by decide +kernel

/-- 43_cd_frame R162: `frames` = 0 writes nothing. -/
theorem test_cdAssemble_no_frames : after .cdAssemble (start [0x01] 4 #v[0, 0, 0, 0]) (fun t => (t.st, t.dst)) =
    some (0, Memory.blank 4) := by decide +kernel

/-- V43-7: `SEC` too small for the frames. -/
theorem test_cdAssemble_outside : after .cdAssemble { start [0x01] 7344 #v[3, 0, 0, 0] with
      sec := Memory.blank 4704, sub := Memory.blank 288, dst := Memory.blank 0 } State.st = some 0x00004101 := by
  decide +kernel

/-- The payload of V44-1. -/
def payload441 : List Byte :=
  [0x02, 0x02, 0x00, 0x03, 0x00, 0x00, 0x00, 0x00, 0x00, 0x00, 0x00, 0x06, 0x00, 0x06, 0xAA, 0xBB, 0x00, 0x01, 0xFF, 0xFF,
    0x7F, 0xFF, 0x80, 0x00, 0x80, 0x00, 0x00, 0x01]

/-- V44-1. -/
theorem test_avhDecode : after .avhDecode (start payload441 40 #v[0, 28, 40, 0]) (fun t => (t.r[0], t.dst.readBytes 0 27)) =
    some (26, [0x63, 0x68, 0x61, 0x76, 0x02, 0x02, 0x00, 0x03, 0x00, 0x00, 0x00, 0x00, 0xAA, 0xBB, 0x00, 0x01, 0x00, 0x00,
      0x7F, 0xFF, 0x80, 0x00, 0x00, 0x00, 0x00, 0x01, 0x00]) := by decide +kernel

/-- V44-4: tree size FF FF and no collaborator. -/
theorem test_avhDecode_flac_absent : after .avhDecode
      (start ((payload441.set 8 0xFF).set 9 0xFF) 40 #v[0, 28, 40, 0]) State.st = some 0x00005004 := by decide +kernel

/-- The tree region of V44-2. -/
def region442 : List Byte :=
  [0x12, 0x30, 0x00, 0x00, 0x00, 0x39, 0xFB, 0x20, 0x12, 0x30, 0x00, 0x00, 0x00, 0x34, 0x00, 0x06, 0x7D, 0xBC]

/-- V44-3: AVH_AUDIO_TREES. -/
theorem test_avhAudioTrees : after .avhAudioTrees (start region442 0 #v[0, 18, 0, 0])
    (fun t => (t.dec.br.pos, t.dec.br.ovf, (t.dec.ctx 1).lens, (t.dec.ctx 2).lens)) =
    some (144, false, sparse 256 [(0, 1), (255, 1)], sparse 256 [(1, 1), (0x10, 2), (0xFE, 2)]) := by decide +kernel

/-- 44_avhuff R192, its example. -/
theorem test_avhAudioChRaw : after .avhAudioChRaw (start [0x00, 0x01, 0xFF, 0xFF, 0x7F, 0xFF] 8 #v[0, 6, 2, 3])
    (fun t => t.dst.readBytes 2 6) = some [0x00, 0x01, 0x00, 0x00, 0x7F, 0xFF] := by decide +kernel

/-- The state of the example of 44_avhuff R194: the trees of V44-2, the stream `5C`. -/
def state194 : State :=
  withTable (withTable (start [0x5C] 8 #v[0, 1, 4, 2]) 1 (tableContext 8 (sparse 256 [(0, 1), (255, 1)])))
    2 (tableContext 8 (sparse 256 [(1, 1), (0x10, 2), (0xFE, 2)]))

/-- 44_avhuff R194, its example. -/
theorem test_avhAudioChHuf : after .avhAudioChHuf state194 (fun t => (t.dst.readBytes 4 4, t.dec.br.pos)) =
    some ([0x00, 0x10, 0x00, 0x0E], 6) := by decide +kernel

/-- V44-4: no trees. -/
theorem test_avhAudioChHuf_no_trees : after .avhAudioChHuf State.reset State.st = some 0x00005206 := by decide +kernel

/-- The video stream of V44-2. -/
def video442 : List Byte :=
  [0x12, 0x30, 0x00, 0x00, 0x00, 0x3C, 0x00, 0x02, 0x7D, 0xDC, 0x00, 0x00, 0x12, 0x30, 0x00, 0x00, 0x00, 0x3C, 0xED, 0xB3,
    0xB7, 0x60, 0x00, 0x00, 0x12, 0x30, 0x00, 0x00, 0x00, 0x3E, 0xDF, 0x3B, 0x64, 0x00, 0x00, 0x23, 0xE8, 0x94]

/-- The state of V44-3 before AVH_VIDEO. -/
def state443 : State := start video442 16 #v[0, 38, 0, 0x00040002]

/-- V44-3: AVH_VIDEO. -/
theorem test_avhVideo : after .avhVideo state443 (fun t => (t.r[0], t.dec.br.pos, t.dst.readBytes 0 16)) =
    some (16, 304, [0x10, 0x80, 0x10, 0x80, 0x20, 0x80, 0x20, 0x7F, 0x30, 0x80, 0x40, 0xFF, 0x40, 0x00, 0x40, 0xFE]) := by
  decide +kernel

/-! ## Witnesses: values that meet the hypotheses of each statement, clause by clause -/

theorem witness_DecodeOfEncode : (Instr.brRead 32).wellFormed = true ∧ (Instr.hufDecode 5).wellFormed = true := by decide

theorem witness_DecodedWordIsTheEncodedOne : decode 0x23500000#32 = .ok (.hufDecode 5) := by rfl

theorem witness_IllegalWordsRaiseIllegalCommand : State.reset.running ∧
    [0x60000000, 0x13000040, 0x10100000, 0x20600000, 0x13000001, 0x12000021, 0x52000002].all
      (fun w : Word => decide (illegalByRule w)) = true := by decide +kernel

theorem witness_StepRunsTheIssuedCommand : (State.reset.hostIssues 0x14000000).host = .writeCW 0x14000000 :: [] ∧
    decode 0x14000000#32 = .ok .brOvf ∧ Instr.brOvf.wellFormed = true := ⟨rfl, rfl, rfl⟩

theorem witness_OutOfRangeCommandsRaiseIllegalCommand :
    (Instr.brRead 33).wellFormed = false ∧ (Instr.rleReset 6).wellFormed = false ∧ State.reset.running := by decide

/-- The state of V60-2: an error is latched. -/
def latched : State := { State.reset with st := 0x00002302 }

theorem witness_LatchedBlockIgnoresEveryOtherWord : ¬ latched.running ∧ (1 : Word) ≠ 0 := by decide

theorem witness_OnlyResetClearsTheLatch : ¬ (latched.hostIssues 0).running ∧ (∃ t, step (latched.hostIssues 0) = .next t) ∧
    ¬ (latched.hostIssues 1).running ∧ ∃ t, step (latched.hostIssues 1) = .next t :=
  ⟨by decide, ⟨_, rfl⟩, by decide, ⟨_, rfl⟩⟩

theorem witness_PowerOnResetsTheBlock : ({ latched with host := [.powerOn] } : State).host = .powerOn :: [] := rfl

/-- A host about to issue V40-1, row 3. -/
def runningState : State := (atBit (start [0xA5, 0xC3] 4 #v[0, 2, 0, 0]) 0).hostIssues 0x12000004

theorem witness_StepKeepsWellFormed : runningState.wf ∧ ∃ t, step runningState = .next t :=
  ⟨by decide +kernel, ⟨_, rfl⟩⟩

theorem witness_HostActionsDoWhatTheySay : State.reset.host = [] ∧
    ({ State.reset with host := [.writeA 3 7] } : State).host = .writeA 3 7 :: [] ∧
    ({ State.reset with dst := Memory.blank 4, host := [.writeByte .dst 3 1] } : State).host = .writeByte .dst 3 1 :: [] ∧
    (3 : Word).toNat < (Memory.blank 4).size ∧ (Memory.blank 4).size ≤ (4 : Word).toNat := by decide

/-- BR_INIT of a buffer that ends one byte after `SRC`. -/
def badInit : State := start [0, 0] 0 #v[1, 2, 0, 0]

theorem witness_CommandsRaiseOnlyTheirListedKinds : Instr.brInit.wellFormed = true ∧ badInit.running ∧
    ∃ t, exec .brInit badInit = .next t := ⟨by decide, by decide, ⟨_, rfl⟩⟩

/-- CD_SYNC at an offset whose last byte is outside `DST`. -/
def badSync : State := start [] 12 #v[1, 0, 0, 0]

theorem witness_ErrorEntryKeepsOperandsAndOtherBytes : badSync.running ∧ ∃ t, exec .cdSync badSync = .next t ∧ ¬ t.running :=
  ⟨by decide, _, rfl, by decide⟩

theorem witness_CommandsWriteOnlyTheirDstBytes : Instr.cdSync ≠ .blkReset ∧ ∃ t, exec .cdSync badSync = .next t :=
  ⟨by decide, _, rfl⟩

theorem witness_ResultsNotNamedAreKept : State.reset.running ∧
    (∃ t, exec .brOvf State.reset = .next t ∧ t.running) ∧ (1 : Fin 4) ∉ resultsOf .brOvf :=
  ⟨by decide, ⟨_, rfl, by decide⟩, by decide⟩

theorem witness_ContextsAndReaderNotNamedAreKept : (∃ t, exec (.brRead 4) State.reset = .next t) ∧
    (2 : Fin 7) ∉ touchedContexts (.hufImportRle 3) ∧ readerUse (.brRead 4) = .moved ∧ readerUse (.brPeek 4) = .untouched :=
  ⟨⟨_, rfl⟩, by decide, rfl, rfl⟩

theorem witness_BrInitAttachesTheReader :
    (start [0, 0] 0 #v[1, 1, 0, 0]).running ∧
      (start [0, 0] 0 #v[1, 1, 0, 0]).opA 0 + (start [0, 0] 0 #v[1, 1, 0, 0]).opA 1 ≤ (start [0, 0] 0 #v[1, 1, 0, 0]).src.size ∧
      badInit.src.size < badInit.opA 0 + badInit.opA 1 := by decide

theorem witness_BrPeekReturnsTheNextBits : State.reset.running ∧ (32 : BitVec 6).toNat ≤ 32 ∧ 32 < (33 : BitVec 6).toNat := by
  decide

theorem witness_BrReadConsumesTheNextBits : State.reset.running ∧ (32 : BitVec 6).toNat ≤ 32 ∧ 32 < (33 : BitVec 6).toNat := by
  decide

theorem witness_BrReadSplits : ∃ t u v, State.reset.running ∧ (32 : BitVec 6).toNat ≤ 32 ∧
    (1 : BitVec 6).toNat + (31 : BitVec 6).toNat = (32 : BitVec 6).toNat ∧ exec (.brRead 1) State.reset = .next t ∧
    exec (.brRead 31) t = .next u ∧ exec (.brRead 32) State.reset = .next v :=
  ⟨_, _, _, by decide, by decide, by decide, rfl, rfl, rfl⟩

theorem witness_BrFlushRoundsUpToAByte : (atBit State.reset (8 * (2 ^ 32 - 1))).running ∧
    ((atBit State.reset (8 * (2 ^ 32 - 1))).dec.br.pos + 7) / 8 < 2 ^ 32 ∧
    2 ^ 32 ≤ ((atBit State.reset (8 * (2 ^ 32 - 1) + 1)).dec.br.pos + 7) / 8 := by decide

/-- A reader that has read past its buffer. -/
def overRead : State := State.reset.setReader { base := 0, len := 2, pos := 17, ovf := true }

theorem witness_BrOvfReportsTheStickyFlag : overRead.running ∧ overRead.dec.br.ovf = true ∧
    ∃ t, exec .brInit overRead = .next t ∧ t.dec.br.ovf = false := ⟨by decide, rfl, _, rfl, by decide⟩

theorem witness_HufConfigConstructsTheContext : State.reset.running ∧ (5 : Fin 7).val < 6 ∧
    272 < ({ State.reset with a := #v[273, 8, 0, 0] } : State).opA 0 ∧
    ({ State.reset with a := #v[272, 33, 0, 0] } : State).opA 0 ≤ 272 ∧
    32 < ({ State.reset with a := #v[272, 33, 0, 0] } : State).opA 1 ∧
    ({ State.reset with a := #v[272, 32, 0, 0] } : State).opA 0 ≤ 272 ∧
    1 ≤ ({ State.reset with a := #v[1, 1, 0, 0] } : State).opA 0 := by decide

/-- The state of V41-1 before the import. -/
def state411 : State := withTable (atBit (start [0x29, 0xB5, 0xBB, 0x80] 0 #v[4, 3, 0, 0]) 0) 0 config43

/-- The state of V41-3 (a) before the import. -/
def state413 : State := withTable (atBit (start [0x24, 0x80] 0 #v[4, 3, 0, 0]) 0) 0 config43

theorem witness_FlatImportReadsTheLengthFields_unconfigured : State.reset.running ∧ (0 : Fin 7).val < 6 ∧
    (State.reset.dec.ctx 0).numcodes = 0 := by decide

theorem witness_FlatImportReadsTheLengthFields_valid : state411.running ∧ (state411.dec.ctx 0).wf ∧
    (state411.dec.ctx 0).numcodes ≠ 0 ∧ [1, 2, 3, 3].length = (state411.dec.ctx 0).numcodes.toNat ∧
    (∀ v ∈ [1, 2, 3, 3], v < 2 ^ (state411.dec.ctx 0).maxbits.toNat) ∧
    state411.dec.br.holdsAt state411.src state411.dec.br.pos
      ([1, 2, 3, 3].flatMap (msbBits (state411.dec.ctx 0).maxbits.toNat)) ∧
    lengthsValid (state411.dec.ctx 0).maxbits.toNat [1, 2, 3, 3] = true := by decide +kernel

theorem witness_FlatImportReadsTheLengthFields_invalid : state413.running ∧ (state413.dec.ctx 0).wf ∧
    (state413.dec.ctx 0).numcodes ≠ 0 ∧ [1, 1, 1, 0].length = (state413.dec.ctx 0).numcodes.toNat ∧
    (∀ v ∈ [1, 1, 1, 0], v < 2 ^ (state413.dec.ctx 0).maxbits.toNat) ∧
    state413.dec.br.holdsAt state413.src state413.dec.br.pos
      ([1, 1, 1, 0].flatMap (msbBits (state413.dec.ctx 0).maxbits.toNat)) ∧
    lengthsValid (state413.dec.ctx 0).maxbits.toNat [1, 1, 1, 0] = false := by decide +kernel

/-- A state at bit 0 of `SRC` with an imported or configured context 0. -/
def importState (src : List Byte) (n : BitVec 9) (m : BitVec 6) : State :=
  withTable (atBit (start src 0 #v[0, 0, 0, 0]) 0) 0 { Context.reset with numcodes := n, maxbits := m }

/-- The tree of V41-5, with its last token apart. -/
def tree415 (last : List Token) : RleTree :=
  { metaLens := [2, 2, 0, 0, 0, 0, 0, 0, 0, 2, 2], tokens := [.literal 1, .small 0, .literal 0] ++ last }

/-- The stream of V41-5. -/
def stream415 : List Byte := [0x22, 0x00, 0x00, 0x00, 0x02, 0x26, 0x03, 0x00]

theorem witness_RleImportRoundTrip : (importState stream415 20 8).running ∧ ((importState stream415 20 8).dec.ctx 0).wf ∧
    ((importState stream415 20 8).dec.ctx 0).numcodes ≠ 0 ∧ (tree415 [.large 0 0]).legal 20 8 ∧
    (importState stream415 20 8).dec.br.holdsAt (importState stream415 20 8).src 0 (tree415 [.large 0 0]).bits := by
  decide +kernel

/-- A meta table with a length above 4 (41_huffman R134). -/
theorem witness_RleImportRejectsBadStreams_meta : State.reset.running ∧ (State.reset.dec.ctx 0).numcodes = 0 ∧
    ((importState [0x50, 0, 0, 0, 0, 0] 20 8).dec.ctx 0).wf ∧ ((importState [0x50, 0, 0, 0, 0, 0] 20 8).dec.ctx 0).numcodes ≠ 0 ∧
    (∀ v ∈ 5 :: List.replicate 10 0, v < 16) ∧
    (importState [0x50, 0, 0, 0, 0, 0] 20 8).dec.br.holdsAt (importState [0x50, 0, 0, 0, 0, 0] 20 8).src 0
      ((5 :: List.replicate 10 0).flatMap (msbBits 4)) ∧
    lengthsValid 4 (5 :: List.replicate 10 0) = false := by decide +kernel

/-- A meta code with one word, `0`, and a stream that goes on with a 1. -/
theorem witness_RleImportRejectsBadStreams_unmatched :
    let t : RleTree := { metaLens := 1 :: List.replicate 10 0, tokens := [.literal 0] }
    let s := importState [0x10, 0, 0, 0, 0, 0x04] 20 8
    s.running ∧ (s.dec.ctx 0).wf ∧ t.metaLens.length = 11 ∧ lengthsValid 4 t.metaLens = true ∧
      (∀ tok ∈ t.tokens, tok.fits = true ∧ t.metaLens.getD tok.symbol 0 ≠ 0) ∧
      (∀ v ∈ t.lens, v ≤ (s.dec.ctx 0).maxbits.toNat) ∧ s.dec.br.holdsAt s.src s.dec.br.pos t.bits ∧
      t.lens.length < (s.dec.ctx 0).numcodes.toNat ∧
      (∀ m < 11, t.metaLens.getD m 0 ≠ 0 → ¬ s.dec.br.holdsAt s.src (s.dec.br.pos + t.bits.length) (codeWord t.metaLens m)) := by
  decide +kernel

/-- A literal 1 more than `MAXBITS`. -/
theorem witness_RleImportRejectsBadStreams_literal :
    let t : RleTree := { metaLens := [0, 0, 1, 1, 0, 0, 0, 0, 0, 0, 0], tokens := [.literal 2] }
    let s := importState [0x00, 0x11, 0, 0, 0, 0x04] 20 2
    s.running ∧ (s.dec.ctx 0).wf ∧ t.metaLens.length = 11 ∧ lengthsValid 4 t.metaLens = true ∧
      (∀ tok ∈ t.tokens, tok.fits = true ∧ t.metaLens.getD tok.symbol 0 ≠ 0) ∧
      (∀ v ∈ t.lens, v ≤ (s.dec.ctx 0).maxbits.toNat) ∧ s.dec.br.holdsAt s.src s.dec.br.pos t.bits ∧
      t.lens.length < (s.dec.ctx 0).numcodes.toNat ∧ t.metaLens.getD 3 0 ≠ 0 ∧ (s.dec.ctx 0).maxbits.toNat < 3 ∧
      s.dec.br.holdsAt s.src (s.dec.br.pos + t.bits.length) (codeWord t.metaLens 3) := by decide +kernel

/-- V41-5 with `NUMCODES` = 19: the run passes the end by one. -/
theorem witness_RleImportRejectsBadStreams_run :
    let t := tree415 []
    let s := importState stream415 19 8
    s.running ∧ (s.dec.ctx 0).wf ∧ t.metaLens.length = 11 ∧ lengthsValid 4 t.metaLens = true ∧
      (∀ tok ∈ t.tokens, tok.fits = true ∧ t.metaLens.getD tok.symbol 0 ≠ 0) ∧
      (∀ v ∈ t.lens, v ≤ (s.dec.ctx 0).maxbits.toNat) ∧ s.dec.br.holdsAt s.src s.dec.br.pos t.bits ∧
      t.lens.length < (s.dec.ctx 0).numcodes.toNat ∧ (Token.large 0 0).fits = true ∧
      t.metaLens.getD (Token.large 0 0).symbol 0 ≠ 0 ∧
      (s.dec.ctx 0).numcodes.toNat < (expandTokens 0 (t.tokens ++ [.large 0 0])).length ∧
      s.dec.br.holdsAt s.src (s.dec.br.pos + t.bits.length)
        (codeWord t.metaLens (Token.large 0 0).symbol ++ (Token.large 0 0).rawBits) := by decide +kernel

/-- Three lengths 1. -/
theorem witness_RleImportRejectsBadStreams_kraft :
    let t : RleTree := { metaLens := [0, 1, 0, 0, 0, 0, 0, 0, 0, 0, 0], tokens := [.literal 1, .literal 1, .literal 1] }
    let s := importState [0x01, 0, 0, 0, 0, 0] 3 8
    s.running ∧ (s.dec.ctx 0).wf ∧ t.metaLens.length = 11 ∧ lengthsValid 4 t.metaLens = true ∧
      (∀ tok ∈ t.tokens, tok.fits = true ∧ t.metaLens.getD tok.symbol 0 ≠ 0) ∧
      (∀ v ∈ t.lens, v ≤ (s.dec.ctx 0).maxbits.toNat) ∧ s.dec.br.holdsAt s.src s.dec.br.pos t.bits ∧
      t.lens.length = (s.dec.ctx 0).numcodes.toNat ∧ lengthsValid (s.dec.ctx 0).maxbits.toNat t.lens = false := by
  decide +kernel

/-- The table of R83's example: symbol 0 is the first, 2 and 3 are neighbours, 1 and 2 are neighbours of other lengths. -/
theorem witness_ValidTablesAreCanonical :
    let x := tableContext 3 [1, 2, 3, 3]
    x.wf ∧ x.valid = true ∧ 3 < x.numcodes.toNat ∧ (∀ u < 4, x.lenAt u ≠ 0) ∧
      (∀ w < x.numcodes.toNat, x.lenAt w ≠ 0 → x.lenAt 0 < x.lenAt w ∨ (x.lenAt 0 = x.lenAt w ∧ 0 ≤ w)) ∧
      (∀ w < x.numcodes.toNat, x.lenAt w ≠ 0 →
        (x.lenAt w < x.lenAt 1 ∨ (x.lenAt w = x.lenAt 1 ∧ w ≤ 1)) ∨
          (x.lenAt 2 < x.lenAt w ∨ (x.lenAt 2 = x.lenAt w ∧ 2 ≤ w))) := by decide +kernel

/-- V41-1 before its decodes. -/
def decode411 : State := withTable (atBit (start [0x29, 0xB5, 0xBB, 0x80] 0 #v[4, 3, 0, 0]) 12) 0 (tableContext 3 [1, 2, 3, 3])

/-- V41-2 before its failing decode. -/
def decode412 : State := withTable (atBit (start [0x20, 0x04] 0 #v[4, 3, 0, 0]) 13) 0 (tableContext 3 [1, 0, 0, 0])

theorem witness_HufDecodeReturnsTheMatchedSymbol : State.reset.running ∧ (State.reset.dec.ctx 0).valid = false ∧
    decode411.running ∧ (decode411.dec.ctx 0).wf ∧ (decode411.dec.ctx 0).valid = true ∧
    (decode411.dec.ctx 0).lenAt 0 ≠ 0 ∧
    decode411.dec.br.holdsAt decode411.src decode411.dec.br.pos (codeWord (decode411.dec.ctx 0).lens 0) ∧
    (decode412.dec.ctx 0).wf ∧ (decode412.dec.ctx 0).valid = true ∧
    (∀ sym < (decode412.dec.ctx 0).numcodes.toNat, (decode412.dec.ctx 0).lenAt sym ≠ 0 →
      ¬ decode412.dec.br.holdsAt decode412.src decode412.dec.br.pos (codeWord (decode412.dec.ctx 0).lens sym)) := by
  decide +kernel

theorem witness_HufDecodeRoundTrip : decode411.running ∧ (decode411.dec.ctx 0).wf ∧ decode411.dec.br.wf decode411.src ∧
    (decode411.dec.ctx 0).valid = true ∧ usedSymbols (decode411.dec.ctx 0).lens [0, 1, 2, 3, 0, 3] ∧
    decode411.dec.br.holdsAt decode411.src decode411.dec.br.pos
      ([0, 1, 2, 3, 0, 3].flatMap (codeWord (decode411.dec.ctx 0).lens)) := by decide +kernel

/-- The table of V42-1 in context 3 in front of these bytes. -/
def before42 (src : List Byte) : State := withTable (atBit (start src 0 #v[0, 0, 0, 0]) 0) 3 table42

theorem before42_context (src : List Byte) : (before42 src).dec.ctx 3 = table42 := Decoder.ctx_setCtx_self _ _ _

theorem table42_wf : table42.wf := by decide +kernel

/-- Symbols 255 and 256, at the border of the two clauses; a run; no table. (A stream that matches nothing is in
`witness_HufDecodeReturnsTheMatchedSymbol`.) -/
theorem witness_RleDecodeReturnsTheNextByte :
    (State.reset.dec.ctx 3).valid = false ∧ ((state42 10).dec.ctx 3).valid = true ∧ ((state42 10).dec.ctx 3).run ≠ 0 ∧
    (before42 [0xA0]).running ∧ ((before42 [0xA0]).dec.ctx 3).wf ∧ ((before42 [0xA0]).dec.ctx 3).valid = true ∧
    ((before42 [0xA0]).dec.ctx 3).run = 0 ∧ 256 < ((before42 [0xA0]).dec.ctx 3).numcodes.toNat ∧
    (before42 [0xA0]).dec.br.holdsAt (before42 [0xA0]).src 0 (codeWord ((before42 [0xA0]).dec.ctx 3).lens 255) ∧
    (before42 [0xE0]).dec.br.holdsAt (before42 [0xE0]).src 0 (codeWord ((before42 [0xE0]).dec.ctx 3).lens 256) := by
  rw [before42_context, before42_context]
  exact ⟨by decide, by decide +kernel, by decide +kernel, by decide, table42_wf, by decide +kernel, by decide +kernel,
    by decide +kernel, by decide +kernel, by decide +kernel⟩

theorem witness_RleFlushCutsTheRun : State.reset.running ∧ (5 : Fin 7).val < 6 := by decide

theorem witness_RleResetStartsASession : State.reset.running ∧ (5 : Fin 7).val < 6 := by decide

/-- Symbols 256 and 259 of V42-1. -/
theorem witness_RleEscapeReplaysThePredictor :
    (before42 [0xF0]).running ∧ ((before42 [0xF0]).dec.ctx 3).wf ∧ ((before42 [0xF0]).dec.ctx 3).valid = true ∧
    ((before42 [0xF0]).dec.ctx 3).run = 0 ∧ 256 + 3 < ((before42 [0xF0]).dec.ctx 3).numcodes.toNat ∧
    ((before42 [0xF0]).dec.ctx 3).lenAt (256 + 3) ≠ 0 ∧ ((before42 [0xF0]).dec.ctx 3).lenAt (256 + 0) ≠ 0 ∧
    (before42 [0xF0]).dec.br.holdsAt (before42 [0xF0]).src 0 (codeWord ((before42 [0xF0]).dec.ctx 3).lens (256 + 3)) ∧
    (before42 [0xE0]).dec.br.holdsAt (before42 [0xE0]).src 0 (codeWord ((before42 [0xE0]).dec.ctx 3).lens (256 + 0)) := by
  rw [before42_context, before42_context]
  exact ⟨by decide, table42_wf, by decide +kernel, by decide +kernel, by decide +kernel, by decide +kernel,
    by decide +kernel, by decide +kernel, by decide +kernel⟩

theorem witness_RleDeltasSumUp : (before42 [0x91, 0x40]).running ∧ ((before42 [0x91, 0x40]).dec.ctx 3).wf ∧
    ((before42 [0x91, 0x40]).dec.ctx 3).valid = true ∧ usedSymbols ((before42 [0x91, 0x40]).dec.ctx 3).lens [1, 1, 0, 255] ∧
    (∀ d ∈ [1, 1, 0, 255], d < 256) ∧
    (before42 [0x91, 0x40]).dec.br.holdsAt (before42 [0x91, 0x40]).src 0
      ([1, 1, 0, 255].flatMap (codeWord ((before42 [0x91, 0x40]).dec.ctx 3).lens)) := by
  rw [before42_context]
  exact ⟨by decide, table42_wf, by decide +kernel, by decide +kernel, by decide, by decide +kernel⟩

/-- A CD payload of 5 bytes, one frame, with this first length and this declared length. -/
def cdState (base : Byte) (complen : Word) : State := start [0x01, 0x00, base, 0, 0] 0 #v[0, complen, 2448, 0]

/-- One byte outside `SRC`; one byte too short; exactly filled. -/
theorem witness_CdHdrParsesThePayloadHeader :
    (cdState 2 6).running ∧ (cdState 2 6).src.size < (cdState 2 6).opA 0 + (cdState 2 6).opA 1 ∧
    (cdState 3 5).opA 0 + (cdState 3 5).opA 1 ≤ (cdState 3 5).src.size ∧ (cdState 3 5).opA 2 / 2448 = 1 ∧
    halfAt (cdState 3 5).src ((cdState 3 5).opA 0 + 1) = 3 ∧ (cdState 3 5).opA 1 < 1 + 2 + 3 ∧
    (cdState 2 5).opA 2 % 2448 = 0 ∧ halfAt (cdState 2 5).src ((cdState 2 5).opA 0 + 1) = 2 ∧ 1 + 2 + 2 ≤ (cdState 2 5).opA 1 := by
  decide +kernel

theorem witness_CdSyncWritesThePattern : badSync.running ∧ badSync.dst.size < badSync.opA 0 + 12 ∧
    (start [] 12 #v[0, 0, 0, 0]).running ∧
    (start [] 12 #v[0, 0, 0, 0]).opA 0 + 12 ≤ (start [] 12 #v[0, 0, 0, 0]).dst.size := by decide

theorem witness_CdEccMakesEveryCodeWordZero : sector435.running ∧ sector435.opA 0 + 2352 ≤ sector435.dst.size ∧
    (start [] 2351 #v[0, 0, 0, 0]).dst.size < (start [] 2351 #v[0, 0, 0, 0]).opA 0 + 2352 := by decide +kernel

/-- The sector of V43-5 with another parity byte. -/
def sector435' : State := { sector435 with dst := sector435.dst.setByte 2076 0xAA }

theorem witness_CdEccDependsOnThePayloadOnly : ∃ t t', sector435.running ∧ sector435'.running ∧
    sector435.opA 0 + 2352 ≤ sector435.dst.size ∧ sector435'.opA 0 + 2352 ≤ sector435'.dst.size ∧
    exec .cdEcc sector435 = .next t ∧ exec .cdEcc sector435' = .next t' ∧
    (∀ i, 12 ≤ i → i < 2076 → sector435.dst.byte (sector435.opA 0 + i) = sector435'.dst.byte (sector435'.opA 0 + i)) := by
  refine ⟨_, _, by decide, by decide, by decide +kernel, by decide +kernel, rfl, rfl, fun i _ hi => ?_⟩
  have h0 : sector435.opA 0 = 0 := rfl
  have h1 : sector435'.opA 0 = 0 := rfl
  rw [h0, h1]
  exact (Memory.byte_setByte_of_ne sector435.dst 0xAA (by omega)).symm

/-- One frame, every region exactly as large as it needs to be; and one of them a byte too small. -/
theorem witness_CdAssembleBuildsEveryFrame :
    let s : State := { start [0x01] 2448 #v[1, 0, 0, 0] with sec := Memory.blank 2352, sub := Memory.blank 96 }
    s.running ∧ 2448 * s.opA 0 ≤ s.dst.size ∧ 2352 * s.opA 0 ≤ s.sec.size ∧ 96 * s.opA 0 ≤ s.sub.size ∧
      s.opA 1 + (s.opA 0 + 7) / 8 ≤ s.src.size ∧ (Memory.blank 95).size < 96 * s.opA 0 := by decide +kernel

/-- An output one byte outside `DST`; a stream one byte short; a stream of exactly the samples. -/
theorem witness_AudioRawWritesTheRunningSums :
    let s := start [0x00, 0x01] 4 #v[0, 2, 2, 1]
    let t := start [0x00] 4 #v[0, 1, 2, 1]
    let u := start [0x00, 0x01] 3 #v[0, 2, 2, 1]
    s.running ∧ s.opA 0 + s.opA 1 ≤ s.src.size ∧ s.opA 2 + 2 * s.opA 3 ≤ s.dst.size ∧ 2 * s.opA 3 ≤ s.opA 1 ∧
      t.opA 0 + t.opA 1 ≤ t.src.size ∧ t.opA 2 + 2 * t.opA 3 ≤ t.dst.size ∧ t.opA 1 < 2 * t.opA 3 ∧
      u.dst.size < u.opA 2 + 2 * u.opA 3 := by decide +kernel

/-- The high-byte tree of V44-2. -/
def tree442hi : RleTree :=
  { metaLens := [1, 2, 3, 0, 0, 0, 0, 0, 0, 0, 3], tokens := [.literal 1, .literal 0, .large 14 12, .literal 1] }

/-- The low-byte tree of V44-2. -/
def tree442lo : RleTree :=
  { metaLens := [1, 2, 3, 0, 0, 0, 0, 0, 0, 0, 3]
    tokens := [.literal 0, .literal 1] ++ List.replicate 14 (.literal 0) ++ [.literal 2, .literal 0, .large 13 11, .literal 2,
      .literal 0] }

/-- The regions of V44-2 and V44-3, of the right length, one byte longer, and outside `SRC`. -/
theorem witness_AudioTreesImportsBothTrees :
    let s := start (region442 ++ [0]) 0 #v[0, 18, 0, 0]
    s.running ∧ s.opA 0 + s.opA 1 ≤ s.src.size ∧ 0 + 19 ≤ s.src.size ∧ s.src.size < 0 + 20 ∧ tree442hi.legal 256 8 ∧
      tree442lo.legal 256 8 ∧ 8 = (tree442hi.bits.length + 7) / 8 ∧ s.opA 1 = 8 + (tree442lo.bits.length + 7) / 8 ∧
      (BitReader.mk s.a[0] s.a[1] 0 false).holdsAt s.src 0 tree442hi.bits ∧
      (BitReader.mk s.a[0] s.a[1] 0 false).holdsAt s.src (8 * 8) tree442lo.bits ∧
      (BitReader.mk 0 19 0 false).holdsAt s.src 0 tree442hi.bits ∧
      (BitReader.mk 0 19 0 false).holdsAt s.src (8 * 8) tree442lo.bits := by decide +kernel

/-- A reader on the first `n` bytes of `SRC`. -/
def readerOn (n : Word) : BitReader := ⟨0, n, 0, false⟩

/-- A meta code with the words `0` and `1`, for the tokens of one literal and of the large run. -/
def metaOf (m : Nat) : List Nat := (List.replicate 11 0).set m 1 |>.set 10 1

/-- A tree without tokens, over an empty meta code: nothing can follow it. -/
def emptyTree : RleTree := { metaLens := List.replicate 11 0, tokens := [] }

theorem badTree_invalidMeta : BadTree (readerOn 6) (memoryOf [0x50, 0, 0, 0, 0, 0]) 0 256 :=
  .invalidMeta (5 :: List.replicate 10 0) (by decide) (by decide) (by decide +kernel) (by decide)

theorem badTree_noMetaWord : BadTree (readerOn 6) (memoryOf [0x10, 0, 0, 0, 0, 0x04]) 0 256 :=
  .noMetaWord { metaLens := 1 :: List.replicate 10 0, tokens := [.literal 0] } (by decide) (by decide +kernel)
    (by decide +kernel) (by decide +kernel)

/-- 255 lengths, then a run of 17. -/
theorem badTree_longRun : BadTree (readerOn 8) (memoryOf [0x10, 0, 0, 0, 0, 0x1F, 0x74, 0]) 0 256 :=
  .longRun { metaLens := metaOf 0, tokens := [.large 14 14] } (.large 0 0) (by decide +kernel) (by decide +kernel)
    (by decide) (by decide) (by decide +kernel) (by decide +kernel)

/-- 256 lengths 1. -/
theorem badTree_overKraft : BadTree (readerOn 7) (memoryOf [0x01, 0, 0, 0, 0, 0x17, 0xB8]) 0 256 :=
  .overKraft { metaLens := metaOf 1, tokens := [.literal 1, .large 14 14] } (by decide +kernel) (by decide +kernel)
    (by decide +kernel) (by decide +kernel)

/-- An empty region; a bad first tree; a bad second tree after the first of V44-2. -/
theorem witness_AudioTreesRejectsBadTrees :
    let s := start [0x50, 0, 0, 0, 0, 0] 0 #v[0, 6, 0, 0]
    let t := start (region442.take 8) 0 #v[0, 8, 0, 0]
    s.running ∧ s.opA 0 + s.opA 1 ≤ s.src.size ∧ (start [] 0 #v[0, 0, 0, 0]).opA 1 = 0 ∧
      readerOn 6 = ⟨s.a[0], s.a[1], 0, false⟩ ∧ BadTree (readerOn 6) s.src 0 256 ∧
      t.running ∧ t.opA 0 + t.opA 1 ≤ t.src.size ∧ readerOn 8 = ⟨t.a[0], t.a[1], 0, false⟩ ∧ tree442hi.legal 256 8 ∧
      (readerOn 8).holdsAt t.src 0 tree442hi.bits ∧ BadTree (readerOn 8) t.src (8 * ((tree442hi.bits.length + 7) / 8)) 256 :=
  ⟨by decide, by decide, by decide, by decide, badTree_invalidMeta, by decide, by decide, by decide, by decide +kernel,
    by decide +kernel, .noMetaWord emptyTree (by decide) (by decide) (by decide +kernel) (by decide +kernel)⟩

/-- The stream of 44_avhuff R194's example over smaller alphabets: high symbols 0 and 1, low symbols 0, 1 and 2. -/
def small194 : State :=
  withTable (withTable (start [0x5C] 8 #v[0, 1, 4, 2]) 1 (tableContext 8 [1, 1])) 2 (tableContext 8 [1, 2, 2])

/-- A stream of the right length; zeros past the end of an empty one; no trees; an output one byte outside `DST`. -/
theorem witness_AudioHufWritesTheRunningSums :
    small194.running ∧ small194.opA 0 + small194.opA 1 ≤ small194.src.size ∧
    small194.opA 2 + 2 * small194.opA 3 ≤ small194.dst.size ∧ (small194.dec.ctx 1).wf ∧ (small194.dec.ctx 2).wf ∧
    (small194.dec.ctx 1).valid = true ∧ (small194.dec.ctx 2).valid = true ∧ [(0, 1), (1, 2)].length = small194.opA 3 ∧
    usedSymbols (small194.dec.ctx 1).lens ([(0, 1), (1, 2)].map Prod.fst) ∧
    usedSymbols (small194.dec.ctx 2).lens ([(0, 1), (1, 2)].map Prod.snd) ∧
    (BitReader.mk small194.a[0] small194.a[1] 0 false).holdsAt small194.src 0
      ([(0, 1), (1, 2)].flatMap fun p =>
        codeWord (small194.dec.ctx 1).lens p.1 ++ codeWord (small194.dec.ctx 2).lens p.2) ∧
    usedSymbols (small194.dec.ctx 1).lens [0, 0] ∧ usedSymbols (small194.dec.ctx 2).lens [0, 0] ∧
    (BitReader.mk 0 0 0 false).holdsAt small194.src 0
      ([(0, 0), (0, 0)].flatMap fun p =>
        codeWord (small194.dec.ctx 1).lens p.1 ++ codeWord (small194.dec.ctx 2).lens p.2) ∧
    (State.reset.dec.ctx 1).valid = false ∧ small194.dst.size < 5 + 2 * small194.opA 3 := by decide +kernel

/-- One high symbol, `0`; two low symbols, `0` and `10`. -/
def incomplete194 (stream : Byte) : State :=
  withTable (withTable (start [stream] 8 #v[0, 1, 4, 2]) 1 (tableContext 8 [1])) 2 (tableContext 8 [1, 2])

/-- The bits of the sample with high symbol 0 and low symbol 1. -/
def bits194 : List Bool := [(0, 1)].flatMap fun p => codeWord [1] p.1 ++ codeWord [1, 2] p.2

/-- After the pair (0, 1), bits `010`, a high code word that matches nothing. -/
def badHigh : State := incomplete194 0x50

/-- After the pair (0, 1) and the high code word `0`, a low code word that matches nothing. -/
def badLow : State := incomplete194 0x4C

theorem witness_AudioHufRejectsUnmatchedWords_tables :
    (badHigh.dec.ctx 1).wf ∧ (badHigh.dec.ctx 2).wf ∧ (badHigh.dec.ctx 1).valid = true ∧
    (badHigh.dec.ctx 2).valid = true ∧ (badHigh.dec.ctx 1).lens = [1] ∧ (badHigh.dec.ctx 2).lens = [1, 2] := by
  decide +kernel

theorem badLow_tables : badLow.dec = badHigh.dec := rfl

theorem witness_AudioHufRejectsUnmatchedWords_high :
    badHigh.running ∧ badHigh.opA 0 + badHigh.opA 1 ≤ badHigh.src.size ∧
    badHigh.opA 2 + 2 * badHigh.opA 3 ≤ badHigh.dst.size ∧ readerOn 1 = ⟨badHigh.a[0], badHigh.a[1], 0, false⟩ ∧
    [(0, 1)].length < badHigh.opA 3 ∧ usedSymbols [1] [0] ∧ usedSymbols [1, 2] [1] ∧
    (readerOn 1).holdsAt badHigh.src 0 bits194 ∧ (readerOn 1).unmatched badHigh.src bits194.length [1] := by decide +kernel

theorem witness_AudioHufRejectsUnmatchedWords_low :
    badLow.running ∧ badLow.a = badHigh.a ∧ badLow.src.size = badHigh.src.size ∧ badLow.dst.size = badHigh.dst.size ∧
    (readerOn 1).holdsAt badLow.src 0 bits194 ∧ (badLow.dec.ctx 1).lenAt 0 = 1 ∧
    (readerOn 1).holdsAt badLow.src bits194.length (codeWord [1] 0) ∧
    (readerOn 1).unmatched badLow.src (bits194.length + 1) [1, 2] := by decide +kernel

/-- The trees of the video stream of V44-2: Y, Cb, Cr. -/
def tree442y : RleTree :=
  { metaLens := [1, 2, 3, 0, 0, 0, 0, 0, 0, 0, 3]
    tokens := .literal 2 :: List.replicate 15 (.literal 0) ++ [.literal 1, .literal 0, .large 13 13, .literal 2] ++
      List.replicate 15 (.literal 0) }

@[inherit_doc tree442y]
def tree442cb : RleTree :=
  { metaLens := [1, 2, 3, 0, 0, 0, 0, 0, 0, 0, 3]
    tokens := [.literal 2, .literal 0, .large 6 13, .literal 1, .literal 0, .large 6 14, .literal 2] ++
      List.replicate 14 (.literal 0) }

@[inherit_doc tree442y]
def tree442cr : RleTree :=
  { metaLens := [1, 2, 3, 0, 0, 0, 0, 0, 0, 0, 3]
    tokens := [.large 6 15, .literal 1, .literal 0, .large 6 12, .literal 1] ++ List.replicate 16 (.literal 0) }

/-- The script of V44-2: 4 x 2 pixels. -/
def script442 : List (List PairCodes) :=
  [[⟨some 0x10, some 0x80, some 0x00, some 0x80⟩, ⟨some 0x10, some 0x101, some 0x100, some 0xFF⟩],
    [⟨some 0x10, some 0x00, some 0x10, some 0x80⟩, ⟨some 0x00, some 0x80, some 0x00, some 0xFF⟩]]

/-- A script with samples inside runs, of the same trees: the Cb escape is played out in its row. -/
def scriptRun : List (List PairCodes) :=
  [[⟨some 0x10, some 0x101, some 0x00, some 0x80⟩, ⟨some 0x10, none, some 0x100, some 0xFF⟩]]

theorem witness_VideoWritesTheScriptedRows_trees : tree442y.legal 272 8 ∧ tree442cb.legal 272 8 ∧ tree442cr.legal 272 8 ∧
    12 = (tree442y.bits.length + 7) / 8 ∧ 12 + 12 = 12 + (tree442cb.bits.length + 7) / 8 ∧
    12 + 12 + 11 = 24 + (tree442cr.bits.length + 7) / 8 ∧
    (∀ row ∈ script442, ∀ c ∈ row, c.coded tree442y.lens tree442cb.lens tree442cr.lens) ∧
    (scriptRun.all fun row => (Planes.start.playRows [row]).isSome) = true := by decide +kernel

/-- The bits of the script of V44-2. -/
def bits442 : List Bool := script442.flatMap fun row => row.flatMap (PairCodes.bits tree442y.lens tree442cb.lens tree442cr.lens)

theorem witness_VideoWritesTheScriptedRows_stream :
    state443.running ∧ 4 = (state443.a[3] >>> 16).toNat ∧ 2 = (state443.a[3] &&& 0xFFFF).toNat ∧
    state443.opA 0 + state443.opA 1 ≤ state443.src.size ∧ state443.opA 2 + 2 * 4 * 2 ≤ state443.dst.size ∧
    script442.length = 2 ∧ (∀ row ∈ script442, row.length = 4 / 2) ∧
    (Planes.start.playRows script442).map Prod.fst = some [0x10, 0x80, 0x10, 0x80, 0x20, 0x80, 0x20, 0x7F, 0x30, 0x80, 0x40,
      0xFF, 0x40, 0x00, 0x40, 0xFE] ∧
    (BitReader.mk state443.a[0] state443.a[1] 0 false).holdsAt state443.src 0 tree442y.bits ∧
    (BitReader.mk state443.a[0] state443.a[1] 0 false).holdsAt state443.src (8 * 12) tree442cb.bits ∧
    (BitReader.mk state443.a[0] state443.a[1] 0 false).holdsAt state443.src (8 * 24) tree442cr.bits ∧
    (BitReader.mk state443.a[0] state443.a[1] 0 false).holdsAt state443.src (8 * 35) bits442 ∧
    35 + (bits442.length + 7) / 8 = state443.opA 1 := by decide +kernel

/-- The other clauses: a stream one byte longer than its contents, an odd width, an output one byte outside `DST`. -/
theorem witness_VideoWritesTheScriptedRows_errors :
    let s := start (video442 ++ [0]) 16 #v[0, 39, 0, 0x00040002]
    s.running ∧ s.opA 0 + s.opA 1 ≤ s.src.size ∧ 35 + (bits442.length + 7) / 8 ≠ s.opA 1 ∧
    (BitReader.mk s.a[0] s.a[1] 0 false).holdsAt s.src (8 * 35) bits442 ∧
    ((0x00050001 : Word) >>> 16).toNat % 2 = 1 ∧ s.opA 2 + 2 * 5 * 1 ≤ s.dst.size ∧ s.dst.size < 1 + 2 * 4 * 2 := by
  decide +kernel

/-- A tree with one code word, `0` for symbol 0, and its bytes. -/
def treeOne : RleTree :=
  { metaLens := [1, 2, 0, 0, 0, 0, 0, 0, 0, 0, 2], tokens := [.literal 1, .literal 0, .large 15 13] }

@[inherit_doc treeOne]
def bytesOne : List Byte := [0x12, 0, 0, 0, 0, 0x29, 0xFE, 0x80]

theorem treeOne_lens : treeOne.lens = 1 :: List.replicate 271 0 := by decide +kernel

/-- `n` such trees in front of these bytes, for AVH_VIDEO of 4 x 2 pixels. -/
def videoOne (n : Nat) (data : List Byte) : State :=
  start ((List.replicate n bytesOne).flatten ++ data) 16 #v[0, BitVec.ofNat 32 (8 * n + data.length), 0, 0x00040002]

/-- A first, second and third tree of zeros, where the stream ends. -/
theorem witness_VideoRejectsBadStreams_trees :
    (videoOne 0 []).running ∧ 4 = ((videoOne 0 []).a[3] >>> 16).toNat ∧ 2 = ((videoOne 0 []).a[3] &&& 0xFFFF).toNat ∧
    (videoOne 2 []).opA 0 + (videoOne 2 []).opA 1 ≤ (videoOne 2 []).src.size ∧
    (videoOne 2 []).opA 2 + 2 * 4 * 2 ≤ (videoOne 2 []).dst.size ∧
    readerOn 16 = ⟨(videoOne 2 []).a[0], (videoOne 2 []).a[1], 0, false⟩ ∧ treeOne.legal 272 8 ∧
    (treeOne.bits.length + 7) / 8 = 8 ∧ (readerOn 8).holdsAt (videoOne 1 []).src 0 treeOne.bits ∧
    (readerOn 16).holdsAt (videoOne 2 []).src 0 treeOne.bits ∧
    (readerOn 16).holdsAt (videoOne 2 []).src (8 * 8) treeOne.bits ∧
    BadTree (readerOn 0) (videoOne 0 []).src 0 272 ∧ BadTree (readerOn 8) (videoOne 1 []).src (8 * 8) 272 ∧
    BadTree (readerOn 16) (videoOne 2 []).src (8 * 16) 272 :=
  ⟨by decide, by decide, by decide, by decide +kernel, by decide +kernel, by decide, by decide +kernel, by decide +kernel,
    by decide +kernel, by decide +kernel, by decide +kernel,
    .noMetaWord emptyTree (by decide) (by decide) (by decide +kernel) (by decide +kernel),
    .noMetaWord emptyTree (by decide) (by decide) (by decide +kernel) (by decide +kernel),
    .noMetaWord emptyTree (by decide) (by decide) (by decide +kernel) (by decide +kernel)⟩

/-- A pixel pair of four symbols 0. -/
def zeroPair : PairCodes := ⟨some 0, some 0, some 0, some 0⟩

/-- One row and one pixel pair, 12 bits 0, then a pair that needs a code word and finds a 1: at each of its samples. -/
theorem witness_VideoRejectsBadStreams_pixels :
    let s := videoOne 3 [0x00, 0x08]
    let ls : List Nat := 1 :: List.replicate 271 0
    s.opA 0 + s.opA 1 ≤ s.src.size ∧ readerOn 26 = ⟨s.a[0], s.a[1], 0, false⟩ ∧
      (readerOn 26).holdsAt s.src (8 * 16) treeOne.bits ∧ [zeroPair, zeroPair].length = 4 / 2 ∧ [zeroPair].length < 4 / 2 ∧
      zeroPair.coded ls ls ls ∧ Planes.start.playRows [[zeroPair, zeroPair]] = some (List.replicate 8 0, .start) ∧
      Planes.start.playPairs [zeroPair] = some (List.replicate 4 0, .start) ∧
      [[zeroPair, zeroPair], [zeroPair]].flatMap (fun r => r.flatMap (PairCodes.bits ls ls ls)) = List.replicate 12 false ∧
      (readerOn 26).holdsAt s.src (8 * 24) (List.replicate 12 false) ∧
      StuckPair (readerOn 26) s.src ls ls ls .start (8 * 24 + 12) ∧
      StuckPair (readerOn 26) (videoOne 3 [0x00, 0x04]).src ls ls ls .start (8 * 24 + 12) ∧
      StuckPair (readerOn 26) (videoOne 3 [0x00, 0x02]).src ls ls ls .start (8 * 24 + 12) ∧
      StuckPair (readerOn 26) (videoOne 3 [0x00, 0x01]).src ls ls ls .start (8 * 24 + 12) :=
  ⟨by decide +kernel, by decide +kernel, by decide +kernel, by decide, by decide, by decide +kernel, by decide +kernel,
    by decide +kernel, by decide +kernel, by decide +kernel,
    .y1 (by decide) (by decide +kernel),
    .cb (some 0) (0, ⟨0, 0⟩) [false] (by decide) (by decide +kernel) (by decide +kernel) (by decide +kernel) (by decide)
      (by decide +kernel),
    .y2 (some 0) (some 0) (0, ⟨0, 0⟩) (0, ⟨0, 0⟩) [false, false] (by decide) (by decide) (by decide +kernel)
      (by decide +kernel) (by decide +kernel) (by decide +kernel) (by decide) (by decide +kernel),
    .cr (some 0) (some 0) (some 0) (0, ⟨0, 0⟩) (0, ⟨0, 0⟩) (0, ⟨0, 0⟩) [false, false, false] (by decide) (by decide)
      (by decide) (by decide +kernel) (by decide +kernel) (by decide +kernel) (by decide +kernel) (by decide +kernel)
      (by decide) (by decide +kernel)⟩

/-- The header of V44-1. -/
def header441 : AvhHeader :=
  { metasize := 2, channels := 2, samples := 3, width := 0, height := 0, treesize := 0, chsize := [6, 6] }

/-- V44-1 with a hunk of exactly its output. -/
theorem witness_AvhDecodeRawHunk :
    let s := start payload441 26 #v[0, 28, 26, 0]
    s.running ∧ headerAt s.src (s.opA 0) header441 ∧ hunkFits s header441 ∧ header441.treesize = 0 ∧
      header441.width * header441.height = 0 ∧
      (∀ c < header441.channels, 2 * header441.samples ≤ header441.chsize.getD c 0) := by decide +kernel

theorem witness_AvhDecodeOutputProperties :
    let s := start payload441 26 #v[0, 28, 26, 0]
    s.running ∧ headerAt s.src (s.opA 0) header441 ∧ ∃ t, exec .avhDecode s = .next t ∧ t.running :=
  ⟨by decide, by decide +kernel, _, rfl, by decide +kernel⟩

/-- The payload of V44-2. -/
def payload442 : List Byte := [0x00, 0x01, 0x00, 0x02, 0x00, 0x04, 0x00, 0x02, 0x00, 0x12, 0x00, 0x01] ++ region442 ++ [0x5C] ++
  video442

/-- The header of V44-2. -/
def header442 : AvhHeader :=
  { metasize := 0, channels := 1, samples := 2, width := 4, height := 2, treesize := 18, chsize := [1] }

/-- The parts of AVH_DECODE of this hunk, one after another, all succeed. -/
def partsSucceed (s : State) (h : AvhHeader) : Bool :=
  ((audioParts h (s.opA 0 + h.hdr + h.metasize) (12 + h.metasize)
      { s with dst := avhPrologue s.src h (s.opA 0 + h.hdr) s.dst }).bind
    (videoPart h (s.opA 0 + h.total) (s.opA 1 - h.total) (12 + h.metasize + 2 * h.channels * h.samples))).isSome

/-- V44-2, one Huffman channel and video, with its parts as V44-3 issues them. -/
theorem witness_AvhDecodeIsItsParts :
    let s := start payload442 48 #v[0, 69, 48, 0]
    s.running ∧ headerAt s.src 0 header442 ∧ hunkFits s header442 ∧ header442.treesize ≠ 0xFFFF ∧
      partsAddressable (s.opA 0) header442 ∧ partsSucceed s header442 = true := by decide +kernel

/-- Two Huffman channels and no video. -/
theorem witness_AvhDecodeIsItsParts_two_channels :
    let s := start ([0, 2, 0, 2, 0, 0, 0, 0, 0, 0x12, 0, 1, 0, 1] ++ region442 ++ [0x5C, 0x5C]) 20 #v[0, 34, 20, 0]
    let h : AvhHeader :=
      { metasize := 0, channels := 2, samples := 2, width := 0, height := 0, treesize := 18, chsize := [1, 1] }
    s.running ∧ headerAt s.src 0 h ∧ hunkFits s h ∧ partsAddressable (s.opA 0) h ∧ partsSucceed s h = true := by
  decide +kernel

/-- A raw channel too short for its sample. -/
theorem witness_AvhDecodeIsItsParts_failing :
    let s := start [0, 1, 0, 1, 0, 0, 0, 0, 0, 0, 0, 1, 0xAB] 14 #v[0, 13, 14, 0]
    let h : AvhHeader :=
      { metasize := 0, channels := 1, samples := 1, width := 0, height := 0, treesize := 0, chsize := [1] }
    s.running ∧ headerAt s.src 0 h ∧ hunkFits s h ∧ partsAddressable (s.opA 0) h ∧ partsSucceed s h = false := by
  decide +kernel

/-- A raw channel whose one byte is the last of 2^32. -/
theorem witness_AvhDecodeIsItsParts_at_the_top :
    let s : State := { State.reset with
      src := (Memory.blank (2 ^ 32)).writeBytes (2 ^ 32 - 13) [0, 1, 0, 0, 0, 0, 0, 0, 0, 0, 0, 1, 0xAB]
      a := #v[0xFFFFFFF3, 13, 12, 0] }
    let h : AvhHeader :=
      { metasize := 0, channels := 1, samples := 0, width := 0, height := 0, treesize := 0, chsize := [1] }
    s.running ∧ headerAt s.src (s.opA 0) h ∧ hunkFits s h ∧ partsAddressable (s.opA 0) h ∧ s.opA 0 + h.total = 2 ^ 32 := by
  decide +kernel

/-- A payload one byte outside `SRC`; one of 9 bytes; one with an output one byte longer than the hunk. -/
theorem witness_AvhDecodeRejectsBadStructure :
    let s := start payload441 26 #v[0, 28, 25, 0]
    s.running ∧ headerAt s.src (s.opA 0) header441 ∧ s.opA 0 + s.opA 1 ≤ s.src.size ∧ s.opA 2 ≤ s.dst.size ∧
      s.opA 2 < header441.outlen ∧ (9 : Word).toNat < 10 ∧ s.src.size < (1 : Word).toNat + s.opA 1 := by decide +kernel

/-- Two FLAC channels and a row of two pixels; without and with the collaborator. -/
theorem witness_AvhDecodeFlacHunk :
    let s := start [0, 2, 0, 1, 0, 2, 0, 1, 0xFF, 0xFF, 0, 1, 0, 1, 0xAB, 0xCD] 20 #v[0, 16, 20, 0]
    let h : AvhHeader :=
      { metasize := 0, channels := 2, samples := 1, width := 2, height := 1, treesize := 0xFFFF, chsize := [1, 1] }
    s.running ∧ headerAt s.src (s.opA 0) h ∧ hunkFits s h ∧ h.treesize = 0xFFFF ∧ s.flac = false ∧
      ({ s with flac := true } : State).flac = true ∧ 0 < h.width * h.height ∧ s.opA 0 + h.total < 2 ^ 32 := by
  decide +kernel

end Sys2Proof.Tests
end

section
/-! PROOFS. The statements about the state: what it holds after power-on, what every command leaves alone, and that every
step keeps a well-formed machine well-formed. All of them follow from one frame that every command but BLK_RESET has
(`exec_frame`), and that is proved command by command. -/

namespace Sys2Proof.Machine

/-! ## The frame of a command -/

/-- The reader `b'` is one that a command with the given use of the reader may leave after `b` (40_bitreader; 70 R249). -/
def BitReader.Uses (b b' : BitReader) : ReaderUse → Prop
  | .untouched => b' = b
  | .moved => b.Follows b'
  | .attached => True

theorem BitReader.Uses.refl (b : BitReader) (u : ReaderUse) : b.Uses b u := by
  cases u with
  | untouched => rfl
  | moved => exact BitReader.Follows.refl b
  | attached => trivial

/-- What command `i` may do to the machine, whether it succeeds, fails or is refused: the bounds of its rule on the results,
the contexts, the reader and `DST`; all but these, `ST` and the event counter is kept. -/
structure CommandFrame (i : Instr) (s t : State) : Prop where
  rest : t = { s with r := t.r, st := t.st, dec := t.dec, dst := t.dst, free := t.free }
  status : t.st = s.st ∨ ∃ k, t.st = stWord k i.op
  results : t.running → ∀ j : Fin 4, j ∉ resultsOf i → t.r[j.val] = s.r[j.val]
  runs : s.dec.Runs s.src (touchedContexts i) t.dec
  reader : s.dec.br.Uses t.dec.br (readerUse i)
  dst : s.dst.Writes (dstRange s i).1 (dstRange s i).2 t.dst

/-- The state `t` is `u` but for the event counter and the results that command `i` names. -/
structure State.SetsResults (i : Instr) (u t : State) : Prop where
  rest : t = { u with r := t.r, free := t.free }
  kept : ∀ j : Fin 4, j ∉ resultsOf i → t.r[j.val] = u.r[j.val]

theorem State.SetsResults.refl (i : Instr) (u : State) : u.SetsResults i u := ⟨rfl, fun _ _ => rfl⟩

theorem State.setsResults_setR {i : Instr} {n : Fin 4} (h : n ∈ resultsOf i) (u : State) (v : Word) :
    u.SetsResults i (u.setR n v) := by
  refine ⟨rfl, fun j hj => ?_⟩
  have hne : n.val ≠ j.val := fun e => hj (Fin.ext e ▸ h)
  simp [hne]

theorem State.not_running_of_stWord {s : State} {k : ErrorKind} {op : BitVec 8} (h : s.st = stWord k op) :
    ¬ s.running := by
  intro hr
  rw [State.running, State.err, h, stWord_err] at hr
  exact code_ne_zero k hr

theorem CommandFrame.refl (i : Instr) (s : State) : CommandFrame i s s :=
  ⟨rfl, .inl rfl, fun _ _ _ => rfl, Decoder.Runs.refl _ _ _, BitReader.Uses.refl _ _, Memory.Writes.refl _ _ _⟩

/-- What a command does to the engine stays within its frame. -/
theorem frame_withEngine {i : Instr} {s : State} {e : Engine}
    (h : s.engine.Runs s.src (touchedContexts i) (dstRange s i).1 (dstRange s i).2 e)
    (hb : s.dec.br.Uses e.dec.br (readerUse i)) : CommandFrame i s (s.withEngine e) :=
  ⟨rfl, .inl rfl, fun _ _ _ => rfl, h.dec, hb, h.dst⟩

theorem frame_dec {i : Instr} {s : State} {d : Decoder} (h : s.dec.Runs s.src (touchedContexts i) d)
    (hb : s.dec.br.Uses d.br (readerUse i)) : CommandFrame i s { s with dec := d } :=
  frame_withEngine (e := { dec := d, dst := s.dst }) ⟨h, Memory.Writes.refl _ _ _⟩ hb

theorem frame_dst {i : Instr} {s : State} {m : Memory}
    (h : s.dst.Writes (dstRange s i).1 (dstRange s i).2 m) : CommandFrame i s { s with dst := m } :=
  frame_withEngine (e := { dec := s.dec, dst := m }) (Engine.runs_dst h) (BitReader.Uses.refl _ _)

theorem CommandFrame.setsResults {i : Instr} {s u t : State} (h : CommandFrame i s u) (ht : u.SetsResults i t) :
    CommandFrame i s t := by
  obtain ⟨hrest, hkept⟩ := ht
  have hst : t.st = u.st := by rw [hrest]
  have hdec : t.dec = u.dec := by rw [hrest]
  have hdst : t.dst = u.dst := by rw [hrest]
  have hrun : t.running → u.running := fun hr => by rwa [State.running, State.err, hst] at hr
  refine ⟨?_, hst ▸ h.status, fun hr j hj => (hkept j hj).trans (h.results (hrun hr) j hj), hdec ▸ h.runs,
    hdec ▸ h.reader, hdst ▸ h.dst⟩
  rw [hst, hdec, hdst]
  conv_lhs => rw [hrest, h.rest]

/-- A failure that changes the status alone: an illegal word, or BR_INIT outside `SRC`. -/
theorem frame_status (i : Instr) (k : ErrorKind) (s : State) : CommandFrame i s { s with st := stWord k i.op } :=
  ⟨rfl, .inr ⟨k, rfl⟩, fun hr => absurd hr (State.not_running_of_stWord rfl), Decoder.Runs.refl _ _ _,
    BitReader.Uses.refl _ _, Memory.Writes.refl _ _ _⟩

/-- Error entry keeps the frame (60_exceptions R216). -/
theorem CommandFrame.errorEntry {i : Instr} {s u : State} (h : CommandFrame i s u) (k : ErrorKind) :
    CommandFrame i s (errorEntry k i.op (dstRange s i).1 (dstRange s i).2 u) := by
  refine ⟨?_, .inr ⟨k, rfl⟩, fun hr => absurd hr (State.not_running_of_stWord rfl), h.runs, h.reader,
    h.dst.trans (u.dst.writes_unspecify _ _ _)⟩
  conv_lhs => rw [h.rest]
  rfl

theorem CommandFrame.raise {i : Instr} {s u : State} (h : CommandFrame i s u) (k : ErrorKind) :
    CommandFrame i s (raise k i.op u) := by
  refine ⟨?_, .inr ⟨k, rfl⟩, fun hr => absurd hr (State.not_running_of_stWord rfl), h.runs, h.reader, ?_⟩
  · conv_lhs => rw [h.rest]
    rfl
  · rw [raise_dst]; exact h.dst

/-! ## The shared shapes of a command -/

theorem frame_command {i : Instr} {s t : State} {f : State → State} (h : command s f = .next t)
    (hf : CommandFrame i s (f s)) : CommandFrame i s t := by
  rcases command_eq_next h with ⟨-, rfl⟩ | ⟨-, rfl⟩
  · exact CommandFrame.refl i t
  · exact hf

theorem frame_withContext {i : Instr} {s : State} {c : BitVec 4} {f : Fin 7 → State}
    (h : ∀ k, contextNumber c = some k → CommandFrame i s (f k)) : CommandFrame i s (withContext i.op c s f) := by
  unfold withContext
  split
  · exact frame_status i .illegalCommand s
  · next k hk => exact h k hk

theorem frame_withBitCount {i : Instr} {s : State} {n : BitVec 6} {f : Nat → State}
    (h : CommandFrame i s (f n.toNat)) : CommandFrame i s (withBitCount i.op n s f) := by
  cases hn : legalBitCount n with
  | true => rw [withBitCount_of_legal i.op hn]; exact h
  | false => rw [withBitCount_of_illegal i.op hn]; exact frame_status i .illegalCommand s

theorem frame_runDecoder {α : Type} {i : Instr} {s : State} {p : Decoder → Res Decoder α} {done : α → State → State}
    (hr : s.dec.Runs s.src (touchedContexts i) (p s.dec).state)
    (hb : s.dec.br.Uses (p s.dec).state.br (readerUse i)) (hd : ∀ (v : α) (u : State), u.SetsResults i (done v u)) :
    CommandFrame i s (runDecoder i.op s p done) := by
  have hf : CommandFrame i s { s with dec := (p s.dec).state } := frame_dec hr hb
  rcases runDecoder_cases i.op s p done with ⟨v, d, hp, h⟩ | ⟨k, d, hp, h⟩
  · rw [hp] at hf; rw [h]; exact hf.setsResults (hd _ _)
  · rw [hp] at hf; rw [h]; exact hf.raise k

theorem frame_runEngine {α : Type} {i : Instr} {s : State} {p : Engine → Res Engine α} {done : α → State → State}
    {kinds : List ErrorKind}
    (hr : s.engine.Spec s.src (touchedContexts i) (dstRange s i).1 (dstRange s i).2 kinds (p s.engine))
    (hb : s.dec.br.Uses (p s.engine).state.dec.br (readerUse i)) (hd : ∀ (v : α) (u : State), u.SetsResults i (done v u)) :
    CommandFrame i s (runEngine i.op (dstRange s i).1 (dstRange s i).2 s p done) := by
  have hf : CommandFrame i s (s.withEngine (p s.engine).state) := frame_withEngine hr.runs hb
  rcases runEngine_cases i.op (dstRange s i).1 (dstRange s i).2 s p done with ⟨v, e, hp, h⟩ | ⟨k, e, hp, h⟩
  · rw [hp] at hf; rw [h]; exact hf.setsResults (hd _ _)
  · rw [hp] at hf; rw [h]; exact hf.errorEntry k

/-! ## Contexts and imports -/

/-- A context within its bounds that holds no table is well-formed. -/
theorem Context.wf_of_invalid {x : Context} (hn : x.numcodes.toNat ≤ Config.maxCodes)
    (hm : x.maxbits.toNat ≤ Config.maxbitsMax) (hr : x.run.toNat ≤ 2047) (hv : x.valid = false) : x.wf :=
  ⟨hn, hm, hr, fun h => by rw [hv] at h; cases h⟩

/-- A new table keeps a context well-formed if it is a built one or not valid. -/
theorem Context.Keeps.wf {x y : Context} (h : x.Keeps y) (hw : x.wf) (h0 : x.numcodes ≠ 0)
    (hv : y.valid = true → y.built) : y.wf := by
  obtain ⟨hn, hm, hr, -⟩ := hw
  refine ⟨?_, ?_, ?_, fun hy => ⟨?_, hv hy⟩⟩
  · rw [h.numcodes]; exact hn
  · rw [h.maxbits]; exact hm
  · rw [h.run]; exact hr
  · rw [h.numcodes]; exact h0

/-- The frame of `BuildTable`, for a context in any state. -/
theorem buildTable_imports (c : Fin 7) (d : Decoder) : d.Imports c (buildTable c d).state := by
  cases hv : lengthsValid (d.ctx c).maxbits.toNat (d.ctx c).lens with
  | true =>
    rw [buildTable_of_valid hv]
    refine ⟨BitReader.Follows.refl _, fun c' h => d.ctx_setCtx_of_ne _ h, ?_⟩
    rw [Res.state_ok, Decoder.ctx_setCtx_self]
    exact ⟨rfl, rfl, rfl, rfl⟩
  | false => rw [buildTable_of_invalid hv]; exact Decoder.Imports.refl c d

/-- The frame of the flat import, for a context in any state (41_huffman R131). -/
theorem importFlat_imports (src : Memory) (c : Fin 7) (d : Decoder) : d.Imports c (importFlat src c d).state :=
  Res.state_andThen (fun e => d.Imports c e)
    ((d.imports_setValid c false).trans (importFlatLoop_spec src c _ 0 _).1)
    fun _ e _ he => he.trans (buildTable_imports c e)

theorem Decoder.ImportsRle.trans_imports {c : Fin 7} {d e f : Decoder} (h1 : d.ImportsRle c e) (h2 : e.Imports c f) :
    d.ImportsRle c f :=
  ⟨h1.reader.trans h2.reader, fun c' hc h6 => (h2.others c' hc).trans (h1.others c' hc h6), h1.target.trans h2.target⟩

/-- Clearing `VALID`, setting up the meta decoder and importing its table, the start of `ImportRle` (41_huffman R133). -/
theorem importMeta_importsRle (src : Memory) {c : Fin 7} (hc : c ≠ 6) (d : Decoder) :
    d.ImportsRle c (importFlat src 6 (d.setValid c false).setMeta).state := by
  have hm := importFlat_imports src 6 (d.setValid c false).setMeta
  refine ⟨hm.reader, fun c' h h6 => ?_, ?_⟩
  · rw [hm.others c' h6, Decoder.ctx_setMeta_of_ne _ h6, Decoder.ctx_setValid_of_ne _ _ h]
  · rw [hm.others c hc, Decoder.ctx_setMeta_of_ne _ hc, Decoder.ctx_setValid_self]
    exact ⟨rfl, rfl, rfl, rfl⟩

/-- The frame of the RLE import, for a context in any state (41_huffman R133). -/
theorem importRle_importsRle (src : Memory) {c : Fin 7} (hc : c ≠ 6) (d : Decoder) :
    d.ImportsRle c (importRle src c d).state :=
  Res.state_andThen (fun e => d.ImportsRle c e) (importMeta_importsRle src hc d) fun _ e _ he =>
    Res.state_andThen (fun f => d.ImportsRle c f) (he.trans_imports (importRleLoop_spec src c _ 0 0 e).1)
      fun _ f _ hf => hf.trans_imports (buildTable_imports c f)

/-- A procedure that leaves a built table when it returns, and none when it raises. -/
theorem Res.built_of_valid {r : Res Decoder Unit} {c : Fin 7}
    (hok : ∀ d', r = .ok () d' → (d'.ctx c).valid = true ∧ (d'.ctx c).built)
    (hraise : ∀ k d', r = .raised k d' → k = .invalidData ∧ (d'.ctx c).valid = false)
    (hv : (r.state.ctx c).valid = true) : (r.state.ctx c).built := by
  cases r with
  | ok u d' => exact (hok d' rfl).2
  | raised k d' => rw [Res.state_raised, (hraise k d' rfl).2] at hv; cases hv

/-- The flat import into a configured context touches that context and keeps all well-formed. -/
theorem Decoder.runs_importFlat (src : Memory) {c : Fin 7} {d : Decoder} (h0 : (d.ctx c).numcodes ≠ 0) :
    d.Runs src [c] (importFlat src c d).state := by
  have hi := importFlat_imports src c d
  refine ⟨fun c' h => hi.others c' (by simpa using h), fun ⟨hbr, hctx⟩ => ⟨hi.reader.wf hbr, fun c' => ?_⟩⟩
  by_cases hc' : c' = c
  · subst hc'
    obtain ⟨hn, hm, -⟩ := hctx c'
    obtain ⟨-, hok, hraise⟩ := importFlat_spec src c' d hn hm
    exact hi.target.wf (hctx c') h0 (Res.built_of_valid hok hraise)
  · rw [hi.others c' hc']; exact hctx c'

/-- The RLE import into a configured context touches that context and the meta decoder and keeps all well-formed. -/
theorem Decoder.runs_importRle (src : Memory) {c : Fin 7} (hc : c ≠ 6) {d : Decoder} (h0 : (d.ctx c).numcodes ≠ 0) :
    d.Runs src [6, c] (importRle src c d).state := by
  have hi := importRle_importsRle src hc d
  refine ⟨fun c' h => ?_, fun ⟨hbr, hctx⟩ => ⟨hi.reader.wf hbr, fun c' => ?_⟩⟩
  · simp only [List.mem_cons, List.not_mem_nil, or_false, not_or] at h
    exact hi.others c' h.2 h.1
  · obtain ⟨hn, hm, -⟩ := hctx c
    obtain ⟨-, hmeta, hok, hraise⟩ := importRle_spec src c d hc hn hm
    by_cases h6 : c' = 6
    · subst h6; exact hmeta (hctx 6).2.2.1
    · by_cases hc' : c' = c
      · subst hc'; exact hi.target.wf (hctx c') h0 (Res.built_of_valid hok hraise)
      · rw [hi.others c' hc' h6]; exact hctx c'

theorem Decoder.runs_of_follows (src : Memory) {d : Decoder} {b : BitReader} (h : d.br.Follows b) :
    d.Runs src [] (d.setReader b) :=
  ⟨fun _ _ => rfl, fun ⟨hbr, hctx⟩ => ⟨h.wf hbr, hctx⟩⟩

theorem Decoder.runs_setCtx (src : Memory) (d : Decoder) {c : Fin 7} {x : Context} (h : (d.ctx c).wf → x.wf) :
    d.Runs src [c] (d.setCtx c x) :=
  ⟨fun _ hc => d.ctx_setCtx_of_ne x (by simpa using hc), fun hw => Decoder.wf_setCtx hw (h (hw.2 c))⟩

theorem Context.configured_wf (x : Context) (k c : Nat) {n m : Nat} (hn : n ≤ Config.maxCodes)
    (hm : m ≤ Config.maxbitsMax) :
    (Context.unspecifyTable { x with
      numcodes := BitVec.ofNat 9 n, maxbits := BitVec.ofNat 6 m, valid := false, prev := 0, run := 0 } k c).wf :=
  Context.wf_of_invalid (Nat.le_trans (Nat.mod_le n (2 ^ 9)) hn) (Nat.le_trans (Nat.mod_le m (2 ^ 6)) hm)
    (Nat.zero_le _) rfl

theorem audioRaw_dec (src : Memory) (p size q samples : Nat) (e : Engine) :
    (audioRaw src p size q samples e).state.dec = e.dec := by
  unfold audioRaw
  split
  · rfl
  · split <;> rfl

/-- The result of `contextNumber` is a context of the host, so never the meta decoder (10_state R31). -/
theorem ne_six_of_contextNumber {c : BitVec 4} {k : Fin 7} (h : contextNumber c = some k) : k ≠ 6 := by
  obtain ⟨-, hk⟩ := contextNumber_eq_some h
  rintro rfl
  exact absurd hk (by decide)

/-! ## Every command has its frame -/

section
variable {s t : State}

theorem execBrInit_frame (h : execBrInit s = .next t) : CommandFrame .brInit s t := by
  refine frame_command h ?_
  split
  · next hb => exact frame_dec (Decoder.runs_attach hb s.dec) trivial
  · exact frame_status .brInit .readError s

theorem execBrPeek_frame {n : BitVec 6} (h : execBrPeek n s = .next t) : CommandFrame (.brPeek n) s t :=
  frame_command h <| frame_withBitCount (i := .brPeek n) <|
    (CommandFrame.refl _ s).setsResults (State.setsResults_setR (by simp [resultsOf]) _ _)

theorem execBrRead_frame {n : BitVec 6} (h : execBrRead n s = .next t) : CommandFrame (.brRead n) s t := by
  have hb := s.dec.br.follows_advance n.toNat
  have hf : CommandFrame (.brRead n) s (s.setReader (s.dec.br.advance n.toNat)) :=
    frame_dec (Decoder.runs_of_follows s.src hb) hb
  exact frame_command h <| frame_withBitCount (i := .brRead n) <|
    hf.setsResults (State.setsResults_setR (by simp [resultsOf]) _ _)

theorem execBrFlush_frame (h : execBrFlush s = .next t) : CommandFrame .brFlush s t := by
  have hf : CommandFrame .brFlush s (s.setReader s.dec.br.flush.2) :=
    frame_dec (s.dec.runs_flush s.src) s.dec.br.follows_flush
  have hr (v : Word) := State.setsResults_setR (i := .brFlush) (n := 0) (by decide) (s.setReader s.dec.br.flush.2) v
  refine frame_command h ?_
  simp only []
  split
  · exact hf.setsResults (hr _)
  · exact hf.setsResults ⟨rfl, (hr _).kept⟩

theorem execBrOvf_frame (h : execBrOvf s = .next t) : CommandFrame .brOvf s t :=
  frame_command h ((CommandFrame.refl _ s).setsResults (State.setsResults_setR (by decide) _ _))

theorem execHufConfig_frame {c : BitVec 4} (h : execHufConfig c s = .next t) : CommandFrame (.hufConfig c) s t := by
  refine frame_command h (frame_withContext (i := .hufConfig c) fun k hk => ?_)
  split
  · exact (CommandFrame.refl _ s).raise .outOfMemory
  · split
    · exact (CommandFrame.refl _ s).raise .illegalCommand
    · next hn hm =>
      have hx := Context.configured_wf (s.dec.ctx k) s.free k.val (n := s.opA 0) (m := s.opA 1) (by omega) (by omega)
      have hr {x : Context} (hx : x.wf) : s.dec.Runs s.src (touchedContexts (.hufConfig c)) (s.dec.setCtx k x) := by
        rw [touchedContexts, hk]; exact s.dec.runs_setCtx s.src fun _ => hx
      exact (frame_dec (hr hx) rfl).setsResults ⟨rfl, fun _ _ => rfl⟩

theorem execHufImportFlat_frame {c : BitVec 4} (h : execHufImportFlat c s = .next t) :
    CommandFrame (.hufImportFlat c) s t := by
  refine frame_command h (frame_withContext (i := .hufImportFlat c) fun k hk => ?_)
  split
  · exact (CommandFrame.refl _ s).raise .illegalCommand
  · next h0 =>
    refine frame_runDecoder (i := .hufImportFlat c) ?_ (importFlat_imports s.src k s.dec).reader
      fun _ u => State.SetsResults.refl _ u
    rw [touchedContexts, hk]
    exact Decoder.runs_importFlat s.src h0

theorem execHufImportRle_frame {c : BitVec 4} (h : execHufImportRle c s = .next t) :
    CommandFrame (.hufImportRle c) s t := by
  refine frame_command h (frame_withContext (i := .hufImportRle c) fun k hk => ?_)
  have hk6 := ne_six_of_contextNumber hk
  split
  · exact (CommandFrame.refl _ s).raise .illegalCommand
  · next h0 =>
    refine frame_runDecoder (i := .hufImportRle c) ?_ (importRle_importsRle s.src hk6 s.dec).reader
      fun _ u => State.SetsResults.refl _ u
    rw [touchedContexts, hk]
    exact Decoder.runs_importRle s.src hk6 h0

theorem execHufDecode_frame {c : BitVec 4} (h : execHufDecode c s = .next t) : CommandFrame (.hufDecode c) s t := by
  refine frame_command h (frame_withContext (i := .hufDecode c) fun k _ => ?_)
  split
  · refine frame_runDecoder (i := .hufDecode c) (s.dec.runs_decodeOne s.src k) ?_
      fun _ u => State.setsResults_setR (by simp [resultsOf]) u _
    obtain ⟨b, hb, hd⟩ := decodeOne_follows s.src k s.dec
    rw [hd]
    exact hb
  · exact (CommandFrame.refl _ s).raise .illegalCommand

theorem execRleDecode_frame {c : BitVec 4} (h : execRleDecode c s = .next t) : CommandFrame (.rleDecode c) s t := by
  refine frame_command h (frame_withContext (i := .rleDecode c) fun k hk => ?_)
  split
  · refine frame_runDecoder (i := .rleDecode c) ?_ (rleDecodeOne_frame s.src k s.dec).1.reader
      fun _ u => State.setsResults_setR (by simp [resultsOf]) u _
    rw [touchedContexts, hk]
    exact s.dec.runs_rleDecodeOne s.src k
  · exact (CommandFrame.refl _ s).raise .illegalCommand

theorem execRleFlush_frame {c : BitVec 4} (h : execRleFlush c s = .next t) : CommandFrame (.rleFlush c) s t := by
  refine frame_command h (frame_withContext (i := .rleFlush c) fun k hk => frame_dec ?_ rfl)
  rw [touchedContexts, hk]
  exact s.dec.runs_clearRun s.src k

theorem execRleReset_frame {c : BitVec 4} (h : execRleReset c s = .next t) : CommandFrame (.rleReset c) s t := by
  refine frame_command h (frame_withContext (i := .rleReset c) fun k hk => frame_dec ?_ rfl)
  rw [touchedContexts, hk]
  exact s.dec.runs_setCtx s.src fun hx => Context.wf_replay hx 0 (by decide)

theorem execCdHdr_frame (h : execCdHdr s = .next t) : CommandFrame .cdHdr s t := by
  have hraise (k : ErrorKind) : CommandFrame .cdHdr s (raise k 0x40#8 s) := (CommandFrame.refl _ s).raise k
  refine frame_command h ?_
  simp only []
  split
  · exact hraise .readError
  · split
    · exact hraise .invalidData
    · split
      · exact hraise .invalidData
      · split
        · exact hraise .invalidData
        · exact (CommandFrame.refl _ s).setsResults ⟨rfl, fun j hj => absurd (by revert j; decide) hj⟩

theorem execCdAssemble_frame (h : execCdAssemble s = .next t) : CommandFrame .cdAssemble s t := by
  refine frame_command h ?_
  split
  · exact frame_dst (assembleLoop_writes s.src s.sec s.sub (s.opA 1) (s.opA 0) 0 s.dst)
  · exact (CommandFrame.refl .cdAssemble s).errorEntry .readError

theorem execCdSync_frame (h : execCdSync s = .next t) : CommandFrame .cdSync s t := by
  refine frame_command h ?_
  split
  · exact frame_dst (writeSync_writes (s.opA 0) s.dst)
  · exact (CommandFrame.refl .cdSync s).errorEntry .readError

theorem execCdEcc_frame (h : execCdEcc s = .next t) : CommandFrame .cdEcc s t := by
  refine frame_command h ?_
  split
  · exact frame_dst (eccGen_writes (s.opA 0) s.dst)
  · exact (CommandFrame.refl .cdEcc s).errorEntry .readError

theorem execAvhDecode_frame (h : execAvhDecode s = .next t) : CommandFrame .avhDecode s t :=
  frame_command h <| frame_runEngine (i := .avhDecode) (avhHunk_spec _ _ _ _ _ s.engine).1 trivial
    fun _ u => State.setsResults_setR (by decide) u _

theorem execAvhAudioTrees_frame (h : execAvhAudioTrees s = .next t) : CommandFrame .avhAudioTrees s t :=
  frame_command h <| frame_runDecoder (i := .avhAudioTrees) (Decoder.runs_audioTrees s.src _ _ s.dec).1 trivial
    fun _ u => State.SetsResults.refl _ u

theorem execAvhAudioChRaw_frame (h : execAvhAudioChRaw s = .next t) : CommandFrame .avhAudioChRaw s t :=
  frame_command h <| frame_runEngine (i := .avhAudioChRaw) (audioRaw_spec s.src _ _ _ _ s.engine)
    (congrArg Decoder.br (audioRaw_dec s.src _ _ _ _ s.engine)) fun _ u => State.SetsResults.refl _ u

theorem execAvhAudioChHuf_frame (h : execAvhAudioChHuf s = .next t) : CommandFrame .avhAudioChHuf s t :=
  frame_command h <| frame_runEngine (i := .avhAudioChHuf) (audioHuf_spec s.src _ _ _ _ s.engine) trivial
    fun _ u => State.SetsResults.refl _ u

theorem execAvhVideo_frame (h : execAvhVideo s = .next t) : CommandFrame .avhVideo s t :=
  frame_command h <| frame_runEngine (i := .avhVideo) (video_spec s.src _ _ _ _ _ s.engine).1 trivial
    fun _ u => State.setsResults_setR (by decide) u _

/-- Every command but BLK_RESET stays within its frame, whatever the state it is issued in. -/
theorem exec_frame {i : Instr} (hi : i ≠ .blkReset) (h : exec i s = .next t) : CommandFrame i s t := by
  cases i with
  | blkReset => exact absurd rfl hi
  | brInit => exact execBrInit_frame h
  | brPeek n => exact execBrPeek_frame h
  | brRead n => exact execBrRead_frame h
  | brFlush => exact execBrFlush_frame h
  | brOvf => exact execBrOvf_frame h
  | hufConfig c => exact execHufConfig_frame h
  | hufImportFlat c => exact execHufImportFlat_frame h
  | hufImportRle c => exact execHufImportRle_frame h
  | hufDecode c => exact execHufDecode_frame h
  | rleDecode c => exact execRleDecode_frame h
  | rleFlush c => exact execRleFlush_frame h
  | rleReset c => exact execRleReset_frame h
  | cdHdr => exact execCdHdr_frame h
  | cdAssemble => exact execCdAssemble_frame h
  | cdSync => exact execCdSync_frame h
  | cdEcc => exact execCdEcc_frame h
  | avhDecode => exact execAvhDecode_frame h
  | avhAudioTrees => exact execAvhAudioTrees_frame h
  | avhAudioChRaw => exact execAvhAudioChRaw_frame h
  | avhAudioChHuf => exact execAvhAudioChHuf_frame h
  | avhVideo => exact execAvhVideo_frame h

end

/-! ## A step takes the host's next action -/

section
variable {s : State} {rest : List HostAction}

theorem step_of_idle (h : s.host = []) : step s = .next s := by simp [step, poll, h]

theorem step_of_writeA {i : Fin 4} {v : Word} (h : s.host = .writeA i v :: rest) :
    step s = .next (({ s with host := rest } : State).setA i v) := by
  simp [step, poll, h]

theorem step_of_writeCW {w : Word} (h : s.host = .writeCW w :: rest) :
    step s = issue { s with host := rest, cw := w } := by
  simp [step, poll, h]

theorem step_of_writeByte {space : Space} {addr : Word} {b : Byte} (h : s.host = .writeByte space addr b :: rest) :
    step s = hostWrite { s with host := rest } space addr b := by
  simp [step, poll, h]

theorem step_of_powerOn (h : s.host = .powerOn :: rest) :
    step s = .next (powerOn { s with host := rest }) := by
  simp [step, poll, h]

end

/-! ## Well-formed machines -/

theorem statusWf_stWord (k : ErrorKind) (op : BitVec 8) : statusWf (stWord k op) := by
  obtain ⟨h1, h2⟩ := stWord_reserved k op
  refine ⟨h1, h2, ?_, fun h => absurd h ?_⟩
  · rw [stWord_err]; cases k <;> decide
  · rw [stWord_err]; exact code_ne_zero k

theorem statusWf_zero : statusWf 0 := by decide

theorem memoryWf_setByte {m : Memory} (h : memoryWf m) (a : Nat) (b : Byte) : memoryWf (m.setByte a b) := by
  obtain ⟨hw, hs⟩ := h
  exact ⟨Memory.wf_setByte hw a b, by rwa [Memory.size_setByte]⟩

theorem Memory.Writes.memoryWf {lo n : Nat} {m m' : Memory} (h : m.Writes lo n m') (hw : memoryWf m) : memoryWf m' := by
  obtain ⟨hc, hs⟩ := hw
  exact ⟨h.wf hc, by rwa [h.size]⟩

/-- A command that stays within its frame keeps the machine well-formed. -/
theorem CommandFrame.wf {i : Instr} {s t : State} (h : CommandFrame i s t) (hw : s.wf) : t.wf := by
  obtain ⟨hst, hbr, hctx, hsrc, hdst, hsec, hsub⟩ := hw
  have esrc : t.src = s.src := by rw [h.rest]
  have esec : t.sec = s.sec := by rw [h.rest]
  have esub : t.sub = s.sub := by rw [h.rest]
  obtain ⟨hbr', hctx'⟩ := h.runs.wf ⟨hbr, hctx⟩
  refine ⟨?_, by rw [esrc]; exact hbr', hctx', by rwa [esrc], h.dst.memoryWf hdst, by rwa [esec], by rwa [esub]⟩
  rcases h.status with e | ⟨k, e⟩
  · rwa [e]
  · rw [e]; exact statusWf_stWord k i.op

theorem BitReader.wf_reset (src : Memory) : BitReader.reset.wf src := ⟨rfl, Nat.zero_le _⟩

theorem Context.wf_reset : Context.reset.wf :=
  Context.wf_of_invalid (Nat.zero_le _) (Nat.zero_le _) (Nat.zero_le _) rfl

theorem Context.wf_cleared (k c : Nat) : (Context.cleared k c).wf :=
  Context.wf_of_invalid (Nat.zero_le _) (Nat.zero_le _) (Nat.zero_le _) rfl

theorem blockReset_wf {s : State} (hw : s.wf) : (blockReset s).wf := by
  obtain ⟨-, -, -, hmem⟩ := hw
  refine ⟨statusWf_zero, BitReader.wf_reset s.src, fun c => ?_, hmem⟩
  rw [blockReset_dec, ctx_clearedContexts]
  exact Context.wf_cleared _ _

theorem powerOn_wf {s : State} (hw : s.wf) : (powerOn s).wf := by
  obtain ⟨hst, hbr, hctx, hsrc, hdst, hsec, hsub⟩ := blockReset_wf hw
  exact ⟨hst, hbr, hctx, hsrc, (s.dst.writes_unspecify _ _ _).memoryWf hdst, hsec, hsub⟩

theorem exec_wf {i : Instr} {s t : State} (hw : s.wf) (h : exec i s = .next t) : t.wf := by
  by_cases hi : i = .blkReset
  · subst hi
    injection h with h
    subst h
    exact blockReset_wf hw
  · exact (exec_frame hi h).wf hw

/-- A word that is no command changes the status at most (30_encoding R74). -/
theorem rejectWord_wf {s t : State} (hw : s.wf) (h : rejectWord s = .next t) : t.wf := by
  rcases command_eq_next h with ⟨-, rfl⟩ | ⟨-, rfl⟩
  · exact hw
  · exact ⟨statusWf_stWord _ _, hw.2⟩

theorem issue_wf {s t : State} (hw : s.wf) (h : issue s = .next t) : t.wf := by
  unfold issue at h
  split at h
  · exact exec_wf hw h
  · exact rejectWord_wf hw h

/-- The host's bytes keep every memory canonical and of its size (20_memory R60). -/
theorem hostWrite_wf {s t : State} {space : Space} {addr : Word} {b : Byte} (hw : s.wf)
    (h : hostWrite s space addr b = .next t) : t.wf := by
  obtain ⟨hst, hbr, hctx, hsrc, hdst, hsec, hsub⟩ := hw
  unfold hostWrite at h
  split at h
  · injection h with h
    subst h
    cases space with
    | src =>
      refine ⟨hst, ?_, hctx, memoryWf_setByte hsrc _ _, hdst, hsec, hsub⟩
      obtain ⟨hovf, hfit⟩ := hbr
      exact ⟨hovf, Nat.le_trans hfit (Nat.le_of_eq (Memory.size_setByte s.src _ _).symm)⟩
    | dst => exact ⟨hst, hbr, hctx, hsrc, memoryWf_setByte hdst _ _, hsec, hsub⟩
    | sec => exact ⟨hst, hbr, hctx, hsrc, hdst, memoryWf_setByte hsec _ _, hsub⟩
    | sub => exact ⟨hst, hbr, hctx, hsrc, hdst, hsec, memoryWf_setByte hsub _ _⟩
  · cases h

theorem step_wf {s t : State} (hw : s.wf) (h : step s = .next t) : t.wf := by
  cases hh : s.host with
  | nil =>
    rw [step_of_idle hh] at h
    injection h with h
    subst h
    exact hw
  | cons action rest =>
    have hw' : ({ s with host := rest } : State).wf := hw
    cases action with
    | writeA i v =>
      rw [step_of_writeA hh] at h
      injection h with h
      subst h
      exact hw
    | writeCW w =>
      rw [step_of_writeCW hh] at h
      exact issue_wf (s := { s with host := rest, cw := w }) hw h
    | writeByte space addr b =>
      rw [step_of_writeByte hh] at h
      exact hostWrite_wf hw' h
    | powerOn =>
      rw [step_of_powerOn hh] at h
      injection h with h
      subst h
      exact powerOn_wf hw'

/-! ## The obligations -/

/-- Settles O13: the host's own actions touch nothing but memory bytes and operands, a command stays within its frame, and
a reset clears what it does not keep. -/
theorem stepKeepsWellFormed : Obligations.StepKeepsWellFormed := fun _ _ => step_wf

/-- Settles O18. -/
theorem resultsNotNamedAreKept : Obligations.ResultsNotNamedAreKept := by
  intro i s t j _ h hrun hj
  by_cases hi : i = .blkReset
  · subst hi
    exact absurd (by revert j; decide) hj
  · exact (exec_frame hi h).results hrun j hj

/-- Settles O19. -/
theorem contextsAndReaderNotNamedAreKept : Obligations.ContextsAndReaderNotNamedAreKept := by
  intro i s t h
  by_cases hi : i = .blkReset
  · subst hi
    exact ⟨fun c hc => absurd (by revert c; decide) hc, nofun, nofun⟩
  · have hf := exec_frame hi h
    have hb := hf.reader
    refine ⟨hf.runs.others, fun hu => ?_, fun hu => ?_⟩
    · rw [hu] at hb; exact hb
    · rw [hu] at hb; exact ⟨hb.base, hb.len, hb.pos, hb.ovf⟩

/-- Settles O11. -/
theorem resetStateHoldsTheResetValues : Obligations.ResetStateHoldsTheResetValues := by
  refine ⟨rfl, rfl, rfl, rfl, fun c => ?_⟩
  rw [show State.reset.dec.ctx c = Context.reset from ctx_reset c]
  exact ⟨rfl, rfl, rfl, rfl, rfl⟩

/-- Settles O12. -/
theorem resetIsWellFormed : Obligations.ResetIsWellFormed := by
  have hmem : memoryWf (Memory.blank Config.resetSpaceSize) := ⟨Memory.wf_blank _, Nat.le_refl _⟩
  refine ⟨statusWf_zero, BitReader.wf_reset _, fun c => ?_, hmem, hmem, hmem, hmem⟩
  rw [show State.reset.dec.ctx c = Context.reset from ctx_reset c]
  exact Context.wf_reset

end Sys2Proof.Machine
end

section
/-! PROOFS. The statement about memory: what no command writes. It is read off the frame of the commands (`exec_frame`) and,
for BLK_RESET, off what the reset keeps. -/

namespace Sys2Proof.Machine

/-- All of the state that no command writes, whatever its rule: the read-only spaces, `CW` and what belongs to
the host (20_memory R51, R57, R66). -/
structure State.KeepsSurroundings (s t : State) : Prop where
  src : t.src = s.src
  sec : t.sec = s.sec
  sub : t.sub = s.sub
  cw : t.cw = s.cw
  flac : t.flac = s.flac
  host : t.host = s.host

theorem CommandFrame.keepsSurroundings {i : Instr} {s t : State} (h : CommandFrame i s t) : s.KeepsSurroundings t := by
  constructor <;> rw [h.rest]

theorem CommandFrame.a {i : Instr} {s t : State} (h : CommandFrame i s t) : t.a = s.a := by rw [h.rest]

theorem blockReset_keepsSurroundings (s : State) : s.KeepsSurroundings (blockReset s) :=
  ⟨rfl, rfl, rfl, rfl, rfl, rfl⟩

theorem exec_blkReset_eq_next {s t : State} (h : exec .blkReset s = .next t) : t = blockReset s := by
  injection h with h
  exact h.symm

theorem exec_keepsSurroundings {i : Instr} {s t : State} (h : exec i s = .next t) : s.KeepsSurroundings t := by
  by_cases hi : i = .blkReset
  · subst hi
    rw [exec_blkReset_eq_next h]
    exact blockReset_keepsSurroundings s
  · exact (exec_frame hi h).keepsSurroundings

/-- Every command, the reset included, writes `DST` only inside the range of its rule (20_memory R66). -/
theorem exec_writes_dstRange {i : Instr} {s t : State} (h : exec i s = .next t) :
    s.dst.Writes (dstRange s i).1 (dstRange s i).2 t.dst := by
  by_cases hi : i = .blkReset
  · subst hi
    rw [exec_blkReset_eq_next h, blockReset_dst]
    exact Memory.Writes.refl _ _ _
  · exact (exec_frame hi h).dst

/-- Settles O17: a command stays within its frame, which leaves of the memories only the `DST` range of its rule open, and
BLK_RESET keeps every memory. -/
theorem commandsWriteOnlyTheirDstBytes : Obligations.CommandsWriteOnlyTheirDstBytes := by
  intro i s t h
  obtain ⟨hsrc, hsec, hsub, hcw, hflac, hhost⟩ := exec_keepsSurroundings h
  have hdst := exec_writes_dstRange h
  exact ⟨hsrc, hsec, hsub, hdst.size, hcw, hflac, hhost, fun hi => (exec_frame hi h).a, hdst.outside⟩

end Sys2Proof.Machine
end

section
/-! PROOFS. The statements about the command word (30_encoding R70 to R75, R31). The commands fall into the four operand
shapes of 30_encoding R72; `decode_eq_ok_iff` says once which words the decoder takes for a command, and the statements
read it off. -/

namespace Sys2Proof

open Machine

/-! ## The operand shapes of the commands (30_encoding R72) -/

/-- The commands that take neither context nor immediate. -/
def plainCommands : List Instr :=
  [.blkReset, .brInit, .brFlush, .brOvf, .cdHdr, .cdAssemble, .cdSync, .cdEcc, .avhDecode, .avhAudioTrees, .avhVideo]

/-- The commands that take a context. -/
def contextCommands : List (BitVec 4 → Instr) :=
  [.hufConfig, .hufImportFlat, .hufImportRle, .hufDecode, .rleDecode, .rleFlush, .rleReset]

/-- The commands that take a bit count. -/
def bitCountCommands : List (BitVec 6 → Instr) := [.brPeek, .brRead]

/-- A command by its operand shape; the two forms of AVH_AUDIO_CH share one operation code (30_encoding R71). -/
inductive Instr.Shape : Instr → Prop
  | plain {i : Instr} (h : i ∈ plainCommands) : Shape i
  | context {mk : BitVec 4 → Instr} (h : mk ∈ contextCommands) (c : BitVec 4) : Shape (mk c)
  | bitCount {mk : BitVec 6 → Instr} (h : mk ∈ bitCountCommands) (n : BitVec 6) : Shape (mk n)
  | audioRaw : Shape .avhAudioChRaw
  | audioHuf : Shape .avhAudioChHuf

theorem Instr.shape (i : Instr) : i.Shape := by
  cases i with
  | brPeek n => exact .bitCount (by simp [bitCountCommands]) n
  | brRead n => exact .bitCount (by simp [bitCountCommands]) n
  | hufConfig c => exact .context (by simp [contextCommands]) c
  | hufImportFlat c => exact .context (by simp [contextCommands]) c
  | hufImportRle c => exact .context (by simp [contextCommands]) c
  | hufDecode c => exact .context (by simp [contextCommands]) c
  | rleDecode c => exact .context (by simp [contextCommands]) c
  | rleFlush c => exact .context (by simp [contextCommands]) c
  | rleReset c => exact .context (by simp [contextCommands]) c
  | avhAudioChRaw => exact .audioRaw
  | avhAudioChHuf => exact .audioHuf
  | _ => exact .plain (by decide)

/-- What 30_encoding R72 says of a command with neither operand. -/
structure Instr.TakesNothing (i : Instr) : Prop where
  ctx : i.ctx = 0
  imm : i.imm = 0
  wf : i.wellFormed = true
  not_context : i.op ∉ contextOps
  not_imm : i.op ∉ [0x11, 0x12, 0x52]
  not_peek_read : i.op ∉ [0x11, 0x12]
  not_audio : i.op ≠ 0x52

/-- What 30_encoding R72 says of a command with a context. -/
structure TakesContext (mk : BitVec 4 → Instr) : Prop where
  ctx : ∀ c, (mk c).ctx = c
  imm : ∀ c, (mk c).imm = 0
  wf : ∀ c, (mk c).wellFormed = legalContext c
  op : ∀ c, (mk c).op = (mk 0).op
  mem_contextOps : (mk 0).op ∈ contextOps
  not_imm : (mk 0).op ∉ [0x11, 0x12, 0x52]
  not_peek_read : (mk 0).op ∉ [0x11, 0x12]
  not_audio : (mk 0).op ≠ 0x52

/-- What 30_encoding R72 says of a command with a bit count. -/
structure TakesBitCount (mk : BitVec 6 → Instr) : Prop where
  ctx : ∀ n, (mk n).ctx = 0
  imm : ∀ n, (mk n).imm = n
  wf : ∀ n, (mk n).wellFormed = legalBitCount n
  op : ∀ n, (mk n).op = (mk 0).op
  mem_peek_read : (mk 0).op ∈ [0x11, 0x12]

theorem takesNothing_of_mem {i : Instr} (hi : i ∈ plainCommands) : i.TakesNothing := by
  fin_cases hi <;> exact ⟨rfl, rfl, rfl, by decide, by decide, by decide, by decide⟩

theorem takesContext_of_mem {mk : BitVec 4 → Instr} (hm : mk ∈ contextCommands) : TakesContext mk := by
  fin_cases hm <;> exact ⟨fun _ => rfl, fun _ => rfl, fun _ => rfl, fun _ => rfl, by decide, by decide, by decide,
    by decide⟩

theorem takesBitCount_of_mem {mk : BitVec 6 → Instr} (hm : mk ∈ bitCountCommands) : TakesBitCount mk := by
  fin_cases hm <;> exact ⟨fun _ => rfl, fun _ => rfl, fun _ => rfl, fun _ => rfl, by decide⟩

theorem Instr.op_mem_assignedOps (i : Instr) : i.op ∈ assignedOps := by
  cases i <;> simp [Instr.op, assignedOps]

/-- Every assigned operation code is the code of a command. -/
theorem exists_op_eq {op : BitVec 8} (h : op ∈ assignedOps) : ∃ i : Instr, i.op = op := by
  revert op
  simp only [assignedOps, List.forall_mem_cons]
  exact ⟨⟨.blkReset, rfl⟩, ⟨.brInit, rfl⟩, ⟨.brPeek 0, rfl⟩, ⟨.brRead 0, rfl⟩, ⟨.brFlush, rfl⟩, ⟨.brOvf, rfl⟩,
    ⟨.hufConfig 0, rfl⟩, ⟨.hufImportFlat 0, rfl⟩, ⟨.hufImportRle 0, rfl⟩, ⟨.hufDecode 0, rfl⟩, ⟨.rleDecode 0, rfl⟩,
    ⟨.rleFlush 0, rfl⟩, ⟨.rleReset 0, rfl⟩, ⟨.cdHdr, rfl⟩, ⟨.cdAssemble, rfl⟩, ⟨.cdSync, rfl⟩, ⟨.cdEcc, rfl⟩,
    ⟨.avhDecode, rfl⟩, ⟨.avhAudioTrees, rfl⟩, ⟨.avhAudioChRaw, rfl⟩, ⟨.avhVideo, rfl⟩, by simp⟩

/-! ## What the decoder does for each operation code -/

section
variable {w : Word}

theorem decode_of_plain {i : Instr} (hi : i ∈ plainCommands) (h : opField w = i.op) : decode w = decodePlain w i := by
  unfold decode
  rw [h]
  fin_cases hi <;> rfl

theorem decode_of_context {mk : BitVec 4 → Instr} (hm : mk ∈ contextCommands) (h : opField w = (mk 0).op) :
    decode w = decodeContext w mk := by
  unfold decode
  rw [h]
  fin_cases hm <;> rfl

theorem decode_of_bitCount {mk : BitVec 6 → Instr} (hm : mk ∈ bitCountCommands) (h : opField w = (mk 0).op) :
    decode w = decodeBitCount w mk := by
  unfold decode
  rw [h]
  fin_cases hm <;> rfl

theorem decode_of_audioChannel (h : opField w = 0x52#8) : decode w = decodeAudioChannel w := by
  unfold decode
  rw [h]
  rfl

theorem decode_of_unassigned (h : opField w ∉ assignedOps) : decode w = .error .unassignedOp := by
  have key : ∀ n, (BitVec.ofNat 8 n) ∈ assignedOps → (opField w).toNat ≠ n := by
    rintro n hn rfl
    exact h (by simpa using hn)
  unfold decode
  split
  on_goal 22 => rfl
  all_goals
    rename_i e
    exact absurd e (key _ (by decide))

/-! ## What the decoder checks -/

theorem decodePlain_eq_ok_iff {i j : Instr} :
    decodePlain w i = .ok j ↔ rsvField w = 0 ∧ ctxField w = 0 ∧ immField w = 0 ∧ i = j := by
  unfold decodePlain
  split_ifs <;> simp_all

theorem decodeContext_eq_ok_iff {mk : BitVec 4 → Instr} {j : Instr} :
    decodeContext w mk = .ok j ↔
      rsvField w = 0 ∧ legalContext (ctxField w) = true ∧ immField w = 0 ∧ mk (ctxField w) = j := by
  unfold decodeContext
  split_ifs <;> simp_all

theorem decodeBitCount_eq_ok_iff {mk : BitVec 6 → Instr} {j : Instr} :
    decodeBitCount w mk = .ok j ↔
      rsvField w = 0 ∧ ctxField w = 0 ∧ legalBitCount (immField w) = true ∧ mk (immField w) = j := by
  unfold decodeBitCount
  split_ifs <;> simp_all

theorem decodeAudioChannel_eq_ok_iff {j : Instr} :
    decodeAudioChannel w = .ok j ↔ rsvField w = 0 ∧ ctxField w = 0 ∧
      (immField w = 0 ∧ .avhAudioChRaw = j ∨ immField w = 1 ∧ .avhAudioChHuf = j) := by
  unfold decodeAudioChannel
  split_ifs <;> simp_all

end

/-! ## The words of a command -/

/-- `w` is the word of the legal command `i`: each field of 30_encoding R70 holds what `i` puts there. -/
structure IsWordOf (w : Word) (i : Instr) : Prop where
  wf : i.wellFormed = true
  op : opField w = i.op
  ctx : ctxField w = i.ctx
  rsv : rsvField w = 0
  imm : immField w = i.imm

/-- The decoder takes for a command exactly the words of that command. -/
theorem decode_eq_ok_iff {w : Word} {i : Instr} : decode w = .ok i ↔ IsWordOf w i := by
  constructor
  · intro h
    have ha : opField w ∈ assignedOps := by
      by_contra ha
      rw [decode_of_unassigned ha] at h
      cases h
    obtain ⟨j, hj⟩ := exists_op_eq ha
    cases j.shape with
    | plain hp =>
      rw [decode_of_plain hp hj.symm] at h
      obtain ⟨hr, hc, hi, rfl⟩ := decodePlain_eq_ok_iff.1 h
      have f := takesNothing_of_mem hp
      exact ⟨f.wf, hj.symm, hc.trans f.ctx.symm, hr, hi.trans f.imm.symm⟩
    | context hm c =>
      have f := takesContext_of_mem hm
      rw [f.op] at hj
      rw [decode_of_context hm hj.symm] at h
      obtain ⟨hr, hc, hi, rfl⟩ := decodeContext_eq_ok_iff.1 h
      exact ⟨(f.wf _).trans hc, by rw [f.op, hj], (f.ctx _).symm, hr, hi.trans (f.imm _).symm⟩
    | bitCount hm n =>
      have f := takesBitCount_of_mem hm
      rw [f.op] at hj
      rw [decode_of_bitCount hm hj.symm] at h
      obtain ⟨hr, hc, hi, rfl⟩ := decodeBitCount_eq_ok_iff.1 h
      exact ⟨(f.wf _).trans hi, by rw [f.op, hj], hc.trans (f.ctx _).symm, hr, (f.imm _).symm⟩
    | audioRaw | audioHuf =>
      rw [decode_of_audioChannel hj.symm] at h
      obtain ⟨hr, hc, ⟨hi, rfl⟩ | ⟨hi, rfl⟩⟩ := decodeAudioChannel_eq_ok_iff.1 h <;>
        exact ⟨rfl, hj.symm, hc, hr, hi⟩
  · rintro ⟨hw, ho, hc, hr, hi⟩
    cases i.shape with
    | plain hp =>
      have f := takesNothing_of_mem hp
      rw [decode_of_plain hp ho]
      exact decodePlain_eq_ok_iff.2 ⟨hr, hc.trans f.ctx, hi.trans f.imm, rfl⟩
    | context hm c =>
      have f := takesContext_of_mem hm
      rw [f.ctx] at hc
      rw [decode_of_context hm (ho.trans (f.op c))]
      exact decodeContext_eq_ok_iff.2 ⟨hr, by rw [hc, ← f.wf, hw], hi.trans (f.imm c), by rw [hc]⟩
    | bitCount hm n =>
      have f := takesBitCount_of_mem hm
      rw [f.imm] at hi
      rw [decode_of_bitCount hm (ho.trans (f.op n))]
      exact decodeBitCount_eq_ok_iff.2 ⟨hr, hc.trans (f.ctx n), by rw [hi, ← f.wf, hw], by rw [hi]⟩
    | audioRaw =>
      rw [decode_of_audioChannel ho]
      exact decodeAudioChannel_eq_ok_iff.2 ⟨hr, hc, .inl ⟨hi, rfl⟩⟩
    | audioHuf =>
      rw [decode_of_audioChannel ho]
      exact decodeAudioChannel_eq_ok_iff.2 ⟨hr, hc, .inr ⟨hi, rfl⟩⟩

/-- The encoder puts every operand whole into its field (30_encoding R70). -/
theorem encode_fields (i : Instr) : Laws.EncodesOp.Statement i := by
  cases i with
  | blkReset => exact Laws.EncodesOp.blkReset
  | brInit => exact Laws.EncodesOp.brInit
  | brPeek n => exact Laws.EncodesOp.brPeek n
  | brRead n => exact Laws.EncodesOp.brRead n
  | brFlush => exact Laws.EncodesOp.brFlush
  | brOvf => exact Laws.EncodesOp.brOvf
  | hufConfig c => exact Laws.EncodesOp.hufConfig c
  | hufImportFlat c => exact Laws.EncodesOp.hufImportFlat c
  | hufImportRle c => exact Laws.EncodesOp.hufImportRle c
  | hufDecode c => exact Laws.EncodesOp.hufDecode c
  | rleDecode c => exact Laws.EncodesOp.rleDecode c
  | rleFlush c => exact Laws.EncodesOp.rleFlush c
  | rleReset c => exact Laws.EncodesOp.rleReset c
  | cdHdr => exact Laws.EncodesOp.cdHdr
  | cdAssemble => exact Laws.EncodesOp.cdAssemble
  | cdSync => exact Laws.EncodesOp.cdSync
  | cdEcc => exact Laws.EncodesOp.cdEcc
  | avhDecode => exact Laws.EncodesOp.avhDecode
  | avhAudioTrees => exact Laws.EncodesOp.avhAudioTrees
  | avhAudioChRaw => exact Laws.EncodesOp.avhAudioChRaw
  | avhAudioChHuf => exact Laws.EncodesOp.avhAudioChHuf
  | avhVideo => exact Laws.EncodesOp.avhVideo

/-- A word is its four fields side by side (30_encoding R70). -/
theorem fields_append (w : Word) : opField w ++ ctxField w ++ rsvField w ++ immField w = w := by
  unfold opField ctxField rsvField immField
  rw [BitVec.extractLsb'_append_extractLsb'_eq_extractLsb' (show 24 = 20 + 4 from rfl),
    BitVec.extractLsb'_append_extractLsb'_eq_extractLsb' (show 20 = 6 + 14 from rfl),
    BitVec.extractLsb'_append_extractLsb'_eq_extractLsb' (show 6 = 0 + 6 from rfl)]
  exact BitVec.extractLsb'_eq_self

theorem isWordOf_encode {i : Instr} (h : i.wellFormed = true) : IsWordOf (encode i) i := by
  obtain ⟨ho, hc, hr, hi⟩ := encode_fields i
  exact ⟨h, ho, hc, hr, hi⟩

theorem IsWordOf.encode_eq {w : Word} {i : Instr} (h : IsWordOf w i) : encode i = w := by
  rw [encode, ← h.op, ← h.ctx, ← h.imm, show 0#14 = rsvField w from h.rsv.symm, fields_append]

theorem decode_encode {i : Instr} (h : i.wellFormed = true) : decode (encode i) = .ok i :=
  decode_eq_ok_iff.2 (isWordOf_encode h)

theorem decode_of_encode_eq {w : Word} {i : Instr} (hw : encode i = w) (h : i.wellFormed = true) : decode w = .ok i :=
  hw ▸ decode_encode h

/-! ## The rule on illegal words, by operand shape (30_encoding R74) -/

section
variable {w : Word}

theorem legalContext_iff (c : BitVec 4) : legalContext c = true ↔ ¬ 6 ≤ c.toNat := by
  rw [legalContext, decide_eq_true_eq, Config.nctx, Nat.not_le]

theorem legalBitCount_iff (n : BitVec 6) : legalBitCount n = true ↔ ¬ 32 < n.toNat := by
  rw [legalBitCount, decide_eq_true_eq, Config.nbitsMax, Nat.not_lt]

theorem not_illegalByRule_plain_iff {i : Instr} (f : i.TakesNothing) (h : opField w = i.op) :
    ¬ illegalByRule w ↔ rsvField w = 0 ∧ ctxField w = 0 ∧ immField w = 0 := by
  have ha := i.op_mem_assignedOps
  simp only [illegalByRule, h, ha, f.not_context, f.not_imm, f.not_peek_read, f.not_audio]
  tauto

theorem not_illegalByRule_context_iff {mk : BitVec 4 → Instr} (f : TakesContext mk) (h : opField w = (mk 0).op) :
    ¬ illegalByRule w ↔ rsvField w = 0 ∧ legalContext (ctxField w) = true ∧ immField w = 0 := by
  have ha := (mk 0).op_mem_assignedOps
  simp only [illegalByRule, h, ha, f.mem_contextOps, f.not_imm, f.not_peek_read, f.not_audio, legalContext_iff]
  tauto

theorem not_illegalByRule_bitCount_iff (h : opField w ∈ [0x11, 0x12]) :
    ¬ illegalByRule w ↔ rsvField w = 0 ∧ ctxField w = 0 ∧ legalBitCount (immField w) = true := by
  have ho : opField w ∈ assignedOps ∧ opField w ∉ contextOps ∧ opField w ∈ [0x11, 0x12, 0x52] ∧ opField w ≠ 0x52 := by
    revert h; generalize opField w = op; revert op; decide
  simp only [illegalByRule, h, ho, legalBitCount_iff]
  tauto

theorem not_illegalByRule_audioChannel_iff (h : opField w = 0x52) :
    ¬ illegalByRule w ↔ rsvField w = 0 ∧ ctxField w = 0 ∧ (immField w = 0 ∨ immField w = 1) := by
  have hm : (immField w).toNat ≤ 1 ↔ immField w = 0 ∨ immField w = 1 := by
    generalize immField w = n; revert n; decide
  rw [← hm]
  simp [illegalByRule, h, contextOps, assignedOps]

end

/-- 30_encoding R74: a word is a command's exactly when no clause of the list holds. -/
theorem exists_decode_ok_iff (w : Word) : (∃ i, decode w = .ok i) ↔ ¬ illegalByRule w := by
  by_cases ha : opField w ∈ assignedOps
  · obtain ⟨j, hj⟩ := exists_op_eq ha
    cases j.shape with
    | plain hp =>
      rw [decode_of_plain hp hj.symm, not_illegalByRule_plain_iff (takesNothing_of_mem hp) hj.symm]
      simp [decodePlain_eq_ok_iff]
    | context hm c =>
      have f := takesContext_of_mem hm
      rw [f.op] at hj
      rw [decode_of_context hm hj.symm, not_illegalByRule_context_iff f hj.symm]
      simp [decodeContext_eq_ok_iff]
    | bitCount hm n =>
      have f := takesBitCount_of_mem hm
      rw [f.op] at hj
      rw [decode_of_bitCount hm hj.symm, not_illegalByRule_bitCount_iff (hj ▸ f.mem_peek_read)]
      simp [decodeBitCount_eq_ok_iff]
    | audioRaw | audioHuf =>
      rw [decode_of_audioChannel hj.symm, not_illegalByRule_audioChannel_iff hj.symm]
      simp [decodeAudioChannel_eq_ok_iff, exists_or]
  · rw [decode_of_unassigned ha]
    exact ⟨fun ⟨_, h⟩ => (nomatch h), fun h => absurd (.inl ha) h⟩

theorem exists_decode_error_iff (w : Word) : (∃ e, decode w = .error e) ↔ illegalByRule w := by
  rw [← not_iff_not, ← exists_decode_ok_iff]
  cases decode w <;> simp

end Sys2Proof

namespace Sys2Proof.Machine

/-! ## Illegal words and out-of-range commands in the machine -/

/-- A running machine answers a word that is no command with `IllegalCommand` and no other change. -/
theorem step_hostIssues_of_illegal {s : State} {w : Word} (hs : s.running) (h : illegalByRule w) :
    step (s.hostIssues w) = .next { s with cw := w, st := stWord .illegalCommand (opField w) } := by
  obtain ⟨e, he⟩ := (exists_decode_error_iff w).2 h
  rw [step_of_writeCW (State.hostIssues_host s w)]
  simp only [issue, he, rejectWord]
  exact command_of_running (s := { s with cw := w }) hs _

/-- Every command with a context checks it before its effect. -/
theorem exec_eq_withContext {mk : BitVec 4 → Instr} (hm : mk ∈ contextCommands) : ∃ effect : State → Fin 7 → State,
    ∀ c s, exec (mk c) s = command s fun s => withContext (mk c).op c s (effect s) := by
  fin_cases hm <;> exact ⟨_, fun _ _ => rfl⟩

/-- Every command with a bit count checks it before its effect. -/
theorem exec_eq_withBitCount {mk : BitVec 6 → Instr} (hm : mk ∈ bitCountCommands) : ∃ effect : State → Nat → State,
    ∀ n s, exec (mk n) s = command s fun s => withBitCount (mk n).op n s (effect s) := by
  fin_cases hm <;> exact ⟨_, fun _ _ => rfl⟩

theorem exec_of_not_wellFormed {i : Instr} {s : State} (hi : i.wellFormed = false) (hs : s.running) :
    exec i s = .next (illegalWord i.op s) := by
  cases i.shape with
  | plain hp => simp [(takesNothing_of_mem hp).wf] at hi
  | context hm c =>
    obtain ⟨effect, he⟩ := exec_eq_withContext hm
    rw [(takesContext_of_mem hm).wf] at hi
    rw [he, command_of_running hs, withContext_of_illegal _ hi]
  | bitCount hm n =>
    obtain ⟨effect, he⟩ := exec_eq_withBitCount hm
    rw [(takesBitCount_of_mem hm).wf] at hi
    rw [he, command_of_running hs, withBitCount_of_illegal _ hi]
  | audioRaw | audioHuf => cases hi

/-! ## The obligations -/

/-- Settles O1: the word of a legal command holds that command's fields (`encode_fields`), and the decoder takes such a
word for that command. -/
theorem decodeOfEncode : Obligations.DecodeOfEncode := fun _ => decode_encode

/-- Settles O2: a decoded word holds the fields of its command, and a word is its four fields. -/
theorem decodedWordIsTheEncodedOne : Obligations.DecodedWordIsTheEncodedOne := by
  intro w i h
  have hw := decode_eq_ok_iff.1 h
  exact ⟨hw.wf, hw.encode_eq⟩

/-- Settles O3: the decoder's checks are R74's clauses, operand shape by operand shape, and a rejected word writes `ST`
alone. -/
theorem illegalWordsRaiseIllegalCommand : Obligations.IllegalWordsRaiseIllegalCommand :=
  ⟨exists_decode_error_iff, fun _ _ => step_hostIssues_of_illegal⟩

/-- Settles O4: each of the words is the encoder's word of a legal command. -/
theorem specWordsDecode : Obligations.SpecWordsDecode :=
  ⟨decode_of_encode_eq rfl rfl, decode_of_encode_eq rfl rfl, decode_of_encode_eq rfl rfl, decode_of_encode_eq rfl rfl,
    decode_of_encode_eq rfl rfl, decode_of_encode_eq rfl rfl, decode_of_encode_eq rfl rfl, decode_of_encode_eq rfl rfl,
    decode_of_encode_eq rfl rfl, decode_of_encode_eq rfl rfl⟩

/-- Settles O6: an ill-formed command has a context or a bit count out of range, and both are checked first. -/
theorem outOfRangeCommandsRaiseIllegalCommand : Obligations.OutOfRangeCommandsRaiseIllegalCommand :=
  fun _ _ => exec_of_not_wellFormed

end Sys2Proof.Machine
end

section
/-! PROOFS. The statement about valid tables (30_encoding R83): the canonical code takes the used symbols in the order of
(length, symbol), starts at 0, and goes on by one, shifted where the length grows. -/

namespace Sys2Proof.Machine

/-! ## Counting the symbols of one length -/

/-- Symbols of another length do not count. -/
theorem count_take_of_absent {ls : List Nat} {l a b : Nat} (hab : a ≤ b)
    (h : ∀ w, a ≤ w → w < b → w < ls.length → ls.getD w 0 ≠ l) : (ls.take b).count l = (ls.take a).count l := by
  induction b, hab using Nat.le_induction with
  | base => rfl
  | succ b hab ih =>
    have ih' := ih fun w h1 h2 => h w h1 (by omega)
    by_cases hb : b < ls.length
    · have hne : ls[b] ≠ l := by simpa [List.getD, hb] using h b hab (by omega) hb
      rw [List.take_succ_eq_append_getElem hb, List.count_append, List.count_singleton, ih']
      simp [hne]
    · rw [List.take_of_length_le (by omega), ← ih', List.take_of_length_le (by omega)]

theorem count_eq_count_take {ls : List Nat} {l a : Nat}
    (h : ∀ w, a ≤ w → w < ls.length → ls.getD w 0 ≠ l) : ls.count l = (ls.take a).count l := by
  rcases Nat.le_total a ls.length with ha | ha
  · rw [← count_take_of_absent ha fun w h1 h2 _ => h w h1 h2, List.take_length]
  · rw [List.take_of_length_le ha]

theorem count_eq_zero_of_absent {ls : List Nat} {l : Nat} (h : ∀ w < ls.length, ls.getD w 0 ≠ l) : ls.count l = 0 := by
  rw [count_eq_count_take (a := 0) fun w _ => h w, List.take_zero, List.count_nil]

theorem count_take_succ_self {ls : List Nat} {s : Nat} (hs : s < ls.length) :
    (ls.take (s + 1)).count (ls.getD s 0) = (ls.take s).count (ls.getD s 0) + 1 := by
  have hg : ls.getD s 0 = ls[s] := by simp [List.getD, hs]
  rw [hg, List.take_succ_eq_append_getElem hs, List.count_append, List.count_singleton_self]

/-! ## The numbers `first[l]` over lengths that no symbol has -/

theorem firstCode_eq_zero {ls : List Nat} {l : Nat} (h : ∀ m, 0 < m → m < l → ls.count m = 0) : firstCode ls l = 0 := by
  induction l with
  | zero => rfl
  | succ l ih =>
    cases l with
    | zero => rfl
    | succ l =>
      rw [firstCode, ih fun m h1 h2 => h m h1 (by omega), h (l + 1) (by omega) (by omega)]

theorem firstCode_of_gap {ls : List Nat} {l d : Nat} (hl : 0 < l) (h : ∀ m, l < m → m < l + (d + 1) → ls.count m = 0) :
    firstCode ls (l + (d + 1)) = (firstCode ls l + ls.count l) * 2 ^ (d + 1) := by
  have hstep : ∀ n, 0 < n → firstCode ls (n + 1) = 2 * (firstCode ls n + ls.count n) := by
    rintro (_ | n) hn
    · omega
    · rfl
  induction d with
  | zero => rw [hstep l hl]; ring
  | succ d ih =>
    have hnone : ls.count (l + (d + 1)) = 0 := h _ (by omega) (by omega)
    rw [← Nat.add_assoc, hstep _ (by omega), ih fun m h1 h2 => h m h1 (by omega), hnone]
    ring

/-! ## The canonical code in the order of (length, symbol) -/

/-- Symbol `s` comes before symbol `t` in the order in which 30_encoding R83 gives out the words. -/
def CodesBefore (ls : List Nat) (s t : Nat) : Prop :=
  ls.getD s 0 < ls.getD t 0 ∨ (ls.getD s 0 = ls.getD t 0 ∧ s < t)

/-- The first used symbol has word 0. -/
theorem canonicalCode_first {ls : List Nat} {u : Nat}
    (h : ∀ w < ls.length, ls.getD w 0 ≠ 0 → ¬ CodesBefore ls w u) (hu0 : ls.getD u 0 ≠ 0) :
    canonicalCode ls u = 0 := by
  have hfirst : firstCode ls (ls.getD u 0) = 0 :=
    firstCode_eq_zero fun m h0 hm => count_eq_zero_of_absent fun w hw e => h w hw (by omega) (.inl (by omega))
  have hrank : (ls.take u).count (ls.getD u 0) = 0 := by
    rw [count_take_of_absent (Nat.zero_le u) fun w _ hw hl e => h w hl (by omega) (.inr ⟨e, hw⟩), List.take_zero,
      List.count_nil]
  rw [canonicalCode, hfirst, hrank]

/-- With no used symbol between `u` and `v`, the word of `v` is the word of `u` plus one, shifted by the difference of the
lengths. -/
theorem canonicalCode_next {ls : List Nat} {u v : Nat} (hu : u < ls.length) (hu0 : ls.getD u 0 ≠ 0)
    (huv : CodesBefore ls u v)
    (h : ∀ w < ls.length, ls.getD w 0 ≠ 0 → ¬ (CodesBefore ls u w ∧ CodesBefore ls w v)) :
    canonicalCode ls v = (canonicalCode ls u + 1) <<< (ls.getD v 0 - ls.getD u 0) := by
  unfold CodesBefore at huv h
  rcases huv with hlt | ⟨heq, hlt⟩
  · obtain ⟨d, hd⟩ : ∃ d, ls.getD v 0 = ls.getD u 0 + (d + 1) := ⟨ls.getD v 0 - ls.getD u 0 - 1, by omega⟩
    have hgap : firstCode ls (ls.getD v 0) = (firstCode ls (ls.getD u 0) + ls.count (ls.getD u 0)) * 2 ^ (d + 1) := by
      rw [hd]
      exact firstCode_of_gap (by omega) fun m h1 h2 => count_eq_zero_of_absent fun w hw e => h w hw (by omega) (by omega)
    have hlast : ls.count (ls.getD u 0) = (ls.take u).count (ls.getD u 0) + 1 := by
      rw [← count_take_succ_self hu]
      exact count_eq_count_take fun w h1 hw e => h w hw (by omega) (by omega)
    have hrank : (ls.take v).count (ls.getD v 0) = 0 := by
      rw [count_take_of_absent (Nat.zero_le v) fun w _ hwv hw e => h w hw (by omega) (by omega), List.take_zero,
        List.count_nil]
    have hshift : ls.getD v 0 - ls.getD u 0 = d + 1 := by omega
    rw [canonicalCode, canonicalCode, hgap, hlast, hrank, hshift, Nat.shiftLeft_eq, Nat.add_zero, Nat.add_assoc]
  · have hrank : (ls.take v).count (ls.getD u 0) = (ls.take u).count (ls.getD u 0) + 1 := by
      rw [← count_take_succ_self hu]
      exact count_take_of_absent hlt fun w h1 hwv hw e => h w hw (by omega) (by omega)
    rw [canonicalCode, canonicalCode, ← heq, hrank, Nat.sub_self, Nat.shiftLeft_zero, Nat.add_assoc]

/-! ## The obligation -/

/-- Settles O30: the words of a valid table are the canonical code of its lengths, which has the four properties. -/
theorem validTablesAreCanonical : Obligations.ValidTablesAreCanonical := by
  intro x hw hv u v hu hvn hu0 hv0
  obtain ⟨hn, -, -, hvalid⟩ := hw
  obtain ⟨-, hlens, hcode⟩ := hvalid hv
  have hlen := x.length_lens hn
  have hget : ∀ {s}, s < x.numcodes.toNat → x.lens.getD s 0 = x.lenAt s := x.getD_lens
  have hbefore : ∀ {s t}, s < x.numcodes.toNat → t < x.numcodes.toNat →
      (CodesBefore x.lens s t ↔ x.lenAt s < x.lenAt t ∨ (x.lenAt s = x.lenAt t ∧ s < t)) := by
    intro s t hs ht
    rw [CodesBefore, hget hs, hget ht]
  rw [hcode u hu hu0, hcode v hvn hv0]
  simp only [← hlen] at hu hvn hget hbefore ⊢
  rw [← hget hu] at hu0
  rw [← hget hvn] at hv0
  refine ⟨?_, fun hne hle => ?_, fun h => ?_, fun huv h => ?_⟩
  · rw [← hget hu]
    exact canonicalCode_lt hlens hu hu0
  · rw [← hget hu, ← hget hvn] at hle ⊢
    exact canonicalCode_prefixFree hu hvn hne hu0 hle
  · refine canonicalCode_first (fun w hw hw0 hwu => ?_) hu0
    rw [hbefore hw hu] at hwu
    rw [hget hw] at hw0
    have := h w hw hw0
    omega
  · rw [← hget hu, ← hget hvn]
    refine canonicalCode_next hu hu0 ((hbefore hu hvn).2 huv) fun w hw hw0 hbet => ?_
    rw [hbefore hu hw, hbefore hw hvn] at hbet
    rw [hget hw] at hw0
    have := h w hw hw0
    omega

end Sys2Proof.Machine
end

section
/-! PROOFS. The statement about escapes of the RLE-output decoder (42_huffman_rle R151, R156; 30_encoding R90): one code
word starts a run, and the rest of the run replays the predictor. -/

namespace Sys2Proof.Machine

/-! ## One RLE_DECODE -/

/-- The run of context `k` set to `r`, everything else kept (42_huffman_rle R151). -/
def Decoder.setRun (d : Decoder) (k : Fin 7) (r : BitVec 12) : Decoder := d.setCtx k { d.ctx k with run := r }

@[simp] theorem Decoder.ctx_setRun_self (d : Decoder) (k : Fin 7) (r : BitVec 12) :
    (d.setRun k r).ctx k = { d.ctx k with run := r } := by
  simp [Decoder.setRun]

@[simp] theorem Decoder.setRun_setRun (d : Decoder) (k : Fin 7) (r r' : BitVec 12) :
    (d.setRun k r).setRun k r' = d.setRun k r' := by
  simp [Decoder.setRun]

theorem Decoder.setRun_eq_self {d : Decoder} {k : Fin 7} {r : BitVec 12} (h : (d.ctx k).run = r) : d.setRun k r = d := by
  subst h
  exact d.setCtx_ctx k

/-- The machine after an RLE_DECODE that answered byte `v` and left the decoder `d` (42_huffman_rle R152). -/
def State.afterByte (s : State) (d : Decoder) (v : Byte) : State := ({ s with dec := d } : State).setR 0 (v.setWidth 32)

@[simp] theorem State.afterByte_dec (s : State) (d : Decoder) (v : Byte) : (s.afterByte d v).dec = d := rfl

@[simp] theorem State.afterByte_result (s : State) (d : Decoder) (v : Byte) :
    (s.afterByte d v).r[0] = v.setWidth 32 := by
  simp [State.afterByte]

theorem exec_rleDecode_of_ok {s : State} {k : Fin 7} {v : Byte} {d : Decoder} (hs : s.running) (hk : k.val < 6)
    (hv : (s.dec.ctx k).valid = true) (h : rleDecodeOne s.src k s.dec = .ok v d) :
    exec (.rleDecode (BitVec.ofNat 4 k.val)) s = .next (s.afterByte d v) := by
  have he : exec (.rleDecode (BitVec.ofNat 4 k.val)) s = execRleDecode (BitVec.ofNat 4 k.val) s := rfl
  rw [he, execRleDecode, command_of_running hs, withContext_ofNat _ k hk, if_pos hv, runDecoder, h, State.afterByte]

theorem rleDecodeOne_of_run {src : Memory} {k : Fin 7} {d : Decoder} (h : (d.ctx k).run ≠ 0) :
    rleDecodeOne src k d = .ok (d.ctx k).prev (d.setRun k ((d.ctx k).run - 1)) := by
  rw [rleDecodeOne, if_pos h, Decoder.setRun]

/-- An escape consumes its code word, answers the predictor, and leaves one less than its count to replay. -/
theorem rleDecodeOne_of_escape {src : Memory} {k : Fin 7} {d : Decoder} {code : Nat} (hw : (d.ctx k).wf)
    (hv : (d.ctx k).valid = true) (hr : (d.ctx k).run = 0) (hc : 256 + code < (d.ctx k).numcodes.toNat)
    (hu : (d.ctx k).lenAt (256 + code) ≠ 0)
    (h : d.br.holdsAt src d.br.pos (codeWord (d.ctx k).lens (256 + code))) :
    rleDecodeOne src k d = .ok (d.ctx k).prev ((d.setReader (d.br.advance ((d.ctx k).lenAt (256 + code)))).setRun k
      (BitVec.ofNat 12 (rleCount code - 1))) := by
  have hs : ¬ 256 + code < 256 := by omega
  have e : 256 + code - 256 = code := by omega
  rw [rleDecodeOne, if_neg (by simp [hr]), decodeOne_of_codeWord hw hv hc hu h, Res.andThen_of_ok]
  simp only [if_neg hs, e, Decoder.ctx_setReader, Decoder.setRun]

/-! ## The rest of a run -/

theorem runMany_succ {i : Instr} {n : Nat} {s t : State} (h : exec i s = .next t) :
    runMany i (n + 1) s = (runMany i n t).map fun p => (t.r[0] :: p.1, p.2) := by
  rw [runMany, h]

/-- A run of `n` is replayed by `n` RLE_DECODEs, which change nothing of the decoder but the run. -/
theorem runMany_rleDecode_replay {n : Nat} {s : State} {k : Fin 7} (hs : s.running) (hk : k.val < 6)
    (hv : (s.dec.ctx k).valid = true) (hr : (s.dec.ctx k).run.toNat = n) :
    ∃ t, runMany (.rleDecode (BitVec.ofNat 4 k.val)) n s =
        some (List.replicate n ((s.dec.ctx k).prev.setWidth 32), t) ∧ t.dec = s.dec.setRun k 0 := by
  induction n generalizing s with
  | zero => exact ⟨s, rfl, (Decoder.setRun_eq_self (BitVec.eq_of_toNat_eq hr)).symm⟩
  | succ n ih =>
    have h0 : (s.dec.ctx k).run ≠ 0 := by bv_omega
    have hn : ((s.dec.ctx k).run - 1).toNat = n := by bv_omega
    have he := exec_rleDecode_of_ok hs hk hv (rleDecodeOne_of_run h0)
    obtain ⟨t, hrun, hdec⟩ := ih (s := s.afterByte (s.dec.setRun k ((s.dec.ctx k).run - 1)) (s.dec.ctx k).prev)
      hs (by simpa using hv) (by simpa using hn)
    refine ⟨t, ?_, by simpa using hdec⟩
    rw [runMany_succ he, hrun]
    simp [List.replicate_succ]

/-- The RLE_DECODEs of a whole escape: the code word is consumed, and the run is 0 again at the end. -/
theorem runMany_rleDecode_escape {s : State} {k : Fin 7} {code : Nat} (hs : s.running) (hk : k.val < 6)
    (hw : (s.dec.ctx k).wf) (hv : (s.dec.ctx k).valid = true) (hr : (s.dec.ctx k).run = 0)
    (hc : 256 + code < (s.dec.ctx k).numcodes.toNat) (hu : (s.dec.ctx k).lenAt (256 + code) ≠ 0)
    (h : s.dec.br.holdsAt s.src s.dec.br.pos (codeWord (s.dec.ctx k).lens (256 + code))) :
    ∃ t, runMany (.rleDecode (BitVec.ofNat 4 k.val)) (rleCount code) s =
        some (List.replicate (rleCount code) ((s.dec.ctx k).prev.setWidth 32), t) ∧
      t.dec = s.dec.setReader (s.dec.br.advance ((s.dec.ctx k).lenAt (256 + code))) := by
  have hsize : (s.dec.ctx k).numcodes.toNat ≤ 272 := hw.1
  obtain ⟨hpos, hmax⟩ := rleCount_bounds (code := code) (by omega)
  obtain ⟨n, hcount⟩ : ∃ n, rleCount code = n + 1 := ⟨rleCount code - 1, by omega⟩
  have hone := rleDecodeOne_of_escape hw hv hr hc hu h
  rw [hcount, Nat.add_sub_cancel] at hone
  have hn : (BitVec.ofNat 12 n).toNat = n := by
    rw [BitVec.toNat_ofNat]
    omega
  set b := s.dec.br.advance ((s.dec.ctx k).lenAt (256 + code))
  obtain ⟨t, hrun, hdec⟩ := runMany_rleDecode_replay
    (s := s.afterByte ((s.dec.setReader b).setRun k (BitVec.ofNat 12 n)) (s.dec.ctx k).prev) hs hk
    (by simpa using hv) (by rw [State.afterByte_dec, Decoder.ctx_setRun_self, hn])
  refine ⟨t, ?_, ?_⟩
  · rw [hcount, runMany_succ (exec_rleDecode_of_ok hs hk hv hone), hrun]
    simp [List.replicate_succ]
  · rw [hdec, State.afterByte_dec, Decoder.setRun_setRun]
    exact Decoder.setRun_eq_self hr

/-! ## The obligation -/

/-- Settles O36: the first call starts the run of the escape, the calls after it replay it, and the run ends where it
began, at 0. -/
theorem rleEscapeReplaysThePredictor : Obligations.RleEscapeReplaysThePredictor := by
  refine ⟨by decide, fun s k code hs hk hw hv hr hc hu h => ?_⟩
  obtain ⟨t, hrun, hdec⟩ := runMany_rleDecode_escape hs hk hw hv hr hc hu h
  refine ⟨t, hrun, ?_, fun c => ?_⟩
  · rw [hdec, Decoder.setReader_br]
  · rw [hdec, Decoder.ctx_setReader]

end Sys2Proof.Machine
end

section
/-! PROOFS. The statements about the bit reader commands (40_bitreader R121 to R128): one equation per command for a running
machine, from which each statement is read off. Reads split because consecutive bits are one number (`BitReader.bitsAt_add`)
and consecutive moves are one move (`BitReader.advance_advance`). -/

namespace Sys2Proof.Machine

/-! ## The words and the bit counts -/

/-- The bit count is the low part of the word (30_encoding R70). -/
theorem encode_bitCount {mk : BitVec 6 → Instr} (hm : mk ∈ bitCountCommands) (n : BitVec 6) :
    encode (mk n) = encode (mk 0) ||| n.setWidth 32 := by
  fin_cases hm <;> (revert n; decide)

theorem legalBitCount_of_le {n : BitVec 6} (h : n.toNat ≤ 32) : legalBitCount n = true :=
  (legalBitCount_iff n).2 (Nat.not_lt.2 h)

theorem legalBitCount_of_lt {n : BitVec 6} (h : 32 < n.toNat) : legalBitCount n = false :=
  Bool.eq_false_iff.2 fun hl => (legalBitCount_iff n).1 hl h

/-! ## What `Peek` gives -/

theorem BitReader.peek_lt (b : BitReader) (src : Memory) (n : Nat) : b.peek src n < 2 ^ n := b.bitsAt_lt src b.pos n

theorem BitReader.testBit_peek (b : BitReader) (src : Memory) {n i : Nat} (h : i < n) :
    (b.peek src n).testBit (n - 1 - i) = b.streamBit src (b.pos + i) := b.testBit_bitsAt src b.pos h

/-- A peek of `n + m` bits is a peek of `n` bits and one of `m` bits after a move by `n` (40_bitreader R122). -/
theorem BitReader.peek_add (b : BitReader) (src : Memory) (n m : Nat) :
    b.peek src (n + m) = b.peek src n * 2 ^ m + (b.advance n).peek src m := by
  have hmoved : (b.advance n).peek src m = b.bitsAt src (b.pos + n) m :=
    BitReader.bitsAt_congr (b.advance_base n) (b.advance_len n) src (b.pos + n) m
  rw [hmoved]
  exact b.bitsAt_add src b.pos n m

/-! ## What each command does in a running machine -/

theorem exec_brInit_inside {s : State} (hs : s.running) (h : s.opA 0 + s.opA 1 ≤ s.src.size) :
    exec .brInit s = .next (s.setReader { base := s.a[0], len := s.a[1], pos := 0, ovf := false }) := by
  have hb : s.src.inBounds (s.opA 0) (s.opA 1) = true := decide_eq_true h
  have hattach : BitReader.attach (s.opA 0) (s.opA 1) = { base := s.a[0], len := s.a[1], pos := 0, ovf := false } :=
    BitReader.attach_word s.a[0] s.a[1]
  have he : exec .brInit s = execBrInit s := rfl
  rw [he, execBrInit, command_of_running hs, if_pos hb, hattach]

theorem exec_brInit_outside {s : State} (hs : s.running) (h : s.src.size < s.opA 0 + s.opA 1) :
    exec .brInit s = .next { s with st := stWord .readError 0x10#8 } := by
  have hb : ¬ s.src.inBounds (s.opA 0) (s.opA 1) = true := by rw [Memory.inBounds, decide_eq_true_eq]; omega
  have he : exec .brInit s = execBrInit s := rfl
  rw [he, execBrInit, command_of_running hs, if_neg hb]

theorem exec_brPeek {s : State} {n : BitVec 6} (hs : s.running) (hn : n.toNat ≤ 32) :
    exec (.brPeek n) s = .next (s.setR 0 (BitVec.ofNat 32 (s.dec.br.peek s.src n.toNat))) := by
  have he : exec (.brPeek n) s = execBrPeek n s := rfl
  rw [he, execBrPeek, command_of_running hs, withBitCount_of_legal _ (legalBitCount_of_le hn)]

/-- The machine after a successful read of `n` bits (40_bitreader R123, R126). -/
def State.afterRead (s : State) (n : Nat) : State :=
  (s.setReader (s.dec.br.advance n)).setR 0 (BitVec.ofNat 32 (s.dec.br.peek s.src n))

theorem exec_brRead {s : State} {n : BitVec 6} (hs : s.running) (hn : n.toNat ≤ 32) :
    exec (.brRead n) s = .next (s.afterRead n.toNat) := by
  have he : exec (.brRead n) s = execBrRead n s := rfl
  rw [he, execBrRead, command_of_running hs, withBitCount_of_legal _ (legalBitCount_of_le hn), State.afterRead,
    BitReader.read]

theorem exec_brOvf {s : State} (hs : s.running) : exec .brOvf s = .next (s.setR 0 (flagWord s.dec.br.ovf)) := by
  have he : exec .brOvf s = execBrOvf s := rfl
  rw [he, execBrOvf, command_of_running hs]

/-! ## The machine after a read -/

@[simp] theorem State.afterRead_dec (s : State) (n : Nat) :
    (s.afterRead n).dec = s.dec.setReader (s.dec.br.advance n) := rfl

@[simp] theorem State.afterRead_src (s : State) (n : Nat) : (s.afterRead n).src = s.src := rfl

theorem State.running_afterRead {s : State} (hs : s.running) (n : Nat) : (s.afterRead n).running := hs

/-- At most 32 bits fit `R[0]`. -/
theorem State.afterRead_result (s : State) {n : Nat} (hn : n ≤ 32) :
    (s.afterRead n).r[0].toNat = s.dec.br.peek s.src n := by
  have hlt : s.dec.br.peek s.src n < 2 ^ 32 :=
    Nat.lt_of_lt_of_le (s.dec.br.peek_lt s.src n) (Nat.pow_le_pow_right (by decide) hn)
  simpa [State.afterRead] using hlt

/-- Two reads leave the decoder that one read of both lengths leaves. -/
theorem State.afterRead_afterRead_dec (s : State) (n m : Nat) :
    ((s.afterRead n).afterRead m).dec = (s.afterRead (n + m)).dec :=
  congrArg s.dec.setReader (s.dec.br.advance_advance n m)

/-! ## Which commands attach the reader -/

/-- The commands that attach the reader are BR_INIT, four of the AVHuff unit, and the reset (40_bitreader R128). -/
theorem mem_of_readerUse_attached {i : Instr} (h : readerUse i = .attached) :
    i ∈ [.blkReset, .brInit, .avhDecode, .avhAudioTrees, .avhAudioChHuf, .avhVideo] := by
  cases i with
  | blkReset | brInit | avhDecode | avhAudioTrees | avhAudioChHuf | avhVideo => simp
  | _ => cases h

/-- A command that does not attach the reader never clears `OVF`. -/
theorem exec_keeps_ovf {i : Instr} {s t : State} (h : exec i s = .next t) (hi : readerUse i ≠ .attached)
    (hovf : s.dec.br.ovf = true) : t.dec.br.ovf = true := by
  obtain ⟨-, huntouched, hmoved⟩ := contextsAndReaderNotNamedAreKept i s t h
  cases hu : readerUse i with
  | untouched => rw [huntouched hu, hovf]
  | moved =>
    obtain ⟨-, -, -, hkeep⟩ := hmoved hu
    exact hkeep hovf
  | attached => exact absurd hu hi

/-! ## The obligations -/

/-- Settles O20: the operands are words, so the buffer they name is the one the reader gets. -/
theorem brInitAttachesTheReader : Obligations.BrInitAttachesTheReader :=
  ⟨rfl, fun _ hs => ⟨exec_brInit_inside hs, exec_brInit_outside hs⟩⟩

/-- Settles O21: the bits of the peeked value are the stream's, and an illegal count is an ill-formed command. -/
theorem brPeekReturnsTheNextBits : Obligations.BrPeekReturnsTheNextBits := by
  refine fun s n hs => ⟨fun hn => ⟨encode_bitCount (mk := .brPeek) (by simp [bitCountCommands]) n, ?_⟩, fun hn => ?_⟩
  · exact ⟨s.dec.br.peek s.src n.toNat, s.dec.br.peek_lt s.src _, fun i hi => s.dec.br.testBit_peek s.src hi,
      exec_brPeek hs hn⟩
  · exact exec_of_not_wellFormed (i := .brPeek n) (legalBitCount_of_lt hn) hs

/-- Settles O22: a read returns what a peek returns, and moves the reader. -/
theorem brReadConsumesTheNextBits : Obligations.BrReadConsumesTheNextBits := by
  refine fun s n hs => ⟨fun hn => ⟨encode_bitCount (mk := .brRead) (by simp [bitCountCommands]) n, ?_⟩, fun hn => ?_⟩
  · exact ⟨s.dec.br.peek s.src n.toNat, s.dec.br.peek_lt s.src _, fun i hi => s.dec.br.testBit_peek s.src hi,
      exec_brRead hs hn⟩
  · exact exec_of_not_wellFormed (i := .brRead n) (legalBitCount_of_lt hn) hs

/-- Settles O23: the values compose as the peeks do, the readers as the moves do. -/
theorem brReadSplits : Obligations.BrReadSplits := by
  intro s t u v n m k hs hk hnm ht hu hv
  have hn : n.toNat ≤ 32 := by omega
  have hm : m.toNat ≤ 32 := by omega
  rw [exec_brRead hs hn, Host.Outcome.next.injEq] at ht
  subst ht
  rw [exec_brRead (s.running_afterRead hs n.toNat) hm, Host.Outcome.next.injEq] at hu
  rw [exec_brRead hs hk, Host.Outcome.next.injEq] at hv
  subst hu hv
  rw [← hnm] at hk ⊢
  constructor
  · rw [State.afterRead_result _ hk, State.afterRead_result _ hn, State.afterRead_result _ hm,
      State.afterRead_dec, State.afterRead_src, Decoder.setReader_br, BitReader.peek_add]
  · exact s.afterRead_afterRead_dec n.toNat m.toNat

/-- Settles O25: every command keeps `OVF` set unless it attaches the reader. -/
theorem brOvfReportsTheStickyFlag : Obligations.BrOvfReportsTheStickyFlag := by
  refine ⟨rfl, fun _ hs => exec_brOvf hs, fun i s t h hset hclear => mem_of_readerUse_attached ?_⟩
  by_contra hi
  rw [exec_keeps_ovf h hi hset] at hclear
  cases hclear

end Sys2Proof.Machine
end

section
/-! PROOFS. The statements about HUF_CONFIG and HUF_DECODE (41_huffman R130, R135 to R137): where the stream holds the code
word of a used symbol `DecodeOne` takes that word, where it holds none it takes nothing; a list of symbols is decoded one
word after the other. -/

namespace Sys2Proof.Machine

/-! ## The words of the commands with a context -/

/-- The context is bits 23:20 of the word (30_encoding R70). -/
theorem encode_context {mk : BitVec 4 → Instr} (hm : mk ∈ contextCommands) (k : Fin 7) :
    encode (mk (BitVec.ofNat 4 k.val)) = encode (mk 0) ||| (BitVec.ofNat 32 k.val <<< 20) := by
  fin_cases hm <;> (revert k; decide)

/-! ## HUF_CONFIG -/

/-- The decoder after HUF_CONFIG of context `k` with an alphabet of `n` and lengths up to `m` (41_huffman R130); `event`
numbers the unspecified table. -/
def Decoder.configured (d : Decoder) (k : Fin 7) (n m event : Nat) : Decoder :=
  d.setCtx k (Context.unspecifyTable
    { d.ctx k with numcodes := BitVec.ofNat 9 n, maxbits := BitVec.ofNat 6 m, valid := false, prev := 0, run := 0 }
    event k.val)

/-- HUF_CONFIG in a running machine: its two errors in their order, then the configured context. -/
theorem exec_hufConfig {s : State} {k : Fin 7} (hs : s.running) (hk : k.val < 6) :
    exec (.hufConfig (BitVec.ofNat 4 k.val)) s = .next (
      if s.opA 0 > 272 then raise .outOfMemory 0x20#8 s
      else if s.opA 0 = 0 ∨ s.opA 1 = 0 ∨ s.opA 1 > 32 then raise .illegalCommand 0x20#8 s
      else { s with dec := s.dec.configured k (s.opA 0) (s.opA 1) s.free, free := s.free + 1 }) := by
  have he : exec (.hufConfig (BitVec.ofNat 4 k.val)) s = execHufConfig (BitVec.ofNat 4 k.val) s := rfl
  rw [he, execHufConfig, command_of_running hs, withContext_ofNat _ k hk]
  rfl

/-- Settles O26: the three cases of `exec_hufConfig`; both operands fit their fields. -/
theorem hufConfigConstructsTheContext : Obligations.HufConfigConstructsTheContext := by
  intro s k hs hk
  refine ⟨encode_context (mk := .hufConfig) (by simp [contextCommands]) k, fun hn => ?_, fun hn hbad => ?_,
    fun h0 hn hm0 hm => ?_⟩
  · exact ⟨_, exec_hufConfig hs hk, by rw [if_pos hn]; rfl⟩
  · exact ⟨_, exec_hufConfig hs hk, by rw [if_neg (Nat.not_lt.2 hn), if_pos hbad]; rfl⟩
  · have hok : ¬ (s.opA 0 = 0 ∨ s.opA 1 = 0 ∨ s.opA 1 > 32) := by omega
    refine ⟨_, by rw [exec_hufConfig hs hk, if_neg (Nat.not_lt.2 hn), if_neg hok], ?_⟩
    rw [Decoder.configured, Decoder.ctx_setCtx_self]
    refine ⟨Nat.mod_eq_of_lt (by omega), Nat.mod_eq_of_lt (by omega), rfl, rfl, rfl,
      fun c hc => s.dec.ctx_setCtx_of_ne _ hc, rfl, rfl⟩

/-! ## A context that decodes -/

/-- What `DecodeOne` needs of a context: a configured one with a built table, whatever its run (41_huffman R135). -/
structure Context.Ready (x : Context) : Prop where
  size : x.numcodes.toNat ≤ Config.maxCodes
  bits : x.maxbits.toNat ≤ Config.maxbitsMax
  configured : x.numcodes ≠ 0
  built : x.built

theorem Context.ready_of_wf {x : Context} (hw : x.wf) (hv : x.valid = true) : x.Ready := by
  obtain ⟨hn, hm, -, hval⟩ := hw
  obtain ⟨h0, hb⟩ := hval hv
  exact ⟨hn, hm, h0, hb⟩

/-- Decoding does not read the flag and the run, so they may as well be those of a well-formed context. -/
theorem Context.Ready.wf_marked {x : Context} (h : x.Ready) : Context.wf { x with valid := true, run := 0 } :=
  ⟨h.size, h.bits, Nat.zero_le _, fun _ => ⟨h.configured, h.built⟩⟩

theorem Context.Ready.lt_numcodes {x : Context} (h : x.Ready) {u : Nat} (hu : x.lens.getD u 0 ≠ 0) :
    u < x.numcodes.toNat := by
  by_contra hge
  have hnone : x.lens[u]? = none := List.getElem?_eq_none (by rw [x.length_lens h.size]; omega)
  exact hu (by simp [List.getD, hnone])

/-- The code word of a used symbol comes next: `DecodeOne` answers the symbol and takes exactly that word. -/
theorem decodeOne_of_used {src : Memory} {c : Fin 7} {d : Decoder} {u : Nat} (h : (d.ctx c).Ready)
    (hu : (d.ctx c).lens.getD u 0 ≠ 0) (hh : d.br.holdsAt src d.br.pos (codeWord (d.ctx c).lens u)) :
    decodeOne src c d = .ok u (d.setReader (d.br.advance (codeWord (d.ctx c).lens u).length)) := by
  have hlt := h.lt_numcodes hu
  have hlen := (d.ctx c).getD_lens hlt
  have hu' : (d.ctx c).lenAt u ≠ 0 := hlen ▸ hu
  have hsym : (d.ctx c).symbolOf (d.br.peek src (d.ctx c).maxbits.toNat) = some u :=
    Context.symbolOf_of_hit h.wf_marked rfl hlt (hit_of_codeWord h.wf_marked rfl hlt hu' hh)
  simp only [decodeOne, hsym, codeWord, length_msbBits, hlen]

/-- No code word comes next: `DecodeOne` raises `InvalidData` and takes nothing. -/
theorem decodeOne_of_unmatched {src : Memory} {c : Fin 7} {d : Decoder} (h : (d.ctx c).Ready)
    (hh : d.br.unmatched src d.br.pos (d.ctx c).lens) : decodeOne src c d = .raised .invalidData d := by
  have hsym : (d.ctx c).symbolOf (d.br.peek src (d.ctx c).maxbits.toNat) = none := by
    refine (Context.symbolOf_eq_none_iff h.size).2 fun u hlt hhit => ?_
    refine hh u (by rwa [(d.ctx c).length_lens h.size]) ?_ (codeWord_of_hit h.wf_marked rfl hlt hhit)
    rw [(d.ctx c).getD_lens hlt]
    exact hhit.1
  simp only [decodeOne, hsym]

/-! ## HUF_DECODE -/

theorem runDecoder_of_ok {α : Type} {op : BitVec 8} {s : State} {p : Decoder → Res Decoder α} {done : α → State → State}
    {v : α} {d : Decoder} (h : p s.dec = .ok v d) : runDecoder op s p done = done v { s with dec := d } := by
  rw [runDecoder, h]

theorem runDecoder_of_raised {α : Type} {op : BitVec 8} {s : State} {p : Decoder → Res Decoder α}
    {done : α → State → State} {e : ErrorKind} {d : Decoder} (h : p s.dec = .raised e d) :
    runDecoder op s p done = raise e op { s with dec := d } := by
  rw [runDecoder, h]

/-- HUF_DECODE in a running machine (41_huffman R136). -/
theorem exec_hufDecode {s : State} {k : Fin 7} (hs : s.running) (hk : k.val < 6) :
    exec (.hufDecode (BitVec.ofNat 4 k.val)) s = .next (
      if (s.dec.ctx k).valid then runDecoder 0x23#8 s (decodeOne s.src k) fun v t => t.setR 0 (BitVec.ofNat 32 v)
      else raise .illegalCommand 0x23#8 s) := by
  have he : exec (.hufDecode (BitVec.ofNat 4 k.val)) s = execHufDecode (BitVec.ofNat 4 k.val) s := rfl
  rw [he, execHufDecode, command_of_running hs, withContext_ofNat _ k hk]

/-- The machine after a HUF_DECODE that answered symbol `u` and took `n` bits (41_huffman R136). -/
def State.afterSymbol (s : State) (u n : Nat) : State :=
  (s.setReader (s.dec.br.advance n)).setR 0 (BitVec.ofNat 32 u)

@[simp] theorem State.afterSymbol_dec (s : State) (u n : Nat) :
    (s.afterSymbol u n).dec = s.dec.setReader (s.dec.br.advance n) := rfl

@[simp] theorem State.afterSymbol_src (s : State) (u n : Nat) : (s.afterSymbol u n).src = s.src := rfl

@[simp] theorem State.afterSymbol_result (s : State) (u n : Nat) : (s.afterSymbol u n).r[0] = BitVec.ofNat 32 u := by
  simp [State.afterSymbol]

theorem exec_hufDecode_of_used {s : State} {k : Fin 7} {u : Nat} (hs : s.running) (hk : k.val < 6)
    (hw : (s.dec.ctx k).wf) (hv : (s.dec.ctx k).valid = true) (hu : (s.dec.ctx k).lens.getD u 0 ≠ 0)
    (hh : s.dec.br.holdsAt s.src s.dec.br.pos (codeWord (s.dec.ctx k).lens u)) :
    exec (.hufDecode (BitVec.ofNat 4 k.val)) s =
      .next (s.afterSymbol u (codeWord (s.dec.ctx k).lens u).length) := by
  rw [exec_hufDecode hs hk, if_pos hv, runDecoder_of_ok (decodeOne_of_used (Context.ready_of_wf hw hv) hu hh)]
  rfl

/-- Settles O31: the table of a well-formed context with a table is ready, so `DecodeOne` takes the code word that comes
next. -/
theorem hufDecodeReturnsTheMatchedSymbol : Obligations.HufDecodeReturnsTheMatchedSymbol := by
  intro s k hs hk
  refine ⟨encode_context (mk := .hufDecode) (by simp [contextCommands]) k, fun hv => ?_, fun hw hv => ⟨?_, ?_⟩⟩
  · exact ⟨_, exec_hufDecode hs hk, by rw [hv]; rfl⟩
  · intro u hlt hu hh
    have hlen := (s.dec.ctx k).getD_lens hlt
    rw [exec_hufDecode_of_used hs hk hw hv (hlen ▸ hu) hh, codeWord, length_msbBits, hlen]
    rfl
  · intro hnone
    have hready := Context.ready_of_wf hw hv
    have hraised : decodeOne s.src k s.dec = .raised .invalidData s.dec := by
      refine decodeOne_of_unmatched hready fun u hlt hu => ?_
      rw [(s.dec.ctx k).length_lens hready.size] at hlt
      rw [(s.dec.ctx k).getD_lens hlt] at hu
      exact hnone u hlt hu
    exact ⟨_, exec_hufDecode hs hk, by rw [if_pos hv, runDecoder_of_raised hraised]; exact ⟨rfl, rfl⟩⟩

/-! ## Streams of code words -/

/-- Moving the reader does not change what the stream holds. -/
@[simp] theorem BitReader.holdsAt_advance (b : BitReader) (src : Memory) (n k : Nat) (xs : List Bool) :
    (b.advance n).holdsAt src k xs ↔ b.holdsAt src k xs := BitReader.holdsAt_congr rfl rfl src k xs

/-- As many HUF_DECODEs as the stream holds code words answer their symbols and take exactly their bits. -/
theorem runMany_hufDecode {syms : List Nat} {s : State} {k : Fin 7} (hs : s.running) (hk : k.val < 6)
    (hw : (s.dec.ctx k).wf) (hv : (s.dec.ctx k).valid = true)
    (hu : ∀ u ∈ syms, (s.dec.ctx k).lens.getD u 0 ≠ 0)
    (hh : s.dec.br.holdsAt s.src s.dec.br.pos (syms.flatMap (codeWord (s.dec.ctx k).lens))) :
    ∃ t, runMany (.hufDecode (BitVec.ofNat 4 k.val)) syms.length s = some (syms.map (BitVec.ofNat 32), t) ∧
      t.dec.br.pos = s.dec.br.pos + (syms.flatMap (codeWord (s.dec.ctx k).lens)).length ∧
      ∀ c, t.dec.ctx c = s.dec.ctx c := by
  induction syms generalizing s with
  | nil => exact ⟨s, rfl, rfl, fun _ => rfl⟩
  | cons u syms ih =>
    rw [List.flatMap_cons] at hh ⊢
    obtain ⟨hfirst, hrest⟩ := BitReader.holdsAt_append.1 hh
    rw [List.forall_mem_cons] at hu
    have he := exec_hufDecode_of_used hs hk hw hv hu.1 hfirst
    obtain ⟨t, hrun, hpos, hctx⟩ := ih (s := s.afterSymbol u (codeWord (s.dec.ctx k).lens u).length) hs hw hv hu.2
      ((BitReader.holdsAt_advance _ _ _ _ _).2 hrest)
    refine ⟨t, ?_, ?_, hctx⟩
    · rw [List.length_cons, runMany_succ he, hrun, Option.map_some, State.afterSymbol_result, List.map_cons]
    · rw [hpos, List.length_append, ← Nat.add_assoc]
      rfl

/-- Settles O32: the bits of the stream are the code words', so the reader moves by the sum of the lengths. -/
theorem hufDecodeRoundTrip : Obligations.HufDecodeRoundTrip := by
  intro s k syms hs hk hw _ hv hu hh
  obtain ⟨t, hrun, hpos, hctx⟩ := runMany_hufDecode hs hk hw hv (fun u h => (hu u h).2) hh
  have hlens : ∀ u ∈ syms, (codeWord (s.dec.ctx k).lens u).length = (s.dec.ctx k).lenAt u := fun u h => by
    rw [codeWord, length_msbBits, (s.dec.ctx k).getD_lens ((Context.ready_of_wf hw hv).lt_numcodes (hu u h).2)]
  refine ⟨t, hrun, ?_, hctx⟩
  rw [hpos, List.length_flatMap, List.map_congr_left hlens]

end Sys2Proof.Machine
end

section
/-! PROOFS. The statement about HUF_IMPORT_FLAT (41_huffman R131, R132): the loop fills `LEN` from the front with the fields
of the stream until one is above `MAXBITS`, and `BuildTable` accepts exactly the valid lists. -/

namespace Sys2Proof.Machine

/-! ## Filling `LEN` from the front -/

/-- The first entries of `LEN` are these lengths. -/
def Context.StartsWith (x : Context) (ls : List Nat) : Prop := ∀ i < ls.length, x.lenAt i = ls.getD i 0

theorem Context.startsWith_nil (x : Context) : x.StartsWith [] := fun _ hi => absurd hi (Nat.not_lt_zero _)

/-- Writing `n` times the length `v` after the lengths that are there. -/
theorem Context.StartsWith.setLens {x : Context} {ls : List Nat} {n v : Nat} (h : x.StartsWith ls) (hv : v < 64)
    (hn : ls.length + n ≤ Config.maxCodes) : (x.setLens ls.length n v).StartsWith (ls ++ List.replicate n v) := by
  intro i hi
  rw [List.length_append, List.length_replicate] at hi
  rw [x.lenAt_setLens _ _ _ hv]
  rcases Nat.lt_or_ge i ls.length with hlt | hge
  · rw [if_neg (by omega), List.getD_append _ _ _ _ hlt, h i hlt]
  · rw [if_pos (by omega), List.getD_append_right _ _ _ _ hge, List.getD_replicate (h := by omega)]

/-- A full list is the list of the lengths that have meaning. -/
theorem Context.StartsWith.lens_eq {x : Context} {ls : List Nat} (h : x.StartsWith ls)
    (hn : x.numcodes.toNat ≤ Config.maxCodes) (hl : ls.length = x.numcodes.toNat) : x.lens = ls :=
  Context.lens_eq hn hl h

/-- The words of a built table, by its list of lengths. -/
theorem Context.codeAt_of_built {x : Context} {ls : List Nat} (hb : x.built) (hn : x.numcodes.toNat ≤ Config.maxCodes)
    (hl : x.lens = ls) : ∀ u < ls.length, ls.getD u 0 ≠ 0 → x.codeAt u = canonicalCode ls u := by
  subst hl
  intro u hlt hu
  rw [x.length_lens hn] at hlt
  exact hb.2 u hlt (x.getD_lens hlt ▸ hu)

/-! ## The loop -/

/-- The decoder after an import has moved the reader by `bits` and written `n` times the length `v` from symbol `s` on. -/
def Decoder.tookLens (d : Decoder) (c : Fin 7) (bits s n v : Nat) : Decoder :=
  (d.setReader (d.br.advance bits)).setCtx c ((d.ctx c).setLens s n v)

@[simp] theorem Decoder.tookLens_br (d : Decoder) (c : Fin 7) (bits s n v : Nat) :
    (d.tookLens c bits s n v).br = d.br.advance bits := rfl

@[simp] theorem Decoder.ctx_tookLens_self (d : Decoder) (c : Fin 7) (bits s n v : Nat) :
    (d.tookLens c bits s n v).ctx c = (d.ctx c).setLens s n v := Decoder.ctx_setCtx_self _ _ _

/-- One turn of the loop on a stream where the field `v` comes next. -/
theorem importFlatLoop_of_field {src : Memory} {c : Fin 7} {d : Decoder} {v : Nat}
    (hv : v < 2 ^ (d.ctx c).maxbits.toNat) (hh : d.br.holdsAt src d.br.pos (msbBits (d.ctx c).maxbits.toNat v))
    (n s : Nat) :
    importFlatLoop src c (n + 1) s d =
      if (d.ctx c).maxbits.toNat < v then .raised .invalidData (d.setReader (d.br.advance (d.ctx c).maxbits.toNat))
      else importFlatLoop src c n (s + 1) (d.tookLens c (d.ctx c).maxbits.toNat s 1 v) := by
  have hpeek : d.br.peek src (d.ctx c).maxbits.toNat = v := BitReader.bitsAt_of_holdsAt hv hh
  rw [importFlatLoop_succ, hpeek]
  rfl

/-- The loop reads the fields of the stream into `LEN`, after the lengths that are there, unless a field is above
`MAXBITS`. The list is split at its head because a read of no bits may still set `OVF`. -/
theorem importFlatLoop_of_fields {src : Memory} {c : Fin 7} {m v : Nat} {vs ls : List Nat} {d : Decoder}
    (hm : (d.ctx c).maxbits.toNat = m) (hm32 : m ≤ 32) (hn : ls.length + (v :: vs).length ≤ Config.maxCodes)
    (hls : (d.ctx c).StartsWith ls) (hlt : ∀ w ∈ v :: vs, w < 2 ^ m)
    (hh : d.br.holdsAt src d.br.pos ((v :: vs).flatMap (msbBits m))) :
    ((∀ w ∈ v :: vs, w ≤ m) ∧ ∃ e, importFlatLoop src c (v :: vs).length ls.length d = .ok () e ∧
        e.br = d.br.advance ((v :: vs).length * m) ∧ (e.ctx c).StartsWith (ls ++ v :: vs)) ∨
      ((∃ w ∈ v :: vs, m < w) ∧ ∃ e, importFlatLoop src c (v :: vs).length ls.length d = .raised .invalidData e) := by
  induction vs generalizing v ls d with
  | nil =>
    subst hm
    have hturn := importFlatLoop_of_field (hlt v (by simp)) (by simpa using hh) 0 ls.length
    by_cases hv : (d.ctx c).maxbits.toNat < v
    · exact .inr ⟨⟨v, by simp, hv⟩, _, hturn.trans (if_pos hv)⟩
    · refine .inl ⟨by simpa using hv, _, hturn.trans (if_neg hv), by simp, ?_⟩
      rw [Decoder.ctx_tookLens_self]
      exact hls.setLens (by omega) hn
  | cons w ws ih =>
    subst hm
    rw [List.flatMap_cons, BitReader.holdsAt_append, length_msbBits] at hh
    have hturn := importFlatLoop_of_field (hlt v (by simp)) hh.1 (w :: ws).length ls.length
    by_cases hv : (d.ctx c).maxbits.toNat < v
    · exact .inr ⟨⟨v, by simp, hv⟩, _, hturn.trans (if_pos hv)⟩
    · rw [if_neg hv] at hturn
      have hsnoc : (ls ++ [v]).length = ls.length + 1 := by simp
      simp only [List.length_cons] at hn
      have hrest := ih (v := w) (ls := ls ++ [v]) (d := d.tookLens c (d.ctx c).maxbits.toNat ls.length 1 v)
        (by rw [Decoder.ctx_tookLens_self, Context.setLens_maxbits]) (by rw [hsnoc, List.length_cons]; omega)
        (by rw [Decoder.ctx_tookLens_self]; exact hls.setLens (by omega) (by omega))
        (fun x hx => hlt x (List.mem_cons_of_mem v hx)) (by simpa using hh.2)
      rw [hsnoc, ← hturn] at hrest
      refine hrest.imp (fun ⟨hle, e, he, hbr, hlen⟩ => ⟨?_, e, he, ?_, ?_⟩) fun ⟨⟨x, hx, hgt⟩, he⟩ => ⟨⟨x, ?_, hgt⟩, he⟩
      · exact List.forall_mem_cons.2 ⟨Nat.not_lt.1 hv, hle⟩
      · rw [hbr, Decoder.tookLens_br, BitReader.advance_advance, List.length_cons (a := v), Nat.add_mul, Nat.one_mul,
          Nat.add_comm]
      · simpa using hlen
      · exact List.mem_cons_of_mem v hx

/-! ## The import -/

/-- What `BuildTable` does with a known list of lengths. -/
theorem buildTable_of_lens {c : Fin 7} {m : Nat} {ls : List Nat} {d : Decoder} (hm : (d.ctx c).maxbits.toNat = m)
    (hl : (d.ctx c).lens = ls) :
    (lengthsValid m ls = true → ∃ e, buildTable c d = .ok () e ∧ e.br = d.br ∧ (e.ctx c).lens = ls) ∧
      (lengthsValid m ls = false → buildTable c d = .raised .invalidData d) := by
  subst hm hl
  refine ⟨fun hv => ⟨_, buildTable_of_valid hv, rfl, ?_⟩, buildTable_of_invalid⟩
  rw [Decoder.ctx_setCtx_self]
  rfl

/-- The flat import of any fields (41_huffman R131): a valid list is imported, an invalid one is not. -/
theorem importFlat_of_fields {src : Memory} {c : Fin 7} {m : Nat} {fields : List Nat} {d : Decoder}
    (hm : (d.ctx c).maxbits.toNat = m) (hm32 : m ≤ 32) (hn : fields.length = (d.ctx c).numcodes.toNat)
    (hsize : fields.length ≤ Config.maxCodes) (hne : fields ≠ []) (hlt : ∀ v ∈ fields, v < 2 ^ m)
    (hh : d.br.holdsAt src d.br.pos (fields.flatMap (msbBits m))) :
    (lengthsValid m fields = true → ∃ e, importFlat src c d = .ok () e ∧
        e.br = d.br.advance (fields.length * m) ∧ (e.ctx c).lens = fields) ∧
      (lengthsValid m fields = false → ∃ e, importFlat src c d = .raised .invalidData e) := by
  obtain ⟨v, vs, rfl⟩ := List.exists_cons_of_ne_nil hne
  have himports := (importFlatLoop_spec src c (v :: vs).length 0 (d.setValid c false)).1
  have hloop := importFlatLoop_of_fields (ls := []) (d := d.setValid c false)
    (by rw [Decoder.ctx_setValid_self]; exact hm) hm32 (by simpa using hsize) (Context.startsWith_nil _) hlt hh
  rw [importFlat, ← hn]
  rcases hloop with ⟨-, e, he, hbr, hlens⟩ | ⟨⟨w, hw, hgt⟩, e, he⟩
  · rw [List.length_nil] at he
    rw [he] at himports
    rw [he]
    have hkeeps : (d.ctx c).Keeps (e.ctx c) := ((d.imports_setValid c false).trans himports).target
    have hfull : (e.ctx c).lens = v :: vs :=
      hlens.lens_eq (by rw [hkeeps.numcodes, ← hn]; exact hsize) (by rw [hkeeps.numcodes]; exact hn)
    have hbuild := buildTable_of_lens (m := m) (by rw [hkeeps.maxbits, hm]) hfull
    refine ⟨fun hv => ?_, fun hv => ⟨e, hbuild.2 hv⟩⟩
    obtain ⟨f, hf, hfbr, hflens⟩ := hbuild.1 hv
    exact ⟨f, hf, hfbr.trans hbr, hflens⟩
  · rw [List.length_nil] at he
    rw [he]
    refine ⟨fun hv => ?_, fun _ => ⟨e, rfl⟩⟩
    exact absurd ((lengthsValid_iff.1 hv).1 w hw) (Nat.not_le.2 hgt)

/-! ## The import commands -/

/-- The command `mk` runs the import `p` on its context, if that is configured (41_huffman R132, R134). -/
def RunsImport (mk : BitVec 4 → Instr) (p : Memory → Fin 7 → Decoder → Res Decoder Unit) : Prop :=
  ∀ c s, exec (mk c) s = command s fun s => withContext (mk c).op c s fun k =>
    if (s.dec.ctx k).numcodes = 0 then raise .illegalCommand (mk c).op s
    else runDecoder (mk c).op s (p s.src k) fun _ t => t

theorem runsImport_hufImportFlat : RunsImport .hufImportFlat importFlat := fun _ _ => rfl

theorem runsImport_hufImportRle : RunsImport .hufImportRle importRle := fun _ _ => rfl

section
variable {mk : BitVec 4 → Instr} {p : Memory → Fin 7 → Decoder → Res Decoder Unit} {s : State} {k : Fin 7} {d : Decoder}

theorem RunsImport.raises_of_unconfigured (h : RunsImport mk p) (hs : s.running) (hk : k.val < 6)
    (h0 : (s.dec.ctx k).numcodes = 0) : raises (mk (BitVec.ofNat 4 k.val)) s .illegalCommand := by
  refine ⟨raise .illegalCommand (mk (BitVec.ofNat 4 k.val)).op s, ?_, raise_st _ _ _⟩
  rw [h, command_of_running hs, withContext_ofNat _ k hk, if_pos h0]

theorem RunsImport.exec_of_ok (h : RunsImport mk p) (hs : s.running) (hk : k.val < 6)
    (h0 : (s.dec.ctx k).numcodes ≠ 0) (hp : p s.src k s.dec = .ok () d) :
    exec (mk (BitVec.ofNat 4 k.val)) s = .next { s with dec := d } := by
  rw [h, command_of_running hs, withContext_ofNat _ k hk, if_neg h0, runDecoder_of_ok hp]

theorem RunsImport.raises_of_raised {e : ErrorKind} (h : RunsImport mk p) (hs : s.running) (hk : k.val < 6)
    (h0 : (s.dec.ctx k).numcodes ≠ 0) (hp : p s.src k s.dec = .raised e d) :
    raises (mk (BitVec.ofNat 4 k.val)) s e := by
  refine ⟨raise e (mk (BitVec.ofNat 4 k.val)).op { s with dec := d }, ?_, raise_st _ _ _⟩
  rw [h, command_of_running hs, withContext_ofNat _ k hk, if_neg h0, runDecoder_of_raised hp]

end

/-! ## The obligation -/

theorem Context.numcodes_pos {x : Context} (h : x.numcodes ≠ 0) : 0 < x.numcodes.toNat :=
  Nat.pos_of_ne_zero fun e => h (BitVec.eq_of_toNat_eq e)

/-- Settles O27: `importFlat_of_fields` on the fields of the stream, and the frame of the import. -/
theorem flatImportReadsTheLengthFields : Obligations.FlatImportReadsTheLengthFields := by
  intro s k hs hk
  refine ⟨encode_context (mk := .hufImportFlat) (by simp [contextCommands]) k,
    fun h0 => runsImport_hufImportFlat.raises_of_unconfigured hs hk h0, fun fields hw h0 hn hlt hh => ?_⟩
  obtain ⟨hsize, hbits, -, -⟩ := hw
  have hne : fields ≠ [] := List.ne_nil_of_length_pos (hn ▸ Context.numcodes_pos h0)
  have himport := importFlat_of_fields rfl hbits hn (hn ▸ hsize) hne hlt hh
  refine ⟨fun hv => ?_, fun hv => ?_⟩
  · obtain ⟨d, hd, hbr, hlens⟩ := himport.1 hv
    obtain ⟨hframe, hok, -⟩ := importFlat_spec s.src k s.dec hsize hbits
    obtain ⟨hvalid, hbuilt⟩ := hok d hd
    rw [hd, Res.state_ok] at hframe
    obtain ⟨-, hothers, hkeeps⟩ := hframe
    refine ⟨d, runsImport_hufImportFlat.exec_of_ok hs hk h0 hd, ?_⟩
    rw [hbr]
    exact ⟨rfl, rfl, rfl, rfl, hothers, hvalid, hlens,
      Context.codeAt_of_built hbuilt (by rw [hkeeps.numcodes]; exact hsize) hlens, hkeeps.numcodes, hkeeps.maxbits,
      hkeeps.prev, hkeeps.run⟩
  · obtain ⟨d, hd⟩ := himport.2 hv
    exact runsImport_hufImportFlat.raises_of_raised hs hk h0 hd

end Sys2Proof.Machine
end

section
/-! PROOFS. The statements about HUF_IMPORT_RLE (41_huffman R133, R134, R138; 30_encoding R87, R88). A token writes one
length some number of times, so one turn of the loop is one token; from any point that good tokens lead to, the loop ends
or fails as the next bits say. -/

namespace Sys2Proof.Machine

/-! ## Tokens -/

/-- How many lengths a token makes (30_encoding R88). -/
def Token.count : Token → Nat
  | .literal _ => 1
  | .small f => f + 1
  | .large hi lo => 17 + 16 * hi + lo

/-- The length a token makes, after the previous length `prev`; it is the previous length of the next token. -/
def Token.value (prev : Nat) : Token → Nat
  | .literal m => m
  | .small _ => prev
  | .large _ _ => prev

/-- The stream bits of a token under a meta code (30_encoding R87, R88). -/
def Token.bits (metaLens : List Nat) (tok : Token) : List Bool := codeWord metaLens tok.symbol ++ tok.rawBits

/-- The last length of some tokens. -/
def lastValue : Nat → List Token → Nat
  | prev, [] => prev
  | prev, tok :: rest => lastValue (tok.value prev) rest

theorem Token.count_pos (tok : Token) : 0 < tok.count := by
  cases tok <;> simp only [Token.count] <;> omega

theorem expandTokens_cons (prev : Nat) (tok : Token) (rest : List Token) :
    expandTokens prev (tok :: rest) =
      List.replicate tok.count (tok.value prev) ++ expandTokens (tok.value prev) rest := by
  cases tok <;> rfl

/-- How many lengths tokens make does not depend on the lengths. -/
theorem length_expandTokens (prev : Nat) (toks : List Token) :
    (expandTokens prev toks).length = (toks.map Token.count).sum := by
  induction toks generalizing prev with
  | nil => rfl
  | cons tok rest ih =>
    rw [expandTokens_cons, List.length_append, List.length_replicate, ih, List.map_cons, List.sum_cons]

theorem RleTree.bits_eq (t : RleTree) :
    t.bits = t.metaLens.flatMap (msbBits 4) ++ t.tokens.flatMap (Token.bits t.metaLens) := rfl

theorem RleTree.length_bits (t : RleTree) (h : t.metaLens.length = 11) :
    t.bits.length = 44 + (t.tokens.flatMap (Token.bits t.metaLens)).length := by
  rw [RleTree.bits_eq, List.length_append, List.length_flatMap]
  simp [h]

/-- The meta code word and the fields of a token can be read (30_encoding R88). -/
abbrev Token.readable (metaLens : List Nat) (tok : Token) : Prop :=
  tok.fits = true ∧ metaLens.getD tok.symbol 0 ≠ 0

/-- A literal starts with the symbols 0 to 8, an escape with 9 or 10 (30_encoding R87). -/
theorem Token.literal_of_symbol_le {tok : Token} (h : tok.symbol ≤ 8) : tok = .literal tok.symbol := by
  cases tok with
  | literal m => rfl
  | small f => cases Nat.not_le.2 (show 8 < 9 by decide) h
  | large hi lo => cases Nat.not_le.2 (show 8 < 10 by decide) h

theorem Token.value_of_escape {tok : Token} (hf : tok.fits = true) (h : 8 < tok.symbol) (prev : Nat) :
    tok.value prev = prev := by
  cases tok with
  | literal m => exact absurd (of_decide_eq_true hf) (Nat.not_le.2 h)
  | small | large => rfl

/-- The run fields of an escape token. -/
theorem runLength_of_rawBits {src : Memory} {d : Decoder} {tok : Token} (hf : tok.fits = true) (hs : 8 < tok.symbol)
    (hh : d.br.holdsAt src d.br.pos tok.rawBits) :
    runLength src tok.symbol d = (tok.count, d.setReader (d.br.advance tok.rawBits.length)) := by
  have hread : ∀ {b : BitReader} {v : Nat}, v < 16 → b.holdsAt src b.pos (msbBits 4 v) → b.peek src 4 = v :=
    fun hv h => BitReader.bitsAt_of_holdsAt hv h
  cases tok with
  | literal m => exact absurd (of_decide_eq_true hf) (Nat.not_le.2 hs)
  | small f =>
    have hfit : f < 16 := by simpa [Token.fits] using hf
    rw [runLength, Token.symbol, if_pos rfl]
    simp only [BitReader.read, hread hfit hh, Token.count, Token.rawBits, length_msbBits]
  | large hi lo =>
    obtain ⟨hhi, hlo⟩ : hi < 16 ∧ lo < 16 := by simpa [Token.fits] using hf
    obtain ⟨h1, h2⟩ := BitReader.holdsAt_append.1 hh
    rw [length_msbBits] at h2
    have h2' : (d.br.advance 4).holdsAt src (d.br.advance 4).pos (msbBits 4 lo) := by simpa using h2
    rw [runLength, Token.symbol, if_neg (by decide)]
    simp only [BitReader.read, hread hhi h1, hread hlo h2', Token.count, Token.rawBits, length_msbBits,
      List.length_append, BitReader.advance_advance]

/-! ## One turn of the loop -/

/-- The loop ends where it has all lengths. -/
theorem importRleLoop_of_full {src : Memory} {c : Fin 7} {s : Nat} {d : Decoder}
    (h : (d.ctx c).numcodes.toNat ≤ s) (fuel prev : Nat) : importRleLoop src c fuel s prev d = .ok () d := by
  cases fuel with
  | zero => rfl
  | succ fuel => rw [importRleLoop, if_neg (Nat.not_lt.2 h)]

/-- One turn of the loop that decodes a literal. -/
theorem importRleLoop_of_literal {src : Memory} {c : Fin 7} {s m : Nat} {d e : Decoder}
    (hs : s < (d.ctx c).numcodes.toNat) (hone : decodeOne src 6 d = .ok m e) (hm : m ≤ 8) (fuel prev : Nat) :
    importRleLoop src c (fuel + 1) s prev d =
      if (e.ctx c).maxbits.toNat < m then .raised .invalidData e
      else importRleLoop src c fuel (s + 1) m (e.setCtx c ((e.ctx c).setLens s 1 m)) := by
  rw [importRleLoop, if_pos hs, hone, Res.andThen_of_ok, if_pos hm]

/-- One turn of the loop that decodes an escape for `n` lengths. -/
theorem importRleLoop_of_escape {src : Memory} {c : Fin 7} {s m n : Nat} {d e f : Decoder}
    (hs : s < (d.ctx c).numcodes.toNat) (hone : decodeOne src 6 d = .ok m e) (hm : 8 < m)
    (hrun : runLength src m e = (n, f)) (fuel prev : Nat) :
    importRleLoop src c (fuel + 1) s prev d =
      if (f.ctx c).numcodes.toNat < s + n then .raised .invalidData f
      else importRleLoop src c fuel (s + n) prev (f.setCtx c ((f.ctx c).setLens s n prev)) := by
  rw [importRleLoop, if_pos hs, hone, Res.andThen_of_ok, if_neg (Nat.not_le.2 hm), hrun]

/-- One turn of the loop on a stream where a token comes next: it fails on a literal above `MAXBITS` and on a run past the
end of the alphabet; otherwise the token's lengths are written. -/
theorem importRleLoop_of_token {src : Memory} {c : Fin 7} {s prev : Nat} {d : Decoder} {tok : Token}
    (h6 : (d.ctx 6).Ready) (htok : tok.readable (d.ctx 6).lens) (hs : s < (d.ctx c).numcodes.toNat)
    (hprev : prev ≤ (d.ctx c).maxbits.toNat) (hh : d.br.holdsAt src d.br.pos (tok.bits (d.ctx 6).lens)) (fuel : Nat) :
    (((d.ctx c).maxbits.toNat < tok.value prev ∨ (d.ctx c).numcodes.toNat < s + tok.count) →
        ∃ e, importRleLoop src c (fuel + 1) s prev d = .raised .invalidData e) ∧
      (tok.value prev ≤ (d.ctx c).maxbits.toNat → s + tok.count ≤ (d.ctx c).numcodes.toNat →
        importRleLoop src c (fuel + 1) s prev d = importRleLoop src c fuel (s + tok.count) (tok.value prev)
          (d.tookLens c (tok.bits (d.ctx 6).lens).length s tok.count (tok.value prev))) := by
  obtain ⟨hf, hu⟩ := htok
  obtain ⟨hword, hraw⟩ := BitReader.holdsAt_append.1 hh
  have hone := decodeOne_of_used h6 hu hword
  rcases Nat.lt_or_ge 8 tok.symbol with hesc | hlit
  · have hrun := runLength_of_rawBits (d := d.setReader (d.br.advance (codeWord (d.ctx 6).lens tok.symbol).length)) hf
      hesc (by simpa using hraw)
    rw [Decoder.setReader_br, Decoder.setReader_setReader, BitReader.advance_advance, ← List.length_append] at hrun
    have hturn := importRleLoop_of_escape hs hone hesc hrun fuel prev
    rw [Token.value_of_escape hf hesc]
    exact ⟨fun hbad => ⟨_, hturn.trans (if_pos (hbad.resolve_left (Nat.not_lt.2 hprev)))⟩,
      fun _ hn => hturn.trans (if_neg (Nat.not_lt.2 hn))⟩
  · obtain ⟨m, rfl⟩ : ∃ m, tok = .literal m := ⟨_, Token.literal_of_symbol_le hlit⟩
    have hturn := importRleLoop_of_literal hs hone hlit fuel prev
    have hbits : Token.bits (d.ctx 6).lens (.literal m) = codeWord (d.ctx 6).lens m := List.append_nil _
    rw [hbits]
    exact ⟨fun hbad => ⟨_, hturn.trans (if_pos (hbad.resolve_right (Nat.not_lt.2 hs)))⟩,
      fun hv _ => hturn.trans (if_neg (Nat.not_lt.2 hv))⟩

/-- One turn of the loop on a stream where no meta code word comes next. -/
theorem importRleLoop_of_unmatched {src : Memory} {c : Fin 7} {s : Nat} {d : Decoder} (h6 : (d.ctx 6).Ready)
    (hs : s < (d.ctx c).numcodes.toNat) (hh : d.br.unmatched src d.br.pos (d.ctx 6).lens) (fuel prev : Nat) :
    importRleLoop src c (fuel + 1) s prev d = .raised .invalidData d := by
  rw [importRleLoop, if_pos hs, decodeOne_of_unmatched h6 hh, Res.andThen_of_raised]

/-! ## Where good tokens lead -/

/-- The decoder `d` after the loop has read `p` bits and written the lengths `ls`, from the decoder `d0` at its start. -/
structure Decoder.HasRead (c : Fin 7) (d0 : Decoder) (p : Nat) (ls : List Nat) (d : Decoder) : Prop where
  reader : d.br = d0.br.advance p
  imports : d0.Imports c d
  lens : (d.ctx c).StartsWith ls

theorem Decoder.HasRead.tookLens {c : Fin 7} {d0 d : Decoder} {p n v bits : Nat} {ls : List Nat}
    (h : d0.HasRead c p ls d) (hv : v < 64) (hn : ls.length + n ≤ Config.maxCodes) :
    d0.HasRead c (p + bits) (ls ++ List.replicate n v) (d.tookLens c bits ls.length n v) where
  reader := by rw [Decoder.tookLens_br, h.reader, BitReader.advance_advance]
  imports := h.imports.trans ((d.imports_advance c bits).trans (Decoder.imports_setLens c _ ls.length n v))
  lens := by rw [Decoder.ctx_tookLens_self]; exact h.lens.setLens hv hn

/-- What the loop of `ImportRle(c)` starts from: a meta decoder with a table, and a reader that has read. -/
structure Decoder.RleStart (c : Fin 7) (metaLens : List Nat) (d0 : Decoder) : Prop where
  other : c ≠ 6
  size : (d0.ctx c).numcodes.toNat ≤ Config.maxCodes
  bits : (d0.ctx c).maxbits.toNat ≤ 32
  ready : (d0.ctx 6).Ready
  metaLens : (d0.ctx 6).lens = metaLens
  reader : d0.br.advance 0 = d0.br

/-- The result `r` is what the loop answers from the point where it has read `p` bits and has the lengths `ls`, the last
one `prev`. -/
def RleReaches (src : Memory) (c : Fin 7) (d0 : Decoder) (p : Nat) (ls : List Nat) (prev : Nat) (r : Res Decoder Unit) :
    Prop :=
  ∃ d fuel, r = importRleLoop src c fuel ls.length prev d ∧ d0.HasRead c p ls d ∧
    (d0.ctx c).numcodes.toNat ≤ ls.length + fuel ∧ prev ≤ (d0.ctx c).maxbits.toNat

section
variable {src : Memory} {c : Fin 7} {d0 : Decoder} {metaLens : List Nat} {r : Res Decoder Unit} {p prev : Nat}
  {ls : List Nat}

theorem Decoder.RleStart.reaches (h : d0.RleStart c metaLens) :
    RleReaches src c d0 0 [] 0 (importRleLoop src c (d0.ctx c).numcodes.toNat 0 0 d0) :=
  ⟨d0, _, rfl, ⟨h.reader.symm, Decoder.Imports.refl c d0, Context.startsWith_nil _⟩, Nat.le_add_left _ _, Nat.zero_le _⟩

/-- From a point where lengths are missing: what a token there leads to. -/
theorem RleReaches.token (hr : RleReaches src c d0 p ls prev r) (h : d0.RleStart c metaLens) {tok : Token}
    (htok : tok.readable metaLens) (hls : ls.length < (d0.ctx c).numcodes.toNat)
    (hh : d0.br.holdsAt src (d0.br.pos + p) (tok.bits metaLens)) :
    (((d0.ctx c).maxbits.toNat < tok.value prev ∨ (d0.ctx c).numcodes.toNat < ls.length + tok.count) →
        ∃ e, r = .raised .invalidData e) ∧
      (tok.value prev ≤ (d0.ctx c).maxbits.toNat → ls.length + tok.count ≤ (d0.ctx c).numcodes.toNat →
        RleReaches src c d0 (p + (tok.bits metaLens).length) (ls ++ List.replicate tok.count (tok.value prev))
          (tok.value prev) r) := by
  obtain ⟨hother, hsize, hbits, hready, rfl, -⟩ := h
  obtain ⟨d, fuel, rfl, hread, hfuel, hprev⟩ := hr
  have h6 : d.ctx 6 = d0.ctx 6 := hread.imports.others 6 hother.symm
  have hnum : (d.ctx c).numcodes = (d0.ctx c).numcodes := hread.imports.target.numcodes
  have hmax : (d.ctx c).maxbits = (d0.ctx c).maxbits := hread.imports.target.maxbits
  obtain ⟨fuel, rfl⟩ : ∃ n, fuel = n + 1 := ⟨fuel - 1, by omega⟩
  have hturn := importRleLoop_of_token (src := src) (c := c) (d := d) (tok := tok) (s := ls.length) (prev := prev)
    (by rwa [h6]) (by rwa [h6]) (by rwa [hnum]) (by rwa [hmax])
    (by rw [h6, hread.reader]; exact (BitReader.holdsAt_advance _ _ _ _ _).2 hh) fuel
  rw [h6, hnum, hmax] at hturn
  refine ⟨hturn.1, fun hv hn => ⟨_, fuel, ?_, hread.tookLens (by omega) (by omega), ?_, hv⟩⟩
  · rw [hturn.2 hv hn, List.length_append, List.length_replicate]
  · have hpos := tok.count_pos
    rw [List.length_append, List.length_replicate]
    omega

/-- Good tokens lead on to the lengths they convey (30_encoding R88). -/
theorem RleReaches.tokens {toks : List Token} (hr : RleReaches src c d0 p ls prev r) (h : d0.RleStart c metaLens)
    (htoks : ∀ tok ∈ toks, tok.readable metaLens)
    (hval : ∀ v ∈ expandTokens prev toks, v ≤ (d0.ctx c).maxbits.toNat)
    (hlen : (ls ++ expandTokens prev toks).length ≤ (d0.ctx c).numcodes.toNat)
    (hh : d0.br.holdsAt src (d0.br.pos + p) (toks.flatMap (Token.bits metaLens))) :
    RleReaches src c d0 (p + (toks.flatMap (Token.bits metaLens)).length) (ls ++ expandTokens prev toks)
      (lastValue prev toks) r := by
  induction toks generalizing p ls prev with
  | nil => simpa [expandTokens, lastValue] using hr
  | cons tok rest ih =>
    have hpos := tok.count_pos
    rw [List.forall_mem_cons] at htoks
    rw [List.flatMap_cons, BitReader.holdsAt_append] at hh
    rw [expandTokens_cons] at hval hlen ⊢
    rw [← List.append_assoc] at hlen ⊢
    rw [List.forall_mem_append] at hval
    have hlen' := hlen
    rw [List.length_append, List.length_append, List.length_replicate] at hlen'
    have hnext := (hr.token h htoks.1 (by omega) hh.1).2
      (hval.1 _ (List.mem_replicate.2 ⟨by omega, rfl⟩)) (by omega)
    rw [List.flatMap_cons, List.length_append, ← Nat.add_assoc]
    exact ih hnext htoks.2 hval.2 hlen (by rw [← Nat.add_assoc]; exact hh.2)

/-- From a point where all lengths are there the loop ends. -/
theorem RleReaches.full (hr : RleReaches src c d0 p ls prev r) (hls : ls.length = (d0.ctx c).numcodes.toNat) :
    ∃ d, r = .ok () d ∧ d0.HasRead c p ls d := by
  obtain ⟨d, fuel, rfl, hread, -, -⟩ := hr
  exact ⟨d, importRleLoop_of_full (by rw [hread.imports.target.numcodes, hls]) fuel prev, hread⟩

/-- From a point where lengths are missing and no meta code word comes next the loop fails. -/
theorem RleReaches.unmatched (hr : RleReaches src c d0 p ls prev r) (h : d0.RleStart c metaLens)
    (hls : ls.length < (d0.ctx c).numcodes.toNat) (hh : d0.br.unmatched src (d0.br.pos + p) metaLens) :
    ∃ e, r = .raised .invalidData e := by
  obtain ⟨hother, -, -, hready, rfl, -⟩ := h
  obtain ⟨d, fuel, rfl, hread, hfuel, -⟩ := hr
  have h6 : d.ctx 6 = d0.ctx 6 := hread.imports.others 6 hother.symm
  obtain ⟨fuel, rfl⟩ : ∃ n, fuel = n + 1 := ⟨fuel - 1, by omega⟩
  refine ⟨d, importRleLoop_of_unmatched (by rwa [h6]) (by rwa [hread.imports.target.numcodes]) ?_ fuel prev⟩
  rw [h6, hread.reader]
  exact fun u hu hu0 hmatch => hh u hu hu0 ((BitReader.holdsAt_advance _ _ _ _ _).1 hmatch)

end

/-! ## The import -/

section
variable {src : Memory} {c : Fin 7} {d : Decoder}

/-- The start of `ImportRle(c)`: the meta code is imported into context 6 (30_encoding R87), and the loop starts; an invalid
meta table ends the import. -/
theorem importRle_of_metaLens {metaLens : List Nat} (hc : c ≠ 6) (hsize : (d.ctx c).numcodes.toNat ≤ Config.maxCodes)
    (hbits : (d.ctx c).maxbits.toNat ≤ 32) (hlen : metaLens.length = 11) (hlt : ∀ v ∈ metaLens, v < 16)
    (hh : d.br.holdsAt src d.br.pos (metaLens.flatMap (msbBits 4))) :
    (lengthsValid 4 metaLens = true → ∃ d0, d0.RleStart c metaLens ∧ d0.br = d.br.advance 44 ∧
        (d.ctx c).Keeps (d0.ctx c) ∧
        importRle src c d =
          (importRleLoop src c (d0.ctx c).numcodes.toNat 0 0 d0).andThen fun _ e => buildTable c e) ∧
      (lengthsValid 4 metaLens = false → ∃ e, importRle src c d = .raised .invalidData e) := by
  have hnum : ((d.setValid c false).setMeta.ctx 6).numcodes = 11 := ctx_setMeta_numcodes _
  have hmax : ((d.setValid c false).setMeta.ctx 6).maxbits = 4 := ctx_setMeta_maxbits _
  have himport := importFlat_of_fields (src := src) (c := 6) (m := 4) (fields := metaLens)
    (d := (d.setValid c false).setMeta) (by rw [hmax]; rfl) (by decide) (by rw [hnum, hlen]; rfl) (by rw [hlen]; decide)
    (by rintro rfl; cases hlen) hlt hh
  refine ⟨fun hv => ?_, fun hv => ?_⟩
  · obtain ⟨d0, hd0, hbr, hlens⟩ := himport.1 hv
    have hframe := importFlat_imports src 6 (d.setValid c false).setMeta
    have hrle := importMeta_importsRle src hc d
    obtain ⟨-, hok, -⟩ := importFlat_spec src 6 (d.setValid c false).setMeta (by rw [hnum]; decide) (by rw [hmax]; decide)
    rw [hd0] at hframe hrle
    have hnum0 : (d0.ctx 6).numcodes = 11 := hframe.target.numcodes.trans hnum
    have hmax0 : (d0.ctx 6).maxbits = 4 := hframe.target.maxbits.trans hmax
    have hkeeps : (d.ctx c).Keeps (d0.ctx c) := hrle.target
    have hready : (d0.ctx 6).Ready :=
      ⟨by rw [hnum0]; decide, by rw [hmax0]; decide, by rw [hnum0]; decide, (hok d0 hd0).2⟩
    rw [hlen] at hbr
    refine ⟨d0, ⟨hc, by rwa [hkeeps.numcodes], by rwa [hkeeps.maxbits], hready, hlens, ?_⟩, hbr, hkeeps, ?_⟩
    · rw [hbr, BitReader.advance_advance, Nat.add_zero]
    · rw [importRle, hd0, Res.andThen_of_ok]
  · obtain ⟨e, he⟩ := himport.2 hv
    exact ⟨e, by rw [importRle, he, Res.andThen_of_raised]⟩

/-- The import of context `c` has read the tree: its loop started in `d0` and its loop's result `r` is the one from the
point the tree's tokens lead to. -/
structure TreeRead (src : Memory) (c : Fin 7) (d : Decoder) (tree : RleTree) (d0 : Decoder) (r : Res Decoder Unit) :
    Prop where
  metaLength : tree.metaLens.length = 11
  start : d0.RleStart c tree.metaLens
  reader : d0.br = d.br.advance 44
  keeps : (d.ctx c).Keeps (d0.ctx c)
  result : importRle src c d = r.andThen fun _ e => buildTable c e
  reaches : RleReaches src c d0 (tree.tokens.flatMap (Token.bits tree.metaLens)).length tree.lens
    (lastValue 0 tree.tokens) r

theorem treeRead_of_holdsAt {tree : RleTree} (hc : c ≠ 6) (hsize : (d.ctx c).numcodes.toNat ≤ Config.maxCodes)
    (hbits : (d.ctx c).maxbits.toNat ≤ 32) (ht : tree.readable)
    (hval : ∀ v ∈ tree.lens, v ≤ (d.ctx c).maxbits.toNat) (hlen : tree.lens.length ≤ (d.ctx c).numcodes.toNat)
    (hh : d.br.holdsAt src d.br.pos tree.bits) : ∃ d0 r, TreeRead src c d tree d0 r := by
  obtain ⟨h11, hmeta, htoks⟩ := ht
  have hlt : ∀ v ∈ tree.metaLens, v < 16 := fun v hv => by
    have := (lengthsValid_iff.1 hmeta).1 v hv
    omega
  rw [RleTree.bits_eq, BitReader.holdsAt_append] at hh
  obtain ⟨hfields, htokens⟩ := hh
  obtain ⟨d0, hstart, hbr, hkeeps, hresult⟩ := (importRle_of_metaLens hc hsize hbits h11 hlt hfields).1 hmeta
  have h44 : (tree.metaLens.flatMap (msbBits 4)).length = 44 := by simp [List.length_flatMap, h11]
  rw [h44] at htokens
  have hreach := hstart.reaches.tokens (src := src) hstart htoks (by rwa [hkeeps.maxbits]) (by rwa [hkeeps.numcodes])
    (by rw [hbr]; exact (BitReader.holdsAt_advance _ _ _ _ _).2 htokens)
  rw [Nat.zero_add, List.nil_append] at hreach
  exact ⟨d0, _, h11, hstart, hbr, hkeeps, hresult, hreach⟩

theorem TreeRead.holdsAt_iff {tree : RleTree} {d0 : Decoder} {r : Res Decoder Unit} (h : TreeRead src c d tree d0 r)
    (xs : List Bool) :
    d0.br.holdsAt src (d0.br.pos + (tree.tokens.flatMap (Token.bits tree.metaLens)).length) xs ↔
      d.br.holdsAt src (d.br.pos + tree.bits.length) xs := by
  rw [tree.length_bits h.metaLength, ← Nat.add_assoc, h.reader, BitReader.advance_pos, BitReader.holdsAt_advance]

/-- Where the loop fails the import fails. -/
theorem TreeRead.raised {tree : RleTree} {d0 : Decoder} {r : Res Decoder Unit} (h : TreeRead src c d tree d0 r)
    (hr : ∃ e, r = .raised .invalidData e) : ∃ e, importRle src c d = .raised .invalidData e := by
  obtain ⟨e, rfl⟩ := hr
  exact ⟨e, h.result⟩

/-- After the tree a token that the loop refuses makes the import fail. -/
theorem TreeRead.raised_of_token {tree : RleTree} {d0 : Decoder} {r : Res Decoder Unit} {tok : Token}
    (h : TreeRead src c d tree d0 r) (htok : tok.readable tree.metaLens)
    (hlt : tree.lens.length < (d.ctx c).numcodes.toNat)
    (hh : d.br.holdsAt src (d.br.pos + tree.bits.length) (tok.bits tree.metaLens))
    (hbad : (d.ctx c).maxbits.toNat < tok.value (lastValue 0 tree.tokens) ∨
      (d.ctx c).numcodes.toNat < tree.lens.length + tok.count) : ∃ e, importRle src c d = .raised .invalidData e := by
  have hturn := h.reaches.token h.start htok (by rwa [h.keeps.numcodes]) ((h.holdsAt_iff _).2 hh)
  rw [h.keeps.maxbits, h.keeps.numcodes] at hturn
  exact h.raised (hturn.1 hbad)

/-- After all lengths the import ends as `BuildTable` does (41_huffman R133, R138). -/
theorem TreeRead.full {tree : RleTree} {d0 : Decoder} {r : Res Decoder Unit} (h : TreeRead src c d tree d0 r)
    (hlen : tree.lens.length = (d.ctx c).numcodes.toNat) :
    (lengthsValid (d.ctx c).maxbits.toNat tree.lens = true → ∃ e, importRle src c d = .ok () e ∧
        e.br = d.br.advance tree.bits.length ∧ (e.ctx c).lens = tree.lens) ∧
      (lengthsValid (d.ctx c).maxbits.toNat tree.lens = false → ∃ e, importRle src c d = .raised .invalidData e) := by
  obtain ⟨e, rfl, hread⟩ := h.reaches.full (by rw [h.keeps.numcodes, hlen])
  have hkeeps : (d.ctx c).Keeps (e.ctx c) := h.keeps.trans hread.imports.target
  have hsize : (e.ctx c).numcodes.toNat ≤ Config.maxCodes := by
    rw [hread.imports.target.numcodes]
    exact h.start.size
  have hlens : (e.ctx c).lens = tree.lens := hread.lens.lens_eq hsize (by rw [hkeeps.numcodes, hlen])
  have hbuild := buildTable_of_lens (congrArg BitVec.toNat hkeeps.maxbits) hlens
  have hresult : importRle src c d = buildTable c e := h.result
  rw [hresult]
  refine ⟨fun hv => ?_, fun hv => ⟨e, hbuild.2 hv⟩⟩
  obtain ⟨f, hf, hbr, hflens⟩ := hbuild.1 hv
  refine ⟨f, hf, ?_, hflens⟩
  rw [hbr, hread.reader, h.reader, BitReader.advance_advance, tree.length_bits h.metaLength]

end

/-! ## The obligations -/

theorem ne_six_of_lt {k : Fin 7} (hk : k.val < 6) : k ≠ 6 := by
  rintro rfl
  exact absurd hk (by decide)

/-- Settles O28: the tokens lead the loop to all lengths, and `BuildTable` accepts them; the rest is the frame of the
import. -/
theorem rleImportRoundTrip : Obligations.RleImportRoundTrip := by
  intro s k tree hs hk hw h0 hlegal hh
  obtain ⟨hsize, hbits, -, -⟩ := hw
  obtain ⟨h11, hmeta, htoks, hlen, hvalid⟩ := hlegal
  have hc := ne_six_of_lt hk
  obtain ⟨d0, r, htree⟩ := treeRead_of_holdsAt hc hsize hbits ⟨h11, hmeta, htoks⟩ (lengthsValid_iff.1 hvalid).1
    (Nat.le_of_eq hlen) hh
  obtain ⟨d, hd, hbr, hlens⟩ := (htree.full hlen).1 hvalid
  obtain ⟨hframe, -, hok, -⟩ := importRle_spec s.src k s.dec hc hsize hbits
  obtain ⟨hset, hbuilt⟩ := hok d hd
  rw [hd, Res.state_ok] at hframe
  obtain ⟨-, hothers, hkeeps⟩ := hframe
  refine ⟨d, runsImport_hufImportRle.exec_of_ok hs hk h0 hd, ?_⟩
  rw [hbr]
  exact ⟨rfl, rfl, rfl, rfl, hothers, hset, hlens,
    Context.codeAt_of_built hbuilt (by rw [hkeeps.numcodes]; exact hsize) hlens, hkeeps.numcodes, hkeeps.maxbits,
    hkeeps.prev, hkeeps.run⟩

/-- Settles O29: from the point the good tokens lead to, the loop or `BuildTable` fails. -/
theorem rleImportRejectsBadStreams : Obligations.RleImportRejectsBadStreams := by
  intro s k hs hk
  refine ⟨fun h0 => runsImport_hufImportRle.raises_of_unconfigured hs hk h0, fun hw h0 => ?_⟩
  obtain ⟨hsize, hbits, -, -⟩ := hw
  have hc := ne_six_of_lt hk
  have hraises : (∃ e, importRle s.src k s.dec = .raised .invalidData e) →
      raises (.hufImportRle (BitVec.ofNat 4 k.val)) s .invalidData :=
    fun ⟨_, he⟩ => runsImport_hufImportRle.raises_of_raised hs hk h0 he
  refine ⟨fun metaLens h11 hlt hh hbad => hraises ((importRle_of_metaLens hc hsize hbits h11 hlt hh).2 hbad),
    fun tree h11 hmeta htoks hval hh => ?_⟩
  have hread (hle : tree.lens.length ≤ (s.dec.ctx k).numcodes.toNat) : ∃ d0 r, TreeRead s.src k s.dec tree d0 r :=
    treeRead_of_holdsAt hc hsize hbits ⟨h11, hmeta, htoks⟩ hval hle hh
  refine ⟨fun hlt hnone => ?_, fun hlt m hm hu hbig hword => ?_, fun hlt tok hf hu hlong hrun => ?_, fun heq hbad => ?_⟩
  · obtain ⟨d0, r, htree⟩ := hread hlt.le
    refine hraises (htree.raised (htree.reaches.unmatched htree.start (by rwa [htree.keeps.numcodes]) ?_))
    intro u hu11 hu0 hmatch
    exact hnone u (h11 ▸ hu11) hu0 ((htree.holdsAt_iff _).1 hmatch)
  · obtain ⟨d0, r, htree⟩ := hread hlt.le
    have hbits : Token.bits tree.metaLens (.literal m) = codeWord tree.metaLens m := List.append_nil _
    exact hraises (htree.raised_of_token (tok := .literal m) ⟨decide_eq_true hm, hu⟩ hlt (by rwa [hbits]) (.inl hbig))
  · obtain ⟨d0, r, htree⟩ := hread hlt.le
    refine hraises (htree.raised_of_token ⟨hf, hu⟩ hlt hrun (.inr ?_))
    rw [length_expandTokens, List.map_append, List.sum_append, ← length_expandTokens 0] at hlong
    simpa [RleTree.lens] using hlong
  · obtain ⟨d0, r, htree⟩ := hread heq.le
    exact hraises ((htree.full heq).2 hbad)

end Sys2Proof.Machine
end

section
/-! PROOFS. The statements about RLE_DECODE, RLE_FLUSH and RLE_RESET (42_huffman_rle R151 to R156). One RLE_DECODE outside a
run is one `DecodeOne`: a symbol below 256 moves the predictor, so that a list of them after RLE_RESET gives running sums. -/

namespace Sys2Proof.Machine

/-! ## The commands in a running machine -/

/-- RLE_DECODE in a running machine (42_huffman_rle R152). -/
theorem exec_rleDecode {s : State} {k : Fin 7} (hs : s.running) (hk : k.val < 6) :
    exec (.rleDecode (BitVec.ofNat 4 k.val)) s = .next (
      if (s.dec.ctx k).valid then runDecoder 0x30#8 s (rleDecodeOne s.src k) fun v t => t.setR 0 (v.setWidth 32)
      else raise .illegalCommand 0x30#8 s) := by
  have he : exec (.rleDecode (BitVec.ofNat 4 k.val)) s = execRleDecode (BitVec.ofNat 4 k.val) s := rfl
  rw [he, execRleDecode, command_of_running hs, withContext_ofNat _ k hk]

theorem exec_rleFlush {s : State} {k : Fin 7} (hs : s.running) (hk : k.val < 6) :
    exec (.rleFlush (BitVec.ofNat 4 k.val)) s = .next { s with dec := s.dec.clearRun k } := by
  have he : exec (.rleFlush (BitVec.ofNat 4 k.val)) s = execRleFlush (BitVec.ofNat 4 k.val) s := rfl
  rw [he, execRleFlush, command_of_running hs, withContext_ofNat _ k hk]

/-- The decoder after RLE_RESET of context `k` (42_huffman_rle R154). -/
def Decoder.clearRle (d : Decoder) (k : Fin 7) : Decoder := d.setCtx k { d.ctx k with run := 0, prev := 0 }

@[simp] theorem Decoder.clearRle_br (d : Decoder) (k : Fin 7) : (d.clearRle k).br = d.br := rfl

@[simp] theorem Decoder.ctx_clearRle_self (d : Decoder) (k : Fin 7) :
    (d.clearRle k).ctx k = { d.ctx k with run := 0, prev := 0 } := d.ctx_setCtx_self k _

theorem exec_rleReset {s : State} {k : Fin 7} (hs : s.running) (hk : k.val < 6) :
    exec (.rleReset (BitVec.ofNat 4 k.val)) s = .next { s with dec := s.dec.clearRle k } := by
  have he : exec (.rleReset (BitVec.ofNat 4 k.val)) s = execRleReset (BitVec.ofNat 4 k.val) s := rfl
  rw [he, execRleReset, command_of_running hs, withContext_ofNat _ k hk, Decoder.clearRle]

/-- Settles O34: `exec_rleFlush`, and writing one context leaves the reader and the others alone. -/
theorem rleFlushCutsTheRun : Obligations.RleFlushCutsTheRun := fun s k hs hk =>
  ⟨encode_context (mk := .rleFlush) (by simp [contextCommands]) k, _, exec_rleFlush hs hk, s.dec.clearRun_br k,
    fun _ hc => s.dec.ctx_clearRun_of_ne hc, s.dec.ctx_clearRun_self k⟩

/-- Settles O35: `exec_rleReset`, with the frame of one context again. -/
theorem rleResetStartsASession : Obligations.RleResetStartsASession := fun s k hs hk =>
  ⟨encode_context (mk := .rleReset) (by simp [contextCommands]) k, _, exec_rleReset hs hk, s.dec.clearRle_br k,
    fun _ hc => s.dec.ctx_setCtx_of_ne _ hc, s.dec.ctx_clearRle_self k⟩

/-! ## One RLE_DECODE outside a run -/

/-- The decoder after `RleDecodeOne` took a delta: the reader moved by `n` bits, the predictor of context `k` is `p`
(42_huffman_rle R151). -/
def Decoder.tookDelta (d : Decoder) (k : Fin 7) (n : Nat) (p : Byte) : Decoder :=
  (d.setReader (d.br.advance n)).setCtx k { d.ctx k with prev := p }

@[simp] theorem Decoder.tookDelta_br (d : Decoder) (k : Fin 7) (n : Nat) (p : Byte) :
    (d.tookDelta k n p).br = d.br.advance n := rfl

@[simp] theorem Decoder.ctx_tookDelta_self (d : Decoder) (k : Fin 7) (n : Nat) (p : Byte) :
    (d.tookDelta k n p).ctx k = { d.ctx k with prev := p } := Decoder.ctx_setCtx_self _ k _

/-- A symbol below 256 is added to the predictor, which is answered. -/
theorem rleDecodeOne_of_delta {src : Memory} {k : Fin 7} {d : Decoder} {u : Nat} (hw : (d.ctx k).wf)
    (hv : (d.ctx k).valid = true) (hr : (d.ctx k).run = 0) (hc : u < (d.ctx k).numcodes.toNat)
    (hu : (d.ctx k).lenAt u ≠ 0) (h : d.br.holdsAt src d.br.pos (codeWord (d.ctx k).lens u)) (hd : u < 256) :
    rleDecodeOne src k d = .ok ((d.ctx k).prev + BitVec.ofNat 8 u)
      (d.tookDelta k ((d.ctx k).lenAt u) ((d.ctx k).prev + BitVec.ofNat 8 u)) := by
  rw [rleDecodeOne, if_neg (by simp [hr]), decodeOne_of_codeWord hw hv hc hu h, Res.andThen_of_ok]
  simp only [if_pos hd, Decoder.ctx_setReader, Decoder.tookDelta]

theorem rleDecodeOne_of_unmatched {src : Memory} {k : Fin 7} {d : Decoder} (h : (d.ctx k).Ready)
    (hr : (d.ctx k).run = 0) (hh : d.br.unmatched src d.br.pos (d.ctx k).lens) :
    rleDecodeOne src k d = .raised .invalidData d := by
  rw [rleDecodeOne, if_neg (by simp [hr]), decodeOne_of_unmatched h hh, Res.andThen_of_raised]

/-- What `unmatched` says in the terms of the context. -/
theorem Context.Ready.unmatched_iff {x : Context} (h : x.Ready) (b : BitReader) (src : Memory) (p : Nat) :
    b.unmatched src p x.lens ↔
      ∀ u < x.numcodes.toNat, x.lenAt u ≠ 0 → ¬ b.holdsAt src p (codeWord x.lens u) := by
  rw [BitReader.unmatched, x.length_lens h.size]
  exact forall₂_congr fun u hu => by rw [x.getD_lens hu]

/-- A number as a byte, in the result register (42_huffman_rle R152). -/
theorem setWidth_ofNat_byte (n : Nat) : (BitVec.ofNat 8 n).setWidth 32 = BitVec.ofNat 32 (n % 256) := by
  apply BitVec.eq_of_toNat_eq
  simp

/-- Settles O33: no table, a run, and the three ends of `DecodeOne`. -/
theorem rleDecodeReturnsTheNextByte : Obligations.RleDecodeReturnsTheNextByte := by
  intro s k hs hk
  refine ⟨encode_context (mk := .rleDecode) (by simp [contextCommands]) k, fun hv => ?_, fun hv hr => ?_,
    fun hw hv hr => ⟨fun u hc hu hh => ⟨fun hd => ?_, fun he => ?_⟩, fun hnone => ?_⟩⟩
  · exact ⟨_, exec_rleDecode hs hk, by rw [hv]; rfl⟩
  · exact exec_rleDecode_of_ok hs hk hv (rleDecodeOne_of_run hr)
  · have hsum : BitVec.ofNat 8 ((s.dec.ctx k).prev.toNat + u) = (s.dec.ctx k).prev + BitVec.ofNat 8 u := by
      rw [BitVec.ofNat_add, BitVec.ofNat_toNat, BitVec.setWidth_eq]
    rw [exec_rleDecode_of_ok hs hk hv (rleDecodeOne_of_delta hw hv hr hc hu hh hd), ← setWidth_ofNat_byte, hsum]
    rfl
  · obtain ⟨code, rfl⟩ := Nat.exists_eq_add_of_le he
    rw [exec_rleDecode_of_ok hs hk hv (rleDecodeOne_of_escape hw hv hr hc hu hh), Nat.add_sub_cancel_left]
    rfl
  · have hready := Context.ready_of_wf hw hv
    have hraised := rleDecodeOne_of_unmatched hready hr ((hready.unmatched_iff _ _ _).2 hnone)
    exact ⟨_, exec_rleDecode hs hk, by rw [if_pos hv, runDecoder_of_raised hraised]; exact ⟨rfl, rfl⟩⟩

/-! ## A list of deltas -/

/-- The running sums of a list begin with its first number, which the others contain. -/
theorem map_range_sum_take_cons {α : Type} (f : Nat → α) (u : Nat) (us : List Nat) :
    ((List.range (u :: us).length).map fun i => f ((u :: us).take (i + 1)).sum) =
      f u :: (List.range us.length).map fun i => f (u + (us.take (i + 1)).sum) := by
  rw [List.length_cons, List.range_succ_eq_map]
  simp [Function.comp_def]

section
variable {x : Context} {s : State} {k : Fin 7}

/-- RLE_DECODE of a delta in context `x`, the predictor `p` modulo 256. -/
theorem exec_rleDecode_of_delta {p u : Nat} (hs : s.running) (hk : k.val < 6) (hw : x.wf) (hv : x.valid = true)
    (hr : x.run = 0) (hx : s.dec.ctx k = { x with prev := BitVec.ofNat 8 p })
    (hu : u < x.lens.length ∧ x.lens.getD u 0 ≠ 0) (hd : u < 256)
    (hh : s.dec.br.holdsAt s.src s.dec.br.pos (codeWord x.lens u)) :
    exec (.rleDecode (BitVec.ofNat 4 k.val)) s =
      .next (s.afterByte (s.dec.tookDelta k (x.lenAt u) (BitVec.ofNat 8 (p + u))) (BitVec.ofNat 8 (p + u))) := by
  obtain ⟨hlt, h0⟩ := hu
  rw [x.length_lens hw.1] at hlt
  rw [x.getD_lens hlt] at h0
  have hone := rleDecodeOne_of_delta (src := s.src) (k := k) (d := s.dec) (u := u)
  rw [hx] at hone
  rw [BitVec.ofNat_add]
  exact exec_rleDecode_of_ok hs hk (by rw [hx]; exact hv) (hone hw hv hr hlt h0 hh hd)

/-- As many RLE_DECODEs as the stream holds code words of deltas answer the predictor plus the running sums. -/
theorem runMany_rleDecode_deltas {syms : List Nat} {p : Nat} (hs : s.running) (hk : k.val < 6) (hw : x.wf)
    (hv : x.valid = true) (hr : x.run = 0) (hx : s.dec.ctx k = { x with prev := BitVec.ofNat 8 p })
    (hu : usedSymbols x.lens syms) (hd : ∀ u ∈ syms, u < 256)
    (hh : s.dec.br.holdsAt s.src s.dec.br.pos (syms.flatMap (codeWord x.lens))) :
    ∃ t, runMany (.rleDecode (BitVec.ofNat 4 k.val)) syms.length s =
        some ((List.range syms.length).map fun i => BitVec.ofNat 32 ((p + (syms.take (i + 1)).sum) % 256), t) ∧
      t.dec.br.pos = s.dec.br.pos + (syms.map x.lenAt).sum := by
  induction syms generalizing s p with
  | nil => exact ⟨s, rfl, rfl⟩
  | cons u syms ih =>
    obtain ⟨hu0, hus⟩ := List.forall_mem_cons.1 hu
    obtain ⟨hd0, hds⟩ := List.forall_mem_cons.1 hd
    obtain ⟨hfirst, hrest⟩ := BitReader.holdsAt_append.1 hh
    have hlen : (codeWord x.lens u).length = x.lenAt u := by
      rw [codeWord, length_msbBits, x.getD_lens (x.length_lens hw.1 ▸ hu0.1)]
    rw [hlen] at hrest
    have hone := exec_rleDecode_of_delta hs hk hw hv hr hx hu0 hd0 hfirst
    obtain ⟨t, hrun, hpos⟩ := ih (p := p + u)
      (s := s.afterByte (s.dec.tookDelta k (x.lenAt u) (BitVec.ofNat 8 (p + u))) (BitVec.ofNat 8 (p + u)))
      hs (by rw [State.afterByte_dec, Decoder.ctx_tookDelta_self, hx]) hus hds
      ((BitReader.holdsAt_advance _ _ _ _ _).2 hrest)
    refine ⟨t, ?_, ?_⟩
    · rw [map_range_sum_take_cons (fun n => BitVec.ofNat 32 ((p + n) % 256)), List.length_cons, runMany_succ hone,
        hrun, Option.map_some, State.afterByte_result, setWidth_ofNat_byte]
      simp only [Nat.add_assoc]
    · rw [hpos, State.afterByte_dec, Decoder.tookDelta_br, BitReader.advance_pos, List.map_cons, List.sum_cons,
        Nat.add_assoc]

end

/-- Settles O37: RLE_RESET clears the predictor and the run and keeps the table and the reader, so the sums start at 0. -/
theorem rleDeltasSumUp : Obligations.RleDeltasSumUp := by
  intro s k syms hs hk hw hv hu hd hh
  obtain ⟨hsize, hbits, -, hval⟩ := hw
  obtain ⟨u, hrun, hpos⟩ := runMany_rleDecode_deltas (s := { s with dec := s.dec.clearRle k }) (p := 0)
    (x := { s.dec.ctx k with run := 0 }) hs hk ⟨hsize, hbits, Nat.zero_le _, hval⟩ hv rfl
    (s.dec.ctx_clearRle_self k) hu hd hh
  simp only [Nat.zero_add] at hrun
  exact ⟨_, u, exec_rleReset hs hk, hrun, hpos⟩

end Sys2Proof.Machine
end

section
/-! PROOFS. The statements about the CD frame unit (43_cd_frame). A column or diagonal of the ECC is a code word where its two
parity bytes are the ones `EccPQ` computes from the bytes it covers (`parity_isCodeWord`), and these are fixed by the sector
bytes below the parity; so the memory after `EccGen` holds the parity of its own bytes (`eccGen_parityHeld`), whatever it held
before, and two sectors with the same payload and their own parity are the same (`AgreesOn.of_parityHeld`). -/

namespace Sys2Proof.Machine

/-! ## The field (43_cd_frame R168) -/

theorem mul2_toNat (x : Byte) : (mul2 x).toNat = (2 * x.toNat ^^^ (if 128 ≤ x.toNat then 0x11D else 0)) % 256 := by
  revert x; decide

theorem mul2_xor (x y : Byte) : mul2 (x ^^^ y) = mul2 x ^^^ mul2 y := by
  have hmask (a b : Bool) :
      (if a ^^ b then 0x1D else 0 : Byte) = (if a then 0x1D else 0) ^^^ (if b then 0x1D else 0) := by
    cases a <;> cases b <;> rfl
  rw [mul2, mul2, mul2, BitVec.shiftLeft_xor_distrib, BitVec.msb_xor, hmask]
  ac_rfl

theorem div3_triple (x : Byte) : div3 (x ^^^ mul2 x) = x := by revert x; decide

theorem triple_div3 (x : Byte) : div3 x ^^^ mul2 (div3 x) = x := by revert x; decide

/-- Settles O43: a byte has 256 values, over which the doubling and the two directions of the division are checked. -/
theorem fieldDivisionUndoesTripling : Obligations.FieldDivisionUndoesTripling := fun x =>
  ⟨mul2_toNat x, div3_triple x, triple_div3 x⟩

/-! ## Bounds -/

@[simp] theorem Memory.inBounds_iff (m : Memory) (a n : Nat) : m.inBounds a n = true ↔ a + n ≤ m.size :=
  decide_eq_true_iff

@[simp] theorem Memory.inBounds_eq_false_iff (m : Memory) (a n : Nat) : m.inBounds a n = false ↔ m.size < a + n :=
  decide_eq_false_iff_not.trans Nat.not_le

/-! ## What the commands do in a running machine -/

/-- CD_HDR in a running machine: its errors in their order, then the results (43_cd_frame R160). -/
theorem exec_cdHdr {s : State} (hs : s.running) :
    exec .cdHdr s = .next (
      if s.src.inBounds (s.opA 0) (s.opA 1) = false then raise .readError 0x40#8 s
      else if s.opA 2 % 2448 ≠ 0 then raise .invalidData 0x40#8 s
      else if cdHeaderBytes (s.opA 2) > s.opA 1 then raise .invalidData 0x40#8 s
      else if cdHeaderBytes (s.opA 2) + cdBaseLength s.src (s.opA 0) (s.opA 2) > s.opA 1 then
        raise .invalidData 0x40#8 s
      else
        s.setResults (BitVec.ofNat 32 (s.opA 2 / 2448)) (BitVec.ofNat 32 (cdHeaderBytes (s.opA 2)))
          (BitVec.ofNat 32 (cdBaseLength s.src (s.opA 0) (s.opA 2)))
          (BitVec.ofNat 32 (s.opA 1 - cdHeaderBytes (s.opA 2) - cdBaseLength s.src (s.opA 0) (s.opA 2)))) := by
  rw [show exec .cdHdr s = execCdHdr s from rfl, execCdHdr, command_of_running hs]

theorem exec_cdAssemble {s : State} (hs : s.running) :
    exec .cdAssemble s = .next (
      if assembleFits s then { s with dst := assembleLoop s.src s.sec s.sub (s.opA 1) (s.opA 0) 0 s.dst }
      else errorEntry .readError 0x41#8 0 (2448 * s.opA 0) s) := by
  rw [show exec .cdAssemble s = execCdAssemble s from rfl, execCdAssemble, command_of_running hs]

theorem exec_cdSync {s : State} (hs : s.running) :
    exec .cdSync s = .next (
      if s.dst.inBounds (s.opA 0) 12 then { s with dst := writeSync (s.opA 0) s.dst }
      else errorEntry .readError 0x42#8 (s.opA 0) 12 s) := by
  rw [show exec .cdSync s = execCdSync s from rfl, execCdSync, command_of_running hs]

theorem exec_cdEcc {s : State} (hs : s.running) :
    exec .cdEcc s = .next (
      if s.dst.inBounds (s.opA 0) 2352 then { s with dst := eccGen (s.opA 0) s.dst }
      else errorEntry .readError 0x43#8 (s.opA 0 + 2076) 276 s) := by
  rw [show exec .cdEcc s = execCdEcc s from rfl, execCdEcc, command_of_running hs]

theorem exec_cdEcc_inside {s : State} (hs : s.running) (h : s.opA 0 + 2352 ≤ s.dst.size) :
    exec .cdEcc s = .next { s with dst := eccGen (s.opA 0) s.dst } := by
  rw [exec_cdEcc hs, if_pos (by simpa using h)]

theorem exec_cdEcc_eq_next {s t : State} (hs : s.running) (h : s.opA 0 + 2352 ≤ s.dst.size)
    (ht : exec .cdEcc s = .next t) : t.running ∧ t.opA 0 = s.opA 0 ∧ t.dst = eccGen (s.opA 0) s.dst := by
  rw [exec_cdEcc_inside hs h, Host.Outcome.next.injEq] at ht
  generalize eccGen (s.opA 0) s.dst = m at ht ⊢
  subst ht
  exact ⟨hs, rfl, rfl⟩

/-! ## The payload header (30_encoding R95) -/

/-- The first length is a big-endian field of 2 bytes in a hunk below 65536 bytes, of 3 from there (30_encoding R95). -/
theorem cdBaseLength_eq (src : Memory) (payload destlen : Nat) :
    cdBaseLength src payload destlen =
      if destlen < 65536 then halfAt src (payload + ceil8 (destlen / 2448))
      else 65536 * (src.byte (payload + ceil8 (destlen / 2448))).toNat +
        halfAt src (payload + ceil8 (destlen / 2448) + 1) := by
  simp only [cdBaseLength, cdLenBytes]
  split
  · exact src.readBE_two _
  · simp only [Memory.readBE, halfAt, Nat.add_zero, Nat.add_assoc, Nat.reduceAdd]
    omega

/-- Settles O38: the names of the statement are those of `exec_cdHdr`, whose branches are its cases. -/
theorem cdHdrParsesThePayloadHeader : Obligations.CdHdrParsesThePayloadHeader := by
  refine ⟨rfl, fun s frames eccbytes lenbytes base hs hframes hecc hlen hbase => ?_⟩
  subst hframes
  have hhdr : eccbytes + lenbytes = cdHeaderBytes (s.opA 2) := by rw [hecc, hlen]; rfl
  have hfirst : base = cdBaseLength s.src (s.opA 0) (s.opA 2) := by
    rw [hbase, hecc, cdBaseLength_eq]; rfl
  rw [raises, raises, hhdr, hfirst, exec_cdHdr hs]
  refine ⟨fun hout => ?_, fun hin => ⟨fun hbad => ?_, fun hwhole hfit => ?_⟩⟩
  · exact ⟨_, rfl, by rw [if_pos (by simpa using hout)]; rfl⟩
  · refine ⟨_, rfl, ?_⟩
    rw [if_neg (by simpa using hin)]
    by_cases hwhole : s.opA 2 % 2448 ≠ 0
    · rw [if_pos hwhole]; rfl
    · have hlong := hbad.resolve_left hwhole
      rw [if_neg hwhole, if_pos hlong, ite_self]; rfl
  · rw [if_neg (by simpa using hin), if_neg (not_not.2 hwhole), if_neg (by omega), if_neg (by omega)]
    rfl

/-! ## The sync pattern (30_encoding R98) -/

theorem getD_syncPattern : ∀ i < 12, syncPattern.getD i 0 = if i = 0 ∨ i = 11 then 0x00 else 0xFF := by decide

theorem byte_writeSync {m : Memory} {o : Nat} (h : o + 12 ≤ m.size) :
    ∀ i < 12, (writeSync o m).byte (o + i) = if i = 0 ∨ i = 11 then 0x00 else 0xFF := fun i hi =>
  (m.byte_writeBytes_of_mem (bs := syncPattern) hi (by omega)).trans (getD_syncPattern i hi)

/-- Settles O39: `exec_cdSync`, with the bytes and the frame of `WriteSync`. -/
theorem cdSyncWritesThePattern : Obligations.CdSyncWritesThePattern := by
  refine ⟨rfl, fun s hs => ⟨fun hout => ⟨_, exec_cdSync hs, ?_⟩, fun hin => ?_⟩⟩
  · rw [if_neg (by simpa using hout)]; rfl
  · have hw := writeSync_writes (s.opA 0) s.dst
    refine ⟨_, ?_, hw.size, byte_writeSync hin, hw.outside⟩
    rw [exec_cdSync hs, if_pos (by simpa using hin)]

/-! ## Sectors that agree -/

/-- Bytes `lo` to `hi - 1` of the sector at `o` in `m` are those of the sector at `o'` in `m'`. -/
def AgreesOn (lo hi : Nat) (m : Memory) (o : Nat) (m' : Memory) (o' : Nat) : Prop :=
  ∀ i, lo ≤ i → i < hi → m.byte (o + i) = m'.byte (o' + i)

section
variable {lo mid hi lo' hi' o o' : Nat} {m m' : Memory}

theorem AgreesOn.mono (h : AgreesOn lo hi m o m' o') (hlo : lo ≤ lo') (hhi : hi' ≤ hi) : AgreesOn lo' hi' m o m' o' :=
  fun i h1 h2 => h i (by omega) (by omega)

theorem AgreesOn.symm (h : AgreesOn lo hi m o m' o') : AgreesOn lo hi m' o' m o := fun i h1 h2 => (h i h1 h2).symm

theorem AgreesOn.trans {m'' : Memory} {o'' : Nat} (h : AgreesOn lo hi m o m' o') (h' : AgreesOn lo hi m' o' m'' o'') :
    AgreesOn lo hi m o m'' o'' := fun i h1 h2 => (h i h1 h2).trans (h' i h1 h2)

theorem AgreesOn.append (h : AgreesOn lo mid m o m' o') (h' : AgreesOn mid hi m o m' o') : AgreesOn lo hi m o m' o' :=
  fun i h1 h2 => if hm : i < mid then h i h1 hm else h' i (by omega) h2

theorem Memory.Writes.agreesOn {a n : Nat} (h : m.Writes a n m') (hd : o + hi ≤ a ∨ a + n ≤ o + lo) :
    AgreesOn lo hi m' o m o :=
  fun _ h1 h2 => h.outside _ (by omega)

end

/-! ## The parity of a list of bytes (43_cd_frame R170) -/

/-- The two parity bytes that complete the covered bytes `ws` to a code word (43_cd_frame R170). -/
def parityOf (ws : List Byte) : Byte × Byte :=
  let p := div3 (mul2 (mul2 (wordWeighted ws)) ^^^ wordXor ws)
  (p, p ^^^ wordXor ws)

/-- The last two terms of a weighted sum cancel the others where the first parity byte solves `3 p = 2 a + b`. -/
theorem weighted_eq_zero {a b p : Byte} (h : p ^^^ mul2 p = mul2 a ^^^ b) : mul2 (a ^^^ p) ^^^ (p ^^^ b) = 0 := by
  calc mul2 (a ^^^ p) ^^^ (p ^^^ b) = (mul2 a ^^^ b) ^^^ (p ^^^ mul2 p) := by rw [mul2_xor]; ac_rfl
    _ = 0 := by rw [h, BitVec.xor_self]; rfl

theorem wordXor_parityOf (ws : List Byte) : wordXor (ws ++ [(parityOf ws).1, (parityOf ws).2]) = 0 := by
  have hpair (p q : Byte) : wordXor (ws ++ [p, q]) = wordXor ws ^^^ p ^^^ q := by simp [wordXor]
  rw [hpair, parityOf, BitVec.xor_comm (div3 _) (wordXor ws), BitVec.xor_self]
  rfl

theorem wordWeighted_parityOf (ws : List Byte) : wordWeighted (ws ++ [(parityOf ws).1, (parityOf ws).2]) = 0 := by
  have hpair (p q : Byte) : wordWeighted (ws ++ [p, q]) = mul2 (mul2 (wordWeighted ws) ^^^ p) ^^^ q := by
    simp [wordWeighted]
  rw [hpair]
  exact weighted_eq_zero (triple_div3 _)

/-! ## The bytes a column or diagonal covers (43_cd_frame R169, R170) -/

/-- The `n` sector bytes from index `index` on in steps of `inc`, modulo `size` (43_cd_frame R170). -/
def eccBytesFrom (m : Memory) (o inc size n index : Nat) : List Byte :=
  (List.range n).map fun k => eccByte m o ((index + inc * k) % size)

/-- The bytes that column or diagonal `major` covers, in order (43_cd_frame R170). -/
def eccCovered (m : Memory) (o majors minors mult inc major : Nat) : List Byte :=
  eccBytesFrom m o inc (majors * minors) minors (eccStart major mult)

/-- What makes the numbers of an `EccPQ` fit a sector: it starts and steps within the bytes it covers, the four header bytes
are among them, and the parity lies behind them. -/
structure EccLayout (majors minors mult inc dest : Nat) : Prop where
  start_lt : ∀ major < majors, eccStart major mult < majors * minors
  inc_le : inc ≤ majors * minors
  header : 4 ≤ majors * minors
  below : 12 + majors * minors ≤ dest

theorem eccLayout_columns : EccLayout 86 24 2 86 2076 :=
  ⟨fun major _ => by rw [eccStart]; omega, by decide, by decide, by decide⟩

theorem eccLayout_diagonals : EccLayout 52 43 86 88 2248 :=
  ⟨fun major _ => by rw [eccStart]; omega, by decide, by decide, by decide⟩

theorem eccNext_eq_mod {index inc size : Nat} (hi : index < size) (hinc : inc ≤ size) :
    eccNext index inc size = (index + inc) % size := by
  rw [eccNext]
  split
  · next h => rw [Nat.mod_eq_sub_mod h, Nat.mod_eq_of_lt (by omega)]
  · next h => rw [Nat.mod_eq_of_lt (by omega)]

theorem eccBytesFrom_succ (m : Memory) (o n : Nat) {inc size index : Nat} (hi : index < size) (hinc : inc ≤ size) :
    eccBytesFrom m o inc size (n + 1) index =
      eccByte m o index :: eccBytesFrom m o inc size n (eccNext index inc size) := by
  have hstep (k : Nat) : (eccNext index inc size + inc * k) % size = (index + inc * (k + 1)) % size := by
    rw [eccNext_eq_mod hi hinc, Nat.mod_add_mod, Nat.add_assoc, Nat.mul_succ, Nat.add_comm inc]
  rw [eccBytesFrom, eccBytesFrom, List.range_succ_eq_map]
  simp [Function.comp_def, hstep, Nat.mod_eq_of_lt hi]

/-- The loop of `EccPQ` takes the covered bytes into the two sums of a code word, of which it holds the first one doubled. -/
theorem eccSums_eq_foldl (m : Memory) (o : Nat) {inc size : Nat} (hinc : inc ≤ size) {n index : Nat}
    (hi : index < size) (a b : Byte) :
    eccSums m o inc size n index (mul2 a) b =
      (mul2 ((eccBytesFrom m o inc size n index).foldl (fun a w => mul2 a ^^^ w) a),
        (eccBytesFrom m o inc size n index).foldl (fun a w => a ^^^ w) b) := by
  induction n generalizing index a b with
  | zero => rfl
  | succ n ih =>
    have hnext : eccNext index inc size < size := eccNext_eq_mod hi hinc ▸ Nat.mod_lt _ (by omega)
    rw [eccSums, ih hnext, eccBytesFrom_succ m o n hi hinc]
    rfl

section
variable {majors minors mult inc dest major : Nat} {m m' : Memory} {o o' : Nat}

/-- The parity is a function of the covered bytes. -/
theorem eccParity_eq (hL : EccLayout majors minors mult inc dest) (h : major < majors) :
    eccParity m o minors mult inc (majors * minors) major =
      parityOf (eccCovered m o majors minors mult inc major) := by
  have hsums := eccSums_eq_foldl m o hL.inc_le (n := minors) (hL.start_lt major h) 0 0
  rw [show mul2 0 = 0 from rfl] at hsums
  rw [eccParity, hsums]
  rfl

theorem eccByte_congr {i n : Nat} (h : AgreesOn 12 (12 + n) m o m' o') (hn : 4 ≤ n) (hi : i < n) :
    eccByte m o i = eccByte m' o' i := by
  rw [eccByte, eccByte, h 15 (by omega) (by omega), Nat.add_assoc, Nat.add_assoc, h (12 + i) (by omega) (by omega)]

theorem eccCovered_congr (hL : EccLayout majors minors mult inc dest)
    (h : AgreesOn 12 (12 + majors * minors) m o m' o') :
    eccCovered m o majors minors mult inc major = eccCovered m' o' majors minors mult inc major :=
  have hpos : 0 < majors * minors := Nat.lt_of_lt_of_le (by decide) hL.header
  List.map_congr_left fun _ _ => eccByte_congr h hL.header (Nat.mod_lt _ hpos)

theorem eccParity_congr (hL : EccLayout majors minors mult inc dest) (h : AgreesOn 12 (12 + majors * minors) m o m' o')
    (hm : major < majors) : eccParity m o minors mult inc (majors * minors) major =
      eccParity m' o' minors mult inc (majors * minors) major := by
  rw [eccParity_eq hL hm, eccParity_eq hL hm, eccCovered_congr hL h]

end

/-! ## Sectors that hold their parity -/

/-- The two parity bytes of column or diagonal `major` in the sector at `o` are those `EccPQ` computes there. -/
def ParityAt (m : Memory) (o majors minors mult inc dest major : Nat) : Prop :=
  (m.byte (o + dest + major), m.byte (o + dest + majors + major)) =
    eccParity m o minors mult inc (majors * minors) major

section
variable {majors minors mult inc dest major : Nat} {m m' : Memory} {o o' : Nat}

theorem eccCodeWord_eq : eccCodeWord m o majors minors mult inc dest major =
    eccCovered m o majors minors mult inc major ++
      [m.byte (o + dest + major), m.byte (o + dest + majors + major)] := rfl

/-- A column or diagonal with its computed parity is a code word. -/
theorem parity_isCodeWord (hL : EccLayout majors minors mult inc dest) (hm : major < majors)
    (h : ParityAt m o majors minors mult inc dest major) :
    wordXor (eccCodeWord m o majors minors mult inc dest major) = 0 ∧
      wordWeighted (eccCodeWord m o majors minors mult inc dest major) = 0 := by
  obtain ⟨hp, hq⟩ := Prod.mk.inj (h.trans (eccParity_eq hL hm))
  rw [eccCodeWord_eq, hp, hq]
  exact ⟨wordXor_parityOf _, wordWeighted_parityOf _⟩

theorem ParityAt.congr (hL : EccLayout majors minors mult inc dest) (hm : major < majors)
    (hcov : AgreesOn 12 (12 + majors * minors) m' o' m o) (hpar : AgreesOn dest (dest + 2 * majors) m' o' m o)
    (h : ParityAt m o majors minors mult inc dest major) : ParityAt m' o' majors minors mult inc dest major := by
  have hp := hpar (dest + major) (by omega) (by omega)
  have hq := hpar (dest + majors + major) (by omega) (by omega)
  simp only [← Nat.add_assoc] at hp hq
  rw [ParityAt, hp, hq, h, eccParity_congr hL hcov hm]

/-- The parity bytes are determined by the covered bytes. -/
theorem AgreesOn.of_parityAt (hL : EccLayout majors minors mult inc dest)
    (hcov : AgreesOn 12 (12 + majors * minors) m o m' o')
    (h : ∀ major < majors, ParityAt m o majors minors mult inc dest major)
    (h' : ∀ major < majors, ParityAt m' o' majors minors mult inc dest major) :
    AgreesOn dest (dest + 2 * majors) m o m' o' := by
  have hsame (major : Nat) (hm : major < majors) :=
    Prod.mk.inj (((h major hm).trans (eccParity_congr hL hcov hm)).trans (h' major hm).symm)
  intro i h1 h2
  by_cases hrow : i < dest + majors
  · obtain ⟨major, rfl⟩ := Nat.exists_eq_add_of_le h1
    rw [← Nat.add_assoc, ← Nat.add_assoc]
    exact (hsame major (by omega)).1
  · obtain ⟨major, rfl⟩ := Nat.exists_eq_add_of_le (Nat.not_lt.1 hrow)
    simp only [← Nat.add_assoc]
    exact (hsame major (by omega)).2

end

/-! ## The generator leaves a sector that holds its parity -/

/-- One turn of the loop of `EccPQ`: both parity bytes of column or diagonal `major` are written (43_cd_frame R170). -/
def putParity (o majors minors mult inc dest major : Nat) (m : Memory) : Memory :=
  let (p, q) := eccParity m o minors mult inc (majors * minors) major
  (m.setByte (o + dest + major) p).setByte (o + dest + majors + major) q

section
variable {o majors minors mult inc dest major : Nat} {m : Memory}

theorem eccPQLoop_succ (n : Nat) : eccPQLoop o majors minors mult inc dest (n + 1) major m =
    eccPQLoop o majors minors mult inc dest n (major + 1) (putParity o majors minors mult inc dest major m) := rfl

theorem putParity_writes (hm : major < majors) :
    m.Writes (o + dest) (2 * majors) (putParity o majors minors mult inc dest major m) :=
  eccPQLoop_writes o majors minors mult inc dest 1 major m hm

/-- No turn changes a covered byte. -/
theorem putParity_agreesOn (hL : EccLayout majors minors mult inc dest) (hm : major < majors) :
    AgreesOn 12 (12 + majors * minors) (putParity o majors minors mult inc dest major m) o m o :=
  (putParity_writes hm).agreesOn (.inl (by have := hL.below; omega))

theorem byte_putParity_of_ne {j x : Nat} (hx : x = o + dest + j ∨ x = o + dest + majors + j) (hj : j < majors)
    (hm : major < majors) (hne : j ≠ major) : (putParity o majors minors mult inc dest major m).byte x = m.byte x := by
  rw [putParity, Memory.byte_setByte_of_ne _ _ (by omega), Memory.byte_setByte_of_ne _ _ (by omega)]

theorem parityAt_putParity_self (hL : EccLayout majors minors mult inc dest) (hm : major < majors)
    (hs : o + dest + 2 * majors ≤ m.size) :
    ParityAt (putParity o majors minors mult inc dest major m) o majors minors mult inc dest major := by
  rw [ParityAt, eccParity_congr hL (putParity_agreesOn hL hm) hm, putParity,
    Memory.byte_setByte_of_ne _ _ (by omega), Memory.byte_setByte_same _ _ (by omega),
    Memory.byte_setByte_same _ _ (by rw [Memory.size_setByte]; omega)]

theorem parityAt_putParity_of_ne (hL : EccLayout majors minors mult inc dest) (hm : major < majors) {j : Nat}
    (hj : j < majors) (hne : j ≠ major) (h : ParityAt m o majors minors mult inc dest j) :
    ParityAt (putParity o majors minors mult inc dest major m) o majors minors mult inc dest j := by
  rw [ParityAt, eccParity_congr hL (putParity_agreesOn hL hm) hj, byte_putParity_of_ne (.inl rfl) hj hm hne,
    byte_putParity_of_ne (.inr rfl) hj hm hne]
  exact h

/-- The loop of `EccPQ` keeps the parity of the columns or diagonals before `major` and adds that of the next `n`. -/
theorem eccPQLoop_parityAt (hL : EccLayout majors minors mult inc dest) {n : Nat} (hn : major + n ≤ majors)
    (hs : o + dest + 2 * majors ≤ m.size) (h : ∀ j < major, ParityAt m o majors minors mult inc dest j) :
    ∀ j < major + n, ParityAt (eccPQLoop o majors minors mult inc dest n major m) o majors minors mult inc dest j := by
  induction n generalizing major m with
  | zero => exact h
  | succ n ih =>
    have hm : major < majors := by omega
    rw [eccPQLoop_succ, show major + (n + 1) = major + 1 + n by omega]
    refine ih (by omega) (by rw [(putParity_writes hm).size]; exact hs) fun j hj => ?_
    by_cases hlast : j = major
    · rw [hlast]; exact parityAt_putParity_self hL hm hs
    · exact parityAt_putParity_of_ne hL hm (by omega) hlast (h j (by omega))

theorem eccPQ_parityAt (hL : EccLayout majors minors mult inc dest) (hs : o + dest + 2 * majors ≤ m.size) :
    ∀ j < majors, ParityAt (eccPQ o majors minors mult inc dest m) o majors minors mult inc dest j := by
  simpa [eccPQ] using eccPQLoop_parityAt hL (n := majors) (major := 0) (by omega) hs (by omega)

end

/-- The sector at `o` holds the parity of its columns and of its diagonals (43_cd_frame R170). -/
structure ParityHeld (m : Memory) (o : Nat) : Prop where
  columns : ∀ major < 86, ParityAt m o 86 24 2 86 2076 major
  diagonals : ∀ major < 52, ParityAt m o 52 43 86 88 2248 major

section
variable {m m' : Memory} {o o' : Nat}

theorem ParityHeld.eccHolds (h : ParityHeld m o) : eccHolds m o :=
  ⟨fun major hm => parity_isCodeWord eccLayout_columns hm (h.columns major hm),
    fun major hm => parity_isCodeWord eccLayout_diagonals hm (h.diagonals major hm)⟩

theorem ParityHeld.congr (h : ParityHeld m o) (ha : AgreesOn 12 2352 m' o' m o) : ParityHeld m' o' :=
  ⟨fun major hm => (h.columns major hm).congr eccLayout_columns hm (ha.mono (by omega) (by omega))
      (ha.mono (by omega) (by omega)),
    fun major hm => (h.diagonals major hm).congr eccLayout_diagonals hm (ha.mono (by omega) (by omega))
      (ha.mono (by omega) (by omega))⟩

/-- Two sectors that hold their parity and agree below it agree on it too: first the columns', then, which cover those, the
diagonals'. -/
theorem AgreesOn.of_parityHeld (ha : AgreesOn 12 2076 m o m' o') (h : ParityHeld m o) (h' : ParityHeld m' o') :
    AgreesOn 12 2352 m o m' o' :=
  have hcolumns : AgreesOn 12 2248 m o m' o' :=
    ha.append (AgreesOn.of_parityAt eccLayout_columns ha h.columns h'.columns)
  hcolumns.append (AgreesOn.of_parityAt eccLayout_diagonals hcolumns h.diagonals h'.diagonals)

/-- `EccGen` leaves a sector that holds its parity: the parity of the diagonals lies behind all that the columns read and
wrote. -/
theorem eccGen_parityHeld (h : o + 2352 ≤ m.size) : ParityHeld (eccGen o m) o := by
  have hp : m.Writes (o + 2076) (2 * 86) (eccPQ o 86 24 2 86 2076 m) :=
    eccPQLoop_writes o 86 24 2 86 2076 86 0 m (by omega)
  have hq : (eccPQ o 86 24 2 86 2076 m).Writes (o + 2248) (2 * 52) (eccGen o m) :=
    eccPQLoop_writes o 52 43 86 88 2248 52 0 _ (by omega)
  have hkept : AgreesOn 12 2248 (eccGen o m) o (eccPQ o 86 24 2 86 2076 m) o := hq.agreesOn (.inl (by omega))
  refine ⟨fun major hm => ?_, eccPQ_parityAt eccLayout_diagonals (by rw [hp.size]; omega)⟩
  exact (eccPQ_parityAt eccLayout_columns (by omega) major hm).congr eccLayout_columns hm
    (hkept.mono (by omega) (by omega)) (hkept.mono (by omega) (by omega))

theorem eccGen_payload (o : Nat) (m : Memory) : AgreesOn 12 2076 (eccGen o m) o m o :=
  (eccGen_writes o m).agreesOn (.inl (by omega))

/-- A sector that already holds its parity is what `EccGen` makes of it. -/
theorem byte_eccGen_of_parityHeld (hs : o + 2352 ≤ m.size) (h : ParityHeld m o) (x : Nat) :
    (eccGen o m).byte x = m.byte x := by
  by_cases hx : o + 2076 ≤ x ∧ x < o + 2352
  · obtain ⟨i, rfl⟩ := Nat.exists_eq_add_of_le (show o ≤ x by omega)
    exact (eccGen_payload o m).of_parityHeld (eccGen_parityHeld hs) h i (by omega) (by omega)
  · exact (eccGen_writes o m).outside x (by omega)

end

/-- Settles O40: `EccGen` leaves a sector that holds its parity, in which each column and diagonal is a code word. -/
theorem cdEccMakesEveryCodeWordZero : Obligations.CdEccMakesEveryCodeWordZero := by
  refine ⟨rfl, fun s hs => ⟨fun hout => ⟨_, exec_cdEcc hs, ?_⟩, fun hin => ?_⟩⟩
  · rw [if_neg (by simpa using hout)]; rfl
  · have hw := eccGen_writes (s.opA 0) s.dst
    exact ⟨_, exec_cdEcc_inside hs hin, hw.size, (eccGen_parityHeld hin).eccHolds, hw.outside⟩

/-- Settles O41: what holds its own parity is determined by its payload (`AgreesOn.of_parityHeld`). -/
theorem cdEccDependsOnThePayloadOnly : Obligations.CdEccDependsOnThePayloadOnly := by
  intro s s' t t' hs hs' hin hin' ht ht' hpayload
  obtain ⟨hrun, ha, hdst⟩ := exec_cdEcc_eq_next hs hin ht
  obtain ⟨-, -, hdst'⟩ := exec_cdEcc_eq_next hs' hin' ht'
  have hheld : ParityHeld t.dst (s.opA 0) := hdst ▸ eccGen_parityHeld hin
  have hheld' : ParityHeld t'.dst (s'.opA 0) := hdst' ▸ eccGen_parityHeld hin'
  have hsame : AgreesOn 12 2076 t.dst (s.opA 0) t'.dst (s'.opA 0) := by
    rw [hdst, hdst']
    exact ((eccGen_payload _ _).trans hpayload).trans (eccGen_payload _ _).symm
  have hin₂ : t.opA 0 + 2352 ≤ t.dst.size := by rw [ha, hdst, (eccGen_writes _ _).size]; exact hin
  obtain ⟨u, hu⟩ : ∃ u, exec .cdEcc t = .next u := ⟨_, exec_cdEcc_inside hrun hin₂⟩
  obtain ⟨-, -, hdstu⟩ := exec_cdEcc_eq_next hrun hin₂ hu
  refine ⟨(hsame.of_parityHeld hheld hheld').mono (by omega) (by omega), u, hu, ?_⟩
  rw [hdstu]
  exact byte_eccGen_of_parityHeld hin₂ (ha ▸ hheld)

/-! ## Frames of an assembled hunk (43_cd_frame R162) -/

/-- Frame `f` with its sector and its subcode, before sync and ECC (43_cd_frame R162). -/
def copyFrame (sec sub : Memory) (f : Nat) (m : Memory) : Memory :=
  (m.writeBytes (2448 * f) (sec.readBytes (2352 * f) 2352)).writeBytes (2448 * f + 2352) (sub.readBytes (96 * f) 96)

/-- Frame `f` of the hunk `m` is the one CD_ASSEMBLE builds (43_cd_frame R162). -/
structure FrameBuilt (src sec sub : Memory) (bitmap f : Nat) (m : Memory) : Prop where
  payload : AgreesOn 12 2076 m (2448 * f) sec (2352 * f)
  subcode : AgreesOn 0 96 m (2448 * f + 2352) sub (96 * f)
  unflagged : eccFlag src bitmap f = false → AgreesOn 0 2352 m (2448 * f) sec (2352 * f)
  sync : eccFlag src bitmap f = true → ∀ i < 12, m.byte (2448 * f + i) = if i = 0 ∨ i = 11 then 0x00 else 0xFF
  parity : eccFlag src bitmap f = true → ParityHeld m (2448 * f)

section
variable {src sec sub m m' : Memory} {bitmap f : Nat}

theorem assembleFrame_of_unflagged (h : eccFlag src bitmap f = false) :
    assembleFrame src sec sub bitmap f m = copyFrame sec sub f m := if_neg (by simp [h])

theorem assembleFrame_of_flagged (h : eccFlag src bitmap f = true) :
    assembleFrame src sec sub bitmap f m = eccGen (2448 * f) (writeSync (2448 * f) (copyFrame sec sub f m)) := if_pos h

@[simp] theorem size_copyFrame : (copyFrame sec sub f m).size = m.size := by simp [copyFrame]

theorem writeBytes_readBytes_agreesOn {a b n : Nat} (h : a + n ≤ m.size) :
    AgreesOn 0 n (m.writeBytes a (m'.readBytes b n)) a m' b := fun i _ hi =>
  (m.byte_writeBytes_of_mem (by rwa [Memory.length_readBytes]) (by omega)).trans (m'.getD_readBytes b hi)

theorem copyFrame_sector (h : 2448 * f + 2448 ≤ m.size) :
    AgreesOn 0 2352 (copyFrame sec sub f m) (2448 * f) sec (2352 * f) :=
  ((Memory.writes_writeBytes _ _ _).agreesOn (.inl (by omega))).trans (writeBytes_readBytes_agreesOn (by omega))

theorem copyFrame_subcode (h : 2448 * f + 2448 ≤ m.size) :
    AgreesOn 0 96 (copyFrame sec sub f m) (2448 * f + 2352) sub (96 * f) :=
  writeBytes_readBytes_agreesOn (by rw [Memory.size_writeBytes]; omega)

/-- One turn of CD_ASSEMBLE builds its frame: sync and ECC write none of the bytes 12 to 2075 and no subcode. -/
theorem assembleFrame_built (h : 2448 * f + 2448 ≤ m.size) :
    FrameBuilt src sec sub bitmap f (assembleFrame src sec sub bitmap f m) := by
  have hsector := copyFrame_sector (sec := sec) (sub := sub) h
  have hsubcode := copyFrame_subcode (sec := sec) (sub := sub) h
  cases hflag : eccFlag src bitmap f with
  | false =>
    rw [assembleFrame_of_unflagged hflag]
    exact ⟨hsector.mono (by omega) (by omega), hsubcode, fun _ => hsector, by simp [hflag], by simp [hflag]⟩
  | true =>
    rw [assembleFrame_of_flagged hflag]
    have hsync := writeSync_writes (2448 * f) (copyFrame sec sub f m)
    have hecc := eccGen_writes (2448 * f) (writeSync (2448 * f) (copyFrame sec sub f m))
    have hsize : 2448 * f + 2448 ≤ (writeSync (2448 * f) (copyFrame sec sub f m)).size := by
      rw [hsync.size, size_copyFrame]; exact h
    refine ⟨?_, ?_, by simp [hflag], fun _ i hi => ?_, fun _ => eccGen_parityHeld (by omega)⟩
    · exact ((eccGen_payload _ _).trans (hsync.agreesOn (.inr (by omega)))).trans (hsector.mono (by omega) (by omega))
    · exact ((hecc.agreesOn (.inr (by omega))).trans (hsync.agreesOn (.inr (by omega)))).trans hsubcode
    · rw [hecc.outside _ (by omega)]
      exact byte_writeSync (by rw [size_copyFrame]; omega) i hi

/-- A frame stays as it is built while later frames are written. -/
theorem FrameBuilt.of_writes (h : FrameBuilt src sec sub bitmap f m) {n : Nat} (hw : m.Writes (2448 * (f + 1)) n m') :
    FrameBuilt src sec sub bitmap f m' where
  payload := (hw.agreesOn (.inl (by omega))).trans h.payload
  subcode := (hw.agreesOn (.inl (by omega))).trans h.subcode
  unflagged hflag := (hw.agreesOn (.inl (by omega))).trans (h.unflagged hflag)
  sync hflag i hi := (hw.outside _ (by omega)).trans (h.sync hflag i hi)
  parity hflag := (h.parity hflag).congr (hw.agreesOn (.inl (by omega)))

/-- The loop of CD_ASSEMBLE builds its `n` frames. -/
theorem assembleLoop_built {n : Nat} (h : 2448 * (f + n) ≤ m.size) :
    ∀ g, f ≤ g → g < f + n → FrameBuilt src sec sub bitmap g (assembleLoop src sec sub bitmap n f m) := by
  induction n generalizing f m with
  | zero => intro g h1 h2; omega
  | succ n ih =>
    intro g h1 h2
    have hsize := (assembleFrame_writes src sec sub bitmap f m).size
    rw [assembleLoop]
    by_cases hg : g = f
    · rw [hg]
      exact (assembleFrame_built (by omega)).of_writes (assembleLoop_writes src sec sub bitmap n (f + 1) _)
    · exact ih (by rw [hsize]; omega) g (by omega) (by omega)

end

theorem assembleFits_iff (s : State) : assembleFits s = true ↔
    2448 * s.opA 0 ≤ s.dst.size ∧ 2352 * s.opA 0 ≤ s.sec.size ∧ 96 * s.opA 0 ≤ s.sub.size ∧
      s.opA 1 + (s.opA 0 + 7) / 8 ≤ s.src.size := by
  simp [assembleFits, ceil8, and_assoc]

/-- Settles O42: `exec_cdAssemble`, with every frame as `assembleLoop_built` has it and the rest as the loop's frame. -/
theorem cdAssembleBuildsEveryFrame : Obligations.CdAssembleBuildsEveryFrame := by
  refine ⟨rfl, fun s hs => ⟨fun hout => ⟨_, exec_cdAssemble hs, ?_⟩, fun hdst hsec hsub hsrc => ?_⟩⟩
  · rw [if_neg (by rw [assembleFits_iff]; omega)]; rfl
  · have hw := assembleLoop_writes s.src s.sec s.sub (s.opA 1) (s.opA 0) 0 s.dst
    refine ⟨_, by rw [exec_cdAssemble hs, if_pos ((assembleFits_iff s).2 ⟨hdst, hsec, hsub, hsrc⟩)], hw.size,
      fun f hf => ?_, fun x hx => hw.outside x (by omega)⟩
    have hb : FrameBuilt s.src s.sec s.sub (s.opA 1) f
        (assembleLoop s.src s.sec s.sub (s.opA 1) (s.opA 0) 0 s.dst) :=
      assembleLoop_built (by omega) f (Nat.zero_le f) (by omega)
    exact ⟨hb.payload, fun i hi => hb.subcode i (Nat.zero_le i) hi, fun h i hi => hb.unflagged h i (Nat.zero_le i) hi,
      fun h => ⟨hb.sync h, (hb.parity h).eccHolds⟩⟩

end Sys2Proof.Machine
end

section
/-! PROOFS. What the statements about the AVHuff unit share (44_avhuff): a reader at a known bit of its buffer, a command as
the run of one procedure, and samples written one after another. -/

namespace Sys2Proof.Machine

/-! ## A reader at a known bit of its buffer -/

/-- The reader at bit `k` of its buffer, `OVF` as 40_bitreader R123 has it there. -/
def BitReader.seek (b : BitReader) (k : Nat) : BitReader :=
  { b with pos := k, ovf := decide (8 * b.len.toNat < k) }

@[simp] theorem BitReader.seek_len (b : BitReader) (k : Nat) : (b.seek k).len = b.len := rfl

@[simp] theorem BitReader.seek_pos (b : BitReader) (k : Nat) : (b.seek k).pos = k := rfl

@[simp] theorem BitReader.seek_ovf (b : BitReader) (k : Nat) : (b.seek k).ovf = decide (8 * b.len.toNat < k) := rfl

@[simp] theorem BitReader.holdsAt_seek (b : BitReader) (src : Memory) (j k : Nat) (xs : List Bool) :
    (b.seek j).holdsAt src k xs ↔ b.holdsAt src k xs := BitReader.holdsAt_congr rfl rfl src k xs

@[simp] theorem BitReader.unmatched_seek (b : BitReader) (src : Memory) (j k : Nat) (ls : List Nat) :
    (b.seek j).unmatched src k ls ↔ b.unmatched src k ls := by
  simp only [BitReader.unmatched, b.holdsAt_seek src j k]

@[simp] theorem BitReader.advance_seek (b : BitReader) (k n : Nat) : (b.seek k).advance n = b.seek (k + n) := by
  have hovf : (decide (8 * b.len.toNat < k) || decide (8 * b.len.toNat < k + n)) = decide (8 * b.len.toNat < k + n) := by
    rw [← Bool.decide_or]
    exact decide_eq_decide.2 (by omega)
  rw [BitReader.advance, ovfAfterRead, BitReader.seek_ovf, BitReader.seek_len, BitReader.seek_pos, hovf]
  rfl

@[simp] theorem BitReader.flush_seek (b : BitReader) (k : Nat) : (b.seek k).flush.2 = b.seek (8 * ceil8 k) := by
  simp only [BitReader.flush, BitReader.seek, ceil8, BitReader.mk.injEq, true_and]
  exact decide_eq_decide.2 (by omega)

/-- The buffer in `SRC` that the operands `A[0]`, `A[1]` name, the reader at its start (44_avhuff R190 to R200). -/
def State.region (s : State) : BitReader := { base := s.a[0], len := s.a[1], pos := 0, ovf := false }

@[simp] theorem State.region_len (s : State) : s.region.len.toNat = s.opA 1 := rfl

theorem State.attach_region (s : State) : BitReader.attach (s.opA 0) (s.opA 1) = s.region.seek 0 := by
  rw [State.opA, State.opA, BitReader.attach_word, BitReader.seek, decide_eq_false (Nat.not_lt_zero _)]
  rfl

/-- Inside the buffer the reader has not overflowed. -/
theorem State.seek_region {s : State} {k : Nat} (h : k ≤ 8 * s.opA 1) :
    s.region.seek k = { base := s.a[0], len := s.a[1], pos := k, ovf := false } := by
  rw [BitReader.seek, State.region_len, decide_eq_false (Nat.not_lt.2 h)]
  rfl

/-- Bits after a byte boundary end at a byte offset of their own. -/
theorem ceil8_mul_add (o n : Nat) : ceil8 (8 * o + n) = o + (n + 7) / 8 := by
  rw [ceil8]; omega

/-! ## A command as the run of one procedure -/

theorem runEngine_of_ok {α : Type} {op : BitVec 8} {lo n : Nat} {s : State} {p : Engine → Res Engine α}
    {done : α → State → State} {v : α} {e : Engine} (h : p s.engine = .ok v e) :
    runEngine op lo n s p done = done v (s.withEngine e) := by
  rw [runEngine, h]

theorem runEngine_of_raised {α : Type} {op : BitVec 8} {lo n : Nat} {s : State} {p : Engine → Res Engine α}
    {done : α → State → State} {k : ErrorKind} {e : Engine} (h : p s.engine = .raised k e) :
    runEngine op lo n s p done = errorEntry k op lo n (s.withEngine e) := by
  rw [runEngine, h]

/-- In the machine `s` the command `i` runs the AVHuff procedure `p`, then does `done` with its value; a raise is error entry
with the `DST` range of its rule. -/
def RunsEngine {α : Type} (i : Instr) (s : State) (p : Engine → Res Engine α) (done : α → State → State) : Prop :=
  exec i s = .next (runEngine i.op (dstRange s i).1 (dstRange s i).2 s p done)

section
variable {α : Type} {i : Instr} {s : State} {p : Engine → Res Engine α} {done : α → State → State} {v : α}
  {k : ErrorKind} {e : Engine}

theorem RunsEngine.exec_of_ok (h : RunsEngine i s p done) (hp : p s.engine = .ok v e) :
    exec i s = .next (done v (s.withEngine e)) := by
  rw [RunsEngine] at h
  rw [h, runEngine_of_ok hp]

/-- A raise of the procedure is error entry, which keeps the decoder as the procedure left it. -/
theorem RunsEngine.exec_of_raised (h : RunsEngine i s p done) (hp : p s.engine = .raised k e) :
    ∃ t, exec i s = .next t ∧ t.st = stWord k i.op ∧ t.dec = e.dec := by
  rw [RunsEngine, runEngine_of_raised hp] at h
  exact ⟨_, h, rfl, rfl⟩

theorem RunsEngine.raises_of_raised (h : RunsEngine i s p done) (hp : p s.engine = .raised k e) : raises i s k := by
  obtain ⟨t, ht, hst, -⟩ := h.exec_of_raised hp
  exact ⟨t, ht, hst⟩

end

section
variable {s : State}

theorem runsEngine_avhAudioChRaw (hs : s.running) :
    RunsEngine .avhAudioChRaw s (audioRaw s.src (s.opA 0) (s.opA 1) (s.opA 2) (s.opA 3)) fun _ t => t := by
  rw [RunsEngine, show exec .avhAudioChRaw s = execAvhAudioChRaw s from rfl, execAvhAudioChRaw, command_of_running hs]
  rfl

theorem runsEngine_avhAudioChHuf (hs : s.running) :
    RunsEngine .avhAudioChHuf s (audioHuf s.src (s.opA 0) (s.opA 1) (s.opA 2) (s.opA 3)) fun _ t => t := by
  rw [RunsEngine, show exec .avhAudioChHuf s = execAvhAudioChHuf s from rfl, execAvhAudioChHuf, command_of_running hs]
  rfl

theorem runsEngine_avhVideo (hs : s.running) :
    RunsEngine .avhVideo s (video s.src (s.opA 0) (s.opA 1) (s.opA 2) s.videoWidth s.videoHeight)
      fun n t => t.setR 0 (BitVec.ofNat 32 n) := by
  rw [RunsEngine, show exec .avhVideo s = execAvhVideo s from rfl, execAvhVideo, command_of_running hs]
  rfl

theorem runsEngine_avhDecode (hs : s.running) :
    RunsEngine .avhDecode s (avhHunk s.src s.flac (s.opA 0) (s.opA 1) (s.opA 2))
      fun q t => t.setR 0 (BitVec.ofNat 32 q) := by
  rw [RunsEngine, show exec .avhDecode s = execAvhDecode s from rfl, execAvhDecode, command_of_running hs]
  rfl

/-- AVH_AUDIO_TREES leaves `DST` alone, so its procedure is one on the engine too. -/
theorem runsEngine_avhAudioTrees (hs : s.running) :
    RunsEngine .avhAudioTrees s (fun e => e.lift (audioTrees s.src (s.opA 0) (s.opA 1))) fun _ t => t := by
  rw [RunsEngine, show exec .avhAudioTrees s = execAvhAudioTrees s from rfl, execAvhAudioTrees, command_of_running hs]
  rcases runDecoder_cases 0x51#8 s (audioTrees s.src (s.opA 0) (s.opA 1)) fun _ t => t with
    ⟨v, d, hp, hrun⟩ | ⟨k, d, hp, hrun⟩
  · rw [hrun, runEngine, Engine.lift, State.engine_dec, hp]; rfl
  · rw [hrun, runEngine, Engine.lift, State.engine_dec, hp]; rfl

end

/-! ## The bounds of a region -/

/-- The test of a stream region and of the output range together (20_memory R55). -/
theorem bounds_eq_false_iff (src dst : Memory) (p size q n : Nat) :
    (src.inBounds p size && dst.inBounds q n) = false ↔ src.size < p + size ∨ dst.size < q + n := by
  rw [Bool.and_eq_false_iff, Memory.inBounds_eq_false_iff, Memory.inBounds_eq_false_iff]

theorem bounds_of_inside {src dst : Memory} {p size q n : Nat} (hsrc : p + size ≤ src.size) (hdst : q + n ≤ dst.size) :
    ¬ (src.inBounds p size && dst.inBounds q n) = false := by
  rw [bounds_eq_false_iff]; omega

/-! ## Bytes and 16-bit fields -/

theorem Memory.writeBytes_append (m : Memory) (a : Nat) (xs ys : List Byte) :
    m.writeBytes a (xs ++ ys) = (m.writeBytes a xs).writeBytes (a + xs.length) ys := by
  induction xs generalizing m a with
  | nil => rfl
  | cons x xs ih =>
    rw [List.cons_append, Memory.writeBytes_cons, ih, Memory.writeBytes_cons, List.length_cons, Nat.add_right_comm,
      Nat.add_assoc]

theorem halfAt_eq_readBE (m : Memory) (a : Nat) : halfAt m a = m.readBE a 2 := (m.readBE_two a).symm

theorem halfAt_lt (m : Memory) (a : Nat) : halfAt m a < 65536 := by
  rw [halfAt_eq_readBE]; exact m.readBE_lt a 2

theorem halfAt_writeBE {m : Memory} {a v : Nat} (h : a + 2 ≤ m.size) (hv : v < 65536) :
    halfAt (m.writeBE a 2 v) a = v := by
  rw [halfAt_eq_readBE, Memory.readBE_writeBE_two m h hv]

/-- A field outside the range that was written is as before. -/
theorem Memory.Writes.halfAt {lo n a : Nat} {m m' : Memory} (h : m.Writes lo n m') (ha : a + 2 ≤ lo ∨ lo + n ≤ a) :
    halfAt m' a = halfAt m a := by
  rw [Machine.halfAt, Machine.halfAt, h.outside a (by omega), h.outside (a + 1) (by omega)]

/-! ## Samples written one after another -/

theorem halfAt_writeSamples (r : Nat → Half) (q : Nat) {n i j : Nat} {m : Memory} (hm : q + 2 * (i + n) ≤ m.size)
    (hi : i ≤ j) (hj : j < i + n) : halfAt (writeSamples r q n i m) (q + 2 * j) = (r j).toNat := by
  induction n generalizing i m with
  | zero => omega
  | succ n ih =>
    rw [writeSamples]
    rcases Nat.eq_or_lt_of_le hi with rfl | hlt
    · rw [(writeSamples_writes r q n (i + 1) _).halfAt (.inl (by omega)), halfAt_writeBE (by omega) (r i).isLt]
    · exact ih (by rw [Memory.size_writeBE]; omega) hlt (by omega)

/-- The sum of the first `i` deltas, modulo 65536: the running sum in front of sample `i` (44_avhuff R196). -/
def runningSum (delta : Nat → Nat) (i : Nat) : Half := BitVec.ofNat 16 ((List.range i).map delta).sum

@[simp] theorem runningSum_zero (delta : Nat → Nat) : runningSum delta 0 = 0 := rfl

theorem runningSum_succ (delta : Nat → Nat) (i : Nat) :
    runningSum delta (i + 1) = runningSum delta i + BitVec.ofNat 16 (delta i) := by
  rw [runningSum, runningSum, List.range_succ, List.map_append, List.sum_append, BitVec.ofNat_add]
  simp

theorem runningSum_succ_toNat (delta : Nat → Nat) (i : Nat) : (runningSum delta (i + 1)).toNat = sampleOf delta i :=
  BitVec.toNat_ofNat _ _

/-- The samples of a channel from its deltas (44_avhuff R196). -/
def samplesOf (delta : Nat → Nat) (i : Nat) : Half := runningSum delta (i + 1)

@[simp] theorem samplesOf_toNat (delta : Nat → Nat) (i : Nat) : (samplesOf delta i).toNat = sampleOf delta i :=
  runningSum_succ_toNat delta i

end Sys2Proof.Machine
end

section
/-! PROOFS. The statements about one audio channel, AVH_AUDIO_CH raw and Huffman (44_avhuff R192 to R196). The raw loop
and the Huffman loop write the samples of a list of deltas (`samplesOf`); the Huffman loop takes the deltas from the code
words of the stream, as far as the stream has them. -/

namespace Sys2Proof.Machine

/-! ## Raw audio (44_avhuff R192) -/

/-- The deltas of a raw channel at `p` (44_avhuff R192). -/
def rawDeltas (src : Memory) (p j : Nat) : Nat := halfAt src (p + 2 * j)

/-- The loop of `AudioRaw` with the sum of the deltas before sample `i` writes the samples of the channel. -/
theorem audioRawLoop_eq (src : Memory) (p q n i : Nat) (m : Memory) :
    audioRawLoop src p q n i (runningSum (rawDeltas src p) i) m =
      writeSamples (samplesOf (rawDeltas src p)) q n i m := by
  induction n generalizing i m with
  | zero => rfl
  | succ n ih =>
    have hacc : runningSum (rawDeltas src p) i + BitVec.ofNat 16 (src.readBE (p + 2 * i) 2) =
        samplesOf (rawDeltas src p) i := by
      rw [samplesOf, runningSum_succ, rawDeltas, halfAt_eq_readBE]
    simp only [audioRawLoop, writeSamples, hacc]
    exact ih (i + 1) _

theorem audioRaw_of_outside {src : Memory} {p size q n : Nat} {e : Engine}
    (h : src.size < p + size ∨ e.dst.size < q + 2 * n) : audioRaw src p size q n e = .raised .readError e := by
  rw [audioRaw, if_pos ((bounds_eq_false_iff _ _ _ _ _ _).2 h)]

section
variable {src : Memory} {p size q n : Nat} {e : Engine}

theorem audioRaw_of_short (hsrc : p + size ≤ src.size) (hdst : q + 2 * n ≤ e.dst.size) (h : size < 2 * n) :
    audioRaw src p size q n e = .raised .invalidData e := by
  rw [audioRaw, if_neg (bounds_of_inside hsrc hdst), if_pos h]

theorem audioRaw_of_fits (hsrc : p + size ≤ src.size) (hdst : q + 2 * n ≤ e.dst.size) (h : 2 * n ≤ size) :
    audioRaw src p size q n e =
      .ok () { e with dst := writeSamples (samplesOf (rawDeltas src p)) q n 0 e.dst } := by
  rw [audioRaw, if_neg (bounds_of_inside hsrc hdst), if_neg (Nat.not_lt.2 h), ← audioRawLoop_eq, runningSum_zero]

end

/-- Settles O44: the three ends of `AudioRaw`; the samples it writes are the running sums of the deltas. -/
theorem audioRawWritesTheRunningSums : Obligations.AudioRawWritesTheRunningSums := by
  refine ⟨rfl, fun s hs => ⟨fun hout => ?_, fun hsrc hdst => ⟨fun hshort => ?_, fun hfits => ?_⟩⟩⟩
  · exact (runsEngine_avhAudioChRaw hs).raises_of_raised (audioRaw_of_outside hout)
  · exact (runsEngine_avhAudioChRaw hs).raises_of_raised (audioRaw_of_short hsrc hdst hshort)
  · have hw := writeSamples_writes (samplesOf (rawDeltas s.src (s.opA 0))) (s.opA 2) (s.opA 3) 0 s.dst
    refine ⟨_, (runsEngine_avhAudioChRaw hs).exec_of_ok (audioRaw_of_fits hsrc hdst hfits), hw.size, fun i hi => ?_,
      fun x hx => hw.outside x (by omega)⟩
    rw [State.engine_dst, halfAt_writeSamples _ _ (by omega) (Nat.zero_le i) (by omega), samplesOf_toNat]
    rfl

/-! ## Huffman audio (44_avhuff R194) -/

/-- The stream bits of samples, each a high and a low symbol (30_encoding R105). -/
def pairBits (hi lo : List Nat) (pairs : List (Nat × Nat)) : List Bool :=
  pairs.flatMap fun p => codeWord hi p.1 ++ codeWord lo p.2

@[simp] theorem pairBits_nil (hi lo : List Nat) : pairBits hi lo [] = [] := rfl

@[simp] theorem pairBits_cons (hi lo : List Nat) (p : Nat × Nat) (pairs : List (Nat × Nat)) :
    pairBits hi lo (p :: pairs) = (codeWord hi p.1 ++ codeWord lo p.2) ++ pairBits hi lo pairs := rfl

/-- The deltas that pairs of a high and a low symbol spell (44_avhuff R196). -/
def pairDeltas (pairs : List (Nat × Nat)) (j : Nat) : Nat := 256 * (pairs.getD j (0, 0)).1 + (pairs.getD j (0, 0)).2

theorem Context.Ready.length_codeWord {x : Context} (h : x.Ready) {u : Nat} (hu : x.lens.getD u 0 ≠ 0) :
    (codeWord x.lens u).length = x.lenAt u := by
  rw [codeWord, length_msbBits, x.getD_lens (h.lt_numcodes hu)]

/-- The context decodes the code of the lengths `ls`. -/
structure Context.Codes (x : Context) (ls : List Nat) : Prop where
  ready : x.Ready
  lens : x.lens = ls

theorem Context.codes_of_wf {x : Context} (hw : x.wf) (hv : x.valid = true) : x.Codes x.lens :=
  ⟨Context.ready_of_wf hw hv, rfl⟩

/-- The engine with the reader at bit `k` of the buffer of `b`, and `m` in `DST`. -/
def Engine.moved (e : Engine) (b : BitReader) (k : Nat) (m : Memory) : Engine :=
  { dec := e.dec.setReader (b.seek k), dst := m }

@[simp] theorem Engine.moved_dec (e : Engine) (b : BitReader) (k : Nat) (m : Memory) :
    (e.moved b k m).dec = e.dec.setReader (b.seek k) := rfl

@[simp] theorem Engine.moved_dst (e : Engine) (b : BitReader) (k : Nat) (m : Memory) : (e.moved b k m).dst = m := rfl

@[simp] theorem Engine.moved_moved (e : Engine) (b : BitReader) (j k : Nat) (m m' : Memory) :
    (e.moved b j m).moved b k m' = e.moved b k m' := rfl

theorem Engine.moved_eq_self {e : Engine} {b : BitReader} {k : Nat} (h : e.dec.br = b.seek k) :
    e.moved b k e.dst = e := by
  rw [Engine.moved, ← h, Decoder.setReader_self]

section
variable {b : BitReader} {k : Nat} {e : Engine} {src : Memory} {c : Fin 7} {ls : List Nat}

/-- A code word at bit `k`: its symbol, and the reader behind it. -/
theorem lift_decodeOne_of_used (hbr : e.dec.br = b.seek k) (hx : (e.dec.ctx c).Codes ls) {u : Nat}
    (hu : ls.getD u 0 ≠ 0) (hh : b.holdsAt src k (codeWord ls u)) :
    e.lift (decodeOne src c) = .ok u (e.moved b (k + (codeWord ls u).length) e.dst) := by
  obtain ⟨hready, rfl⟩ := hx
  have hone := decodeOne_of_used hready hu (by rw [hbr]; exact (b.holdsAt_seek src _ _ _).2 hh)
  rw [hbr, BitReader.advance_seek] at hone
  exact Engine.lift_of_ok hone

theorem lift_decodeOne_of_unmatched (hbr : e.dec.br = b.seek k) (hx : (e.dec.ctx c).Codes ls)
    (hh : b.unmatched src k ls) : e.lift (decodeOne src c) = .raised .invalidData e := by
  obtain ⟨hready, rfl⟩ := hx
  have hone := decodeOne_of_unmatched hready (by rw [hbr]; exact (b.unmatched_seek src _ _ _).2 hh)
  rw [Engine.lift, hone]

end

/-- The engine `e` with both audio trees, its reader at bit `k` of the channel's stream (44_avhuff R194). -/
structure Engine.Channel (hi lo : List Nat) (b : BitReader) (k : Nat) (e : Engine) : Prop where
  reader : e.dec.br = b.seek k
  high : (e.dec.ctx 1).Codes hi
  low : (e.dec.ctx 2).Codes lo

section
variable {hi lo : List Nat} {b : BitReader} {k : Nat} {e : Engine} {src : Memory}

/-- Moving the reader and writing `DST` touch no tree. -/
theorem Engine.Channel.moved (h : e.Channel hi lo b k) (j : Nat) (m : Memory) : (e.moved b j m).Channel hi lo b j :=
  ⟨rfl, h.high, h.low⟩

/-- One turn of the loop of `AudioHuf` where no high code word comes next. -/
theorem audioHufLoop_of_noHigh (h : e.Channel hi lo b k) (hh : b.unmatched src k hi) (q n i : Nat) (acc : Half) :
    audioHufLoop src q (n + 1) i acc e = .raised .invalidData e := by
  rw [audioHufLoop, lift_decodeOne_of_unmatched h.reader h.high hh, Res.andThen_of_raised]

/-- One turn where a high code word comes next, but no low one behind it. -/
theorem audioHufLoop_of_noLow (h : e.Channel hi lo b k) {u : Nat} (hu : hi.getD u 0 ≠ 0)
    (hword : b.holdsAt src k (codeWord hi u)) (hh : b.unmatched src (k + (codeWord hi u).length) lo) (q n i : Nat)
    (acc : Half) :
    audioHufLoop src q (n + 1) i acc e = .raised .invalidData (e.moved b (k + (codeWord hi u).length) e.dst) := by
  have hmoved := h.moved (k + (codeWord hi u).length) e.dst
  rw [audioHufLoop, lift_decodeOne_of_used h.reader h.high hu hword, Res.andThen_of_ok,
    lift_decodeOne_of_unmatched hmoved.reader hmoved.low hh, Res.andThen_of_raised]

/-- One turn where the code words of a pair come next: the delta is added, and the sum written. -/
theorem audioHufLoop_of_pair (h : e.Channel hi lo b k) {u v : Nat} (hu : hi.getD u 0 ≠ 0) (hv : lo.getD v 0 ≠ 0)
    (hh : b.holdsAt src k (codeWord hi u ++ codeWord lo v)) (q n i : Nat) (acc : Half) :
    audioHufLoop src q (n + 1) i acc e =
      audioHufLoop src q n (i + 1) (acc + BitVec.ofNat 16 (256 * u + v))
        (e.moved b (k + (codeWord hi u ++ codeWord lo v).length)
          (e.dst.writeBE (q + 2 * i) 2 (acc + BitVec.ofNat 16 (256 * u + v)).toNat)) := by
  obtain ⟨hhigh, hlow⟩ := BitReader.holdsAt_append.1 hh
  have hmoved := h.moved (k + (codeWord hi u).length) e.dst
  rw [audioHufLoop, lift_decodeOne_of_used h.reader h.high hu hhigh, Res.andThen_of_ok,
    lift_decodeOne_of_used hmoved.reader hmoved.low hv hlow, Res.andThen_of_ok, List.length_append, ← Nat.add_assoc]
  rfl

/-- The loop over the code words of some samples writes these samples and goes on behind them. -/
theorem audioHufLoop_of_pairs {pairs : List (Nat × Nat)} {delta : Nat → Nat} {i : Nat} (h : e.Channel hi lo b k)
    (hhi : usedSymbols hi (pairs.map Prod.fst)) (hlo : usedSymbols lo (pairs.map Prod.snd))
    (hh : b.holdsAt src k (pairBits hi lo pairs)) (hdelta : ∀ j < pairs.length, delta (i + j) = pairDeltas pairs j)
    (q n : Nat) :
    audioHufLoop src q (pairs.length + n) i (runningSum delta i) e =
      audioHufLoop src q n (i + pairs.length) (runningSum delta (i + pairs.length))
        (e.moved b (k + (pairBits hi lo pairs).length) (writeSamples (samplesOf delta) q pairs.length i e.dst)) := by
  induction pairs generalizing k i e with
  | nil =>
    rw [List.length_nil, Nat.zero_add, writeSamples, pairBits_nil, List.length_nil, Nat.add_zero, Nat.add_zero,
      Engine.moved_eq_self h.reader]
  | cons pair pairs ih =>
    obtain ⟨u, v⟩ := pair
    obtain ⟨⟨-, hu⟩, hhi⟩ := List.forall_mem_cons.1 hhi
    obtain ⟨⟨-, hv⟩, hlo⟩ := List.forall_mem_cons.1 hlo
    obtain ⟨hfirst, hrest⟩ := BitReader.holdsAt_append.1 hh
    have hsum : runningSum delta i + BitVec.ofNat 16 (256 * u + v) = runningSum delta (i + 1) := by
      rw [runningSum_succ, ← Nat.add_zero i, hdelta 0 (Nat.zero_lt_succ _)]; rfl
    have hnext := ih (h.moved _ (e.dst.writeBE (q + 2 * i) 2 (runningSum delta (i + 1)).toNat)) hhi hlo hrest
      (fun j hj => by rw [Nat.add_assoc, Nat.add_comm 1 j, hdelta (j + 1) (Nat.succ_lt_succ hj)]; rfl)
    rw [List.length_cons, Nat.succ_add, audioHufLoop_of_pair h hu hv hfirst, hsum, hnext, Nat.add_right_comm i 1,
      Nat.add_assoc i _ 1, pairBits_cons, List.length_append (bs := pairBits hi lo pairs), ← Nat.add_assoc k]
    rfl

end

section
variable {src : Memory} {p size q n : Nat} {e : Engine}

theorem audioHuf_of_outside (h : src.size < p + size ∨ e.dst.size < q + 2 * n) :
    audioHuf src p size q n e = .raised .readError e := by
  rw [audioHuf, if_pos ((bounds_eq_false_iff _ _ _ _ _ _).2 h)]

theorem audioHuf_of_noTrees (hsrc : p + size ≤ src.size) (hdst : q + 2 * n ≤ e.dst.size)
    (h : (e.dec.ctx 1).valid = false ∨ (e.dec.ctx 2).valid = false) :
    audioHuf src p size q n e = .raised .illegalCommand e := by
  rw [audioHuf, if_neg (bounds_of_inside hsrc hdst), if_pos (Bool.and_eq_false_iff.2 h)]

theorem audioHuf_of_trees (hsrc : p + size ≤ src.size) (hdst : q + 2 * n ≤ e.dst.size)
    (hhi : (e.dec.ctx 1).valid = true) (hlo : (e.dec.ctx 2).valid = true) :
    audioHuf src p size q n e =
      (audioHufLoop src q n 0 0 { e with dec := e.dec.setReader (BitReader.attach p size) }).andThen fun _ e =>
        if e.dec.br.ovf then .raised .invalidData e else .ok () e := by
  rw [audioHuf, if_neg (bounds_of_inside hsrc hdst), if_neg (by simp [hhi, hlo])]

end

section
variable {s : State} {b : BitReader} {pairs : List (Nat × Nat)} {bits : List Bool}

/-- AVH_AUDIO_CH.HUF with both trees, on a stream that begins with the code words of at most as many samples as asked for:
the loop writes these samples and goes on behind their code words. -/
theorem audioHuf_of_pairs (hsrc : s.opA 0 + s.opA 1 ≤ s.src.size) (hdst : s.opA 2 + 2 * s.opA 3 ≤ s.dst.size)
    (hb : b = s.region) (hw1 : (s.dec.ctx 1).wf) (hw2 : (s.dec.ctx 2).wf)
    (hv1 : (s.dec.ctx 1).valid = true) (hv2 : (s.dec.ctx 2).valid = true) {n : Nat} (hn : s.opA 3 = pairs.length + n)
    (hhi : usedSymbols (s.dec.ctx 1).lens (pairs.map Prod.fst)) (hlo : usedSymbols (s.dec.ctx 2).lens (pairs.map Prod.snd))
    (hbits : bits = pairBits (s.dec.ctx 1).lens (s.dec.ctx 2).lens pairs) (hh : b.holdsAt s.src 0 bits) :
    let m := writeSamples (samplesOf (pairDeltas pairs)) (s.opA 2) pairs.length 0 s.dst
    (s.engine.moved b bits.length m).Channel (s.dec.ctx 1).lens (s.dec.ctx 2).lens b bits.length ∧
      audioHuf s.src (s.opA 0) (s.opA 1) (s.opA 2) (s.opA 3) s.engine =
        (audioHufLoop s.src (s.opA 2) n pairs.length (runningSum (pairDeltas pairs) pairs.length)
          (s.engine.moved b bits.length m)).andThen fun _ e =>
            if e.dec.br.ovf then .raised .invalidData e else .ok () e := by
  subst hbits
  have hattach : ({ s.engine with dec := s.engine.dec.setReader (BitReader.attach (s.opA 0) (s.opA 1)) } : Engine) =
      s.engine.moved b 0 s.dst := by
    rw [hb, Engine.moved, ← State.attach_region]; rfl
  have hstart : (s.engine.moved b 0 s.dst).Channel (s.dec.ctx 1).lens (s.dec.ctx 2).lens b 0 :=
    ⟨rfl, Context.codes_of_wf hw1 hv1, Context.codes_of_wf hw2 hv2⟩
  have hloop := audioHufLoop_of_pairs (i := 0) (delta := pairDeltas pairs) hstart hhi hlo hh
    (fun j _ => by rw [Nat.zero_add]) (s.opA 2) n
  rw [Nat.zero_add, Nat.zero_add, runningSum_zero, Engine.moved_moved, Engine.moved_dst] at hloop
  refine ⟨hstart.moved _ _, ?_⟩
  rw [audioHuf_of_trees hsrc hdst hv1 hv2, hattach, hn, hloop]

end

/-- Settles O46: `audioHuf_of_pairs` with all the samples asked for; the reader is behind the last code word, so it has
overflowed exactly if the stream is shorter than its code words. -/
theorem audioHufWritesTheRunningSums : Obligations.AudioHufWritesTheRunningSums := by
  refine ⟨rfl, fun s hs => ⟨fun hout => ?_, fun hsrc hdst => ⟨fun hno => ?_, ?_⟩⟩⟩
  · exact (runsEngine_avhAudioChHuf hs).raises_of_raised (audioHuf_of_outside hout)
  · exact (runsEngine_avhAudioChHuf hs).raises_of_raised (audioHuf_of_noTrees hsrc hdst hno)
  · intro pairs bits hw1 hw2 hv1 hv2 hlen hhi hlo hbits hh
    obtain ⟨-, hrun⟩ := audioHuf_of_pairs (n := 0) hsrc hdst rfl hw1 hw2 hv1 hv2 hlen.symm hhi hlo hbits hh
    rw [audioHufLoop, Res.andThen_of_ok, Engine.moved_dec, Decoder.setReader_br, BitReader.seek_ovf,
      State.region_len] at hrun
    refine ⟨fun hlong => ?_, fun hfits => ?_⟩
    · rw [if_pos (decide_eq_true hlong)] at hrun
      exact (runsEngine_avhAudioChHuf hs).raises_of_raised hrun
    · rw [if_neg (by simpa using hfits), Engine.moved, State.seek_region hfits] at hrun
      have hw := writeSamples_writes (samplesOf (pairDeltas pairs)) (s.opA 2) pairs.length 0 s.dst
      refine ⟨_, (runsEngine_avhAudioChHuf hs).exec_of_ok hrun, hw.size, fun i hi => ?_,
        fun x hx => hw.outside x (by omega)⟩
      rw [halfAt_writeSamples _ _ (by omega) (Nat.zero_le i) (by omega), samplesOf_toNat]
      rfl

/-- Settles O54: behind the samples that the stream spells a sample is missing, and the loop fails at its first or its
second code word. -/
theorem audioHufRejectsUnmatchedWords : Obligations.AudioHufRejectsUnmatchedWords := by
  intro s b pairs bits hs hsrc hdst hb hw1 hw2 hv1 hv2 hlen hhi hlo hbits hh
  obtain ⟨n, hn⟩ : ∃ n, s.opA 3 = pairs.length + (n + 1) := ⟨s.opA 3 - pairs.length - 1, by omega⟩
  obtain ⟨hch, hrun⟩ := audioHuf_of_pairs hsrc hdst hb hw1 hw2 hv1 hv2 hn hhi hlo hbits hh
  refine ⟨fun hnone => ?_, fun u hu hword hnone => ?_⟩
  · rw [audioHufLoop_of_noHigh hch hnone, Res.andThen_of_raised] at hrun
    exact (runsEngine_avhAudioChHuf hs).raises_of_raised hrun
  · obtain ⟨-, hu0⟩ := hu u (List.mem_singleton_self u)
    rw [← (Context.ready_of_wf hw1 hv1).length_codeWord hu0] at hnone
    rw [audioHufLoop_of_noLow hch hu0 hword hnone, Res.andThen_of_raised] at hrun
    exact (runsEngine_avhAudioChHuf hs).raises_of_raised hrun

end Sys2Proof.Machine
end

section
/-! PROOFS. The statements about AVH_AUDIO_TREES (44_avhuff R190), and what they share with AVH_VIDEO: one tree of a shared
stream, legal (`importTree_of_legal`) or not (`importTree_of_badTree`). -/

namespace Sys2Proof.Machine

/-! ## One tree of a shared stream -/

/-- The decoder with context `c` set up for a tree of `n` symbols with lengths up to `m` (44_avhuff R190, R200). -/
def Decoder.forTree (d : Decoder) (c : Fin 7) (n m : Nat) : Decoder :=
  d.setCtx c { d.ctx c with numcodes := BitVec.ofNat 9 n, maxbits := BitVec.ofNat 6 m, prev := 0, run := 0 }

theorem importTree_eq (src : Memory) (c : Fin 7) (n m : Nat) (d : Decoder) :
    importTree src c n m d = (importRle src c (d.forTree c n m)).andThen fun _ e =>
      .ok e.br.flush.1 (e.setReader e.br.flush.2) := rfl

@[simp] theorem Decoder.forTree_br (d : Decoder) (c : Fin 7) (n m : Nat) : (d.forTree c n m).br = d.br := rfl

theorem Decoder.ctx_forTree_self (d : Decoder) (c : Fin 7) (n m : Nat) :
    (d.forTree c n m).ctx c =
      { d.ctx c with numcodes := BitVec.ofNat 9 n, maxbits := BitVec.ofNat 6 m, prev := 0, run := 0 } :=
  d.ctx_setCtx_self c _

theorem Decoder.forTree_numcodes (d : Decoder) (c : Fin 7) {n : Nat} (m : Nat) (hn : n ≤ 272) :
    ((d.forTree c n m).ctx c).numcodes.toNat = n := by
  rw [Decoder.ctx_forTree_self]
  exact Nat.mod_eq_of_lt (by omega)

theorem Decoder.forTree_maxbits (d : Decoder) (c : Fin 7) (n : Nat) {m : Nat} (hm : m ≤ 32) :
    ((d.forTree c n m).ctx c).maxbits.toNat = m := by
  rw [Decoder.ctx_forTree_self]
  exact Nat.mod_eq_of_lt (by omega)

/-- A context that has just got its tree: the table of the lengths `ls`, predictor and run 0. -/
structure Context.Fresh (x : Context) (ls : List Nat) : Prop where
  wf : x.wf
  valid : x.valid = true
  lens : x.lens = ls
  prev : x.prev = 0
  run : x.run = 0

/-- The import of a tree of `c` went from `d` to `e`: the table of `ls` is there, the reader at byte `o` of the buffer of `b`,
and no context but `c` and the meta decoder was touched. -/
structure TreeImported (b : BitReader) (c : Fin 7) (ls : List Nat) (o : Nat) (d e : Decoder) : Prop where
  reader : e.br = b.seek (8 * o)
  fresh : (e.ctx c).Fresh ls
  others : ∀ c', c' ≠ c → c' ≠ 6 → e.ctx c' = d.ctx c'

section
variable {src : Memory} {b : BitReader} {c : Fin 7} {n m o : Nat} {d : Decoder} {tree : RleTree}

/-- A legal tree at byte `o` is imported, and the reader stands at the byte behind it (41_huffman R138). -/
theorem importTree_of_legal (hc : c ≠ 6) (h0 : n ≠ 0) (hn : n ≤ 272) (hm : m ≤ 32) (ht : tree.legal n m)
    (hbr : d.br = b.seek (8 * o)) (hh : b.holdsAt src (8 * o) tree.bits) :
    ∃ e, importTree src c n m d = .ok (o + (tree.bits.length + 7) / 8) e ∧
      TreeImported b c tree.lens (o + (tree.bits.length + 7) / 8) d e := by
  obtain ⟨h11, hmeta, htoks, hlen, hvalid⟩ := ht
  have hnum := d.forTree_numcodes c m hn
  have hmax := d.forTree_maxbits c n hm
  have hsize : ((d.forTree c n m).ctx c).numcodes.toNat ≤ Config.maxCodes := by rw [hnum]; exact hn
  have hbits : ((d.forTree c n m).ctx c).maxbits.toNat ≤ 32 := by rw [hmax]; exact hm
  obtain ⟨d0, r, hread⟩ := treeRead_of_holdsAt (src := src) hc hsize hbits ⟨h11, hmeta, htoks⟩
    (by rw [hmax]; exact (lengthsValid_iff.1 hvalid).1) (by rw [hnum, hlen])
    (by rw [Decoder.forTree_br, hbr]; exact (b.holdsAt_seek src _ _ _).2 hh)
  obtain ⟨e, he, hebr, hlens⟩ := (hread.full (by rw [hnum, hlen])).1 (by rw [hmax]; exact hvalid)
  obtain ⟨hframe, -, hok, -⟩ := importRle_spec src c (d.forTree c n m) hc hsize hbits
  obtain ⟨hset, hbuilt⟩ := hok e he
  rw [he, Res.state_ok] at hframe
  obtain ⟨-, hothers, hkeeps⟩ := hframe
  have hprev := hkeeps.prev
  have hrun := hkeeps.run
  rw [Decoder.ctx_forTree_self] at hprev hrun
  have hnum' : (e.ctx c).numcodes.toNat = n := by rw [hkeeps.numcodes, hnum]
  rw [Decoder.forTree_br, hbr, BitReader.advance_seek] at hebr
  refine ⟨e.setReader e.br.flush.2, ?_, ?_, ⟨⟨?_, ?_, ?_, fun _ => ⟨?_, hbuilt⟩⟩, hset, hlens, hprev, hrun⟩,
    fun c' h h' => ?_⟩
  · rw [importTree_eq, he, Res.andThen_of_ok, hebr, BitReader.flush_fst, BitReader.seek_pos, ceil8_mul_add]
  · rw [Decoder.setReader_br, hebr, BitReader.flush_seek, ceil8_mul_add]
  · rw [Decoder.ctx_setReader, hnum']; exact hn
  · rw [Decoder.ctx_setReader, hkeeps.maxbits]; exact hbits
  · rw [Decoder.ctx_setReader, hrun]; exact Nat.zero_le _
  · exact fun hzero => h0 (hnum'.symm.trans (congrArg BitVec.toNat hzero))
  · exact (hothers c' h h').trans (d.ctx_setCtx_of_ne _ h)

end

/-! ## A stream that is no tree (41_huffman R134) -/

theorem Token.value_le {tok : Token} (h : tok.fits = true) {prev : Nat} (hp : prev ≤ 8) : tok.value prev ≤ 8 := by
  cases tok with
  | literal m => exact of_decide_eq_true h
  | small f => exact hp
  | large hi lo => exact hp

/-- Tokens convey no length above 8. -/
theorem expandTokens_le {toks : List Token} (h : ∀ tok ∈ toks, tok.fits = true) {prev : Nat} (hp : prev ≤ 8) :
    ∀ v ∈ expandTokens prev toks, v ≤ 8 := by
  induction toks generalizing prev with
  | nil => exact fun v hv => absurd hv List.not_mem_nil
  | cons tok rest ih =>
    obtain ⟨htok, hrest⟩ := List.forall_mem_cons.1 h
    have hval := Token.value_le htok hp
    rw [expandTokens_cons, List.forall_mem_append]
    exact ⟨fun v hv => List.eq_of_mem_replicate hv ▸ hval, ih hrest hval⟩

theorem RleTree.lens_le {t : RleTree} (h : t.readable) : ∀ v ∈ t.lens, v ≤ 8 := by
  obtain ⟨-, -, htoks⟩ := h
  exact expandTokens_le (fun tok ht => (htoks tok ht).1) (Nat.zero_le 8)

section
variable {src : Memory} {b : BitReader} {c : Fin 7} {n k : Nat} {d : Decoder}

/-- A readable tree that is not longer than the alphabet leads the import to the point behind it. -/
theorem treeRead_of_readable {t : RleTree} (hc : c ≠ 6) (hn : (d.ctx c).numcodes.toNat = n) (hsize : n ≤ 272)
    (hm : (d.ctx c).maxbits.toNat = 8) (hbr : d.br = b.seek k) (ht : t.readable) (hlen : t.lens.length ≤ n)
    (hh : b.holdsAt src k t.bits) : ∃ d0 r, TreeRead src c d t d0 r :=
  treeRead_of_holdsAt hc (by rw [hn]; exact hsize) (by rw [hm]; decide) ht (by rw [hm]; exact RleTree.lens_le ht)
    (by rw [hn]; exact hlen) (by rw [hbr]; exact (b.holdsAt_seek src _ _ _).2 hh)

/-- Each of the reasons of 41_huffman R134 makes the import fail. -/
theorem BadTree.importRle (h : BadTree b src k n) (hc : c ≠ 6) (hn : (d.ctx c).numcodes.toNat = n) (hsize : n ≤ 272)
    (hm : (d.ctx c).maxbits.toNat = 8) (hbr : d.br = b.seek k) : ∃ e, importRle src c d = .raised .invalidData e := by
  cases h with
  | invalidMeta metaLens hl hv hs hk =>
    exact (importRle_of_metaLens hc (by rw [hn]; exact hsize) (by rw [hm]; decide) hl hv
      (by rw [hbr]; exact (b.holdsAt_seek src _ _ _).2 hs)).2 hk
  | noMetaWord t ht hlt hs hu =>
    obtain ⟨d0, r, hread⟩ := treeRead_of_readable hc hn hsize hm hbr ht hlt.le hs
    refine hread.raised (hread.reaches.unmatched hread.start (by rwa [hread.keeps.numcodes, hn]) ?_)
    intro u hu11 hu0 hmatch
    rw [hread.holdsAt_iff, hbr] at hmatch
    exact hu u hu11 hu0 ((b.holdsAt_seek src _ _ _).1 hmatch)
  | longRun t tok ht hlt hf hcode hr hs =>
    rw [List.append_assoc, BitReader.holdsAt_append] at hs
    obtain ⟨htree, htok⟩ := hs
    obtain ⟨d0, r, hread⟩ := treeRead_of_readable hc hn hsize hm hbr ht hlt.le htree
    refine hread.raised_of_token ⟨hf, hcode⟩ (by rwa [hn]) (by rw [hbr]; exact (b.holdsAt_seek src _ _ _).2 htok)
      (.inr ?_)
    rw [length_expandTokens, List.map_append, List.sum_append, ← length_expandTokens 0] at hr
    simpa [hn, RleTree.lens] using hr
  | overKraft t ht hlen hs hk =>
    obtain ⟨d0, r, hread⟩ := treeRead_of_readable hc hn hsize hm hbr ht hlen.le hs
    exact (hread.full (by rw [hn, hlen])).2 (by rw [hm]; exact hk)

theorem importTree_of_badTree (hc : c ≠ 6) (hn : n ≤ 272) (hbr : d.br = b.seek k) (h : BadTree b src k n) :
    ∃ e, importTree src c n 8 d = .raised .invalidData e := by
  obtain ⟨e, he⟩ := h.importRle hc (d.forTree_numcodes c 8 hn) hn (d.forTree_maxbits c n (by decide)) hbr
  exact ⟨e, by rw [importTree_eq, he, Res.andThen_of_raised]⟩

end

/-- The meta code of an empty region: eleven lengths 0 (30_encoding R87). -/
def emptyTree : RleTree := { metaLens := List.replicate 11 0, tokens := [] }

theorem emptyTree_bits : emptyTree.bits = List.replicate 44 false := by decide

theorem BitReader.streamBit_of_empty {b : BitReader} (h : b.len = 0) (src : Memory) (k : Nat) :
    b.streamBit src k = false := by
  simp [BitReader.streamBit, h]

/-- An empty region is no tree: it reads as a meta code without any word. -/
theorem badTree_of_empty {b : BitReader} (h : b.len = 0) (src : Memory) (k : Nat) {n : Nat} (hn : 0 < n) :
    BadTree b src k n := by
  refine .noMetaWord emptyTree (by decide) hn ?_ fun u _ hu => ?_
  · rw [emptyTree_bits, BitReader.holdsAt, List.length_replicate, BitReader.streamBits]
    simp only [BitReader.streamBit_of_empty h]
    rfl
  · refine absurd ?_ hu
    rcases getD_mem_or (ls := emptyTree.metaLens) u with hmem | hzero
    · exact List.eq_of_mem_replicate hmem
    · exact hzero

/-! ## Both audio trees -/

theorem audioTrees_of_outside {src : Memory} {t n : Nat} (d : Decoder) (h : src.size < t + n) :
    audioTrees src t n d = .raised .readError d := by
  rw [audioTrees, if_neg (by simpa using h)]

section
variable {s : State} {hi : RleTree}

/-- AVH_AUDIO_TREES on a region inside `SRC` (44_avhuff R190). -/
theorem audioTrees_of_inside (h : s.opA 0 + s.opA 1 ≤ s.src.size) :
    audioTrees s.src (s.opA 0) (s.opA 1) s.dec =
      (importTree s.src 1 256 8 (s.dec.setReader (s.region.seek 0))).andThen fun _ d =>
        (importTree s.src 2 256 8 d).andThen fun off d =>
          if d.br.streamBad off (s.opA 1) then .raised .invalidData d else .ok () d := by
  rw [audioTrees, if_pos (by simpa using h), State.attach_region]
  rfl

/-- A legal first tree is imported into context 1. -/
theorem importTree_high (ht : hi.legal 256 8) (hh : s.region.holdsAt s.src 0 hi.bits) :
    ∃ e, importTree s.src 1 256 8 (s.dec.setReader (s.region.seek 0)) = .ok ((hi.bits.length + 7) / 8) e ∧
      TreeImported s.region 1 hi.lens ((hi.bits.length + 7) / 8) (s.dec.setReader (s.region.seek 0)) e := by
  have h := importTree_of_legal (o := 0) (c := 1) (d := s.dec.setReader (s.region.seek 0)) (by decide) (by decide)
    (by decide) (by decide) ht rfl hh
  rwa [Nat.zero_add] at h

theorem audioTrees_of_badHigh (h : s.opA 0 + s.opA 1 ≤ s.src.size) (hbad : BadTree s.region s.src 0 256) :
    ∃ e, audioTrees s.src (s.opA 0) (s.opA 1) s.dec = .raised .invalidData e := by
  obtain ⟨e, he⟩ := importTree_of_badTree (c := 1) (d := s.dec.setReader (s.region.seek 0)) (by decide) (by decide) rfl
    hbad
  exact ⟨e, by rw [audioTrees_of_inside h, he, Res.andThen_of_raised]⟩

theorem audioTrees_of_badLow (h : s.opA 0 + s.opA 1 ≤ s.src.size) (ht : hi.legal 256 8)
    (hh : s.region.holdsAt s.src 0 hi.bits) (hbad : BadTree s.region s.src (8 * ((hi.bits.length + 7) / 8)) 256) :
    ∃ e, audioTrees s.src (s.opA 0) (s.opA 1) s.dec = .raised .invalidData e := by
  obtain ⟨e, he, himp⟩ := importTree_high ht hh
  obtain ⟨f, hf⟩ := importTree_of_badTree (c := 2) (by decide) (by decide) himp.reader hbad
  exact ⟨f, by rw [audioTrees_of_inside h, he, Res.andThen_of_ok, hf, Res.andThen_of_raised]⟩

end

/-- AVH_AUDIO_TREES raises what its procedure raises. -/
theorem raises_avhAudioTrees {s : State} (hs : s.running) {k : ErrorKind}
    (h : ∃ e, audioTrees s.src (s.opA 0) (s.opA 1) s.dec = .raised k e) : raises .avhAudioTrees s k := by
  obtain ⟨e, he⟩ := h
  exact (runsEngine_avhAudioTrees hs).raises_of_raised (e := { s.engine with dec := e })
    (by rw [Engine.lift, State.engine_dec, he])

/-- Settles O45: both imports succeed, one after the other; the byte they end at decides. -/
theorem audioTreesImportsBothTrees : Obligations.AudioTreesImportsBothTrees := by
  refine ⟨rfl, fun s hs => ⟨fun hout => raises_avhAudioTrees hs ⟨_, audioTrees_of_outside s.dec hout⟩, ?_⟩⟩
  rintro hi lo off1 off2 hin hhi hlo rfl rfl hhigh hlow
  obtain ⟨e, he, himp1⟩ := importTree_high hhi hhigh
  obtain ⟨f, hf, himp2⟩ := importTree_of_legal (c := 2) (by decide) (by decide) (by decide) (by decide) hlo
    himp1.reader hlow
  have hrun := audioTrees_of_inside hin
  rw [he, Res.andThen_of_ok, hf, Res.andThen_of_ok, BitReader.streamBad, himp2.reader, BitReader.seek_ovf,
    State.region_len] at hrun
  refine ⟨fun hne => raises_avhAudioTrees hs ⟨f, ?_⟩, fun heq => ⟨f, ?_, ?_, ?_⟩⟩
  · rw [hrun, if_pos (by simp [hne])]
  · rw [heq, if_neg (by simp)] at hrun
    exact (runsEngine_avhAudioTrees hs).exec_of_ok (Engine.lift_of_ok hrun)
  · rw [himp2.reader, heq, State.seek_region (Nat.le_refl _)]
  · have hkeep : f.ctx 1 = e.ctx 1 := himp2.others 1 (by decide) (by decide)
    obtain ⟨hwf1, hvalid1, hlens1, hprev1, hrun1⟩ := himp1.fresh
    obtain ⟨hwf2, hvalid2, hlens2, hprev2, hrun2⟩ := himp2.fresh
    rw [hkeep]
    refine ⟨hwf1, hvalid1, hlens1, hprev1, hrun1, hwf2, hvalid2, hlens2, hprev2, hrun2, fun c hc => ?_⟩
    simp only [List.mem_cons, List.not_mem_nil, or_false, not_or] at hc
    obtain ⟨hc1, hc2, hc6⟩ := hc
    exact (himp2.others c hc2 hc6).trans (himp1.others c hc1 hc6)

/-- Settles O53: an empty region is no tree, and a tree that fails to import, the first or the second, makes the command
fail. -/
theorem audioTreesRejectsBadTrees : Obligations.AudioTreesRejectsBadTrees := by
  rintro s b hs hin rfl
  refine ⟨fun hzero => ?_, fun hbad => ?_, fun hi hlegal hh hbad => ?_⟩
  · have hlen : s.region.len = 0 := BitVec.eq_of_toNat_eq hzero
    exact raises_avhAudioTrees hs (audioTrees_of_badHigh hin (badTree_of_empty hlen s.src 0 (by decide)))
  · exact raises_avhAudioTrees hs (audioTrees_of_badHigh hin hbad)
  · exact raises_avhAudioTrees hs (audioTrees_of_badLow hin hlegal hh hbad)

end Sys2Proof.Machine
end

section
/-! PROOFS. The statements about AVH_VIDEO (44_avhuff R200, R201). The three video contexts show the predictor and the run of
the three planes of a script (`Engine.ShowsPlanes`); decoding one sample is one move of a plane (`videoSample_of_play`), so
the pixel pairs, rows and trees of a stream lead the procedure to the planes and the bytes of the script, and a sample
without a code word makes it fail there. -/

namespace Sys2Proof.Machine

/-! ## A context as a plane -/

/-- The context decodes the code of `ls` and has the predictor and the run of the plane `p`. -/
structure Context.Shows (x : Context) (ls : List Nat) (p : Plane) : Prop where
  wf : x.wf
  valid : x.valid = true
  lens : x.lens = ls
  prev : x.prev = p.prev
  run : x.run.toNat = p.run

theorem Context.Fresh.shows {x : Context} {ls : List Nat} (h : x.Fresh ls) : x.Shows ls ⟨0, 0⟩ :=
  ⟨h.wf, h.valid, h.lens, h.prev, by rw [h.run]; rfl⟩

theorem Context.Shows.run_eq_zero_iff {x : Context} {ls : List Nat} {p : Plane} (h : x.Shows ls p) :
    x.run = 0 ↔ p.run = 0 := by
  rw [← h.run]
  exact ⟨fun h0 => by rw [h0]; rfl, fun h0 => BitVec.eq_of_toNat_eq h0⟩

/-- Another predictor and run, for another plane. -/
theorem Context.Shows.replay {x : Context} {ls : List Nat} {p : Plane} (h : x.Shows ls p) (v : Byte) {r : BitVec 12}
    {n : Nat} (hr : r.toNat = n) (hn : n ≤ 2047) : Context.Shows { x with prev := v, run := r } ls ⟨v, n⟩ :=
  ⟨Context.wf_replay h.wf v (hr ▸ hn), h.valid, h.lens, rfl, hr⟩

/-- The three ways a plane moves on: inside a run, by a delta, by an escape (42_huffman_rle R151). -/
theorem Plane.play_cases {p q : Plane} {o : Option Nat} {v : Byte} (h : p.play o = some (v, q)) :
    (o = none ∧ p.run ≠ 0 ∧ v = p.prev ∧ q = ⟨p.prev, p.run - 1⟩) ∨
      (∃ u, o = some u ∧ p.run = 0 ∧ u < 256 ∧ v = p.prev + BitVec.ofNat 8 u ∧ q = ⟨p.prev + BitVec.ofNat 8 u, 0⟩) ∨
      (∃ code, o = some (256 + code) ∧ p.run = 0 ∧ v = p.prev ∧ q = ⟨p.prev, rleCount code - 1⟩) := by
  cases o with
  | none =>
    rw [Plane.play, Option.ite_none_left_eq_some, Option.some.injEq, Prod.mk.injEq] at h
    obtain ⟨hrun, rfl, rfl⟩ := h
    exact .inl ⟨rfl, hrun, rfl, rfl⟩
  | some u =>
    rw [Plane.play, Option.ite_none_left_eq_some, not_not] at h
    obtain ⟨hrun, h⟩ := h
    by_cases hu : u < 256
    · rw [if_pos hu, Option.some.injEq, Prod.mk.injEq] at h
      obtain ⟨rfl, rfl⟩ := h
      exact .inr (.inl ⟨u, rfl, hrun, hu, rfl, rfl⟩)
    · obtain ⟨code, rfl⟩ := Nat.exists_eq_add_of_le (Nat.not_lt.1 hu)
      rw [if_neg hu, Option.some.injEq, Prod.mk.injEq, Nat.add_sub_cancel_left] at h
      obtain ⟨rfl, rfl⟩ := h
      exact .inr (.inr ⟨code, rfl, hrun, rfl, rfl⟩)

/-- `RleDecodeOne` went from `d` to `d'` in context `c`: the reader is at bit `k`, the context shows the plane `q`. -/
structure PlaneMoved (b : BitReader) (c : Fin 7) (ls : List Nat) (k : Nat) (q : Plane) (d d' : Decoder) : Prop where
  reader : d'.br = b.seek k
  shows : (d'.ctx c).Shows ls q
  others : ∀ c', c' ≠ c → d'.ctx c' = d.ctx c'

section
variable {src : Memory} {b : BitReader} {c : Fin 7} {k : Nat} {d : Decoder} {ls : List Nat} {p q : Plane}

/-- Inside a run one sample takes nothing from the stream (42_huffman_rle R151). -/
theorem rleDecodeOne_in_run (hx : (d.ctx c).Shows ls p) (hbr : d.br = b.seek k) (hrun : p.run ≠ 0) :
    ∃ d', rleDecodeOne src c d = .ok p.prev d' ∧ PlaneMoved b c ls k ⟨p.prev, p.run - 1⟩ d d' := by
  have hne : (d.ctx c).run ≠ 0 := fun h0 => hrun (hx.run_eq_zero_iff.1 h0)
  have hpred : ((d.ctx c).run - 1).toNat = p.run - 1 := by
    rw [← hx.run]
    bv_omega
  obtain ⟨-, -, hle, -⟩ := hx.wf
  refine ⟨d.setRun c ((d.ctx c).run - 1), by rw [rleDecodeOne_of_run hne, hx.prev], hbr, ?_,
    fun c' hc' => d.ctx_setCtx_of_ne _ hc'⟩
  rw [Decoder.ctx_setRun_self, ← hx.prev]
  exact hx.replay _ hpred (by rw [← hx.run]; omega)

/-- Outside a run the code word of a delta moves the predictor. -/
theorem rleDecodeOne_at_delta (hx : (d.ctx c).Shows ls p) (hbr : d.br = b.seek k) (hrun : p.run = 0) {u : Nat}
    (h0 : ls.getD u 0 ≠ 0) (hh : b.holdsAt src k (codeWord ls u)) (hlt : u < 256) :
    ∃ d', rleDecodeOne src c d = .ok (p.prev + BitVec.ofNat 8 u) d' ∧
      PlaneMoved b c ls (k + (codeWord ls u).length) ⟨p.prev + BitVec.ofNat 8 u, 0⟩ d d' := by
  have hready := Context.ready_of_wf hx.wf hx.valid
  rw [← hx.lens] at h0 hh
  have hnum := hready.lt_numcodes h0
  have hone := rleDecodeOne_of_delta (src := src) hx.wf hx.valid (hx.run_eq_zero_iff.2 hrun) hnum
    (by rwa [← (d.ctx c).getD_lens hnum]) (by rw [hbr]; exact (b.holdsAt_seek src _ _ _).2 hh) hlt
  rw [← hready.length_codeWord h0, hx.lens, hx.prev] at hone
  refine ⟨_, hone, ?_, ?_, fun c' hc' => Decoder.ctx_setCtx_of_ne _ _ hc'⟩
  · rw [Decoder.tookDelta_br, hbr, BitReader.advance_seek]
  · rw [Decoder.ctx_tookDelta_self]
    exact hx.replay _ (hx.run.trans hrun) (Nat.zero_le _)

/-- Outside a run the code word of an escape starts a run, of which this sample is the first. -/
theorem rleDecodeOne_at_escape (hx : (d.ctx c).Shows ls p) (hbr : d.br = b.seek k) (hrun : p.run = 0) {code : Nat}
    (h0 : ls.getD (256 + code) 0 ≠ 0) (hh : b.holdsAt src k (codeWord ls (256 + code))) :
    ∃ d', rleDecodeOne src c d = .ok p.prev d' ∧
      PlaneMoved b c ls (k + (codeWord ls (256 + code)).length) ⟨p.prev, rleCount code - 1⟩ d d' := by
  have hready := Context.ready_of_wf hx.wf hx.valid
  rw [← hx.lens] at h0 hh
  have hnum := hready.lt_numcodes h0
  obtain ⟨hsize, -⟩ := hx.wf
  rw [Config.maxCodes] at hsize
  obtain ⟨hpos, hmax⟩ := rleCount_bounds (code := code) (by omega)
  have hone := rleDecodeOne_of_escape (src := src) hx.wf hx.valid (hx.run_eq_zero_iff.2 hrun) hnum
    (by rwa [← (d.ctx c).getD_lens hnum]) (by rw [hbr]; exact (b.holdsAt_seek src _ _ _).2 hh)
  rw [← hready.length_codeWord h0, hx.lens, hx.prev] at hone
  refine ⟨_, hone, ?_, ?_, fun c' hc' => Decoder.ctx_setCtx_of_ne _ _ hc'⟩
  · rw [hbr, BitReader.advance_seek]; rfl
  · rw [Decoder.ctx_setRun_self, ← hx.prev]
    exact hx.replay _ (Nat.mod_eq_of_lt (by omega)) (by omega)

/-- One sample of a script is one `RleDecodeOne` (42_huffman_rle R151). -/
theorem rleDecodeOne_of_play (hx : (d.ctx c).Shows ls p) (hbr : d.br = b.seek k) {o : Option Nat} {v : Byte}
    (hplay : p.play o = some (v, q)) (hu : usedSymbols ls o.toList) (hh : b.holdsAt src k (scriptBits ls o)) :
    ∃ d', rleDecodeOne src c d = .ok v d' ∧ PlaneMoved b c ls (k + (scriptBits ls o).length) q d d' := by
  rcases Plane.play_cases hplay with
    ⟨rfl, hrun, rfl, rfl⟩ | ⟨u, rfl, hrun, hlt, rfl, rfl⟩ | ⟨code, rfl, hrun, rfl, rfl⟩
  · exact rleDecodeOne_in_run hx hbr hrun
  · exact rleDecodeOne_at_delta hx hbr hrun (hu u (List.mem_singleton_self u)).2 hh hlt
  · exact rleDecodeOne_at_escape hx hbr hrun (hu _ (List.mem_singleton_self _)).2 hh

end

/-! ## The three planes -/

/-- The plane of context `c`: Y is context 3, Cb is 4, Cr is 5 (44_avhuff R200). -/
def Planes.at (p : Planes) : Fin 7 → Plane
  | 3 => p.y
  | 4 => p.cb
  | _ => p.cr

/-- The planes with another one for context `c`. -/
def Planes.put (p : Planes) (c : Fin 7) (q : Plane) : Planes :=
  match c with
  | 3 => { p with y := q }
  | 4 => { p with cb := q }
  | _ => { p with cr := q }

/-- The contexts of the planes. -/
abbrev videoContexts : List (Fin 7) := [3, 4, 5]

theorem Planes.at_put_self (p : Planes) {c : Fin 7} (hc : c ∈ videoContexts) (q : Plane) : (p.put c q).at c = q := by
  fin_cases hc <;> rfl

theorem Planes.at_put_of_ne (p : Planes) {c c' : Fin 7} (hc : c ∈ videoContexts) (hc' : c' ∈ videoContexts) (h : c' ≠ c)
    (q : Plane) : (p.put c q).at c' = p.at c' := by
  fin_cases hc <;> fin_cases hc' <;> simp_all [Planes.at, Planes.put]

/-- The lengths of the three trees by context. -/
def videoLens (ty tcb tcr : List Nat) : Fin 7 → List Nat
  | 3 => ty
  | 4 => tcb
  | _ => tcr

/-- The video contexts show the planes `p` under the trees `ls`, and the reader is at bit `k` of the buffer of `b`. -/
structure Engine.ShowsPlanes (b : BitReader) (ls : Fin 7 → List Nat) (p : Planes) (k : Nat) (e : Engine) : Prop where
  reader : e.dec.br = b.seek k
  shows : ∀ c ∈ videoContexts, (e.dec.ctx c).Shows (ls c) (p.at c)

section
variable {src : Memory} {b : BitReader} {ls : Fin 7 → List Nat} {k : Nat} {p p' : Planes} {e : Engine} {c : Fin 7}

/-- One sample of a script: its byte is written, and the plane of its context has moved on (44_avhuff R200). -/
theorem videoSample_of_play (h : e.ShowsPlanes b ls p k) (hc : c ∈ videoContexts) {o : Option Nat} {v : Byte} {q : Plane}
    (hplay : (p.at c).play o = some (v, q)) (hu : usedSymbols (ls c) o.toList)
    (hh : b.holdsAt src k (scriptBits (ls c) o)) (a : Nat) :
    ∃ e', videoSample src c a e = .ok () e' ∧
      e'.ShowsPlanes b ls (p.put c q) (k + (scriptBits (ls c) o).length) ∧ e'.dst = e.dst.setByte a v := by
  obtain ⟨d', hone, hmoved⟩ := rleDecodeOne_of_play (h.shows c hc) h.reader hplay hu hh
  refine ⟨{ dec := d', dst := e.dst.setByte a v }, by rw [videoSample, Engine.lift_of_ok hone, Res.andThen_of_ok],
    ⟨hmoved.reader, fun c' hc' => ?_⟩, rfl⟩
  by_cases heq : c' = c
  · subst heq
    rw [p.at_put_self hc]
    exact hmoved.shows
  · rw [p.at_put_of_ne hc hc' heq, hmoved.others c' heq]
    exact h.shows c' hc'

/-- A sample outside a run where no code word comes next. -/
theorem videoSample_of_unmatched (h : e.ShowsPlanes b ls p k) (hc : c ∈ videoContexts) (hr : (p.at c).run = 0)
    (hu : b.unmatched src k (ls c)) (a : Nat) : videoSample src c a e = .raised .invalidData e := by
  have hx := h.shows c hc
  have hone := rleDecodeOne_of_unmatched (src := src) (Context.ready_of_wf hx.wf hx.valid) (hx.run_eq_zero_iff.2 hr)
    (by rw [h.reader, hx.lens]; exact (b.unmatched_seek src _ _ _).2 hu)
  rw [videoSample, Engine.lift, hone, Res.andThen_of_raised]

/-! ## Pixel pairs -/

theorem Planes.length_playPair {pc : PairCodes} {bytes : List Byte} (h : p.playPair pc = some (bytes, p')) :
    bytes.length = 4 := by
  simp only [Planes.playPair, Option.bind_eq_some_iff, Option.map_eq_some_iff, Prod.mk.injEq, Prod.exists] at h
  obtain ⟨v1, y, -, v2, cb, -, v3, y', -, v4, cr, -, rfl, -⟩ := h
  rfl

theorem videoPair_of_play (h : e.ShowsPlanes b ls p k) {pc : PairCodes} {bytes : List Byte}
    (hplay : p.playPair pc = some (bytes, p')) (hu : pc.coded (ls 3) (ls 4) (ls 5))
    (hh : b.holdsAt src k (pc.bits (ls 3) (ls 4) (ls 5))) (a : Nat) :
    ∃ e', videoPair src a e = .ok () e' ∧ e'.ShowsPlanes b ls p' (k + (pc.bits (ls 3) (ls 4) (ls 5)).length) ∧
      e'.dst = e.dst.writeBytes a bytes := by
  simp only [Planes.playPair, Option.bind_eq_some_iff, Option.map_eq_some_iff, Prod.mk.injEq, Prod.exists] at hplay
  obtain ⟨v1, y, h1, v2, cb, h2, v3, y', h3, v4, cr, h4, rfl, rfl⟩ := hplay
  obtain ⟨u1, u2, u3, u4⟩ := hu
  simp only [PairCodes.bits, BitReader.holdsAt_append, List.length_append, ← Nat.add_assoc] at hh ⊢
  obtain ⟨⟨⟨s1, s2⟩, s3⟩, s4⟩ := hh
  obtain ⟨e1, r1, i1, d1⟩ := videoSample_of_play (c := 3) h (by decide) h1 u1 s1 a
  obtain ⟨e2, r2, i2, d2⟩ := videoSample_of_play (c := 4) i1 (by decide) h2 u2 s2 (a + 1)
  obtain ⟨e3, r3, i3, d3⟩ := videoSample_of_play (c := 3) i2 (by decide) h3 u3 s3 (a + 2)
  obtain ⟨e4, r4, i4, d4⟩ := videoSample_of_play (c := 5) i3 (by decide) h4 u4 s4 (a + 3)
  refine ⟨e4, ?_, i4, ?_⟩
  · rw [videoPair, r1, Res.andThen_of_ok, r2, Res.andThen_of_ok, r3, Res.andThen_of_ok, r4]
  · rw [d4, d3, d2, d1]
    rfl

/-- A pixel pair with a sample that needs a code word where none comes: the samples before it are decoded. -/
theorem videoPair_of_stuck (h : e.ShowsPlanes b ls p k) (hs : StuckPair b src (ls 3) (ls 4) (ls 5) p k) (a : Nat) :
    ∃ e', videoPair src a e = .raised .invalidData e' := by
  cases hs with
  | y1 hr hu =>
    exact ⟨e, by rw [videoPair, videoSample_of_unmatched h (c := 3) (by decide) hr hu, Res.andThen_of_raised]⟩
  | cb c1 y bits h1 u1 hb hs hr hu =>
    subst hb
    obtain ⟨e1, r1, i1, -⟩ := videoSample_of_play (c := 3) h (by decide) h1 u1 hs a
    exact ⟨e1, by rw [videoPair, r1, Res.andThen_of_ok,
      videoSample_of_unmatched i1 (c := 4) (by decide) hr hu, Res.andThen_of_raised]⟩
  | y2 c1 c2 y cb bits h1 h2 u1 u2 hb hs hr hu =>
    subst hb
    simp only [BitReader.holdsAt_append, List.length_append, ← Nat.add_assoc] at hs hu
    obtain ⟨s1, s2⟩ := hs
    obtain ⟨e1, r1, i1, -⟩ := videoSample_of_play (c := 3) h (by decide) h1 u1 s1 a
    obtain ⟨e2, r2, i2, -⟩ := videoSample_of_play (c := 4) i1 (by decide) h2 u2 s2 (a + 1)
    exact ⟨e2, by rw [videoPair, r1, Res.andThen_of_ok, r2, Res.andThen_of_ok,
      videoSample_of_unmatched i2 (c := 3) (by decide) hr hu, Res.andThen_of_raised]⟩
  | cr c1 c2 c3 y cb y' bits h1 h2 h3 u1 u2 u3 hb hs hr hu =>
    subst hb
    simp only [BitReader.holdsAt_append, List.length_append, ← Nat.add_assoc] at hs hu
    obtain ⟨⟨s1, s2⟩, s3⟩ := hs
    obtain ⟨e1, r1, i1, -⟩ := videoSample_of_play (c := 3) h (by decide) h1 u1 s1 a
    obtain ⟨e2, r2, i2, -⟩ := videoSample_of_play (c := 4) i1 (by decide) h2 u2 s2 (a + 1)
    obtain ⟨e3, r3, i3, -⟩ := videoSample_of_play (c := 3) i2 (by decide) h3 u3 s3 (a + 2)
    exact ⟨e3, by rw [videoPair, r1, Res.andThen_of_ok, r2, Res.andThen_of_ok, r3, Res.andThen_of_ok,
      videoSample_of_unmatched i3 (c := 5) (by decide) hr hu]⟩

/-! ## Rows -/

/-- The pixel pairs of a row, or of its beginning: the procedure goes on behind them. -/
theorem videoPairs_of_play {row : List PairCodes} {bytes : List Byte} (h : e.ShowsPlanes b ls p k)
    (hplay : p.playPairs row = some (bytes, p')) (hu : ∀ pc ∈ row, pc.coded (ls 3) (ls 4) (ls 5))
    (hh : b.holdsAt src k (row.flatMap (PairCodes.bits (ls 3) (ls 4) (ls 5)))) (a : Nat) :
    ∃ e', (∀ n, videoPairs src (row.length + n) a e = videoPairs src n (a + 4 * row.length) e') ∧
      e'.ShowsPlanes b ls p' (k + (row.flatMap (PairCodes.bits (ls 3) (ls 4) (ls 5))).length) ∧
      e'.dst = e.dst.writeBytes a bytes ∧ bytes.length = 4 * row.length := by
  induction row generalizing k p e a bytes with
  | nil =>
    simp only [Planes.playPairs, Option.some.injEq, Prod.mk.injEq] at hplay
    obtain ⟨rfl, rfl⟩ := hplay
    exact ⟨e, fun n => by rw [List.length_nil, Nat.zero_add]; rfl, h, rfl, rfl⟩
  | cons pc row ih =>
    simp only [Planes.playPairs, Option.bind_eq_some_iff, Option.map_eq_some_iff, Prod.mk.injEq, Prod.exists] at hplay
    obtain ⟨first, p1, hfirst, rest, p2, hrest, rfl, rfl⟩ := hplay
    obtain ⟨hu1, hu2⟩ := List.forall_mem_cons.1 hu
    rw [List.flatMap_cons, BitReader.holdsAt_append] at hh
    obtain ⟨e1, r1, i1, d1⟩ := videoPair_of_play h hfirst hu1 hh.1 a
    obtain ⟨e2, r2, i2, d2, hlen⟩ := ih i1 hrest hu2 hh.2 (a + 4)
    have hlen1 := Planes.length_playPair hfirst
    refine ⟨e2, fun n => ?_, ?_, ?_, ?_⟩
    · rw [List.length_cons, Nat.succ_add, videoPairs, r1, Res.andThen_of_ok, r2, Nat.mul_succ, Nat.add_right_comm a 4,
        Nat.add_assoc]
    · rw [List.flatMap_cons, List.length_append, ← Nat.add_assoc]
      exact i2
    · rw [d2, d1, Memory.writeBytes_append, hlen1]
    · rw [List.length_append, hlen1, hlen, List.length_cons]
      omega

/-- The row end cuts every run (44_avhuff R200). -/
theorem Engine.ShowsPlanes.flushRuns (h : e.ShowsPlanes b ls p k) : (flushRuns e).ShowsPlanes b ls p.cut k := by
  refine ⟨h.reader, fun c hc => ?_⟩
  have hx := h.shows c hc
  have hctx : (Machine.flushRuns e).dec.ctx c = { e.dec.ctx c with prev := (p.at c).prev, run := 0 } := by
    rw [← hx.prev]
    fin_cases hc <;> simp [Machine.flushRuns, Decoder.clearRun, Decoder.ctx_setCtx]
  have hcut : p.cut.at c = ⟨(p.at c).prev, 0⟩ := by fin_cases hc <;> rfl
  rw [hctx, hcut]
  exact hx.replay _ rfl (Nat.zero_le _)

/-- Complete rows: the procedure goes on behind them, every run cut. -/
theorem videoRows_of_play {rows : List (List PairCodes)} {bytes : List Byte} {q width y : Nat}
    (h : e.ShowsPlanes b ls p k) (hwidth : width % 2 = 0) (hrows : ∀ row ∈ rows, row.length = width / 2)
    (hplay : p.playRows rows = some (bytes, p')) (hu : ∀ row ∈ rows, ∀ pc ∈ row, pc.coded (ls 3) (ls 4) (ls 5))
    (hh : b.holdsAt src k (rows.flatMap fun row => row.flatMap (PairCodes.bits (ls 3) (ls 4) (ls 5)))) :
    ∃ e', (∀ n, videoRows src q width (rows.length + n) y e = videoRows src q width n (y + rows.length) e') ∧
      e'.ShowsPlanes b ls p' (k + (rows.flatMap fun row => row.flatMap (PairCodes.bits (ls 3) (ls 4) (ls 5))).length) ∧
      e'.dst = e.dst.writeBytes (q + 2 * width * y) bytes ∧ bytes.length = 2 * width * rows.length := by
  induction rows generalizing k p e y bytes with
  | nil =>
    simp only [Planes.playRows, Option.some.injEq, Prod.mk.injEq] at hplay
    obtain ⟨rfl, rfl⟩ := hplay
    exact ⟨e, fun n => by rw [List.length_nil, Nat.zero_add]; rfl, h, rfl, rfl⟩
  | cons row rows ih =>
    simp only [Planes.playRows, Option.bind_eq_some_iff, Option.map_eq_some_iff, Prod.mk.injEq, Prod.exists] at hplay
    obtain ⟨first, p1, hfirst, rest, p2, hrest, rfl, rfl⟩ := hplay
    obtain ⟨hu1, hu2⟩ := List.forall_mem_cons.1 hu
    obtain ⟨hlen1, hlen2⟩ := List.forall_mem_cons.1 hrows
    rw [List.flatMap_cons, BitReader.holdsAt_append] at hh
    obtain ⟨e1, r1, i1, d1, hbytes1⟩ := videoPairs_of_play h hfirst hu1 hh.1 (q + 2 * width * y)
    obtain ⟨e2, r2, i2, d2, hbytes2⟩ := ih (y := y + 1) i1.flushRuns hlen2 hrest hu2 hh.2
    have hrow : first.length = 2 * width := by rw [hbytes1, hlen1]; omega
    refine ⟨e2, fun n => ?_, ?_, ?_, ?_⟩
    · rw [List.length_cons, Nat.succ_add, videoRows, ← hlen1, ← Nat.add_zero row.length, r1, videoPairs,
        Res.andThen_of_ok, r2, Nat.add_right_comm y 1, Nat.add_assoc]
    · rw [List.flatMap_cons, List.length_append, ← Nat.add_assoc]
      exact i2
    · rw [d2, Memory.writeBytes_append, hrow, Nat.mul_succ, ← Nat.add_assoc, ← d1]
      rfl
    · rw [List.length_append, hrow, hbytes2, List.length_cons, Nat.mul_succ, Nat.add_comm]

end

/-! ## The three trees -/

section
variable {src : Memory} {b : BitReader} {d : Decoder} {ty tcb tcr : RleTree} {o1 o2 o3 : Nat}

/-- A legal video tree (30_encoding R106). -/
theorem importTree_video {c : Fin 7} {o : Nat} {tree : RleTree} (hc : c ≠ 6) (ht : tree.legal 272 8)
    (hbr : d.br = b.seek (8 * o)) (hh : b.holdsAt src (8 * o) tree.bits) :
    ∃ e, importTree src c Config.videoNumcodes Config.videoMaxbits d = .ok (o + (tree.bits.length + 7) / 8) e ∧
      TreeImported b c tree.lens (o + (tree.bits.length + 7) / 8) d e :=
  importTree_of_legal hc (by decide) (by decide) (by decide) ht hbr hh

theorem importTree_video_of_badTree {c : Fin 7} {k : Nat} (hc : c ≠ 6) (hbr : d.br = b.seek k)
    (h : BadTree b src k 272) :
    ∃ e, importTree src c Config.videoNumcodes Config.videoMaxbits d = .raised .invalidData e :=
  importTree_of_badTree hc (by decide) hbr h

/-- Three legal trees: the contexts show the planes at the top left, the reader is behind the trees. -/
theorem videoTrees_of_legal (hbr : d.br = b.seek 0) (hty : ty.legal 272 8) (htcb : tcb.legal 272 8)
    (htcr : tcr.legal 272 8) (h1 : b.holdsAt src 0 ty.bits) (ho1 : o1 = (ty.bits.length + 7) / 8)
    (h2 : b.holdsAt src (8 * o1) tcb.bits) (ho2 : o2 = o1 + (tcb.bits.length + 7) / 8)
    (h3 : b.holdsAt src (8 * o2) tcr.bits) (ho3 : o3 = o2 + (tcr.bits.length + 7) / 8) :
    ∃ d', videoTrees src d = .ok () d' ∧
      ∀ m, Engine.ShowsPlanes b (videoLens ty.lens tcb.lens tcr.lens) Planes.start (8 * o3) { dec := d', dst := m } := by
  subst ho3 ho2 ho1
  obtain ⟨e1, r1, i1⟩ := importTree_video (c := 3) (o := 0) (by decide) hty hbr h1
  rw [Nat.zero_add] at r1 i1
  obtain ⟨e2, r2, i2⟩ := importTree_video (c := 4) (by decide) htcb i1.reader h2
  obtain ⟨e3, r3, i3⟩ := importTree_video (c := 5) (by decide) htcr i2.reader h3
  refine ⟨e3, by rw [videoTrees, r1, Res.andThen_of_ok, r2, Res.andThen_of_ok, r3, Res.andThen_of_ok],
    fun m => ⟨i3.reader, fun c hc => ?_⟩⟩
  have hy : e3.ctx 3 = e1.ctx 3 := (i3.others 3 (by decide) (by decide)).trans (i2.others 3 (by decide) (by decide))
  have hcb : e3.ctx 4 = e2.ctx 4 := i3.others 4 (by decide) (by decide)
  fin_cases hc
  · exact (hy ▸ i1.fresh).shows
  · exact (hcb ▸ i2.fresh).shows
  · exact i3.fresh.shows

theorem videoTrees_of_badY (hbr : d.br = b.seek 0) (h : BadTree b src 0 272) :
    ∃ e, videoTrees src d = .raised .invalidData e := by
  obtain ⟨e, r⟩ := importTree_video_of_badTree (c := 3) (by decide) hbr h
  exact ⟨e, by rw [videoTrees, r, Res.andThen_of_raised]⟩

theorem videoTrees_of_badCb (hbr : d.br = b.seek 0) (hty : ty.legal 272 8) (h1 : b.holdsAt src 0 ty.bits)
    (ho1 : o1 = (ty.bits.length + 7) / 8) (h : BadTree b src (8 * o1) 272) :
    ∃ e, videoTrees src d = .raised .invalidData e := by
  subst ho1
  obtain ⟨e1, r1, i1⟩ := importTree_video (c := 3) (o := 0) (by decide) hty hbr h1
  rw [Nat.zero_add] at r1 i1
  obtain ⟨e, r⟩ := importTree_video_of_badTree (c := 4) (by decide) i1.reader h
  exact ⟨e, by rw [videoTrees, r1, Res.andThen_of_ok, r, Res.andThen_of_raised]⟩

theorem videoTrees_of_badCr (hbr : d.br = b.seek 0) (hty : ty.legal 272 8) (h1 : b.holdsAt src 0 ty.bits)
    (ho1 : o1 = (ty.bits.length + 7) / 8) (htcb : tcb.legal 272 8) (h2 : b.holdsAt src (8 * o1) tcb.bits)
    (ho2 : o2 = o1 + (tcb.bits.length + 7) / 8) (h : BadTree b src (8 * o2) 272) :
    ∃ e, videoTrees src d = .raised .invalidData e := by
  subst ho2 ho1
  obtain ⟨e1, r1, i1⟩ := importTree_video (c := 3) (o := 0) (by decide) hty hbr h1
  rw [Nat.zero_add] at r1 i1
  obtain ⟨e2, r2, i2⟩ := importTree_video (c := 4) (by decide) htcb i1.reader h2
  obtain ⟨e, r⟩ := importTree_video_of_badTree (c := 5) (by decide) i2.reader h
  exact ⟨e, by rw [videoTrees, r1, Res.andThen_of_ok, r2, Res.andThen_of_ok, r, Res.andThen_of_raised]⟩

end

/-! ## The procedure -/

/-- The end of `Video`: the reader goes to the next byte, which has to be the end of the stream (44_avhuff R200). -/
def videoEnd (vlen n : Nat) (e : Engine) : Res Engine Nat :=
  if e.dec.br.flush.2.streamBad e.dec.br.flush.1 vlen then
    .raised .invalidData { e with dec := e.dec.setReader e.dec.br.flush.2 }
  else .ok n { e with dec := e.dec.setReader e.dec.br.flush.2 }

theorem videoEnd_of_exact {s : State} {o n v : Nat} {e : Engine} (hbr : e.dec.br = s.region.seek (8 * o + n))
    (h : o + (n + 7) / 8 = s.opA 1) :
    videoEnd (s.opA 1) v e =
      .ok v { e with dec := e.dec.setReader { base := s.a[0], len := s.a[1], pos := 8 * s.opA 1, ovf := false } } := by
  have hflush : e.dec.br.flush = (s.opA 1, s.region.seek (8 * s.opA 1)) := by
    rw [← h, ← ceil8_mul_add, ← BitReader.flush_seek, hbr]
    rfl
  rw [videoEnd, hflush, State.seek_region (Nat.le_refl _), if_neg (by simp [BitReader.streamBad])]

theorem videoEnd_of_wrong {s : State} {o n v : Nat} {e : Engine} (hbr : e.dec.br = s.region.seek (8 * o + n))
    (h : o + (n + 7) / 8 ≠ s.opA 1) :
    videoEnd (s.opA 1) v e = .raised .invalidData { e with dec := e.dec.setReader e.dec.br.flush.2 } := by
  have hoff : e.dec.br.flush.1 = o + (n + 7) / 8 := by
    rw [BitReader.flush_fst, hbr, BitReader.seek_pos, ceil8_mul_add]
  rw [videoEnd, hoff, if_pos (by simp [BitReader.streamBad, h])]

theorem video_of_outside {src : Memory} {p vlen q width height : Nat} {e : Engine}
    (h : src.size < p + vlen ∨ e.dst.size < q + 2 * width * height) :
    video src p vlen q width height e = .raised .readError e := by
  rw [video, if_pos ((bounds_eq_false_iff _ _ _ _ _ _).2 h)]

section
variable {src : Memory} {p vlen q width height : Nat} {e : Engine}

theorem video_of_odd (hsrc : p + vlen ≤ src.size) (hdst : q + 2 * width * height ≤ e.dst.size) (h : width % 2 = 1) :
    video src p vlen q width height e = .raised .invalidData e := by
  rw [video, if_neg (bounds_of_inside hsrc hdst), if_pos h]

theorem video_of_even (hsrc : p + vlen ≤ src.size) (hdst : q + 2 * width * height ≤ e.dst.size) (h : width % 2 = 0) :
    video src p vlen q width height e =
      (Engine.lift { e with dec := e.dec.setReader (videoReader p vlen) } (videoTrees src)).andThen fun _ e =>
        (videoRows src q width height 0 e).andThen fun _ e => videoEnd vlen (2 * width * height) e := by
  rw [video, if_neg (bounds_of_inside hsrc hdst), if_neg (by omega)]
  rfl

end

theorem State.videoReader_region (s : State) : videoReader (s.opA 0) (s.opA 1) = s.region.seek 0 := by
  rw [videoReader, State.attach_region, BitReader.advance_seek]
  rfl

section
variable {s : State} {width height : Nat}

theorem State.videoWidth_eq (h : width = (s.a[3] >>> 16).toNat) : s.videoWidth = width := by
  rw [h, BitVec.toNat_ushiftRight, Nat.shiftRight_eq_div_pow]
  rfl

theorem State.videoHeight_eq (h : height = (s.a[3] &&& 0xFFFF).toNat) : s.videoHeight = height := by
  have hmask : (0xFFFF : Word).toNat = 2 ^ 16 - 1 := rfl
  rw [h, BitVec.toNat_and, hmask, Nat.and_two_pow_sub_one_eq_mod]
  rfl

/-- AVH_VIDEO with its operands named. -/
theorem runsEngine_avhVideo_of (hs : s.running) (hw : width = (s.a[3] >>> 16).toNat)
    (hh : height = (s.a[3] &&& 0xFFFF).toNat) :
    RunsEngine .avhVideo s (video s.src (s.opA 0) (s.opA 1) (s.opA 2) width height)
      fun n t => t.setR 0 (BitVec.ofNat 32 n) := by
  rw [← State.videoWidth_eq hw, ← State.videoHeight_eq hh]
  exact runsEngine_avhVideo hs

/-- Where the trees fail to import the procedure fails. -/
theorem video_of_badTrees (hsrc : s.opA 0 + s.opA 1 ≤ s.src.size) (hdst : s.opA 2 + 2 * width * height ≤ s.dst.size)
    (heven : width % 2 = 0) (h : ∃ d, videoTrees s.src (s.dec.setReader (s.region.seek 0)) = .raised .invalidData d) :
    ∃ e, video s.src (s.opA 0) (s.opA 1) (s.opA 2) width height s.engine = .raised .invalidData e := by
  obtain ⟨d, hd⟩ := h
  refine ⟨{ s.engine with dec := d }, ?_⟩
  rw [video_of_even hsrc hdst heven, State.videoReader_region, State.engine_dec, Engine.lift, hd, Res.andThen_of_raised]

/-- With good trees the procedure is its rows, from the planes at the top left. -/
theorem video_of_trees {ls : Fin 7 → List Nat} {k : Nat} (hsrc : s.opA 0 + s.opA 1 ≤ s.src.size)
    (hdst : s.opA 2 + 2 * width * height ≤ s.dst.size) (heven : width % 2 = 0)
    (h : ∃ d, videoTrees s.src (s.dec.setReader (s.region.seek 0)) = .ok () d ∧
      ∀ m, Engine.ShowsPlanes s.region ls Planes.start k { dec := d, dst := m }) :
    ∃ e, e.ShowsPlanes s.region ls Planes.start k ∧ e.dst = s.dst ∧
      video s.src (s.opA 0) (s.opA 1) (s.opA 2) width height s.engine =
        (videoRows s.src (s.opA 2) width height 0 e).andThen fun _ e => videoEnd (s.opA 1) (2 * width * height) e := by
  obtain ⟨d, hd, hshows⟩ := h
  refine ⟨{ s.engine with dec := d }, hshows _, rfl, ?_⟩
  rw [video_of_even hsrc hdst heven, State.videoReader_region, State.engine_dec, Engine.lift, hd, Res.andThen_of_ok]

end

/-! ## The obligations -/

theorem Planes.cut_eq_of_playRows {p p' : Planes} {rows : List (List PairCodes)} {bytes : List Byte} (hp : p.cut = p)
    (h : p.playRows rows = some (bytes, p')) : p'.cut = p' := by
  induction rows generalizing p bytes with
  | nil =>
    simp only [Planes.playRows, Option.some.injEq, Prod.mk.injEq] at h
    rw [← h.2, hp]
  | cons row rows ih =>
    simp only [Planes.playRows, Option.bind_eq_some_iff, Option.map_eq_some_iff, Prod.mk.injEq, Prod.exists] at h
    obtain ⟨_, p1, -, _, p2, hrest, -, rfl⟩ := h
    exact ih rfl hrest

/-- What a video context is at the end of the rows. -/
theorem Engine.ShowsPlanes.final {b : BitReader} {ls : Fin 7 → List Nat} {p : Planes} {k : Nat} {e : Engine}
    (h : e.ShowsPlanes b ls p k) (hcut : p.cut = p) {c : Fin 7} (hc : c ∈ videoContexts) :
    (e.dec.ctx c).valid = true ∧ (e.dec.ctx c).lens = ls c ∧ (e.dec.ctx c).prev = (p.at c).prev ∧
      (e.dec.ctx c).run = 0 := by
  have hx := h.shows c hc
  refine ⟨hx.valid, hx.lens, hx.prev, hx.run_eq_zero_iff.2 ?_⟩
  rw [← hcut]
  fin_cases hc <;> rfl

/-- Settles O47: the trees put the planes at the top left, the rows lead to the planes and the bytes of the script, and the
reader is at the byte behind them, which is the end of the stream or not. -/
theorem videoWritesTheScriptedRows : Obligations.VideoWritesTheScriptedRows := by
  refine ⟨rfl, fun s width height hs hw hh => ⟨fun hout => ?_, fun hsrc hdst => ⟨fun hodd => ?_, ?_⟩⟩⟩
  · exact (runsEngine_avhVideo_of hs hw hh).raises_of_raised (video_of_outside hout)
  · exact (runsEngine_avhVideo_of hs hw hh).raises_of_raised (video_of_odd hsrc hdst hodd)
  · intro ty tcb tcr o1 o2 o3 rows bits bytes planes heven hty htcb htcr ho1 ho2 ho3 hlen hrows hcoded hplay hbits h1 h2 h3 h4
    subst hbits
    obtain ⟨e1, i1, d1, hrun⟩ := video_of_trees hsrc hdst heven
      (videoTrees_of_legal (b := s.region) rfl hty htcb htcr h1 ho1 h2 ho2 h3 ho3)
    obtain ⟨e2, r2, i2, d2, hbytes⟩ := videoRows_of_play (q := s.opA 2) (y := 0) i1 heven hrows hplay hcoded h4
    have hrows0 := r2 0
    rw [Nat.add_zero, hlen, videoRows] at hrows0
    rw [hrows0, Res.andThen_of_ok] at hrun
    refine ⟨fun hne => ?_, fun heq => ?_⟩
    · exact (runsEngine_avhVideo_of hs hw hh).raises_of_raised (hrun.trans (videoEnd_of_wrong i2.reader hne))
    · have hrun := hrun.trans (videoEnd_of_exact i2.reader heq)
      have hframe := (video_spec s.src (s.opA 0) (s.opA 1) (s.opA 2) width height s.engine).1.runs
      rw [hrun, Res.state_ok] at hframe
      obtain ⟨⟨hothers, -⟩, hsize, -, houtside⟩ := hframe
      have hcut := Planes.cut_eq_of_playRows rfl hplay
      refine ⟨_, _, (runsEngine_avhVideo_of hs hw hh).exec_of_ok hrun, hsize, fun i hi => ?_, houtside, rfl, ?_⟩
      · rw [d2, d1, Nat.mul_zero, Nat.add_zero]
        exact Memory.byte_writeBytes_of_mem _ (by rw [hbytes, hlen]; exact hi) (by omega)
      · obtain ⟨hvy, hly, hpy, hry⟩ := i2.final hcut (c := 3) (by decide)
        obtain ⟨hvcb, hlcb, hpcb, hrcb⟩ := i2.final hcut (c := 4) (by decide)
        obtain ⟨hvcr, hlcr, hpcr, hrcr⟩ := i2.final hcut (c := 5) (by decide)
        exact ⟨hvy, hly, hpy, hry, hvcb, hlcb, hpcb, hrcb, hvcr, hlcr, hpcr, hrcr, hothers⟩

/-- Settles O55: a tree that fails to import makes the procedure fail before its rows; else the complete rows and the
complete pairs of the next row lead to the pair that is stuck. -/
theorem videoRejectsBadStreams : Obligations.VideoRejectsBadStreams := by
  rintro s b width height hs hw hh hsrc hdst heven rfl
  have hraises (h : ∃ e, video s.src (s.opA 0) (s.opA 1) (s.opA 2) width height s.engine = .raised .invalidData e) :
      raises .avhVideo s .invalidData := by
    obtain ⟨e, he⟩ := h
    exact (runsEngine_avhVideo_of hs hw hh).raises_of_raised he
  refine ⟨fun hbad => ?_, fun ty o1 hty h1 ho1 => ⟨fun hbad => ?_, fun tcb o2 htcb h2 ho2 => ⟨fun hbad => ?_, ?_⟩⟩⟩
  · exact hraises (video_of_badTrees hsrc hdst heven (videoTrees_of_badY (b := s.region) rfl hbad))
  · exact hraises (video_of_badTrees hsrc hdst heven (videoTrees_of_badCb (b := s.region) rfl hty h1 ho1 hbad))
  · exact hraises (video_of_badTrees hsrc hdst heven
      (videoTrees_of_badCr (b := s.region) rfl hty h1 ho1 htcb h2 ho2 hbad))
  · intro tcr o3 rows row bits bytes bytes' planes planes' htcr h3 ho3 hlen hrows hrow hcoded hplay hplay' hbits h4 hstuck
    subst hbits
    obtain ⟨hcoded1, hcoded2⟩ := List.forall_mem_cons.1 hcoded
    rw [List.flatMap_append, List.flatMap_singleton] at h4 hstuck
    rw [BitReader.holdsAt_append] at h4
    rw [List.length_append, ← Nat.add_assoc] at hstuck
    obtain ⟨e1, i1, -, hrun⟩ := video_of_trees hsrc hdst heven
      (videoTrees_of_legal (b := s.region) rfl hty htcb htcr h1 ho1 h2 ho2 h3 ho3)
    obtain ⟨e2, r2, i2, -, -⟩ := videoRows_of_play (q := s.opA 2) (y := 0) i1 heven hrows hplay hcoded2 h4.1
    obtain ⟨e3, r3, i3, -, -⟩ := videoPairs_of_play i2 hplay' hcoded1 h4.2 (s.opA 2 + 2 * width * (0 + rows.length))
    obtain ⟨e4, r4⟩ := videoPair_of_stuck i3 hstuck (s.opA 2 + 2 * width * (0 + rows.length) + 4 * row.length)
    obtain ⟨n, hn⟩ : ∃ n, height = rows.length + (n + 1) := ⟨height - rows.length - 1, by omega⟩
    obtain ⟨n', hn'⟩ : ∃ n, width / 2 = row.length + (n + 1) := ⟨width / 2 - row.length - 1, by omega⟩
    have hrows0 := r2 (n + 1)
    rw [← hn, videoRows, hn', r3, videoPairs, r4, Res.andThen_of_raised, Res.andThen_of_raised] at hrows0
    rw [hrows0, Res.andThen_of_raised] at hrun
    exact hraises ⟨_, hrun⟩

end Sys2Proof.Machine
end

section
/-! PROOFS. The statements about AVH_DECODE on its own (44_avhuff R180, R205): the tests and their order, the header and the
metadata of the output, raw audio, and what every successful hunk holds. -/

namespace Sys2Proof.Machine

/-! ## The input header (30_encoding R100) -/

theorem Memory.readBE_one (m : Memory) (a : Nat) : m.readBE a 1 = (m.byte a).toNat := by
  simp [Memory.readBE]

/-- The header that AVH_DECODE reads is the header of the payload. -/
theorem readHeader_of_headerAt {src : Memory} {b : Nat} {h : AvhHeader} (hh : headerAt src b h) : readHeader src b = h := by
  obtain ⟨metasize, channels, samples, width, height, treesize, chsize⟩ := h
  obtain ⟨hmeta, hch, hsamples, hwidth, hheight, htree, hsizes⟩ := hh
  simp only [] at hmeta hch hsamples hwidth hheight htree hsizes
  simp only [readHeader, Memory.readBE_one, ← halfAt_eq_readBE, hmeta, hsamples, hwidth, hheight, htree, hsizes, hch]

theorem length_chsize {src : Memory} {b : Nat} {h : AvhHeader} (hh : headerAt src b h) : h.chsize.length = h.channels := by
  obtain ⟨-, -, -, -, -, -, hsizes⟩ := hh
  rw [hsizes, List.length_map, List.length_range]

/-- Where the audio ends in the output, and the video begins (44_avhuff R181). -/
def AvhHeader.videoStart (h : AvhHeader) : Nat := 12 + h.metasize + 2 * h.channels * h.samples

theorem AvhHeader.outlen_eq (h : AvhHeader) : h.outlen = h.videoStart + 2 * h.width * h.height := rfl

theorem AvhHeader.metadata_le_videoStart (h : AvhHeader) : 12 + h.metasize ≤ h.videoStart := Nat.le_add_right _ _

theorem AvhHeader.videoStart_le_outlen (h : AvhHeader) : h.videoStart ≤ h.outlen := Nat.le_add_right _ _

/-- The audio of all channels ends at the video's start. -/
theorem AvhHeader.audio_end {h : AvhHeader} (hl : h.chsize.length = h.channels) :
    12 + h.metasize + 2 * h.samples * h.chsize.length = h.videoStart := by
  rw [AvhHeader.videoStart, hl, Nat.mul_right_comm]

theorem AvhHeader.regions_end (h : AvhHeader) (b : Nat) :
    b + h.hdr + h.metasize + h.treebytes + h.chsize.sum = b + h.total := by
  rw [AvhHeader.total]
  omega

/-! ## The structural tests (44_avhuff R180) -/

section
variable {s : State} {h : AvhHeader}

theorem avhReject_of_outside (hout : s.src.size < s.opA 0 + s.opA 1 ∨ s.dst.size < s.opA 2) :
    avhReject s.src s.dst (s.opA 0) (s.opA 1) (s.opA 2) h = some .readError := by
  rw [avhReject, if_pos ((bounds_eq_false_iff _ _ _ _ _ _).2 (by rwa [Nat.zero_add]))]

theorem avhReject_of_bad (hsrc : s.opA 0 + s.opA 1 ≤ s.src.size) (hdst : s.opA 2 ≤ s.dst.size)
    (hbad : s.opA 1 < 10 ∨ s.opA 1 < h.hdr ∨ s.opA 1 < h.total ∨ (0 < h.width * h.height ∧ h.width % 2 = 1) ∨
      s.opA 2 < h.outlen) :
    avhReject s.src s.dst (s.opA 0) (s.opA 1) (s.opA 2) h = some .invalidData := by
  rw [avhReject, if_neg (bounds_of_inside hsrc (by rwa [Nat.zero_add]))]
  rcases hbad with hb | hb | hb | hb | hb <;> simp only [hb, gt_iff_lt, and_self, if_true, ite_self]

theorem avhReject_of_fits (hf : hunkFits s h) : avhReject s.src s.dst (s.opA 0) (s.opA 1) (s.opA 2) h = none := by
  obtain ⟨hsrc, hdst, hhdr, htotal, heven, hout⟩ := hf
  have hodd : ¬ (h.width * h.height > 0 ∧ h.width % 2 = 1) := fun ⟨h1, h2⟩ => by
    rw [heven h1] at h2
    exact absurd h2 (by decide)
  rw [avhReject, if_neg (bounds_of_inside hsrc (by rwa [Nat.zero_add])), if_neg (by omega),
    if_neg (by rw [AvhHeader.hdr]; omega), if_neg (by omega), if_neg hodd, if_neg (by omega)]

theorem avhHunk_of_reject {k : ErrorKind} (hh : headerAt s.src (s.opA 0) h)
    (hk : avhReject s.src s.dst (s.opA 0) (s.opA 1) (s.opA 2) h = some k) :
    avhHunk s.src s.flac (s.opA 0) (s.opA 1) (s.opA 2) s.engine = .raised k s.engine := by
  simp only [avhHunk, readHeader_of_headerAt hh, State.engine_dst, hk]

/-- The machine with the output header and the metadata in `DST` (44_avhuff R180). -/
def State.prologue (s : State) (h : AvhHeader) : State := { s with dst := avhPrologue s.src h (s.opA 0 + h.hdr) s.dst }

/-- The audio part of AVH_DECODE, from the machine after the prologue. -/
def State.audioPart (s : State) (h : AvhHeader) : Res Engine (Nat × Nat) :=
  avhAudio s.src s.flac h (s.opA 0 + h.hdr + h.metasize) (12 + h.metasize) (s.prologue h).engine

/-- The video part of AVH_DECODE, from the engine after the audio part. -/
def State.videoPart (s : State) (h : AvhHeader) (e : Engine) : Res Engine Nat :=
  avhVideoPart s.src h (s.opA 0 + s.opA 1) (s.opA 0 + h.total) h.videoStart e

/-- When the tests pass AVH_DECODE is the audio part, the video part and the zero fill (44_avhuff R180). -/
theorem avhHunk_of_fits (hh : headerAt s.src (s.opA 0) h) (hf : hunkFits s h) :
    avhHunk s.src s.flac (s.opA 0) (s.opA 1) (s.opA 2) s.engine =
      (s.audioPart h).andThen fun _ e => (s.videoPart h e).andThen fun _ e =>
        .ok h.outlen { e with dst := zeroFill h.outlen (s.opA 2) e.dst } := by
  have hstart : avhHunk s.src s.flac (s.opA 0) (s.opA 1) (s.opA 2) s.engine =
      (s.audioPart h).andThen fun pq e =>
        (avhVideoPart s.src h (s.opA 0 + s.opA 1) pq.1 pq.2 e).andThen fun q e =>
          .ok q { e with dst := zeroFill q (s.opA 2) e.dst } := by
    simp only [avhHunk, readHeader_of_headerAt hh, State.engine_dst, avhReject_of_fits hf]
    rfl
  rw [hstart]
  cases ha : s.audioPart h with
  | raised k e => rfl
  | ok pq e =>
    have hpq := (avhAudio_spec _ _ _ _ _ _).2 pq e ha
    rw [AvhHeader.regions_end, AvhHeader.audio_end (length_chsize hh)] at hpq
    subst hpq
    rw [Res.andThen_of_ok, Res.andThen_of_ok]
    cases hv : s.videoPart h e with
    | raised k e' => rw [State.videoPart] at hv; rw [hv]; rfl
    | ok q e' =>
      rw [State.videoPart] at hv
      rw [hv, (avhVideoPart_spec _ _ _ _ _ _).2 q e' hv, ← AvhHeader.outlen_eq]
      rfl

/-- AVH_DECODE when its parts succeed. -/
theorem exec_avhDecode_of_parts {pq : Nat × Nat} {q : Nat} {e e' : Engine} (hs : s.running)
    (hh : headerAt s.src (s.opA 0) h) (hf : hunkFits s h) (ha : s.audioPart h = .ok pq e) (hv : s.videoPart h e = .ok q e') :
    exec .avhDecode s = .next { s with
      r := s.r.set 0 (BitVec.ofNat 32 h.outlen), dst := zeroFill h.outlen (s.opA 2) e'.dst, dec := e'.dec } := by
  have hrun := avhHunk_of_fits hh hf
  rw [ha, Res.andThen_of_ok, hv, Res.andThen_of_ok] at hrun
  exact (runsEngine_avhDecode hs).exec_of_ok hrun

theorem raises_avhDecode_of_audio {k : ErrorKind} {e : Engine} (hs : s.running) (hh : headerAt s.src (s.opA 0) h)
    (hf : hunkFits s h) (ha : s.audioPart h = .raised k e) : raises .avhDecode s k := by
  have hrun := avhHunk_of_fits hh hf
  rw [ha, Res.andThen_of_raised] at hrun
  exact (runsEngine_avhDecode hs).raises_of_raised hrun

theorem raises_avhDecode_of_video {pq : Nat × Nat} {k : ErrorKind} {e e' : Engine} (hs : s.running)
    (hh : headerAt s.src (s.opA 0) h) (hf : hunkFits s h) (ha : s.audioPart h = .ok pq e)
    (hv : s.videoPart h e = .raised k e') : raises .avhDecode s k := by
  have hrun := avhHunk_of_fits hh hf
  rw [ha, Res.andThen_of_ok, hv, Res.andThen_of_raised] at hrun
  exact (runsEngine_avhDecode hs).raises_of_raised hrun

theorem State.videoPart_of_noVideo (hv : h.width * h.height = 0) (e : Engine) : s.videoPart h e = .ok h.videoStart e := by
  rw [State.videoPart, avhVideoPart, if_neg (by omega)]

end

/-- Settles O51: the tests come first and change nothing, and error entry keeps the decoder. -/
theorem avhDecodeRejectsBadStructure : Obligations.AvhDecodeRejectsBadStructure := by
  refine fun s h hs hh => ⟨fun hout => ?_, fun hsrc hdst hbad => ?_⟩
  · exact (runsEngine_avhDecode hs).raises_of_raised (avhHunk_of_reject hh (avhReject_of_outside hout))
  · exact (runsEngine_avhDecode hs).exec_of_raised (avhHunk_of_reject hh (avhReject_of_bad hsrc hdst hbad))

/-! ## The start of the output (30_encoding R102, R103) -/

theorem beBytes_one (v : Byte) : beBytes 1 v.toNat = [v] := by
  simp [beBytes]

theorem beBytes_two (m : Memory) (a : Nat) : beBytes 2 (halfAt m a) = [m.byte a, m.byte (a + 1)] := by
  have hhigh : BitVec.ofNat 8 (halfAt m a >>> 8) = m.byte a := by
    apply BitVec.eq_of_toNat_eq
    rw [BitVec.toNat_ofNat, halfAt, Nat.shiftRight_eq_div_pow]
    omega
  have hlow : BitVec.ofNat 8 (halfAt m a >>> 0) = m.byte (a + 1) := by
    apply BitVec.eq_of_toNat_eq
    rw [BitVec.toNat_ofNat, halfAt, Nat.shiftRight_zero]
    omega
  rw [← hhigh, ← hlow]
  rfl

/-- The output header is the four letters and bytes 0 to 7 of the payload (44_avhuff R205). -/
theorem outputBytes_eq {src : Memory} {b : Nat} {h : AvhHeader} (hh : headerAt src b h) :
    h.outputBytes = [0x63, 0x68, 0x61, 0x76] ++ src.readBytes b 8 := by
  obtain ⟨hmeta, hch, hsamples, hwidth, hheight, -, -⟩ := hh
  rw [AvhHeader.outputBytes, hmeta, hch, hsamples, hwidth, hheight]
  simp only [beBytes_one, beBytes_two]
  rfl

section
variable {src m m' : Memory} {b : Nat} {h : AvhHeader}

/-- The prologue writes the start of the hunk. -/
theorem startsHunk_avhPrologue (hh : headerAt src b h) (hm : 12 + h.metasize ≤ m.size) :
    startsHunk src b h (avhPrologue src h (b + h.hdr) m) := by
  have hcopy := Memory.writes_writeBytes (m.writeBytes 0 h.outputBytes) 12 (src.readBytes (b + h.hdr) h.metasize)
  have hlen : h.outputBytes.length = 12 := by rw [outputBytes_eq hh, List.length_append, Memory.length_readBytes]; rfl
  have hhead (i : Nat) (hi : i < 12) : (avhPrologue src h (b + h.hdr) m).byte i = h.outputBytes.getD i 0 := by
    have hbyte := m.byte_writeBytes_of_mem (a := 0) (i := i) (bs := h.outputBytes) (by omega) (by omega)
    rw [Nat.zero_add] at hbyte
    rw [avhPrologue, hcopy.outside i (.inl hi), hbyte]
  rw [outputBytes_eq hh] at hhead
  refine ⟨hhead 0 (by omega), hhead 1 (by omega), hhead 2 (by omega), hhead 3 (by omega), fun i hi => ?_, fun i hi => ?_⟩
  · rw [hhead (4 + i) (by omega), List.getD_append_right _ _ _ _ (Nat.le_add_right 4 i)]
    exact (congrArg (fun j => (src.readBytes b 8).getD j 0) (Nat.add_sub_cancel_left ..)).trans (src.getD_readBytes b hi)
  · rw [avhPrologue, Memory.byte_writeBytes_of_mem _ (by rwa [Memory.length_readBytes])
      (by rw [Memory.size_writeBytes]; omega), src.getD_readBytes _ hi, AvhHeader.hdr, ← Nat.add_assoc]

/-- Writing behind the metadata keeps the start of the hunk. -/
theorem startsHunk_of_writes {lo n : Nat} (hs : startsHunk src b h m) (hw : m.Writes lo n m') (hlo : 12 + h.metasize ≤ lo) :
    startsHunk src b h m' := by
  obtain ⟨h0, h1, h2, h3, hhead, hmeta⟩ := hs
  refine ⟨?_, ?_, ?_, ?_, fun i hi => ?_, fun i hi => ?_⟩
  · rw [hw.outside 0 (by omega), h0]
  · rw [hw.outside 1 (by omega), h1]
  · rw [hw.outside 2 (by omega), h2]
  · rw [hw.outside 3 (by omega), h3]
  · rw [hw.outside (4 + i) (by omega), hhead i hi]
  · rw [hw.outside (12 + i) (by omega), hmeta i hi]

theorem byte_zeroFill {q destlen x : Nat} (hm : destlen ≤ m.size) (hx : q ≤ x) (hd : x < destlen) :
    (zeroFill q destlen m).byte x = 0 := by
  rw [zeroFill, Memory.byte_writeBytes, if_pos (by rw [List.length_replicate]; omega)]
  exact List.getD_replicate _ (by omega)

/-- Outside the filled range the zero fill changes nothing. -/
theorem byte_zeroFill_outside {q destlen x : Nat} (hx : x < q ∨ destlen ≤ x) (hq : q ≤ destlen) :
    (zeroFill q destlen m).byte x = m.byte x :=
  (zeroFill_writes q destlen m).outside x (by omega)

end

/-! ## What every successful hunk holds (44_avhuff R205) -/

section
variable {s : State} {h : AvhHeader}

theorem State.prologue_writes (s : State) (h : AvhHeader) : s.dst.Writes 0 (12 + h.metasize) (s.prologue h).dst :=
  avhPrologue_writes _ _ _ _

theorem State.audioPart_writes (hh : headerAt s.src (s.opA 0) h) :
    (s.prologue h).dst.Writes (12 + h.metasize) (2 * h.channels * h.samples) (s.audioPart h).state.dst := by
  have hw := (avhAudio_spec s.src s.flac h (s.opA 0 + h.hdr + h.metasize) (12 + h.metasize) (s.prologue h).engine).1.runs.dst
  rwa [length_chsize hh, Nat.mul_right_comm] at hw

theorem State.videoPart_writes (s : State) (h : AvhHeader) (e : Engine) :
    e.dst.Writes h.videoStart (2 * h.width * h.height) (s.videoPart h e).state.dst :=
  (avhVideoPart_spec _ _ _ _ _ _).1.runs.dst

/-- A successful AVH_DECODE passed all tests, and both parts succeeded. -/
theorem parts_of_exec_avhDecode {t : State} (hs : s.running) (hh : headerAt s.src (s.opA 0) h)
    (ht : exec .avhDecode s = .next t) (hr : t.running) :
    hunkFits s h ∧ ∃ pq q e e', s.audioPart h = .ok pq e ∧ s.videoPart h e = .ok q e' := by
  have hfails (k : ErrorKind) (hk : raises .avhDecode s k) : False := by
    obtain ⟨u, hu, hst⟩ := hk
    rw [ht, Host.Outcome.next.injEq] at hu
    subst hu
    exact State.not_running_of_stWord hst hr
  have hf : hunkFits s h := by
    cases hrej : avhReject s.src s.dst (s.opA 0) (s.opA 1) (s.opA 2) h with
    | some k => exact (hfails k ((runsEngine_avhDecode hs).raises_of_raised (avhHunk_of_reject hh hrej))).elim
    | none =>
      obtain ⟨hsrc, hdst, -, hhdr, htotal, hodd, hout⟩ := avhReject_none hrej
      rw [Memory.inBounds_iff] at hsrc hdst
      rw [AvhHeader.hdr] at hhdr
      exact ⟨hsrc, by omega, hhdr, htotal, fun hv => by by_contra hne; exact hodd ⟨hv, by omega⟩, hout⟩
  refine ⟨hf, ?_⟩
  cases ha : s.audioPart h with
  | raised k e => exact (hfails k (raises_avhDecode_of_audio hs hh hf ha)).elim
  | ok pq e =>
    cases hv : s.videoPart h e with
    | raised k e' => exact (hfails k (raises_avhDecode_of_video hs hh hf ha hv)).elim
    | ok q e' => exact ⟨pq, q, e, e', rfl, hv⟩

end

/-- Settles O50: the parts write behind the metadata and in front of the zeros, and `outlen` fits `R[0]` because the hunk
size does. -/
theorem avhDecodeOutputProperties : Obligations.AvhDecodeOutputProperties := by
  intro s t h hs hh ht hr
  obtain ⟨hf, pq, q, e, e', ha, hv⟩ := parts_of_exec_avhDecode hs hh ht hr
  have hexec := exec_avhDecode_of_parts hs hh hf ha hv
  rw [ht, Host.Outcome.next.injEq] at hexec
  subst hexec
  obtain ⟨-, hdst, -, -, -, hout⟩ := hf
  have hmeta := h.metadata_le_videoStart
  have hvideo := h.videoStart_le_outlen
  have hwa := State.audioPart_writes hh
  have hwv := s.videoPart_writes h e
  rw [ha, Res.state_ok] at hwa
  rw [hv, Res.state_ok] at hwv
  have hparts : (s.prologue h).dst.Writes (12 + h.metasize) (h.outlen - (12 + h.metasize)) e'.dst :=
    (hwa.mono (Nat.le_refl _) (by rw [AvhHeader.videoStart] at hvideo; omega)).trans
      (hwv.mono hmeta (by rw [AvhHeader.outlen_eq] at hvideo ⊢; omega))
  have hstart : startsHunk s.src (s.opA 0) h (s.prologue h).dst := startsHunk_avhPrologue hh (by omega)
  obtain ⟨h0, h1, h2, h3, hhead, -⟩ :=
    startsHunk_of_writes (startsHunk_of_writes hstart hparts (Nat.le_refl _)) (zeroFill_writes h.outlen (s.opA 2) e'.dst)
      (hmeta.trans hvideo)
  have hsize : e'.dst.size = s.dst.size := hparts.size.trans (s.prologue_writes h).size
  have hlt : h.outlen < 2 ^ 32 := Nat.lt_of_le_of_lt hout (BitVec.isLt _)
  have hres : ((s.r.set 0 (BitVec.ofNat 32 h.outlen))[0]).toNat = h.outlen := by
    rw [Vector.getElem_set_self, BitVec.toNat_ofNat, Nat.mod_eq_of_lt hlt]
  refine ⟨h0, h1, h2, h3, hhead, hres, hres.trans_le hout, fun x hx hd => ?_, fun x hx => ?_⟩
  · rw [hres] at hx
    exact byte_zeroFill (by omega) hx hd
  · rw [byte_zeroFill_outside (.inr hx) hout, hparts.outside x (by omega), (s.prologue_writes h).outside x (by omega)]

end Sys2Proof.Machine
end

section
/-! PROOFS. Channels of known samples written one after another (44_avhuff R180, R181, R199), which raw and FLAC audio
share, and the statement about hunks with raw audio. -/

namespace Sys2Proof.Machine

/-! ## Channels one after another (44_avhuff R181) -/

/-- Write the `n` samples of each channel, the first channel at `q` (44_avhuff R180, R199). -/
def writeChannels (n : Nat) : List (Nat → Half) → Nat → Memory → Memory
  | [], _, m => m
  | r :: rs, q, m => writeChannels n rs (q + 2 * n) (writeSamples r q n 0 m)

theorem writeChannels_writes (n : Nat) (rs : List (Nat → Half)) (q : Nat) (m : Memory) :
    m.Writes q (2 * n * rs.length) (writeChannels n rs q m) := by
  induction rs generalizing q m with
  | nil => exact Memory.Writes.refl _ _ _
  | cons r rs ih =>
    have hlen : 2 * n * (r :: rs).length = 2 * n * rs.length + 2 * n := Nat.mul_succ _ _
    exact ((writeSamples_writes r q n 0 m).mono (by omega) (by omega)).trans ((ih _ _).mono (by omega) (by omega))

/-- Sample `i` of channel `c` stands where the order of the output puts it (44_avhuff R181). -/
theorem halfAt_writeChannels {n : Nat} {rs : List (Nat → Half)} {q c i : Nat} {m : Memory}
    (hm : q + 2 * n * rs.length ≤ m.size) (hc : c < rs.length) (hi : i < n) :
    halfAt (writeChannels n rs q m) (q + 2 * n * c + 2 * i) = (rs.getD c (fun _ => 0) i).toNat := by
  induction rs generalizing c q m with
  | nil => exact absurd hc (Nat.not_lt_zero _)
  | cons r rs ih =>
    have hlen : 2 * n * (r :: rs).length = 2 * n * rs.length + 2 * n := Nat.mul_succ _ _
    have hsize := (writeSamples_writes r q n 0 m).size
    rw [writeChannels]
    cases c with
    | zero =>
      have hlater := (writeChannels_writes n rs (q + 2 * n) (writeSamples r q n 0 m)).halfAt
        (a := q + 2 * i) (.inl (by omega))
      rw [Nat.mul_zero, Nat.add_zero, hlater, halfAt_writeSamples r q (by omega) (Nat.zero_le i) (by omega)]
      rfl
    | succ c =>
      rw [Nat.mul_succ, Nat.add_comm (2 * n * c), ← Nat.add_assoc q]
      exact ih (by rw [hsize]; omega) (Nat.lt_of_succ_lt_succ hc)

/-! ## Raw audio (44_avhuff R192) -/

/-- The samples of raw channels, the first at `p` in `SRC`. -/
def rawChannels (src : Memory) : List Nat → Nat → List (Nat → Half)
  | [], _ => []
  | size :: rest, p => samplesOf (rawDeltas src p) :: rawChannels src rest (p + size)

@[simp] theorem length_rawChannels (src : Memory) (sizes : List Nat) (p : Nat) :
    (rawChannels src sizes p).length = sizes.length := by
  induction sizes generalizing p with
  | nil => rfl
  | cons size rest ih => rw [rawChannels, List.length_cons, ih, List.length_cons]

theorem getD_rawChannels (src : Memory) {sizes : List Nat} {p c : Nat} (hc : c < sizes.length) (r : Nat → Half) :
    (rawChannels src sizes p).getD c r = samplesOf (rawDeltas src (p + (sizes.take c).sum)) := by
  induction sizes generalizing p c with
  | nil => exact absurd hc (Nat.not_lt_zero _)
  | cons size rest ih =>
    cases c with
    | zero => rfl
    | succ c =>
      rw [rawChannels, List.getD_cons_succ, ih (Nat.lt_of_succ_lt_succ hc), List.take_succ_cons, List.sum_cons,
        Nat.add_assoc]

/-- The channel loop over raw channels that are long enough. -/
theorem channelLoop_raw {src : Memory} {n : Nat} {sizes : List Nat} {p q : Nat} {e : Engine}
    (hsrc : p + sizes.sum ≤ src.size) (hdst : q + 2 * n * sizes.length ≤ e.dst.size) (hlong : ∀ size ∈ sizes, 2 * n ≤ size) :
    ∃ pq, channelLoop src true n sizes p q e =
      .ok pq { e with dst := writeChannels n (rawChannels src sizes p) q e.dst } := by
  induction sizes generalizing p q e with
  | nil => exact ⟨_, rfl⟩
  | cons size rest ih =>
    obtain ⟨hsize, hrest⟩ := List.forall_mem_cons.1 hlong
    rw [List.sum_cons] at hsrc
    have hlen : 2 * n * (size :: rest).length = 2 * n * rest.length + 2 * n := Nat.mul_succ _ _
    have hone := audioRaw_of_fits (src := src) (p := p) (size := size) (q := q) (e := e) (by omega) (by omega) hsize
    have hkept := (writeSamples_writes (samplesOf (rawDeltas src p)) q n 0 e.dst).size
    obtain ⟨pq, hloop⟩ := ih (p := p + size) (q := q + 2 * n)
      (e := { e with dst := writeSamples (samplesOf (rawDeltas src p)) q n 0 e.dst }) (by omega)
      (by simp only [hkept]; omega) hrest
    exact ⟨pq, by rw [channelLoop, if_pos rfl, hone, Res.andThen_of_ok, hloop]; rfl⟩

section
variable {s : State} {h : AvhHeader}

theorem hunkFits_regions (hh : headerAt s.src (s.opA 0) h) (hf : hunkFits s h) :
    s.opA 0 + h.hdr + h.metasize + h.treebytes + h.chsize.sum ≤ s.src.size ∧
      12 + h.metasize + 2 * h.samples * h.chsize.length = h.videoStart ∧ h.outlen ≤ s.dst.size := by
  obtain ⟨hsrc, hdst, -, htotal, -, hout⟩ := hf
  rw [AvhHeader.regions_end]
  exact ⟨by omega, AvhHeader.audio_end (length_chsize hh), by omega⟩

@[simp] theorem State.size_prologue (s : State) (h : AvhHeader) : (s.prologue h).dst.size = s.dst.size :=
  (s.prologue_writes h).size

/-- The memory after the audio part when its channels have the samples `rs`. -/
def State.audioDst (s : State) (h : AvhHeader) (rs : List (Nat → Half)) : Memory :=
  writeChannels h.samples rs (12 + h.metasize) (s.prologue h).dst

/-- What the output holds after the audio part: the start of the hunk, every channel's samples, nothing more. -/
theorem audioDst_holds (hh : headerAt s.src (s.opA 0) h) (hf : hunkFits s h) {rs : List (Nat → Half)}
    (hrs : rs.length = h.chsize.length) :
    (s.audioDst h rs).size = s.dst.size ∧ startsHunk s.src (s.opA 0) h (s.audioDst h rs) ∧
      (∀ c < h.channels, ∀ i < h.samples, halfAt (s.audioDst h rs) (12 + h.metasize + 2 * h.samples * c + 2 * i) =
        (rs.getD c (fun _ => 0) i).toNat) ∧
      ∀ x, h.videoStart ≤ x → (s.audioDst h rs).byte x = s.dst.byte x := by
  obtain ⟨-, haudio, hout⟩ := hunkFits_regions hh hf
  have hmeta := h.metadata_le_videoStart
  have hvideo := h.videoStart_le_outlen
  have hw := writeChannels_writes h.samples rs (12 + h.metasize) (s.prologue h).dst
  have hstart : startsHunk s.src (s.opA 0) h (s.prologue h).dst := startsHunk_avhPrologue hh (by omega)
  rw [hrs] at hw
  refine ⟨hw.size.trans (s.size_prologue h), startsHunk_of_writes hstart hw (Nat.le_refl _), fun c hc i hi => ?_,
    fun x hx => ?_⟩
  · exact halfAt_writeChannels (by rw [hrs, s.size_prologue h]; omega) (by rw [hrs, length_chsize hh]; exact hc) hi
  · rw [State.audioDst, hw.outside x (by omega), (s.prologue_writes h).outside x (by omega)]

end

/-- Settles O48: the audio part writes the samples of the raw channels, there is no video part, and neither the reader nor a
context is used. -/
theorem avhDecodeRawHunk : Obligations.AvhDecodeRawHunk := by
  refine ⟨rfl, fun s h hs hh hf htree hv hlong => ?_⟩
  obtain ⟨hsrc, haudio, hout⟩ := hunkFits_regions hh hf
  have hvideo := h.videoStart_le_outlen
  have htreebytes : h.treebytes = 0 := if_pos (.inl htree)
  have hsizes : ∀ size ∈ h.chsize, 2 * h.samples ≤ size := fun size hmem => by
    obtain ⟨c, hc, rfl⟩ := List.getElem_of_mem hmem
    simpa [List.getD, hc] using hlong c (length_chsize hh ▸ hc)
  set rs := rawChannels s.src h.chsize (s.opA 0 + h.hdr + h.metasize) with hrs
  have hpart : ∃ pq, s.audioPart h = .ok pq ⟨s.dec, s.audioDst h rs⟩ := by
    rw [State.audioPart, avhAudio, if_neg (by rw [htree]; decide), if_pos htree]
    exact channelLoop_raw (by omega) (by rw [State.engine_dst, s.size_prologue h]; omega) hsizes
  obtain ⟨pq, ha⟩ := hpart
  obtain ⟨hsize, hstart, hsamples, hrest⟩ := audioDst_holds hh hf (rs := rs) (length_rawChannels _ _ _)
  have hexec := exec_avhDecode_of_parts hs hh hf ha (State.videoPart_of_noVideo hv _)
  have hzero := zeroFill_writes h.outlen (s.opA 2) (s.audioDst h rs)
  obtain ⟨-, hdst, -, -, -, hdest⟩ := hf
  refine ⟨_, hexec, hzero.size.trans hsize, startsHunk_of_writes hstart hzero (by omega), fun c hc i hi => ?_,
    fun x hx hd => byte_zeroFill (hdst.trans_eq hsize.symm) hx hd, fun x hx => ?_⟩
  · have hc' : c < h.chsize.length := by rwa [length_chsize hh]
    have hend : 2 * h.samples * c + 2 * h.samples ≤ 2 * h.samples * h.chsize.length := by
      rw [← Nat.mul_succ]
      exact Nat.mul_le_mul_left _ hc'
    rw [hzero.halfAt (.inl (by omega)), hsamples c hc i hi, hrs, getD_rawChannels s.src hc', samplesOf_toNat,
      AvhHeader.hdr, ← Nat.add_assoc (s.opA 0)]
    rfl
  · exact (byte_zeroFill_outside (.inr hx) hdest).trans (hrest x (by omega))

end Sys2Proof.Machine
end

section
/-! PROOFS. The statements about AVH_DECODE and its parts (44_avhuff R180, R199): each part command runs the procedure that
AVH_DECODE calls, on the same region, so both leave the same decoder and the same `DST`, or both fail (`PartAgrees`). -/

namespace Sys2Proof.Machine

/-! ## A procedure and the part command for it -/

/-- The result `r` of a procedure on memory `src` is what the part commands that ended with `o` did: both succeed, with the
same decoder and the same `DST`, or the procedure raises `InvalidData` and a command failed. -/
def PartAgrees {α : Type} (src : Memory) (r : Res Engine α) (o : Option State) : Prop :=
  match r with
  | .ok _ e => ∃ t, o = some t ∧ t.engine = e ∧ t.src = src ∧ t.running
  | .raised k _ => k = .invalidData ∧ o = none

theorem PartAgrees.bind {α β : Type} {src : Memory} {r : Res Engine α} {f : α → Engine → Res Engine β}
    {o : Option State} {g : State → Option State} (h : PartAgrees src r o)
    (hnext : ∀ a t, r = .ok a t.engine → t.src = src → t.running → PartAgrees src (f a t.engine) (g t)) :
    PartAgrees src (r.andThen f) (o.bind g) := by
  cases r with
  | ok a e =>
    obtain ⟨t, rfl, rfl, hsrc, hrun⟩ := h
    exact hnext a t rfl hsrc hrun
  | raised k e =>
    obtain ⟨rfl, rfl⟩ := h
    exact ⟨rfl, rfl⟩

/-- Another value for the same state changes nothing. -/
theorem PartAgrees.mapValue {α β : Type} {src : Memory} {r : Res Engine α} {o : Option State} (h : PartAgrees src r o)
    (f : α → β) : PartAgrees src (r.andThen fun a e => .ok (f a) e) o := by
  cases r with
  | ok a e => exact h
  | raised k e => exact h

theorem partCommand_of_raises {i : Instr} {a : Vector Word 4} {s : State} {k : ErrorKind}
    (h : raises i { s with a := a } k) : partCommand i a s = none := by
  obtain ⟨t, ht, hst⟩ := h
  rw [Option.eq_none_iff_forall_ne_some]
  intro u hu
  obtain ⟨hexec, hrun⟩ := partCommand_eq_some_iff.1 hu
  rw [ht, Host.Outcome.next.injEq] at hexec
  exact State.not_running_of_stWord hst (hexec ▸ hrun)

/-- A part command runs its procedure, and does no more to the decoder and to `DST`. -/
theorem RunsEngine.partAgrees {α : Type} {i : Instr} {s : State} {a : Vector Word 4} {p : Engine → Res Engine α}
    {done : α → State → State} (h : RunsEngine i { s with a := a } p done) (hs : s.running)
    (hdone : ∀ v t, (done v t).engine = t.engine ∧ (done v t).src = t.src ∧ (done v t).st = t.st)
    (hkind : ∀ k e, p s.engine = .raised k e → k = .invalidData) :
    PartAgrees s.src (p s.engine) (partCommand i a s) := by
  cases hp : p s.engine with
  | ok v e =>
    obtain ⟨hengine, hsrc, hst⟩ := hdone v (({ s with a := a } : State).withEngine e)
    have hrun : (done v (({ s with a := a } : State).withEngine e)).running := by
      rw [State.running, State.err, hst]
      exact hs
    exact ⟨_, partCommand_eq_some_iff.2 ⟨h.exec_of_ok hp, hrun⟩, hengine, hsrc, hrun⟩
  | raised k e =>
    exact ⟨hkind k e hp, partCommand_of_raises (h.raises_of_raised (s := { s with a := a }) hp)⟩

/-! ## The errors of the parts, on regions inside their spaces -/

theorem audioTrees_kind {src : Memory} {t n : Nat} {d d' : Decoder} {k : ErrorKind} (hsrc : t + n ≤ src.size)
    (h : audioTrees src t n d = .raised k d') : k = .invalidData := by
  have himport (c : Fin 7) (hc : c ≠ 6) (e e' : Decoder) (k' : ErrorKind)
      (he : importTree src c Config.audioNumcodes Config.audioMaxbits e = .raised k' e') : k' = .invalidData :=
    (Decoder.runs_importTree src c hc (by decide) (by decide) (by decide) e).2.2 k' e' he
  rw [audioTrees, if_pos (by simpa using hsrc)] at h
  rcases Res.andThen_eq_raised h with h | ⟨o1, d1, -, h⟩
  · exact himport 1 (by decide) _ _ _ h
  · rcases Res.andThen_eq_raised h with h | ⟨o2, d2, -, h⟩
    · exact himport 2 (by decide) _ _ _ h
    · split at h
      · injection h with h
        exact h.symm
      · cases h

section
variable {src : Memory} {p size q n : Nat} {e e' : Engine} {k : ErrorKind}

theorem audioRaw_kind (hsrc : p + size ≤ src.size) (hdst : q + 2 * n ≤ e.dst.size)
    (h : audioRaw src p size q n e = .raised k e') : k = .invalidData := by
  rw [audioRaw, if_neg (bounds_of_inside hsrc hdst)] at h
  split at h
  · injection h with h
    exact h.symm
  · cases h

theorem audioHuf_kind (hsrc : p + size ≤ src.size) (hdst : q + 2 * n ≤ e.dst.size) (h1 : (e.dec.ctx 1).valid = true)
    (h2 : (e.dec.ctx 2).valid = true) (h : audioHuf src p size q n e = .raised k e') : k = .invalidData := by
  rw [audioHuf_of_trees hsrc hdst h1 h2] at h
  rcases Res.andThen_eq_raised h with h | ⟨u, e1, -, h⟩
  · simpa using (audioHufLoop_spec src q n 0 0 _).kind k e' h
  · split at h
    · injection h with h
      exact h.symm
    · cases h

theorem video_kind {vlen width height : Nat} (hsrc : p + vlen ≤ src.size) (hdst : q + 2 * width * height ≤ e.dst.size)
    (h : video src p vlen q width height e = .raised k e') : k = .invalidData := by
  rcases Nat.mod_two_eq_zero_or_one width with heven | hodd
  · rw [video_of_even hsrc hdst heven] at h
    rcases Res.andThen_eq_raised h with h | ⟨u, e1, -, h⟩
    · obtain ⟨d, hd⟩ := Engine.lift_kind h
      exact (videoTrees_spec src _).2 k d hd
    · rcases Res.andThen_eq_raised h with h | ⟨u, e2, -, h⟩
      · simpa using (videoRows_spec src q width height 0 e1).kind k e' h
      · rw [videoEnd] at h
        split at h
        · injection h with h
          exact h.symm
        · cases h
  · rw [video_of_odd hsrc hdst hodd] at h
    injection h with h
    exact h.symm

end

/-! ## The part commands -/

theorem toNat_ofNat_word {n : Nat} (h : n < 2 ^ 32) : (BitVec.ofNat 32 n).toNat = n := Nat.mod_eq_of_lt h

/-- Operands that fit their registers are read back. -/
theorem State.opA_words (s : State) {n0 n1 n2 n3 : Nat} (h0 : n0 < 2 ^ 32) (h1 : n1 < 2 ^ 32) (h2 : n2 < 2 ^ 32)
    (h3 : n3 < 2 ^ 32) :
    let t : State := { s with a := #v[BitVec.ofNat 32 n0, BitVec.ofNat 32 n1, BitVec.ofNat 32 n2, BitVec.ofNat 32 n3] }
    t.opA 0 = n0 ∧ t.opA 1 = n1 ∧ t.opA 2 = n2 ∧ t.opA 3 = n3 :=
  ⟨toNat_ofNat_word h0, toNat_ofNat_word h1, toNat_ofNat_word h2, toNat_ofNat_word h3⟩

/-- The procedure of one channel, raw or Huffman (44_avhuff R180). -/
def audioChannel (raw : Bool) (src : Memory) (p size q n : Nat) (e : Engine) : Res Engine Unit :=
  if raw then audioRaw src p size q n e else audioHuf src p size q n e

/-- The command of one channel. -/
def audioChannelInstr (raw : Bool) : Instr := if raw then .avhAudioChRaw else .avhAudioChHuf

/-- A channel can be decoded: raw always, Huffman with both trees. -/
def Engine.HasTrees (raw : Bool) (e : Engine) : Prop :=
  raw = false → (e.dec.ctx 1).valid = true ∧ (e.dec.ctx 2).valid = true

theorem runsEngine_audioChannel {s : State} (hs : s.running) (raw : Bool) :
    RunsEngine (audioChannelInstr raw) s (audioChannel raw s.src (s.opA 0) (s.opA 1) (s.opA 2) (s.opA 3)) fun _ t => t := by
  cases raw with
  | true => exact runsEngine_avhAudioChRaw hs
  | false => exact runsEngine_avhAudioChHuf hs

section
variable {raw : Bool} {src : Memory} {p size q n : Nat} {e e' : Engine}

theorem audioChannel_kind {k : ErrorKind} (htrees : e.HasTrees raw) (hsrc : p + size ≤ src.size)
    (hdst : q + 2 * n ≤ e.dst.size) (h : audioChannel raw src p size q n e = .raised k e') : k = .invalidData := by
  cases raw with
  | true => exact audioRaw_kind hsrc hdst h
  | false =>
    obtain ⟨h1, h2⟩ := htrees rfl
    exact audioHuf_kind hsrc hdst h1 h2 h

/-- One channel touches no context and keeps the size of `DST`. -/
theorem audioChannel_runs (h : audioChannel raw src p size q n e = .ok () e') : e.Runs src [] q (2 * n) e' := by
  cases raw with
  | true =>
    have hr := (audioRaw_spec src p size q n e).runs
    rwa [show audioRaw src p size q n e = .ok () e' from h, Res.state_ok] at hr
  | false =>
    have hr := (audioHuf_spec src p size q n e).runs
    rwa [show audioHuf src p size q n e = .ok () e' from h, Res.state_ok] at hr

theorem Engine.HasTrees.of_runs {lo m : Nat} (h : e.HasTrees raw) (hr : e.Runs src [] lo m e') : e'.HasTrees raw := by
  intro hraw
  rw [hr.dec.others 1 (by simp), hr.dec.others 2 (by simp)]
  exact h hraw

end

section
variable {s : State}

/-- One AVH_AUDIO_CH command does what `AVH_DECODE` does for the channel. -/
theorem audioChannel_agrees {raw : Bool} {p size q n : Nat} (hs : s.running) (htrees : s.engine.HasTrees raw)
    (hsrc : p + size ≤ s.src.size) (hdst : q + 2 * n ≤ s.dst.size) (hp : p < 2 ^ 32) (hsize : size < 2 ^ 32)
    (hq : q < 2 ^ 32) (hn : n < 2 ^ 32) :
    PartAgrees s.src (audioChannel raw s.src p size q n s.engine)
      (partCommand (audioChannelInstr raw)
        #v[BitVec.ofNat 32 p, BitVec.ofNat 32 size, BitVec.ofNat 32 q, BitVec.ofNat 32 n] s) := by
  have hruns := runsEngine_audioChannel (s := { s with
    a := #v[BitVec.ofNat 32 p, BitVec.ofNat 32 size, BitVec.ofNat 32 q, BitVec.ofNat 32 n] }) hs raw
  obtain ⟨e0, e1, e2, e3⟩ := s.opA_words hp hsize hq hn
  rw [e0, e1, e2, e3] at hruns
  exact hruns.partAgrees hs (fun _ _ => ⟨rfl, rfl, rfl⟩) fun k e h => audioChannel_kind htrees hsrc hdst h

theorem audioTrees_agrees {p n : Nat} (hs : s.running) (hsrc : p + n ≤ s.src.size) (hp : p < 2 ^ 32) (hn : n < 2 ^ 32) :
    PartAgrees s.src (s.engine.lift (audioTrees s.src p n))
      (partCommand .avhAudioTrees #v[BitVec.ofNat 32 p, BitVec.ofNat 32 n, 0, 0] s) := by
  have hruns := runsEngine_avhAudioTrees (s := { s with
    a := #v[BitVec.ofNat 32 p, BitVec.ofNat 32 n, BitVec.ofNat 32 0, BitVec.ofNat 32 0] }) hs
  obtain ⟨e0, e1, -, -⟩ := s.opA_words hp hn (Nat.two_pow_pos 32) (Nat.two_pow_pos 32)
  rw [e0, e1] at hruns
  refine hruns.partAgrees hs (fun _ _ => ⟨rfl, rfl, rfl⟩) fun k e h => ?_
  obtain ⟨d, hd⟩ := Engine.lift_kind h
  exact audioTrees_kind hsrc hd

/-- The AVH_AUDIO_CH commands of all channels do what the channel loop of AVH_DECODE does. -/
theorem channelLoop_agrees {raw : Bool} {n : Nat} {sizes : List Nat} {p q : Nat} (hs : s.running)
    (htrees : s.engine.HasTrees raw) (hsrc : p + sizes.sum ≤ s.src.size) (hdst : q + 2 * n * sizes.length ≤ s.dst.size)
    (hp : ∀ c < sizes.length, p + (sizes.take c).sum < 2 ^ 32) (hsizes : ∀ size ∈ sizes, size < 2 ^ 32)
    (hq : q + 2 * n * sizes.length < 2 ^ 32) (hn : n < 2 ^ 32) :
    PartAgrees s.src (channelLoop s.src raw n sizes p q s.engine)
      (channelParts (audioChannelInstr raw) n sizes p q s) := by
  induction sizes generalizing p q s with
  | nil => exact ⟨s, rfl, rfl, rfl, hs⟩
  | cons size rest ih =>
    obtain ⟨hsize, hrest⟩ := List.forall_mem_cons.1 hsizes
    have hlen : 2 * n * (size :: rest).length = 2 * n * rest.length + 2 * n := Nat.mul_succ _ _
    rw [List.sum_cons] at hsrc
    have hfirst : p < 2 ^ 32 := hp 0 (Nat.zero_lt_succ _)
    rw [channelParts_cons]
    refine (audioChannel_agrees hs htrees (by omega) (by omega) hfirst hsize (by omega) hn).bind fun u t hr hsame hrun => ?_
    have hruns := audioChannel_runs hr
    have hkept : t.dst.size = s.dst.size := hruns.dst.size
    rw [← hsame] at hsrc ⊢
    refine ih hrun (htrees.of_runs hruns) (by omega) (by omega) (fun c hc => ?_) hrest (by omega)
    have hc' := hp (c + 1) (Nat.succ_lt_succ hc)
    rwa [List.take_succ_cons, List.sum_cons, ← Nat.add_assoc] at hc'

theorem audioTrees_hasTrees {p n : Nat} {e e' : Engine} (h : e.lift (audioTrees s.src p n) = .ok () e') (raw : Bool) :
    e'.HasTrees raw ∧ e'.dst = e.dst := by
  rcases e.lift_cases (audioTrees s.src p n) with ⟨v, d, hd, hlift⟩ | ⟨k, d, -, hlift⟩
  · rw [hlift] at h
    injection h with _ h
    subst h
    exact ⟨fun _ => (Decoder.runs_audioTrees s.src p n e.dec).2.1 v d hd, rfl⟩
  · rw [hlift] at h
    cases h

/-- The AVH_VIDEO command, where there is video, does what the video part of AVH_DECODE does. -/
theorem avhVideoPart_agrees {h : AvhHeader} {p vlen q : Nat} (hs : s.running) (hw : h.width < 65536)
    (hh : h.height < 65536) (hsrc : p + vlen ≤ s.src.size) (hdst : q + 2 * h.width * h.height ≤ s.dst.size)
    (hp : 0 < h.width * h.height → p < 2 ^ 32) (hv : vlen < 2 ^ 32) (hq : q < 2 ^ 32) :
    PartAgrees s.src (avhVideoPart s.src h (p + vlen) p q s.engine) (videoPart h p vlen q s) := by
  by_cases hvideo : 0 < h.width * h.height
  · have hruns := runsEngine_avhVideo (s := { s with a := #v[BitVec.ofNat 32 p, BitVec.ofNat 32 vlen, BitVec.ofNat 32 q,
      BitVec.ofNat 32 (65536 * h.width + h.height)] }) hs
    obtain ⟨e0, e1, e2, e3⟩ := s.opA_words (hp hvideo) hv hq (n3 := 65536 * h.width + h.height) (by omega)
    rw [State.videoWidth, State.videoHeight, e0, e1, e2, e3,
      show (65536 * h.width + h.height) / 65536 = h.width by omega,
      show (65536 * h.width + h.height) % 65536 = h.height by omega] at hruns
    rw [avhVideoPart, if_pos hvideo, videoPart, if_pos hvideo, Nat.add_sub_cancel_left]
    exact (hruns.partAgrees hs (fun _ _ => ⟨rfl, rfl, rfl⟩) fun k e h => video_kind hsrc hdst h).mapValue (q + ·)
  · rw [avhVideoPart, if_neg hvideo, videoPart, if_neg hvideo]
    exact ⟨s, rfl, rfl, rfl, hs⟩

end

/-! ## The obligations -/

/-- The fields of a header fit their registers, and so do the offsets of a hunk that fits. -/
structure AvhHeader.InRange (h : AvhHeader) : Prop where
  samples : h.samples < 65536
  width : h.width < 65536
  height : h.height < 65536
  treesize : h.treesize < 65536
  chsize : ∀ size ∈ h.chsize, size < 65536

theorem inRange_of_headerAt {src : Memory} {b : Nat} {h : AvhHeader} (hh : headerAt src b h) : h.InRange := by
  obtain ⟨-, -, hsamples, hwidth, hheight, htree, hsizes⟩ := hh
  refine ⟨hsamples ▸ halfAt_lt _ _, hwidth ▸ halfAt_lt _ _, hheight ▸ halfAt_lt _ _, htree ▸ halfAt_lt _ _,
    fun size hmem => ?_⟩
  rw [hsizes] at hmem
  obtain ⟨c, -, rfl⟩ := List.mem_map.1 hmem
  exact halfAt_lt _ _

section
variable {s : State} {h : AvhHeader}

/-- The audio commands after the prologue do what the audio part of AVH_DECODE does, where there is no FLAC audio. -/
theorem audioPart_agrees (hs : s.running) (hh : headerAt s.src (s.opA 0) h) (hf : hunkFits s h)
    (htree : h.treesize ≠ 0xFFFF) (haddr : partsAddressable (s.opA 0) h) :
    PartAgrees s.src (s.audioPart h)
      (audioParts h (s.opA 0 + h.hdr + h.metasize) (12 + h.metasize) (s.prologue h)) := by
  obtain ⟨hsrc, haudio, hout⟩ := hunkFits_regions hh hf
  have hvideo := h.videoStart_le_outlen
  obtain ⟨-, -, -, -, -, hdestlen⟩ := id hf
  have hdest : h.outlen < 2 ^ 32 := Nat.lt_of_le_of_lt hdestlen (BitVec.isLt _)
  have hsize := s.size_prologue h
  have hlen := length_chsize hh
  obtain ⟨hsamples, -, -, htreelt, hsizes⟩ := inRange_of_headerAt hh
  obtain ⟨htreeaddr, hchaddr, -⟩ := haddr
  have hend : 12 + h.metasize + 2 * h.samples * h.chsize.length ≤ s.dst.size := by omega
  have hend' : 12 + h.metasize + 2 * h.samples * h.chsize.length < 2 ^ 32 := by omega
  have hwords : ∀ size ∈ h.chsize, size < 2 ^ 32 := fun size hmem => (hsizes size hmem).trans (by decide)
  rw [State.audioPart, avhAudio, if_neg htree, audioParts]
  by_cases h0 : h.treesize = 0
  · have hbytes : h.treebytes = 0 := if_pos (.inl h0)
    rw [hbytes] at hsrc hchaddr
    rw [if_pos h0, if_pos h0]
    exact channelLoop_agrees (s := s.prologue h) (raw := true) hs (fun hraw => absurd hraw (by decide)) hsrc
      (hend.trans_eq hsize.symm)
      (fun c hc => hchaddr c (hlen ▸ hc)) hwords hend' (hsamples.trans (by decide))
  · have hbytes : h.treebytes = h.treesize := if_neg (by omega)
    rw [hbytes] at hsrc hchaddr htreeaddr
    rw [if_neg h0, if_neg h0]
    refine (audioTrees_agrees (s := s.prologue h) hs (Nat.le_of_add_right_le hsrc) (htreeaddr h0)
      (htreelt.trans (by decide))).bind
      fun u t hr hsame hrun => ?_
    obtain ⟨htrees, hdst⟩ := audioTrees_hasTrees hr false
    have hdst' : t.dst.size = s.dst.size := (congrArg Memory.size hdst).trans hsize
    have hsame' : t.src = s.src := hsame
    change PartAgrees s.src _ _
    rw [← hsame'] at hsrc ⊢
    exact channelLoop_agrees (raw := false) hrun htrees hsrc (by rwa [hdst'])
      (fun c hc => hchaddr c (hlen ▸ hc)) hwords hend' (hsamples.trans (by decide))

/-- The AVH_VIDEO command in a machine with the payload in `SRC` does what the video part of AVH_DECODE does. -/
theorem videoPart_agrees {t : State} (hh : headerAt s.src (s.opA 0) h) (hf : hunkFits s h) (hsrc : t.src = s.src)
    (hsize : t.dst.size = s.dst.size) (ht : t.running) (haddr : 0 < h.width * h.height → s.opA 0 + h.total < 2 ^ 32) :
    PartAgrees s.src (s.videoPart h t.engine)
      (videoPart h (s.opA 0 + h.total) (s.opA 1 - h.total) h.videoStart t) := by
  obtain ⟨hpayload, hdst, -, htotal, -, hout⟩ := hf
  obtain ⟨-, hwidth, hheight, -, -⟩ := inRange_of_headerAt hh
  have hvideo := h.outlen_eq
  have hdest : h.outlen < 2 ^ 32 := Nat.lt_of_le_of_lt hout (BitVec.isLt _)
  have hlen : s.opA 1 < 2 ^ 32 := BitVec.isLt _
  have hstop : s.opA 0 + s.opA 1 = s.opA 0 + h.total + (s.opA 1 - h.total) := by omega
  rw [State.videoPart, hstop, ← hsrc]
  exact avhVideoPart_agrees ht hwidth hheight (by rw [hsrc]; omega) (by omega) haddr (by omega) (by omega)

end

/-- Settles O49: the audio part and the video part agree with their commands, and AVH_DECODE is both parts and the zero
fill. -/
theorem avhDecodeIsItsParts : Obligations.AvhDecodeIsItsParts := by
  intro s h hs hh hf htree haddr
  have ha := audioPart_agrees hs hh hf htree haddr
  have hwrites := State.audioPart_writes hh
  obtain ⟨-, -, hvideoaddr⟩ := haddr
  cases hr : s.audioPart h with
  | raised k e =>
    rw [hr] at ha
    obtain ⟨rfl, hnone⟩ := ha
    rw [State.prologue] at hnone
    rw [hnone]
    exact raises_avhDecode_of_audio hs hh hf hr
  | ok pq e =>
    rw [hr] at ha hwrites
    obtain ⟨t, hsome, rfl, hsrc, hrun⟩ := ha
    have hv := videoPart_agrees hh hf hsrc (hwrites.size.trans (s.size_prologue h)) hrun hvideoaddr
    rw [State.prologue] at hsome
    rw [hsome, Option.bind_some]
    cases hr' : s.videoPart h t.engine with
    | raised k e =>
      rw [hr'] at hv
      obtain ⟨rfl, hnone⟩ := hv
      rw [AvhHeader.videoStart] at hnone
      rw [hnone]
      exact raises_avhDecode_of_video hs hh hf hr hr'
    | ok q e =>
      rw [hr'] at hv
      obtain ⟨u, hsome', rfl, -, -⟩ := hv
      rw [AvhHeader.videoStart] at hsome'
      rw [hsome']
      exact exec_avhDecode_of_parts hs hh hf hr hr'

/-! ## FLAC audio (44_avhuff R199) -/

section
variable {src : Memory} {n : Nat} {sizes : List Nat} {p q : Nat} {e : Engine}

/-- The loop of `FlacChannels` fails where the collaborator does. -/
theorem flacLoop_of_none (h : flacResults src n sizes p = none) :
    ∃ e', flacLoop src n sizes p q e = .raised .invalidData e' := by
  induction sizes generalizing p q e with
  | nil => cases h
  | cons size rest ih =>
    rw [flacLoop]
    cases hd : Config.flacDec (src.readBytes p size) n with
    | none => exact ⟨e, rfl⟩
    | some r =>
      rw [flacResults, hd, Option.bind_some, Option.map_eq_none_iff] at h
      exact ih h

/-- Where it does not, the loop writes what it returns. -/
theorem flacLoop_of_some {rs : List (Nat → Half)} (h : flacResults src n sizes p = some rs) :
    ∃ pq, flacLoop src n sizes p q e = .ok pq { e with dst := writeChannels n rs q e.dst } := by
  induction sizes generalizing p q e rs with
  | nil =>
    rw [flacResults, Option.some.injEq] at h
    subst h
    exact ⟨_, rfl⟩
  | cons size rest ih =>
    simp only [flacResults, Option.bind_eq_some_iff, Option.map_eq_some_iff] at h
    obtain ⟨r, hd, rs', hrest, rfl⟩ := h
    obtain ⟨pq, hloop⟩ := ih (q := q + 2 * n) (e := { e with dst := writeSamples r q n 0 e.dst }) hrest
    refine ⟨pq, ?_⟩
    rw [flacLoop, hd]
    exact hloop

end

section
variable {s : State} {h : AvhHeader}

theorem audioPart_of_flac (htree : h.treesize = 0xFFFF) :
    s.audioPart h = flacChannels s.src s.flac h.chsize (s.opA 0 + h.hdr + h.metasize) (12 + h.metasize) h.samples
      (s.prologue h).engine := by
  rw [State.audioPart, avhAudio, if_pos htree]

/-- What AVH_DECODE does once its audio part has left the memory `m`, with the video part as its command does it. -/
theorem exec_avhDecode_of_audio {pq : Nat × Nat} {m : Memory} (hs : s.running) (hh : headerAt s.src (s.opA 0) h)
    (hf : hunkFits s h) (ha : s.audioPart h = .ok pq ⟨s.dec, m⟩) (hsize : m.size = s.dst.size)
    (hm : ∀ x, h.videoStart ≤ x → m.byte x = s.dst.byte x)
    (haddr : 0 < h.width * h.height → s.opA 0 + h.total < 2 ^ 32) :
    match videoPart h (s.opA 0 + h.total) (s.opA 1 - h.total) h.videoStart { s with dst := m } with
    | none => raises .avhDecode s .invalidData
    | some t => ∃ m' : Memory, exec .avhDecode s = .next { s with
          r := s.r.set 0 (BitVec.ofNat 32 h.outlen), dst := m', dec := t.dec } ∧ m'.size = s.dst.size ∧
        (∀ x < h.outlen, m'.byte x = t.dst.byte x) ∧ (∀ x, h.outlen ≤ x → x < s.opA 2 → m'.byte x = 0) ∧
        (∀ x, s.opA 2 ≤ x → m'.byte x = s.dst.byte x) := by
  have hv := videoPart_agrees (t := { s with dst := m }) hh hf rfl hsize hs haddr
  have hwrites := s.videoPart_writes h ⟨s.dec, m⟩
  cases hr : s.videoPart h ⟨s.dec, m⟩ with
  | raised k e =>
    rw [show s.videoPart h (State.engine { s with dst := m }) = _ from hr] at hv
    obtain ⟨rfl, hnone⟩ := hv
    rw [hnone]
    exact raises_avhDecode_of_video hs hh hf ha hr
  | ok q e =>
    rw [show s.videoPart h (State.engine { s with dst := m }) = _ from hr] at hv
    rw [hr, Res.state_ok] at hwrites
    obtain ⟨t, hsome, rfl, -, -⟩ := hv
    rw [hsome]
    obtain ⟨-, hdst, -, -, -, hout⟩ := id hf
    have hvideo := h.videoStart_le_outlen
    have hlen := h.outlen_eq
    have hsize' : t.dst.size = s.dst.size := hwrites.size.trans hsize
    refine ⟨_, exec_avhDecode_of_parts hs hh hf ha hr, (zeroFill_writes _ _ _).size.trans hsize', fun x hx => ?_,
      fun x hx hd => byte_zeroFill (hdst.trans_eq hsize'.symm) hx hd, fun x hx => ?_⟩
    · exact byte_zeroFill_outside (.inl hx) hout
    · exact (byte_zeroFill_outside (.inr hx) hout).trans ((hwrites.outside x (.inr (by omega))).trans (hm x (by omega)))

end

/-- Settles O52: the audio part is `FlacChannels`, which writes what the collaborator returns. -/
theorem avhDecodeFlacHunk : Obligations.AvhDecodeFlacHunk := by
  intro s h hs hh hf htree
  have haudio := audioPart_of_flac (s := s) htree
  refine ⟨fun habsent => ?_, fun hpresent haddr => ?_⟩
  · rw [habsent, flacChannels, if_neg (by decide)] at haudio
    exact raises_avhDecode_of_audio hs hh hf haudio
  · rw [hpresent, flacChannels, if_pos rfl] at haudio
    cases hres : flacResults s.src h.samples h.chsize (s.opA 0 + h.hdr + h.metasize) with
    | none =>
      obtain ⟨e, hloop⟩ := flacLoop_of_none hres
      exact raises_avhDecode_of_audio hs hh hf (haudio.trans hloop)
    | some rs =>
      obtain ⟨pq, hloop⟩ := flacLoop_of_some hres
      obtain ⟨hsize, hstart, hsamples, hrest⟩ := audioDst_holds hh hf (length_flacResults hres)
      exact ⟨s.audioDst h rs, hsize, hstart, hsamples, hrest,
        exec_avhDecode_of_audio hs hh hf (haudio.trans hloop) hsize hrest haddr⟩

end Sys2Proof.Machine
end

section
/-! PROOFS. The statements about errors (60_exceptions R210 to R218): what clears the latch, which kinds a command records,
and what error entry keeps. Which kinds a command records is read off the kinds that its procedure raises
(`Res.RaisesOnly`), shape by shape of the commands. -/

namespace Sys2Proof.Machine

/-! ## The latch (60_exceptions R217, R218) -/

/-- Every command but BLK_RESET is gated by the latch. -/
theorem exec_eq_command {i : Instr} (hi : i ≠ .blkReset) : ∃ effect : State → State, ∀ s, exec i s = command s effect := by
  cases i with
  | blkReset => exact absurd rfl hi
  | _ => exact ⟨_, fun _ => rfl⟩

theorem exec_of_latched {i : Instr} {s : State} (hi : i ≠ .blkReset) (hs : ¬ s.running) : exec i s = .next s := by
  obtain ⟨effect, he⟩ := exec_eq_command hi
  rw [he, command_of_latched hs]

/-- The only word of BLK_RESET is 0. -/
theorem eq_zero_of_decode_blkReset {w : Word} (h : decode w = .ok .blkReset) : w = 0 :=
  (decode_eq_ok_iff.1 h).encode_eq.symm

/-- A latched block keeps its status through every word in `CW` but 0, which clears it. -/
theorem issue_st_of_latched {s t : State} (hs : ¬ s.running) (h : issue s = .next t) :
    t.st = s.st ∨ (t.st = 0 ∧ s.cw = 0) := by
  cases hd : decode s.cw with
  | error e =>
    simp only [issue, hd, rejectWord, command_of_latched hs, Host.Outcome.next.injEq] at h
    exact .inl (h ▸ rfl)
  | ok i =>
    simp only [issue, hd] at h
    by_cases hi : i = .blkReset
    · subst hi
      rw [exec_blkReset_eq_next h]
      exact .inr ⟨rfl, eq_zero_of_decode_blkReset hd⟩
    · rw [exec_of_latched hi hs, Host.Outcome.next.injEq] at h
      exact .inl (h ▸ rfl)

@[simp] theorem State.setMemory_st (s : State) (space : Space) (m : Memory) : (s.setMemory space m).st = s.st := by
  cases space <;> rfl

/-- The host's bytes do not reach the status. -/
theorem hostWrite_st {s t : State} {space : Space} {addr : Word} {b : Byte} (h : hostWrite s space addr b = .next t) :
    t.st = s.st := by
  unfold hostWrite at h
  split at h
  · injection h with h
    rw [← h, State.setMemory_st]
  · cases h

/-- Settles O8: of the host's actions only power-on and the word 0 in `CW` reach a latched status. -/
theorem onlyResetClearsTheLatch : Obligations.OnlyResetClearsTheLatch := by
  intro s t h hs
  cases hh : s.host with
  | nil =>
    rw [step_of_idle hh, Host.Outcome.next.injEq] at h
    exact .inl (h ▸ rfl)
  | cons action rest =>
    cases action with
    | writeA i v =>
      rw [step_of_writeA hh, Host.Outcome.next.injEq] at h
      exact .inl (h ▸ rfl)
    | writeCW w =>
      rw [step_of_writeCW hh] at h
      refine (issue_st_of_latched (s := { s with host := rest, cw := w }) hs h).imp_right fun ⟨hst, hw⟩ => ?_
      exact ⟨hst, rest, .inl (congrArg (HostAction.writeCW · :: rest) hw)⟩
    | writeByte space addr b =>
      rw [step_of_writeByte hh] at h
      exact .inl (hostWrite_st (s := { s with host := rest }) h)
    | powerOn =>
      rw [step_of_powerOn hh, Host.Outcome.next.injEq] at h
      exact .inr ⟨h ▸ rfl, rest, .inr rfl⟩

/-! ## Error entry (60_exceptions R216) -/

/-- Settles O16: BLK_RESET never fails; a command that fails records a kind and stays within its frame, and nothing of what
error entry keeps is open in a frame. -/
theorem errorEntryKeepsOperandsAndOtherBytes : Obligations.ErrorEntryKeepsOperandsAndOtherBytes := by
  intro i s t hs h ht
  have hi : i ≠ .blkReset := by
    rintro rfl
    exact ht (exec_blkReset_eq_next h ▸ rfl)
  have hframe := exec_frame hi h
  obtain ⟨hsrc, hsec, hsub, -, -, -⟩ := hframe.keepsSurroundings
  have hst : t.st ≠ s.st := fun e => ht (by rwa [State.running, State.err, e])
  exact ⟨hframe.status.resolve_left hst, hframe.a, hsrc, hsec, hsub, hframe.dst.size, hframe.dst.outside⟩

/-! ## The kinds a procedure raises -/

/-- Whatever the procedure with this result raises is in the list. -/
def Res.RaisesOnly {σ α : Type} (kinds : List ErrorKind) (r : Res σ α) : Prop :=
  ∀ k t, r = .raised k t → k ∈ kinds

section
variable {σ α β : Type} {kinds kinds' : List ErrorKind}

theorem Res.raisesOnly_ok (a : α) (t : σ) : (Res.ok a t).RaisesOnly kinds := nofun

theorem Res.raisesOnly_raised {k : ErrorKind} (hk : k ∈ kinds) (t : σ) :
    (Res.raised k t : Res σ α).RaisesOnly kinds := by
  rintro _ _ ⟨⟩
  exact hk

theorem Res.RaisesOnly.mono {r : Res σ α} (h : r.RaisesOnly kinds) (hk : kinds ⊆ kinds') : r.RaisesOnly kinds' :=
  fun k t ht => hk (h k t ht)

theorem Res.RaisesOnly.andThen {r : Res σ α} {f : α → σ → Res σ β} (h : r.RaisesOnly kinds)
    (hf : ∀ a t, r = .ok a t → (f a t).RaisesOnly kinds) : (r.andThen f).RaisesOnly kinds := by
  intro k u hu
  rcases Res.andThen_eq_raised hu with hr | ⟨a, t, hr, hu⟩
  · exact h k u hr
  · exact hf a t hr k u hu

theorem Res.RaisesOnly.lift {e : Engine} {p : Decoder → Res Decoder α} (h : (p e.dec).RaisesOnly kinds) :
    (e.lift p).RaisesOnly kinds := by
  intro k e' he
  obtain ⟨d, hd⟩ := Engine.lift_kind he
  exact h k d hd

end

/-! ## Imports and decoding -/

theorem buildTable_raisesOnly (c : Fin 7) (d : Decoder) : (buildTable c d).RaisesOnly [.invalidData] := by
  cases hv : lengthsValid (d.ctx c).maxbits.toNat (d.ctx c).lens with
  | true => rw [buildTable_of_valid hv]; exact Res.raisesOnly_ok _ _
  | false => rw [buildTable_of_invalid hv]; exact Res.raisesOnly_raised (by simp) _

theorem importFlat_raisesOnly (src : Memory) (c : Fin 7) (d : Decoder) :
    (importFlat src c d).RaisesOnly [.invalidData] := by
  have hloop : (importFlatLoop src c (d.ctx c).numcodes.toNat 0 (d.setValid c false)).RaisesOnly [.invalidData] :=
    fun k e h => List.mem_singleton.2 ((importFlatLoop_spec src c _ 0 _).2.2 k e h)
  exact hloop.andThen fun _ e _ => buildTable_raisesOnly c e

theorem importRle_raisesOnly (src : Memory) (c : Fin 7) (d : Decoder) : (importRle src c d).RaisesOnly [.invalidData] := by
  have hloop (e : Decoder) : (importRleLoop src c (e.ctx c).numcodes.toNat 0 0 e).RaisesOnly [.invalidData] :=
    fun k e' h => List.mem_singleton.2 ((importRleLoop_spec src c _ 0 0 e).2.2 k e' h)
  exact (importFlat_raisesOnly src 6 _).andThen fun _ e _ => (hloop e).andThen fun _ e' _ => buildTable_raisesOnly c e'

theorem decodeOne_raisesOnly (src : Memory) (c : Fin 7) (d : Decoder) : (decodeOne src c d).RaisesOnly [.invalidData] :=
  fun _ _ h => List.mem_singleton.2 (decodeOne_kind h).1

theorem rleDecodeOne_raisesOnly (src : Memory) (c : Fin 7) (d : Decoder) :
    (rleDecodeOne src c d).RaisesOnly [.invalidData] :=
  fun k d' h => List.mem_singleton.2 ((rleDecodeOne_frame src c d).2 k d' h).1

/-! ## The AVHuff procedures -/

theorem audioTrees_raisesOnly (src : Memory) (p n : Nat) (d : Decoder) :
    (audioTrees src p n d).RaisesOnly [.readError, .invalidData] := by
  intro k d' h
  simpa using (Decoder.runs_audioTrees src p n d).2.2 k d' h

section
variable {src : Memory} {raw : Bool} {n : Nat} {e : Engine}

/-- With both trees there, a Huffman channel does not raise `IllegalCommand` (44_avhuff R194). -/
theorem audioHuf_raisesOnly (h1 : (e.dec.ctx 1).valid = true) (h2 : (e.dec.ctx 2).valid = true) (p size q : Nat) :
    (audioHuf src p size q n e).RaisesOnly [.readError, .invalidData] := by
  by_cases hout : src.size < p + size ∨ e.dst.size < q + 2 * n
  · rw [audioHuf, if_pos ((bounds_eq_false_iff _ _ _ _ _ _).2 hout)]
    exact Res.raisesOnly_raised (by simp) e
  · intro k e' h
    simp [audioHuf_kind (by omega) (by omega) h1 h2 h]

theorem audioChannel_raisesOnly (h : e.HasTrees raw) (p size q : Nat) :
    (audioChannel raw src p size q n e).RaisesOnly [.readError, .invalidData] := by
  cases raw with
  | true => exact (audioRaw_spec src p size q n e).kind
  | false =>
    obtain ⟨h1, h2⟩ := h rfl
    exact audioHuf_raisesOnly h1 h2 p size q

/-- The channels leave the contexts alone, so the trees are there for every one of them. -/
theorem channelLoop_raisesOnly (h : e.HasTrees raw) (sizes : List Nat) (p q : Nat) :
    (channelLoop src raw n sizes p q e).RaisesOnly [.readError, .invalidData] := by
  induction sizes generalizing p q e with
  | nil => exact Res.raisesOnly_ok _ _
  | cons size rest ih =>
    exact (audioChannel_raisesOnly h p size q).andThen fun _ e' he => ih (h.of_runs (audioChannel_runs he)) _ _

end

/-- The audio part imports both trees before it decodes a Huffman channel (44_avhuff R180). -/
theorem avhAudio_raisesOnly (s : State) (present : Bool) (h : AvhHeader) (p q : Nat) (e : Engine) :
    (avhAudio s.src present h p q e).RaisesOnly [.readError, .invalidData, .unsupportedFormat] := by
  unfold avhAudio
  split
  · cases present with
    | true => exact Res.RaisesOnly.mono (flacLoop_spec s.src h.samples h.chsize p q e).1.kind (by simp)
    | false => exact Res.raisesOnly_raised (by simp) e
  · split
    · exact (channelLoop_raisesOnly (raw := true) nofun h.chsize p q).mono (by simp)
    · refine ((audioTrees_raisesOnly s.src p h.treesize e.dec).lift.mono (by simp)).andThen fun _ e' he => ?_
      obtain ⟨htrees, -⟩ := audioTrees_hasTrees he false
      exact (channelLoop_raisesOnly htrees h.chsize _ q).mono (by simp)

theorem avhHunk_raisesOnly (s : State) (present : Bool) (b complen destlen : Nat) (e : Engine) :
    (avhHunk s.src present b complen destlen e).RaisesOnly [.readError, .invalidData, .unsupportedFormat] := by
  unfold avhHunk
  simp only []
  cases hr : avhReject s.src e.dst b complen destlen (readHeader s.src b) with
  | some k =>
    refine Res.raisesOnly_raised ?_ e
    rcases avhReject_kind hr with rfl | rfl <;> simp
  | none =>
    refine (avhAudio_raisesOnly _ _ _ _ _ _).andThen fun pq e1 _ => Res.RaisesOnly.andThen ?_ fun q e2 _ =>
      Res.raisesOnly_ok _ _
    exact Res.RaisesOnly.mono (avhVideoPart_spec s.src _ _ _ _ e1).1.kind (by simp)

/-! ## How a legal command ends (60_exceptions R210, R212) -/

/-- The machine `t` runs, or records a kind of the row of `i` with the operation code of `i` (60_exceptions R212). -/
def EndsAsListed (i : Instr) (t : State) : Prop := t.running ∨ ∃ k ∈ errorKindsOf i, t.st = stWord k i.op

section
variable {i : Instr} {s t : State}

theorem endsAsListed_of_st_eq (hs : s.running) (h : t.st = s.st) : EndsAsListed i t :=
  .inl (by rwa [State.running, State.err, h])

theorem endsAsListed_of_st_eq_stWord {k : ErrorKind} (hk : k ∈ errorKindsOf i) (h : t.st = stWord k i.op) :
    EndsAsListed i t := .inr ⟨k, hk, h⟩

theorem endsAsListed_raise {k : ErrorKind} (hk : k ∈ errorKindsOf i) (u : State) : EndsAsListed i (raise k i.op u) :=
  endsAsListed_of_st_eq_stWord hk (raise_st k i.op u)

theorem endsAsListed_errorEntry {k : ErrorKind} (hk : k ∈ errorKindsOf i) (lo n : Nat) (u : State) :
    EndsAsListed i (errorEntry k i.op lo n u) := endsAsListed_of_st_eq_stWord hk (errorEntry_st k i.op lo n u)

theorem endsAsListed_of_command {f : State → State} (hs : s.running) (h : command s f = .next t)
    (hf : EndsAsListed i (f s)) : EndsAsListed i t := by
  rw [command_of_running hs, Host.Outcome.next.injEq] at h
  exact h ▸ hf

theorem endsAsListed_withContext {c : BitVec 4} {f : Fin 7 → State} (hc : legalContext c = true)
    (hf : ∀ k, EndsAsListed i (f k)) : EndsAsListed i (withContext i.op c s f) := by
  cases hk : contextNumber c with
  | none => rw [contextNumber_eq_none hk] at hc; cases hc
  | some k => simpa [withContext, hk] using hf k

theorem endsAsListed_withBitCount {n : BitVec 6} {f : Nat → State} (hn : legalBitCount n = true)
    (hf : EndsAsListed i (f n.toNat)) : EndsAsListed i (withBitCount i.op n s f) := by
  rwa [withBitCount_of_legal i.op hn]

section
variable {α : Type} {done : α → State → State}

theorem endsAsListed_runDecoder {p : Decoder → Res Decoder α} (hs : s.running)
    (hp : (p s.dec).RaisesOnly (errorKindsOf i)) (hd : ∀ v u, (done v u).st = u.st) :
    EndsAsListed i (runDecoder i.op s p done) := by
  rcases runDecoder_cases i.op s p done with ⟨v, d, -, h⟩ | ⟨k, d, hr, h⟩
  · rw [h]; exact endsAsListed_of_st_eq hs (hd v _)
  · rw [h]; exact endsAsListed_raise (hp k d hr) _

theorem RunsEngine.endsAsListed {p : Engine → Res Engine α} (h : RunsEngine i s p done) (hs : s.running)
    (ht : exec i s = .next t) (hp : (p s.engine).RaisesOnly (errorKindsOf i)) (hd : ∀ v u, (done v u).st = u.st) :
    EndsAsListed i t := by
  cases hr : p s.engine with
  | ok v e =>
    rw [h.exec_of_ok hr, Host.Outcome.next.injEq] at ht
    exact endsAsListed_of_st_eq hs (ht ▸ hd v _)
  | raised k e =>
    obtain ⟨u, hu, hst, -⟩ := h.exec_of_raised hr
    rw [hu, Host.Outcome.next.injEq] at ht
    exact endsAsListed_of_st_eq_stWord (hp k e hr) (ht ▸ hst)

end

/-! ## Every command ends as its row lists -/

theorem execBrInit_endsAsListed (hs : s.running) (h : execBrInit s = .next t) : EndsAsListed .brInit t := by
  refine endsAsListed_of_command hs h ?_
  split
  · exact endsAsListed_of_st_eq hs rfl
  · exact endsAsListed_of_st_eq_stWord (k := .readError) (by decide) rfl

theorem execBrPeek_endsAsListed {n : BitVec 6} (hn : legalBitCount n = true) (hs : s.running)
    (h : execBrPeek n s = .next t) : EndsAsListed (.brPeek n) t :=
  endsAsListed_of_command hs h (endsAsListed_withBitCount (i := .brPeek n) hn (endsAsListed_of_st_eq hs rfl))

theorem execBrRead_endsAsListed {n : BitVec 6} (hn : legalBitCount n = true) (hs : s.running)
    (h : execBrRead n s = .next t) : EndsAsListed (.brRead n) t :=
  endsAsListed_of_command hs h (endsAsListed_withBitCount (i := .brRead n) hn (endsAsListed_of_st_eq hs rfl))

theorem execBrFlush_endsAsListed (hs : s.running) (h : execBrFlush s = .next t) : EndsAsListed .brFlush t := by
  refine endsAsListed_of_command hs h (endsAsListed_of_st_eq hs ?_)
  simp only []
  split <;> rfl

theorem execBrOvf_endsAsListed (hs : s.running) (h : execBrOvf s = .next t) : EndsAsListed .brOvf t :=
  endsAsListed_of_command hs h (endsAsListed_of_st_eq hs rfl)

theorem execHufConfig_endsAsListed {c : BitVec 4} (hc : legalContext c = true) (hs : s.running)
    (h : execHufConfig c s = .next t) : EndsAsListed (.hufConfig c) t := by
  refine endsAsListed_of_command hs h (endsAsListed_withContext (i := .hufConfig c) hc fun k => ?_)
  split
  · exact endsAsListed_raise (i := .hufConfig c) (by simp [errorKindsOf]) s
  · split
    · exact endsAsListed_raise (i := .hufConfig c) (by simp [errorKindsOf]) s
    · exact endsAsListed_of_st_eq hs rfl

/-- Both imports fail on a context that is not configured, and on a stream that is no tree (41_huffman R132, R134). -/
theorem RunsImport.endsAsListed {mk : BitVec 4 → Instr} {p : Memory → Fin 7 → Decoder → Res Decoder Unit}
    {c : BitVec 4} (hrun : RunsImport mk p) (hkinds : errorKindsOf (mk c) = [.invalidData, .illegalCommand])
    (hp : ∀ src k d, (p src k d).RaisesOnly [.invalidData]) (hc : legalContext c = true) (hs : s.running)
    (h : exec (mk c) s = .next t) : EndsAsListed (mk c) t := by
  rw [hrun] at h
  refine endsAsListed_of_command hs h (endsAsListed_withContext hc fun k => ?_)
  split
  · exact endsAsListed_raise (by simp [hkinds]) s
  · exact endsAsListed_runDecoder hs ((hp s.src k s.dec).mono (by simp [hkinds])) fun _ _ => rfl

/-- Both decodes fail on a context without a table, and where no code word matches (41_huffman R136, 42_huffman_rle R152). -/
theorem endsAsListed_decode {α : Type} {valid : Bool} {p : Decoder → Res Decoder α} {done : α → State → State}
    (hs : s.running) (hkinds : errorKindsOf i = [.invalidData, .illegalCommand])
    (hp : (p s.dec).RaisesOnly [.invalidData]) (hd : ∀ v u, (done v u).st = u.st) :
    EndsAsListed i (if valid then runDecoder i.op s p done else raise .illegalCommand i.op s) := by
  split
  · exact endsAsListed_runDecoder hs (hp.mono (by simp [hkinds])) hd
  · exact endsAsListed_raise (by simp [hkinds]) s

theorem execHufDecode_endsAsListed {c : BitVec 4} (hc : legalContext c = true) (hs : s.running)
    (h : execHufDecode c s = .next t) : EndsAsListed (.hufDecode c) t :=
  endsAsListed_of_command hs h <| endsAsListed_withContext (i := .hufDecode c) hc fun k =>
    endsAsListed_decode (i := .hufDecode c) hs rfl (decodeOne_raisesOnly s.src k s.dec) fun _ _ => rfl

theorem execRleDecode_endsAsListed {c : BitVec 4} (hc : legalContext c = true) (hs : s.running)
    (h : execRleDecode c s = .next t) : EndsAsListed (.rleDecode c) t :=
  endsAsListed_of_command hs h <| endsAsListed_withContext (i := .rleDecode c) hc fun k =>
    endsAsListed_decode (i := .rleDecode c) hs rfl (rleDecodeOne_raisesOnly s.src k s.dec) fun _ _ => rfl

theorem execRleFlush_endsAsListed {c : BitVec 4} (hc : legalContext c = true) (hs : s.running)
    (h : execRleFlush c s = .next t) : EndsAsListed (.rleFlush c) t :=
  endsAsListed_of_command hs h <| endsAsListed_withContext (i := .rleFlush c) hc fun _ => endsAsListed_of_st_eq hs rfl

theorem execRleReset_endsAsListed {c : BitVec 4} (hc : legalContext c = true) (hs : s.running)
    (h : execRleReset c s = .next t) : EndsAsListed (.rleReset c) t :=
  endsAsListed_of_command hs h <| endsAsListed_withContext (i := .rleReset c) hc fun _ => endsAsListed_of_st_eq hs rfl

theorem execCdHdr_endsAsListed (hs : s.running) (h : execCdHdr s = .next t) : EndsAsListed .cdHdr t := by
  have hinvalid : EndsAsListed .cdHdr (raise .invalidData 0x40#8 s) := endsAsListed_raise (i := .cdHdr) (by decide) s
  refine endsAsListed_of_command hs h ?_
  simp only []
  split
  · exact endsAsListed_raise (i := .cdHdr) (by decide) s
  · split
    · exact hinvalid
    · split
      · exact hinvalid
      · split
        · exact hinvalid
        · exact endsAsListed_of_st_eq hs rfl

/-- The three commands that write `DST` after one bound test (43_cd_frame R162, R164, R166). -/
theorem endsAsListed_of_boundTest {fits : Bool} {m : Memory} {lo n : Nat} (hs : s.running)
    (hk : .readError ∈ errorKindsOf i) :
    EndsAsListed i (if fits then { s with dst := m } else errorEntry .readError i.op lo n s) := by
  split
  · exact endsAsListed_of_st_eq hs rfl
  · exact endsAsListed_errorEntry hk lo n s

theorem execCdAssemble_endsAsListed (hs : s.running) (h : execCdAssemble s = .next t) : EndsAsListed .cdAssemble t :=
  endsAsListed_of_command hs h (endsAsListed_of_boundTest (i := .cdAssemble) hs (by decide))

theorem execCdSync_endsAsListed (hs : s.running) (h : execCdSync s = .next t) : EndsAsListed .cdSync t :=
  endsAsListed_of_command hs h (endsAsListed_of_boundTest (i := .cdSync) hs (by decide))

theorem execCdEcc_endsAsListed (hs : s.running) (h : execCdEcc s = .next t) : EndsAsListed .cdEcc t :=
  endsAsListed_of_command hs h (endsAsListed_of_boundTest (i := .cdEcc) hs (by decide))

theorem exec_endsAsListed (hi : i.wellFormed = true) (hs : s.running) (h : exec i s = .next t) : EndsAsListed i t := by
  cases i with
  | blkReset => exact .inl (exec_blkReset_eq_next h ▸ rfl)
  | brInit => exact execBrInit_endsAsListed hs h
  | brPeek n => exact execBrPeek_endsAsListed hi hs h
  | brRead n => exact execBrRead_endsAsListed hi hs h
  | brFlush => exact execBrFlush_endsAsListed hs h
  | brOvf => exact execBrOvf_endsAsListed hs h
  | hufConfig c => exact execHufConfig_endsAsListed hi hs h
  | hufImportFlat c => exact runsImport_hufImportFlat.endsAsListed rfl importFlat_raisesOnly hi hs h
  | hufImportRle c => exact runsImport_hufImportRle.endsAsListed rfl importRle_raisesOnly hi hs h
  | hufDecode c => exact execHufDecode_endsAsListed hi hs h
  | rleDecode c => exact execRleDecode_endsAsListed hi hs h
  | rleFlush c => exact execRleFlush_endsAsListed hi hs h
  | rleReset c => exact execRleReset_endsAsListed hi hs h
  | cdHdr => exact execCdHdr_endsAsListed hs h
  | cdAssemble => exact execCdAssemble_endsAsListed hs h
  | cdSync => exact execCdSync_endsAsListed hs h
  | cdEcc => exact execCdEcc_endsAsListed hs h
  | avhDecode =>
    exact (runsEngine_avhDecode hs).endsAsListed hs h (avhHunk_raisesOnly _ _ _ _ _ _) fun _ _ => rfl
  | avhAudioTrees =>
    exact (runsEngine_avhAudioTrees hs).endsAsListed hs h (audioTrees_raisesOnly _ _ _ _).lift fun _ _ => rfl
  | avhAudioChRaw =>
    exact (runsEngine_avhAudioChRaw hs).endsAsListed hs h (audioRaw_spec _ _ _ _ _ _).kind fun _ _ => rfl
  | avhAudioChHuf =>
    exact (runsEngine_avhAudioChHuf hs).endsAsListed hs h (audioHuf_spec _ _ _ _ _ _).kind fun _ _ => rfl
  | avhVideo => exact (runsEngine_avhVideo hs).endsAsListed hs h (video_spec _ _ _ _ _ _ _).1.kind fun _ _ => rfl

end

/-- Settles O15: a command raises what its tests or its procedure raise; AVH_DECODE imports its trees before it decodes
Huffman channels, so it never raises the `IllegalCommand` of AVH_AUDIO_CH. -/
theorem commandsRaiseOnlyTheirListedKinds : Obligations.CommandsRaiseOnlyTheirListedKinds :=
  fun _ _ _ => exec_endsAsListed

end Sys2Proof.Machine
end

section
/-! PROOFS. The statement about BLK_RESET (70 R240): its one word, and the state it leaves. -/

namespace Sys2Proof.Machine

theorem decode_eq_blkReset_iff (w : Word) : decode w = .ok .blkReset ↔ w = 0 :=
  ⟨eq_zero_of_decode_blkReset, fun h => decode_of_encode_eq (i := .blkReset) h.symm rfl⟩

/-- BLK_RESET has no test of the latch. -/
theorem exec_blkReset (s : State) : exec .blkReset s = .next (blockReset s) := rfl

/-- A reset leaves only `LEN` and `CODE` of a context unspecified. -/
theorem Context.control_cleared (k c : Nat) :
    (Context.cleared k c).numcodes = 0 ∧ (Context.cleared k c).maxbits = 0 ∧ (Context.cleared k c).valid = false ∧
      (Context.cleared k c).prev = 0 ∧ (Context.cleared k c).run = 0 :=
  ⟨rfl, rfl, rfl, rfl, rfl⟩

theorem blockReset_ctx (s : State) (c : Fin 7) : (blockReset s).dec.ctx c = Context.cleared s.free c.val := by
  rw [blockReset_dec, ctx_clearedContexts]

/-- Settles O9: the encoder's word of BLK_RESET is 0, and BLK_RESET answers `blockReset` whether or not the block is
latched. -/
theorem blkResetClearsTheBlock : Obligations.BlkResetClearsTheBlock := by
  refine ⟨decode_eq_blkReset_iff, fun s => ⟨blockReset s, exec_blkReset s, blockReset_a s, blockReset_r s, blockReset_st s,
    congrArg Decoder.br (blockReset_dec s), fun c => ?_, blockReset_src s, blockReset_dst s, blockReset_sec s,
    blockReset_sub s⟩⟩
  rw [blockReset_ctx]
  exact Context.control_cleared s.free c.val

end Sys2Proof.Machine
end

section
/-! PROOFS. The statements about the host's side of a step (10_state R21, R23; 20_memory R60; 60_exceptions R217; 70 R241) and
BR_FLUSH (40_bitreader R127): what each host action does to the machine, what a word in `CW` does to a latched block, and
the one equation of BR_FLUSH in a running machine. -/

namespace Sys2Proof.Machine

/-! ## A word in `CW` (10_state R21) -/

theorem issue_of_decode {s : State} {i : Instr} (h : decode s.cw = .ok i) : issue s = exec i s := by
  simp only [issue, h]

/-- The host's write of a word takes the word into `CW` and leaves the host with the actions it had. -/
theorem step_hostIssues (s : State) (w : Word) : step (s.hostIssues w) = issue { s with cw := w } :=
  step_of_writeCW (State.hostIssues_host s w)

/-- A command word has 32 bits, so none is lost on the way to `CW`. -/
theorem State.withFetchWord_word (s : State) (w : Word) : s.withFetchWord 32 w.toNat = s.hostIssues w := by
  rw [State.withFetchWord, Nat.mod_eq_of_lt w.isLt, BitVec.ofNat_toNat, BitVec.setWidth_eq]

/-- Settles O5: a decoded word is run as its command, and the decoder takes the word of a legal command for that command. -/
theorem stepRunsTheIssuedCommand : Obligations.StepRunsTheIssuedCommand := by
  refine ⟨fun s w rest i hhost hdecode => ?_, fun s i hi => ?_⟩
  · rw [step_of_writeCW hhost]
    exact issue_of_decode hdecode
  · rw [State.withFetchWord_word, step_hostIssues]
    exact issue_of_decode (decode_encode hi)

/-! ## The latched block (60_exceptions R217) -/

/-- A latched block does nothing for a word that is not BLK_RESET's: a command is refused by the latch, and so is the
error entry of a word that is no command. -/
theorem issue_of_latched {s : State} (hs : ¬ s.running) (hw : s.cw ≠ 0) : issue s = .next s := by
  cases hd : decode s.cw with
  | error e =>
    simp only [issue, hd]
    exact command_of_latched hs _
  | ok i =>
    have hi : i ≠ .blkReset := by
      rintro rfl
      exact hw (eq_zero_of_decode_blkReset hd)
    rw [issue_of_decode hd, exec_of_latched hi hs]

/-- The word 0 resets the block, whether or not it is latched. -/
theorem issue_of_zero {s : State} (hw : s.cw = 0) : issue s = .next (blockReset s) := by
  rw [issue_of_decode ((decode_eq_blkReset_iff s.cw).2 hw), exec_blkReset]

/-- Settles O7: the word 0 is BLK_RESET's and the only one that the latch does not gate. -/
theorem latchedBlockIgnoresEveryOtherWord : Obligations.LatchedBlockIgnoresEveryOtherWord := by
  intro s w hs
  rw [step_hostIssues]
  refine ⟨fun hw => issue_of_latched (s := { s with cw := w }) hs hw, fun hw => ?_⟩
  exact ⟨_, issue_of_zero (s := { s with cw := w }) hw, blockReset_st _⟩

/-! ## Power-on (70 R241) -/

theorem powerOn_ctx (s : State) (c : Fin 7) : (powerOn s).dec.ctx c = Context.cleared s.free c.val := by
  rw [powerOn_dec, ctx_clearedContexts]

/-- Settles O10: power-on leaves what BLK_RESET leaves and rewrites the bytes of `DST`, not its size. -/
theorem powerOnResetsTheBlock : Obligations.PowerOnResetsTheBlock := by
  refine fun s rest hhost => ⟨_, step_of_powerOn hhost, powerOn_a _, powerOn_r _, powerOn_st _,
    congrArg Decoder.br (powerOn_dec _), fun c => ?_, powerOn_src _, powerOn_sec _, powerOn_sub _,
    Memory.size_unspecify s.dst _ _ _, powerOn_flac _, powerOn_host _⟩
  rw [powerOn_ctx]
  exact Context.control_cleared s.free c.val

/-! ## The host's write of an operand (10_state R23) -/

@[simp] theorem State.opA_setA_same (s : State) (i : Fin 4) (v : Word) : (s.setA i v).opA i = v.toNat := by
  simp [State.opA]

theorem State.opA_setA_of_ne (s : State) {i j : Fin 4} (v : Word) (h : j ≠ i) : (s.setA i v).opA j = s.opA j := by
  have hval : i.val ≠ j.val := fun e => h (Fin.ext e).symm
  simp [State.opA, hval]

/-! ## The host's write of a byte (20_memory R60) -/

@[simp] theorem State.memory_setMemory_same (s : State) (space : Space) (m : Memory) :
    (s.setMemory space m).memory space = m := by
  cases space <;> rfl

theorem State.memory_setMemory_of_ne (s : State) {space other : Space} (m : Memory) (h : other ≠ space) :
    (s.setMemory space m).memory other = s.memory other := by
  cases space <;> cases other <;> trivial

/-- Writing a memory space reaches the four memories only. -/
theorem State.setMemory_rest (s : State) (space : Space) (m : Memory) :
    s.setMemory space m = { s with
      src := (s.setMemory space m).src, dst := (s.setMemory space m).dst
      sec := (s.setMemory space m).sec, sub := (s.setMemory space m).sub } := by
  cases space <;> rfl

theorem hostWrite_inside {s : State} {space : Space} {addr : Word} (b : Byte)
    (h : addr.toNat < (s.memory space).size) :
    hostWrite s space addr b = .next (s.setMemory space ((s.memory space).setByte addr.toNat b)) :=
  if_pos h

theorem hostWrite_outside {s : State} {space : Space} {addr : Word} (b : Byte)
    (h : (s.memory space).size ≤ addr.toNat) : hostWrite s space addr b = .fault .hostOutsideMemory :=
  if_neg (Nat.not_lt.2 h)

/-- Settles O14: an operand write is `setA`, a byte write inside a space is `setByte` in that space, and the step that takes
either leaves the host with its other actions. -/
theorem hostActionsDoWhatTheySay : Obligations.HostActionsDoWhatTheySay := by
  refine fun s => ⟨step_of_idle, fun i v rest hhost => ?_, fun space addr b rest hhost => ⟨fun hin => ?_, fun hout => ?_⟩⟩
  · exact ⟨_, step_of_writeA hhost, State.opA_setA_same _ i v, fun j hj => State.opA_setA_of_ne _ v hj, rfl⟩
  · have hstep := (step_of_writeByte hhost).trans (hostWrite_inside (s := { s with host := rest }) b hin)
    refine ⟨_, hstep, ?_, fun x hx => ?_, fun other ho => State.memory_setMemory_of_ne _ _ ho,
      State.setMemory_rest _ space _⟩
    · rw [State.memory_setMemory_same]
      exact Memory.byte_setByte_same _ b hin
    · rw [State.memory_setMemory_same]
      exact Memory.byte_setByte_of_ne _ b hx
  · rw [step_of_writeByte hhost]
    exact hostWrite_outside (s := { s with host := rest }) b hout

/-! ## BR_FLUSH (40_bitreader R127) -/

/-- The machine after a flush, but for the event counter: the offset reached, or a free value, in `R[0]`. -/
def State.afterFlush (s : State) : State :=
  (s.setReader s.dec.br.flush.2).setR 0 (flushResult (ceil8 s.dec.br.pos) s.free)

/-- The free value of an offset that does not fit `R[0]` is an event (log entry 14). -/
theorem exec_brFlush {s : State} (hs : s.running) : exec .brFlush s =
    .next (if ceil8 s.dec.br.pos < 2 ^ 32 then s.afterFlush else { s.afterFlush with free := s.free + 1 }) := by
  have he : exec .brFlush s = execBrFlush s := rfl
  rw [he, execBrFlush, command_of_running hs]
  rfl

theorem flushResult_of_lt {off : Nat} (h : off < 2 ^ 32) (k : Nat) : flushResult off k = BitVec.ofNat 32 off :=
  if_pos h

/-- Settles O24: only `R[0]` and the event counter depend on whether the offset fits 32 bits. -/
theorem brFlushRoundsUpToAByte : Obligations.BrFlushRoundsUpToAByte := by
  refine ⟨rfl, fun s hs => ⟨fun hfits => ?_, fun hlarge => ?_⟩⟩
  · have hfits' : ceil8 s.dec.br.pos < 2 ^ 32 := hfits
    rw [exec_brFlush hs, if_pos hfits', State.afterFlush, flushResult_of_lt hfits']
    rfl
  · have hlarge' : ¬ ceil8 s.dec.br.pos < 2 ^ 32 := Nat.not_lt.2 hlarge
    refine ⟨_, exec_brFlush hs, ?_⟩
    rw [if_neg hlarge']
    simp [State.afterFlush, State.setR, State.setReader, Decoder.setReader, BitReader.flush, ceil8]

end Sys2Proof.Machine
end
